-- ==== Sys2Proof/Word.lean ====
section
/-! DEFINITION. The word type: every datum the block moves is one byte or one bit (20_memory.md R59, R61). -/

namespace Sys2Proof

/-- An unsigned byte (00_scope.md R12). -/
abbrev Byte := BitVec 8

/-- The bit of a boolean: 1 for true, 0 for false (30_encoding.md R76, "1 if on else 0"). -/
abbrev Byte.ofBit (b : Bool) : Byte := if b then 1#8 else 0#8

end Sys2Proof
end

