-- ==== Sys2Proof/Config.lean ====
section
/-! DEFINITION. The fixed geometry (00_scope.md R9), the open parameters (R10) as a record of plain data,
and the one free value of the model. -/

namespace Sys2Proof

/-- The geometry the source fixes (00_scope.md R9). -/
abbrev nPages : Nat := 8
abbrev nCols : Nat := 128
abbrev nRowsPx : Nat := 64
abbrev chipCols : Nat := 64

/-- SPI command opcodes (00_scope.md R9, 30_encoding.md R71). -/
abbrev expOpWrite : Byte := 0x40#8
abbrev expOpRead : Byte := 0x41#8

/-- The named waits (00_scope.md R10, R11). -/
inductive Wait where
  | tPre | tPost | tRead | tXrstLow | tXrstRecover | tLcdRst | tLcdRecover
deriving DecidableEq, Repr

/-- The transport's bit order and SPI mode (20_memory.md R57). No rule reads it. -/
structure SpiMode where
  msbFirst  : Bool
  clockMode : Fin 4
deriving DecidableEq, Repr

/-- The parameters 00_scope.md R10 leaves OPEN: "A model takes every row marked OPEN as an argument".
They are a field of State that no step changes (log 6), so a statement about every state holds for
every assignment. A wait is a lower bound in microseconds; `none` is "no reference value". -/
structure Params where
  aCtrlDir     : Byte
  aCtrl        : Byte
  aDataDir     : Byte
  aData        : Byte
  ddrOut       : Byte
  ddrIn        : Byte
  ctrlDirValue : Byte
  tPre         : Option Nat
  tPost        : Option Nat
  tRead        : Option Nat
  tXrstLow     : Option Nat
  tXrstRecover : Option Nat
  tLcdRst      : Option Nat
  tLcdRecover  : Option Nat
  spiMode      : SpiMode
deriving DecidableEq, Repr

/-- The reference values of 00_scope.md R10 and 20_memory.md R57 (PRESUMED by the spec, K2 to K4). -/
def Params.reference : Params where
  aCtrlDir := 0x00#8
  aCtrl := 0x12#8
  aDataDir := 0x01#8
  aData := 0x13#8
  ddrOut := 0x00#8
  ddrIn := 0xFF#8
  ctrlDirValue := 0x00#8
  tPre := some 1
  tPost := some 1
  tRead := some 1
  tXrstLow := none
  tXrstRecover := none
  tLcdRst := none
  tLcdRecover := none
  spiMode := { msbFirst := true, clockMode := 0 }

/-- The lower bound a parameter record gives a wait (00_scope.md R11). -/
def Params.waitLength (p : Params) : Wait → Option Nat
  | .tPre => p.tPre
  | .tPost => p.tPost
  | .tRead => p.tRead
  | .tXrstLow => p.tXrstLow
  | .tXrstRecover => p.tXrstRecover
  | .tLcdRst => p.tLcdRst
  | .tLcdRecover => p.tLcdRecover

/-- The four addresses the block uses (20_memory.md R51, "exactly four addresses"). -/
def Params.addresses (p : Params) : List Byte := [p.aCtrlDir, p.aCtrl, p.aDataDir, p.aData]

/-- "exactly four addresses": they differ pairwise (20_memory.md R51; DEDUCED, log 22). -/
abbrev Params.Distinct (p : Params) : Prop := p.addresses.Nodup

/-- The free value: a byte about which nothing is known, one for each draw (log 5). -/
opaque Config.freeByte : Nat → Byte

end Sys2Proof
end

