-- ==== Sys2Proof/Syntax.lean ====
section
/-! DEFINITION. The block's operations: one constructor for each row of spec/opcode_table.json
(30_encoding.md R80), and the forms in which the caller can hand one over. -/

namespace Sys2Proof

/-- The two LCD controller chips (00_scope.md R9, R15). -/
inductive Chip where
  | chip1 | chip2
deriving DecidableEq, Repr

/-- `other(Chip1) = Chip2`, `other(Chip2) = Chip1` (00_scope.md R15). -/
def Chip.other : Chip → Chip
  | .chip1 => .chip2
  | .chip2 => .chip1

/-- The operand of `ctrl.update`: a set of (field, bit) pairs in which no field appears twice
(40_expander_io.md R104). A field that is `none` is not named by the set. -/
structure CtrlSet where
  e   : Option Bool := none
  di  : Option Bool := none
  rw  : Option Bool := none
  rst : Option Bool := none
  cs1 : Option Bool := none
  cs2 : Option Bool := none
  bl  : Option Bool := none
deriving DecidableEq, Repr

/-- The operation set (30_encoding.md R80). The `nat` operands are unbounded naturals. -/
inductive Instr where
  | expWriteRegister (addr value : Byte)
  | expWriteRegisterBurst (addr : Byte) (values : List Byte)
  | ctrlUpdate (set : CtrlSet)
  | expReadRegister (addr : Byte)
  | busWrite (chip : Chip) (di : Bool) (byte : Byte)
  | busRead (chip : Chip) (di : Bool)
  | lcdPower (chip : Chip) (on : Bool)
  | lcdSetStartLine (chip : Chip) (line : Nat)
  | lcdSetPage (chip : Chip) (page : Nat)
  | lcdSetColumn (chip : Chip) (col : Nat)
  | lcdWriteData (chip : Chip) (value : Byte)
  | lcdReadStatus (chip : Chip)
  | lcdReadData (chip : Chip)
  | panelSetBytesAt (byteRow column : Nat) (bytes : List Byte)
  | panelSetOnOff (on : Bool)
  | panelClear
  | panelSetBacklight (on : Bool)
  | panelGetBacklight
  | fbSetByte (byteRow column : Nat) (value : Byte)
  | fbSetBit (row column : Nat) (value : Bool)
  | fbSetBitMatrix (row0 col0 : Nat) (m : List (List Bool))
  | fbWriteBack
  | displayNew
deriving DecidableEq, Repr

/-- The name the spec's program syntax and the opcode table give an operation (30_encoding.md R80, R81). -/
def Instr.mnemonic : Instr → String
  | .expWriteRegister .. => "exp.writeRegister"
  | .expWriteRegisterBurst .. => "exp.writeRegisterBurst"
  | .ctrlUpdate .. => "ctrl.update"
  | .expReadRegister .. => "exp.readRegister"
  | .busWrite .. => "bus.write"
  | .busRead .. => "bus.read"
  | .lcdPower .. => "lcd.power"
  | .lcdSetStartLine .. => "lcd.setStartLine"
  | .lcdSetPage .. => "lcd.setPage"
  | .lcdSetColumn .. => "lcd.setColumn"
  | .lcdWriteData .. => "lcd.writeData"
  | .lcdReadStatus .. => "lcd.readStatus"
  | .lcdReadData .. => "lcd.readData"
  | .panelSetBytesAt .. => "panel.setBytesAt"
  | .panelSetOnOff .. => "panel.setOnOff"
  | .panelClear => "panel.clear"
  | .panelSetBacklight .. => "panel.setBacklight"
  | .panelGetBacklight => "panel.getBacklight"
  | .fbSetByte .. => "fb.setByte"
  | .fbSetBit .. => "fb.setBit"
  | .fbSetBitMatrix .. => "fb.setBitMatrix"
  | .fbWriteBack => "fb.writeBack"
  | .displayNew => "display.new"

/-- The forms in which a request reaches the block (log 1): the wire words of formats S, C and B
(30_encoding.md R70, R74, R75; the chip is a separate operand of a bus word), a line of a program in the
spec's syntax (R81), or the call itself with its arguments (format O, R80). -/
inductive Request where
  | frame (bytes : List Byte)
  | control (value : Byte)
  | busWord (chip : Chip) (word : BitVec 10)
  | line (text : List Char)
  | call (i : Instr)
deriving DecidableEq, Repr

end Sys2Proof
end

