-- ==== Sys2Proof/WellFormed.lean ====
section
/-! DEFINITION. Which operations the spec gives a meaning as they are written: a burst has at least one
value (40_expander_io.md R103), a bit matrix has rows of equal length (43_framebuffer.md R192). -/

namespace Sys2Proof

/-- `columns(m)`: the length of the rows of a matrix, 0 when it has none (43_framebuffer.md R192). -/
def matrixWidth (m : List (List Bool)) : Nat := (m.headD []).length

/-- All rows of the matrix have one length (43_framebuffer.md R192). -/
def matrixRectangular (m : List (List Bool)) : Bool := m.all (fun row => row.length == matrixWidth m)

/-- The operands the operation's rule admits. Numeric operands are never ill-formed: a rule masks them or
raises GeometryError (30_encoding.md R77, R80). -/
def Instr.wellFormed : Instr → Bool
  | .expWriteRegister _ _ => true
  | .expWriteRegisterBurst _ values => !values.isEmpty
  | .ctrlUpdate _ => true
  | .expReadRegister _ => true
  | .busWrite _ _ _ => true
  | .busRead _ _ => true
  | .lcdPower _ _ => true
  | .lcdSetStartLine _ _ => true
  | .lcdSetPage _ _ => true
  | .lcdSetColumn _ _ => true
  | .lcdWriteData _ _ => true
  | .lcdReadStatus _ => true
  | .lcdReadData _ => true
  | .panelSetBytesAt _ _ _ => true
  | .panelSetOnOff _ => true
  | .panelClear => true
  | .panelSetBacklight _ => true
  | .panelGetBacklight => true
  | .fbSetByte _ _ _ => true
  | .fbSetBit _ _ _ => true
  | .fbSetBitMatrix _ _ m => matrixRectangular m
  | .fbWriteBack => true
  | .displayNew => true

end Sys2Proof
end

