-- ==== Sys2Proof/Decode.lean ====
section
/-! DEFINITION. The encodings of 30_encoding.md: SPI frames (R70 to R73), the control byte (R74), bus words
and instruction bytes (R75 to R78), program lines (R81); the decoder from requests to operations, total,
refusing by name; and after it the encoder. -/

namespace Sys2Proof

/-! ## The control byte (30_encoding.md R74) -/

/-- Bit 6 is always 0 (R74). -/
def ctrlByte (e di rw rst cs1 cs2 bl : Bool) : Byte :=
  Byte.ofBit e ||| (Byte.ofBit di <<< 1) ||| (Byte.ofBit rw <<< 2) ||| (Byte.ofBit rst <<< 3)
    ||| (Byte.ofBit cs1 <<< 4) ||| (Byte.ofBit cs2 <<< 5) ||| (Byte.ofBit bl <<< 7)

/-! ## Bus words and instruction bytes (30_encoding.md R75 to R78) -/

/-- A bus word: bit 9 RW, bit 8 DI, bits 7:0 D (R75). -/
def busWordOf (rw di : Bool) (d : Byte) : BitVec 10 :=
  (if rw then 0x200#10 else 0#10) ||| (if di then 0x100#10 else 0#10) ||| d.setWidth 10

/-- `0x3E | (1 if on else 0)` (R76). -/
def powerByte (on : Bool) : Byte := 0x3E#8 ||| Byte.ofBit on

/-- `0xC0 | (line & 0x3F)` (R76, R77). -/
def startLineByte (line : Nat) : Byte := 0xC0#8 ||| (BitVec.ofNat 8 line &&& 0x3F#8)

/-- `0xB8 | (page & 0x07)` (R76, R77). -/
def pageByte (page : Nat) : Byte := 0xB8#8 ||| (BitVec.ofNat 8 page &&& 0x07#8)

/-- `0x40 | (col & 0x3F)` (R76, R77). -/
def columnByte (col : Nat) : Byte := 0x40#8 ||| (BitVec.ofNat 8 col &&& 0x3F#8)

/-- The classes of an instruction byte, RW = 0 and DI = 0 (R78). -/
inductive InstrClass where
  | power (on : Bool)
  | setColumn (col : BitVec 6)
  | setPage (page : BitVec 3)
  | setStartLine (line : BitVec 6)
  | reserved
deriving DecidableEq, Repr

/-- The decoder of instruction bytes (R78); what is left is reserved (R79). -/
def classify (b : Byte) : InstrClass :=
  if b &&& 0xFE#8 = 0x3E#8 then .power (b.getLsbD 0)
  else if b &&& 0xC0#8 = 0x40#8 then .setColumn (b.setWidth 6)
  else if b &&& 0xF8#8 = 0xB8#8 then .setPage (b.setWidth 3)
  else if b &&& 0xC0#8 = 0xC0#8 then .setStartLine (b.setWidth 6)
  else .reserved

/-! ## The decoder of the wire words -/

/-- Why the decoder refuses a request, by name. -/
inductive DecodeError where
  /-- a frame of no bytes -/
  | emptyFrame
  /-- an SPI opcode other than 0x40 and 0x41: reserved (R79) -/
  | reservedOpcode
  /-- a write frame without an address or without a payload (R70, R103) -/
  | frameTooShort
  /-- a read frame whose length is not 3 (R73) -/
  | readFrameLength
  /-- a read frame whose dummy byte is not 0x00 (R70) -/
  | readDummyNotZero
  /-- a control byte with bit 6 set (R74) -/
  | controlBit6
  /-- a program line with a character or number R81 does not allow -/
  | unreadableLine
  /-- a program line without an operation -/
  | emptyLine
  /-- a program line whose first word is no operation of R80 -/
  | unknownOperation
  /-- a program line whose arguments are not those of its operation (R80) -/
  | badArguments
deriving DecidableEq, Repr

/-- Frames S-W and S-B (R70). A frame with one payload byte is S-W (log 7). -/
def decodeWriteFrame : List Byte → Except DecodeError Instr
  | [] => .error .frameTooShort
  | [_] => .error .frameTooShort
  | [a, v] => .ok (.expWriteRegister a v)
  | a :: v :: w :: vs => .ok (.expWriteRegisterBurst a (v :: w :: vs))

/-- Frame S-R (R70, R73). -/
def decodeReadFrame : List Byte → Except DecodeError Instr
  | [a, d] => if d = 0#8 then .ok (.expReadRegister a) else .error .readDummyNotZero
  | _ => .error .readFrameLength

/-- An SPI frame by its command opcode (R70, R71). -/
def decodeFrame : List Byte → Except DecodeError Instr
  | [] => .error .emptyFrame
  | op :: rest =>
    if op = expOpWrite then decodeWriteFrame rest
    else if op = expOpRead then decodeReadFrame rest
    else .error .reservedOpcode

/-- A control byte names every field (R74). -/
def decodeControl (b : Byte) : Except DecodeError Instr :=
  if b.getLsbD 6 then .error .controlBit6
  else .ok (.ctrlUpdate { e := some (b.getLsbD 0), di := some (b.getLsbD 1), rw := some (b.getLsbD 2),
                          rst := some (b.getLsbD 3), cs1 := some (b.getLsbD 4), cs2 := some (b.getLsbD 5),
                          bl := some (b.getLsbD 7) })

/-- A bus word for a chip (R75, R76, R78). The most specific row of the table wins: a word of a panel
primitive is that primitive, an instruction byte of the reserved class is a plain `bus.write` (log 7).
The D bits of a read are returned, not sent: they are not looked at (R75). -/
def decodeBusWord (k : Chip) (w : BitVec 10) : Instr :=
  let d : Byte := w.setWidth 8
  if w.getLsbD 9 then
    if w.getLsbD 8 then .lcdReadData k else .lcdReadStatus k
  else if w.getLsbD 8 then .lcdWriteData k d
  else match classify d with
    | .power on => .lcdPower k on
    | .setColumn y => .lcdSetColumn k y.toNat
    | .setPage p => .lcdSetPage k p.toNat
    | .setStartLine l => .lcdSetStartLine k l.toNat
    | .reserved => .busWrite k false d

/-! ## Program lines (30_encoding.md R81): characters to tokens -/

/-- The tokens of a program line. -/
inductive Token where
  | name (s : List Char)
  | number (n : Nat)
  | bits (bs : List Bool)
  | comma | colon | openList | closeList | openSet | closeSet
deriving DecidableEq, Repr

/-- The characters R81 and R104 give a meaning that a Lean literal here cannot hold. -/
def quoteChar : Char := Char.ofNat 34
def openSetChar : Char := Char.ofNat 123
def closeSetChar : Char := Char.ofNat 125

/-- The value of a decimal digit. -/
def digitValue (c : Char) : Option Nat :=
  if 48 ≤ c.toNat ∧ c.toNat ≤ 57 then some (c.toNat - 48) else none

/-- The value of a hexadecimal digit, either case. -/
def hexValue (c : Char) : Option Nat :=
  if 48 ≤ c.toNat ∧ c.toNat ≤ 57 then some (c.toNat - 48)
  else if 65 ≤ c.toNat ∧ c.toNat ≤ 70 then some (c.toNat - 55)
  else if 97 ≤ c.toNat ∧ c.toNat ≤ 102 then some (c.toNat - 87)
  else none

/-- A letter starts a name. -/
def isLetter (c : Char) : Bool :=
  (65 ≤ c.toNat && c.toNat ≤ 90) || (97 ≤ c.toNat && c.toNat ≤ 122)

/-- Letters, digits and the dot continue a name. -/
def isNameChar (c : Char) : Bool :=
  isLetter c || (48 ≤ c.toNat && c.toNat ≤ 57) || c.toNat == 46

/-- Where the reading of a line stands. -/
inductive LexState where
  | idle
  | comment
  | name (reversed : List Char)
  | zero
  | decimal (n : Nat)
  | hexStart
  | hex (n : Nat)
  | bits (reversed : List Bool)
deriving DecidableEq, Repr

/-- A character read between tokens: the tokens it completes and the new state. -/
def lexStart (c : Char) : Option (List Token × LexState) :=
  if c = ' ' ∨ c.toNat = 9 then some ([], .idle)
  else if c = ';' then some ([], .comment)
  else if c = ',' then some ([.comma], .idle)
  else if c = ':' then some ([.colon], .idle)
  else if c = '[' then some ([.openList], .idle)
  else if c = ']' then some ([.closeList], .idle)
  else if c = openSetChar then some ([.openSet], .idle)
  else if c = closeSetChar then some ([.closeSet], .idle)
  else if c = quoteChar then some ([], .bits [])
  else if c = '0' then some ([], .zero)
  else match digitValue c with
    | some d => some ([], .decimal d)
    | none => if isLetter c then some ([], .name [c]) else none

/-- A character that ends the token `t` and is read anew. -/
def lexEnd (t : Token) (c : Char) : Option (List Token × LexState) :=
  (lexStart c).map (fun r => (t :: r.1, r.2))

/-- One character of a line. -/
def lexChar : LexState → Char → Option (List Token × LexState)
  | .comment, _ => some ([], .comment)
  | .idle, c => lexStart c
  | .name acc, c => if isNameChar c then some ([], .name (c :: acc)) else lexEnd (.name acc.reverse) c
  | .zero, c =>
    if c = 'x' then some ([], .hexStart)
    else match digitValue c with
      | some d => some ([], .decimal d)
      | none => lexEnd (.number 0) c
  | .decimal n, c =>
    match digitValue c with
    | some d => some ([], .decimal (10 * n + d))
    | none => lexEnd (.number n) c
  | .hexStart, c => (hexValue c).map (fun d => ([], .hex d))
  | .hex n, c =>
    match hexValue c with
    | some d => some ([], .hex (16 * n + d))
    | none => lexEnd (.number n) c
  | .bits acc, c =>
    if c = '0' then some ([], .bits (false :: acc))
    else if c = '1' then some ([], .bits (true :: acc))
    else if c = quoteChar then some ([.bits acc.reverse], .idle)
    else none

/-- The end of a line. -/
def lexFinish : LexState → Option (List Token)
  | .idle => some []
  | .comment => some []
  | .name acc => some [.name acc.reverse]
  | .zero => some [.number 0]
  | .decimal n => some [.number n]
  | .hexStart => none
  | .hex n => some [.number n]
  | .bits _ => none

/-- The tokens of a line. -/
def lex : LexState → List Char → Option (List Token)
  | st, [] => lexFinish st
  | st, c :: cs =>
    match lexChar st c with
    | none => none
    | some (ts, st') => (lex st' cs).map (ts ++ ·)

/-! ## Program lines: tokens to arguments -/

/-- An element of a bracketed list: a number of a byte list or a row of a bit matrix (R81). -/
inductive ListItem where
  | num (n : Nat)
  | bits (bs : List Bool)
deriving DecidableEq, Repr

/-- An argument of an operation. -/
inductive Arg where
  | num (n : Nat)
  | name (s : List Char)
  | list (items : List ListItem)
  | set (s : CtrlSet)
deriving DecidableEq, Repr

/-- The items of a non-empty list, after its opening bracket. -/
def listItems : List Token → Option (List ListItem × List Token)
  | .number n :: .closeList :: ts => some ([.num n], ts)
  | .bits b :: .closeList :: ts => some ([.bits b], ts)
  | .number n :: .comma :: ts => (listItems ts).map (fun r => (.num n :: r.1, r.2))
  | .bits b :: .comma :: ts => (listItems ts).map (fun r => (.bits b :: r.1, r.2))
  | _ => none

/-- A bit is 0 or 1. -/
def bitValue : Nat → Option Bool
  | 0 => some false
  | 1 => some true
  | _ => none

/-- Add a pair to the set of `ctrl.update`; "no field appears twice" (40_expander_io.md R104). -/
def CtrlSet.insertPair (s : CtrlSet) (f : List Char) (b : Bool) : Option CtrlSet :=
  if f = "E".toList then (if s.e = none then some { s with e := some b } else none)
  else if f = "DI".toList then (if s.di = none then some { s with di := some b } else none)
  else if f = "RW".toList then (if s.rw = none then some { s with rw := some b } else none)
  else if f = "RST".toList then (if s.rst = none then some { s with rst := some b } else none)
  else if f = "CS1".toList then (if s.cs1 = none then some { s with cs1 := some b } else none)
  else if f = "CS2".toList then (if s.cs2 = none then some { s with cs2 := some b } else none)
  else if f = "BL".toList then (if s.bl = none then some { s with bl := some b } else none)
  else none

/-- The pairs of a non-empty set, after its opening brace. -/
def setPairs : CtrlSet → List Token → Option (CtrlSet × List Token)
  | acc, .name f :: .colon :: .number n :: .closeSet :: ts =>
    ((bitValue n).bind (acc.insertPair f)).map (fun s => (s, ts))
  | acc, .name f :: .colon :: .number n :: .comma :: ts =>
    ((bitValue n).bind (acc.insertPair f)).bind (fun s => setPairs s ts)
  | _, _ => none

/-- One argument and the tokens after it. -/
def oneArg : List Token → Option (Arg × List Token)
  | .number n :: ts => some (.num n, ts)
  | .name s :: ts => some (.name s, ts)
  | .openList :: .closeList :: ts => some (.list [], ts)
  | .openList :: ts => (listItems ts).map (fun r => (.list r.1, r.2))
  | .openSet :: .closeSet :: ts => some (.set {}, ts)
  | .openSet :: ts => (setPairs {} ts).map (fun r => (.set r.1, r.2))
  | _ => none

/-- Arguments separated by commas (R81). The first argument is fuel: the number of tokens is enough. -/
def argList : Nat → List Token → Option (List Arg)
  | 0, _ => none
  | n + 1, ts =>
    match oneArg ts with
    | none => none
    | some (a, []) => some [a]
    | some (a, .comma :: rest) => (argList n rest).map (a :: ·)
    | some _ => none

/-- The arguments of an operation, possibly none. -/
def allArgs (ts : List Token) : Option (List Arg) :=
  if ts = [] then some [] else argList ts.length ts

/-! ## Program lines: arguments to operations (30_encoding.md R80) -/

def natArg : Arg → Option Nat
  | .num n => some n
  | _ => none

/-- A u8 argument. -/
def byteOfNat (n : Nat) : Option Byte := if n < 256 then some (BitVec.ofNat 8 n) else none

def byteArg : Arg → Option Byte
  | .num n => byteOfNat n
  | _ => none

def bitArg : Arg → Option Bool
  | .num n => bitValue n
  | _ => none

def boolArg : Arg → Option Bool
  | .name s => if s = "true".toList then some true else if s = "false".toList then some false else none
  | _ => none

def chipArg : Arg → Option Chip
  | .name s => if s = "Chip1".toList then some .chip1 else if s = "Chip2".toList then some .chip2 else none
  | _ => none

def ListItem.byte? : ListItem → Option Byte
  | .num n => byteOfNat n
  | .bits _ => none

def ListItem.row? : ListItem → Option (List Bool)
  | .num _ => none
  | .bits bs => some bs

def bytesArg : Arg → Option (List Byte)
  | .list items => items.mapM ListItem.byte?
  | _ => none

def matrixArg : Arg → Option (List (List Bool))
  | .list items => items.mapM ListItem.row?
  | _ => none

def setArg : Arg → Option CtrlSet
  | .set s => some s
  | _ => none

/-- The operation of a name and its arguments; `none` when the arguments do not fit, and `none` outside
when the name is no operation's. -/
def instrOf (op : List Char) (args : List Arg) : Option (Option Instr) :=
  if op = "exp.writeRegister".toList then some (match args with
    | [a, v] => (byteArg a).bind fun a => (byteArg v).map fun v => .expWriteRegister a v
    | _ => none)
  else if op = "exp.writeRegisterBurst".toList then some (match args with
    | [a, vs] => (byteArg a).bind fun a => (bytesArg vs).map fun vs => .expWriteRegisterBurst a vs
    | _ => none)
  else if op = "ctrl.update".toList then some (match args with
    | [s] => (setArg s).map .ctrlUpdate
    | _ => none)
  else if op = "exp.readRegister".toList then some (match args with
    | [a] => (byteArg a).map .expReadRegister
    | _ => none)
  else if op = "bus.write".toList then some (match args with
    | [k, d, b] => (chipArg k).bind fun k => (bitArg d).bind fun d => (byteArg b).map fun b => .busWrite k d b
    | _ => none)
  else if op = "bus.read".toList then some (match args with
    | [k, d] => (chipArg k).bind fun k => (bitArg d).map fun d => .busRead k d
    | _ => none)
  else if op = "lcd.power".toList then some (match args with
    | [k, o] => (chipArg k).bind fun k => (boolArg o).map fun o => .lcdPower k o
    | _ => none)
  else if op = "lcd.setStartLine".toList then some (match args with
    | [k, n] => (chipArg k).bind fun k => (natArg n).map fun n => .lcdSetStartLine k n
    | _ => none)
  else if op = "lcd.setPage".toList then some (match args with
    | [k, n] => (chipArg k).bind fun k => (natArg n).map fun n => .lcdSetPage k n
    | _ => none)
  else if op = "lcd.setColumn".toList then some (match args with
    | [k, n] => (chipArg k).bind fun k => (natArg n).map fun n => .lcdSetColumn k n
    | _ => none)
  else if op = "lcd.writeData".toList then some (match args with
    | [k, v] => (chipArg k).bind fun k => (byteArg v).map fun v => .lcdWriteData k v
    | _ => none)
  else if op = "lcd.readStatus".toList then some (match args with
    | [k] => (chipArg k).map .lcdReadStatus
    | _ => none)
  else if op = "lcd.readData".toList then some (match args with
    | [k] => (chipArg k).map .lcdReadData
    | _ => none)
  else if op = "panel.setBytesAt".toList then some (match args with
    | [r, c, vs] => (natArg r).bind fun r => (natArg c).bind fun c =>
        (bytesArg vs).map fun vs => .panelSetBytesAt r c vs
    | _ => none)
  else if op = "panel.setOnOff".toList then some (match args with
    | [o] => (boolArg o).map .panelSetOnOff
    | _ => none)
  else if op = "panel.clear".toList then some (match args with
    | [] => some .panelClear
    | _ => none)
  else if op = "panel.setBacklight".toList then some (match args with
    | [o] => (boolArg o).map .panelSetBacklight
    | _ => none)
  else if op = "panel.getBacklight".toList then some (match args with
    | [] => some .panelGetBacklight
    | _ => none)
  else if op = "fb.setByte".toList then some (match args with
    | [r, c, v] => (natArg r).bind fun r => (natArg c).bind fun c => (byteArg v).map fun v => .fbSetByte r c v
    | _ => none)
  else if op = "fb.setBit".toList then some (match args with
    | [r, c, v] => (natArg r).bind fun r => (natArg c).bind fun c => (boolArg v).map fun v => .fbSetBit r c v
    | _ => none)
  else if op = "fb.setBitMatrix".toList then some (match args with
    | [r, c, m] => (natArg r).bind fun r => (natArg c).bind fun c =>
        (matrixArg m).map fun m => .fbSetBitMatrix r c m
    | _ => none)
  else if op = "fb.writeBack".toList then some (match args with
    | [] => some .fbWriteBack
    | _ => none)
  else if op = "display.new".toList then some (match args with
    | [] => some .displayNew
    | _ => none)
  else none

/-- An operation's name and its argument tokens. -/
def decodeCall (op : List Char) (ts : List Token) : Except DecodeError Instr :=
  match allArgs ts with
  | none => .error .badArguments
  | some args =>
    match instrOf op args with
    | none => .error .unknownOperation
    | some none => .error .badArguments
    | some (some i) => .ok i

/-- A line of a program (R81). -/
def decodeLine (text : List Char) : Except DecodeError Instr :=
  match lex .idle text with
  | none => .error .unreadableLine
  | some [] => .error .emptyLine
  | some (.name op :: ts) => decodeCall op ts
  | some _ => .error .unknownOperation

/-- The decoder: total on every request, refusing by name. -/
def decode : Request → Except DecodeError Instr
  | .frame bytes => decodeFrame bytes
  | .control b => decodeControl b
  | .busWord k w => .ok (decodeBusWord k w)
  | .line text => decodeLine text
  | .call i => .ok i

/-! ## The encoder -/

/-- A decimal digit. -/
def digitChar (d : Nat) : Char := Char.ofNat (48 + d)

/-- The decimal digits of a number before `acc`. The first argument is fuel. -/
def decimalDigits : Nat → Nat → List Char → List Char
  | 0, _, acc => acc
  | f + 1, n, acc =>
    if n < 10 then digitChar n :: acc else decimalDigits f (n / 10) (digitChar (n % 10) :: acc)

/-- A number in decimal (R81). -/
def decimal (n : Nat) : List Char := decimalDigits (n + 1) n []

/-- The characters of a token; a comma is followed by a space. -/
def Token.spell : Token → List Char
  | .name s => s
  | .number n => decimal n
  | .bits bs => quoteChar :: bs.map (fun b => if b then '1' else '0') ++ [quoteChar]
  | .comma => [',', ' ']
  | .colon => [':']
  | .openList => ['[']
  | .closeList => [']']
  | .openSet => [openSetChar]
  | .closeSet => [closeSetChar]

/-- Token groups separated by commas. -/
def joinComma : List (List Token) → List Token
  | [] => []
  | [t] => t
  | t :: u :: ts => t ++ .comma :: joinComma (u :: ts)

def bitToken (b : Bool) : Token := .number (if b then 1 else 0)
def boolToken (b : Bool) : Token := .name (if b then "true".toList else "false".toList)
def byteToken (b : Byte) : Token := .number b.toNat
def chipToken : Chip → Token
  | .chip1 => .name "Chip1".toList
  | .chip2 => .name "Chip2".toList

/-- A byte list `[b0, b1, ...]` (R81). -/
def bytesTokens (vs : List Byte) : List Token :=
  .openList :: joinComma (vs.map (fun b => [byteToken b])) ++ [.closeList]

/-- A bit matrix: rows of 0/1 strings (R81). -/
def matrixTokens (m : List (List Bool)) : List Token :=
  .openList :: joinComma (m.map (fun r => [.bits r])) ++ [.closeList]

/-- The pair of a field that the set names. -/
def pairTokens (f : String) : Option Bool → List (List Token)
  | none => []
  | some b => [[.name f.toList, .colon, bitToken b]]

/-- A set of pairs, written as 40_expander_io.md R104 writes it (log 9). -/
def setTokens (s : CtrlSet) : List Token :=
  .openSet :: joinComma (pairTokens "E" s.e ++ pairTokens "DI" s.di ++ pairTokens "RW" s.rw
    ++ pairTokens "RST" s.rst ++ pairTokens "CS1" s.cs1 ++ pairTokens "CS2" s.cs2 ++ pairTokens "BL" s.bl)
    ++ [.closeSet]

/-- The argument tokens of an operation, one group for each argument (R80, R81). -/
def Instr.argTokens : Instr → List (List Token)
  | .expWriteRegister a v => [[byteToken a], [byteToken v]]
  | .expWriteRegisterBurst a vs => [[byteToken a], bytesTokens vs]
  | .ctrlUpdate s => [setTokens s]
  | .expReadRegister a => [[byteToken a]]
  | .busWrite k di b => [[chipToken k], [bitToken di], [byteToken b]]
  | .busRead k di => [[chipToken k], [bitToken di]]
  | .lcdPower k on => [[chipToken k], [boolToken on]]
  | .lcdSetStartLine k n => [[chipToken k], [.number n]]
  | .lcdSetPage k n => [[chipToken k], [.number n]]
  | .lcdSetColumn k n => [[chipToken k], [.number n]]
  | .lcdWriteData k v => [[chipToken k], [byteToken v]]
  | .lcdReadStatus k => [[chipToken k]]
  | .lcdReadData k => [[chipToken k]]
  | .panelSetBytesAt r c vs => [[.number r], [.number c], bytesTokens vs]
  | .panelSetOnOff on => [[boolToken on]]
  | .panelClear => []
  | .panelSetBacklight on => [[boolToken on]]
  | .panelGetBacklight => []
  | .fbSetByte r c v => [[.number r], [.number c], [byteToken v]]
  | .fbSetBit r c v => [[.number r], [.number c], [boolToken v]]
  | .fbSetBitMatrix r c m => [[.number r], [.number c], matrixTokens m]
  | .fbWriteBack => []
  | .displayNew => []

/-- The program line of an operation: its name, a space, its arguments separated by commas (R81). -/
def renderLine (i : Instr) : List Char :=
  i.mnemonic.toList ++ ' ' :: (joinComma i.argTokens).flatMap Token.spell

/-- The control byte of a set that names every field, and nothing for one that does not: what a partial
update writes depends on the cache (40_expander_io.md R104). -/
def CtrlSet.fullByte? : CtrlSet → Option Byte
  | ⟨some e, some di, some rw, some rst, some cs1, some cs2, some bl⟩ => some (ctrlByte e di rw rst cs1 cs2 bl)
  | _ => none

/-- The encoder: the wire word of an operation that has one (R70, R74, R76, R82), else its program line. -/
def encode : Instr → Request
  | .expWriteRegister a v => .frame [expOpWrite, a, v]
  | .expWriteRegisterBurst a vs => .frame (expOpWrite :: a :: vs)
  | .ctrlUpdate s => match s.fullByte? with
    | some b => .control b
    | none => .line (renderLine (.ctrlUpdate s))
  | .expReadRegister a => .frame [expOpRead, a, 0#8]
  | .busWrite k di b => .busWord k (busWordOf false di b)
  | .busRead k di => .busWord k (busWordOf true di 0#8)
  | .lcdPower k on => .busWord k (busWordOf false false (powerByte on))
  | .lcdSetStartLine k n => .busWord k (busWordOf false false (startLineByte n))
  | .lcdSetPage k n => .busWord k (busWordOf false false (pageByte n))
  | .lcdSetColumn k n => .busWord k (busWordOf false false (columnByte n))
  | .lcdWriteData k v => .busWord k (busWordOf false true v)
  | .lcdReadStatus k => .busWord k (busWordOf true false 0#8)
  | .lcdReadData k => .busWord k (busWordOf true true 0#8)
  | .panelSetBytesAt r c vs => .line (renderLine (.panelSetBytesAt r c vs))
  | .panelSetOnOff on => .line (renderLine (.panelSetOnOff on))
  | .panelClear => .line (renderLine .panelClear)
  | .panelSetBacklight on => .line (renderLine (.panelSetBacklight on))
  | .panelGetBacklight => .line (renderLine .panelGetBacklight)
  | .fbSetByte r c v => .line (renderLine (.fbSetByte r c v))
  | .fbSetBit r c v => .line (renderLine (.fbSetBit r c v))
  | .fbSetBitMatrix r c m => .line (renderLine (.fbSetBitMatrix r c m))
  | .fbWriteBack => .line (renderLine .fbWriteBack)
  | .displayNew => .line (renderLine .displayNew)

/-- What the decoder reads from an operation's wire word: operands masked to their fields (R77), a bus
word's most specific operation (R82), a burst of one byte as the S-W frame it is (R70). -/
def Instr.canonical : Instr → Instr
  | .expWriteRegister a v => .expWriteRegister a v
  | .expWriteRegisterBurst a vs => match vs with
    | [v] => .expWriteRegister a v
    | vs => .expWriteRegisterBurst a vs
  | .ctrlUpdate s => .ctrlUpdate s
  | .expReadRegister a => .expReadRegister a
  | .busWrite k di b => decodeBusWord k (busWordOf false di b)
  | .busRead k di => if di then .lcdReadData k else .lcdReadStatus k
  | .lcdPower k on => .lcdPower k on
  | .lcdSetStartLine k n => .lcdSetStartLine k (n % 64)
  | .lcdSetPage k n => .lcdSetPage k (n % 8)
  | .lcdSetColumn k n => .lcdSetColumn k (n % 64)
  | .lcdWriteData k v => .lcdWriteData k v
  | .lcdReadStatus k => .lcdReadStatus k
  | .lcdReadData k => .lcdReadData k
  | .panelSetBytesAt r c vs => .panelSetBytesAt r c vs
  | .panelSetOnOff on => .panelSetOnOff on
  | .panelClear => .panelClear
  | .panelSetBacklight on => .panelSetBacklight on
  | .panelGetBacklight => .panelGetBacklight
  | .fbSetByte r c v => .fbSetByte r c v
  | .fbSetBit r c v => .fbSetBit r c v
  | .fbSetBitMatrix r c m => .fbSetBitMatrix r c m
  | .fbWriteBack => .fbWriteBack
  | .displayNew => .displayNew

/-! ## The opcode table's words -/

/-- The `n` bytes of a number, the first in its highest bits. -/
def bytesOfWord : Nat → Nat → List Byte
  | 0, _ => []
  | n + 1, w => BitVec.ofNat 8 (w / 256 ^ n) :: bytesOfWord n w

/-- The request of a word of spec/opcode_table.json (log 8): 8 bits are a control byte, 10 (or 16, in whole
bytes) a bus word to Chip1, and 24 or more an SPI frame, whose byte 0 the table puts in the highest bits. -/
def requestOfTableWord (nbits w : Nat) : Request :=
  if 2 ^ nbits ≤ w then .frame []
  else if nbits = 8 then .control (BitVec.ofNat 8 w)
  else if nbits = 10 ∨ nbits = 16 then (if w < 1024 then .busWord .chip1 (BitVec.ofNat 10 w) else .frame [])
  else if 24 ≤ nbits ∧ nbits % 8 = 0 then .frame (bytesOfWord (nbits / 8) w)
  else .frame []

/-- The operation the decoder reads from a word numbered as spec/opcode_table.json numbers it. -/
def decodeTableWord (nbits w : Nat) : Option Instr :=
  match decode (requestOfTableWord nbits w) with
  | .ok i => some i
  | .error _ => none

end Sys2Proof
end

