-- ==== Sys2Proof/Machine/State.lean ====
section
/-! DEFINITION. Every piece of state the spec gives the machine (10_state.md), as plain data. -/

namespace Sys2Proof.Machine

/-- The lifecycle phase (10_state.md R29). -/
inductive Phase where
  | absent | ready
deriving DecidableEq, Repr

/-- One framebuffer cell (10_state.md R23). -/
structure FbCell where
  value : Byte
  dirty : Bool
deriving DecidableEq, Repr

/-- The grid `fb[r][c]`, 8 byte-rows of 128 columns (10_state.md R23). -/
abbrev FrameBuffer := Vector (Vector FbCell 128) 8

/-- A memory: listed addresses rise strictly; an unlisted address has no value the model knows (log 23). -/
abbrev Memory := List Host.Cell

/-- What one LCD controller holds (environment, 10_state.md R33); RAM address `page * 64 + column`. -/
structure Lcd where
  on        : Bool
  startLine : BitVec 6
  page      : BitVec 3
  col       : BitVec 6
  ram       : Memory
deriving DecidableEq, Repr

/-- One answer of the transport oracle (40_expander_io.md R100): a count and the three received bytes of a
full-duplex exchange (a write ignores them), or no answer ever. -/
inductive Answer where
  | reply (count : Nat) (rx0 rx1 rx2 : Byte)
  | hang
deriving DecidableEq, Repr

/-- The two host GPIO lines (10_state.md R26). -/
inductive PinName where
  | xcs | xrst
deriving DecidableEq, Repr

/-- The error kinds (60_exceptions.md R220). -/
inductive Err where
  | transportError | geometryError | fontMismatchError
deriving DecidableEq, Repr

/-- The codes of 60_exceptions.md R220. -/
def Err.code : Err → Nat
  | .transportError => 1
  | .geometryError => 2
  | .fontMismatchError => 3

/-- The value a successful operation returns (30_encoding.md R80). -/
inductive Value where
  | unit
  | byte (b : Byte)
  | nat (n : Nat)
  | flag (b : Bool)
deriving DecidableEq, Repr

/-- The result an operation returns to its caller (00_scope.md R16, R19). -/
inductive OpResult where
  | ok (v : Value)
  | error (e : Err)
deriving DecidableEq, Repr

/-- The four event forms (00_scope.md R16). -/
inductive Event where
  | spiWrite (bytes : List Byte)
  | spiTransfer (tx rx : List Byte)
  | pin (name : PinName) (level : Bool)
  | delay (name : Wait)
deriving DecidableEq, Repr

/-- "The trace also records the result each operation returns" (00_scope.md R16). -/
inductive TraceItem where
  | event (e : Event)
  | result (r : OpResult)
deriving DecidableEq, Repr

/-- The state: the four parts of the block (10_state.md R20), the environment's view (R32, R33), the
observation (00_scope.md R16), and the inputs the step reads. -/
structure State where
  /-- R29 -/
  phase   : Phase
  /-- the control-register cache, R21, R22 -/
  ctrl    : Byte
  /-- R23 -/
  fb      : FrameBuffer
  /-- the level last driven on XCS, R26 -/
  xcs     : Bool
  /-- the level last driven on XRST, R26 -/
  xrst    : Bool
  /-- environment: the expander's registers, as far as known, R32 -/
  exp     : Memory
  /-- environment: Chip1; none once the environment model has refused it, R33, R148 -/
  lcd1    : Option Lcd
  /-- environment: Chip2; none once the environment model has refused it, R33, R148 -/
  lcd2    : Option Lcd
  /-- input: the transport's answers still to come, 40_expander_io.md R100 (log 4) -/
  answers : List Answer
  /-- input: the caller's requests still to be performed, R27 (log 1) -/
  calls   : List Request
  /-- the observation, oldest first, 00_scope.md R16 -/
  trace   : List TraceItem
  /-- the OPEN parameters, 00_scope.md R10 (log 6) -/
  params  : Params
  /-- the model's own: how many free values have been drawn (log 5) -/
  draws   : Nat
deriving DecidableEq, Repr

/-- Why the machine stops with no further step. -/
inductive Fault where
  /-- A transport call never returns (60_exceptions.md R227, I5 "stuck"). Raised by `spiWrite` and
  `spiTransfer`. Safe: the spec gives the operation no further step. -/
  | transportHang
deriving DecidableEq, Repr

/-- Why a request has no meaning. -/
inductive Refusal where
  /-- An arm of `exec` that has no meaning yet. Safe. -/
  | notModelled (mnemonic : String)
  /-- Any operation but display.new while the block is Absent (10_state.md R29, I13). Raised by every
  meaning through `State.perform`. Safe: "it has no meaning and no step". -/
  | absent
  /-- display.new while the block is Ready (70_reset_and_hazards.md R256, I13). Safe. -/
  | alreadyReady
  /-- exp.writeRegister or exp.writeRegisterBurst reaching A_CTRL (40_expander_io.md R102, R103, I14). Safe. -/
  | directControlWrite
  /-- exp.writeRegisterBurst with no values (40_expander_io.md R103, I14). Safe. -/
  | emptyBurst
  /-- fb.setBitMatrix with rows of unequal length (43_framebuffer.md R192, I14). Safe. -/
  | raggedMatrix
  /-- A wire word or program line that decodes to no operation (30_encoding.md R79). Raised by `step`. Safe. -/
  | undecodable (e : DecodeError)
deriving DecidableEq, Repr

/-- Every cell with value 0 and dirty (10_state.md R35, 70_reset_and_hazards.md R253). -/
def FrameBuffer.boot : FrameBuffer := .replicate 8 (.replicate 128 { value := 0#8, dirty := true })

/-- RAM in which every byte is 0 (10_state.md R35). -/
def Memory.zeroRam : Memory := (List.range 512).map (fun a => (a, 0#8))

/-- A chip after boot (10_state.md R35). -/
def Lcd.boot : Lcd := { on := true, startLine := 0#6, page := 7#3, col := 0#6, ram := Memory.zeroRam }

/-- The reset values of 10_state.md R35: the state after a successful boot (log 2), with the reference
parameters (log 6), nothing observed yet and no input pending. -/
def State.reset : State where
  phase := .ready
  ctrl := 0x0D#8
  fb := .boot
  xcs := true
  xrst := true
  exp := [(0x00, 0x00#8), (0x01, 0xFF#8), (0x12, 0x0D#8), (0x13, 0x3F#8)]
  lcd1 := some .boot
  lcd2 := some .boot
  answers := []
  calls := []
  trace := []
  params := .reference
  draws := 0

/-- Power-up, before boot: no block state exists (10_state.md R29, R35). The values no rule reads are a
DESIGN CHOICE (log 3). -/
def State.powerUp : State where
  phase := .absent
  ctrl := 0x00#8
  fb := .replicate 8 (.replicate 128 { value := 0#8, dirty := false })
  xcs := false
  xrst := false
  exp := []
  lcd1 := none
  lcd2 := none
  answers := []
  calls := []
  trace := []
  params := .reference
  draws := 0

end Sys2Proof.Machine
end

