-- ==== Sys2Proof/Machine/Operands.lean ====
section
/-! DEFINITION. Operand forms: the maps between address spaces (20_memory.md R51 to R54), geometry checks
(R52, 42_dual_chip_panel.md R161) and the select operand (41_parallel_bus.md R122). -/

namespace Sys2Proof.Machine

/-- The chip that owns a logical column (20_memory.md R54). -/
def chipOf (c : Nat) : Chip := if c < 64 then .chip1 else .chip2

/-- The local column of a logical column (20_memory.md R54). -/
def localCol (c : Nat) : Nat := if c < 64 then c else c - 64

/-- The RAM address of a page and a local column. -/
def ramAddr (page : BitVec 3) (col : BitVec 6) : Nat := page.toNat * 64 + col.toNat

/-- A legal framebuffer address (20_memory.md R52). -/
def fbLegal (r c : Nat) : Bool := r < 8 && c < 128

/-- A legal pixel address (20_memory.md R53). -/
def pixelLegal (y c : Nat) : Bool := y < 64 && c < 128

/-- The byte-row and the bit of a pixel row (20_memory.md R53). -/
def pixelRow (y : Nat) : Nat := y / 8
def pixelBit (y : Nat) : Nat := y % 8

/-- The request of panel.setBytesAt fits the panel (42_dual_chip_panel.md R161). -/
def runFits (byteRow column n : Nat) : Bool :=
  !(decide (byteRow ≥ 8) || decide (column ≥ 128) || decide (column + n > 128))

/-- The matrix of fb.setBitMatrix fits: `row0 + h > 64 or col0 + w > 128` is false (43_framebuffer.md R192).
DESIGN CHOICE (log 30): the check is made of an empty matrix too. R192's pseudocode says so, while its corner case
has an empty matrix at `row0 <= 64`, `col0 <= 128` return Ok: the two differ for rows of width 0 with
`row0 <= 64 < row0 + h`, where this model raises GeometryError. -/
def matrixFits (row0 col0 h w : Nat) : Bool := !(decide (row0 + h > 64) || decide (col0 + w > 128))

/-- One of the four addresses the block uses (20_memory.md R51). -/
def Params.isNamed (p : Params) (a : Byte) : Bool := p.addresses.contains a

/-- The addresses of a burst (30_encoding.md R72): payload byte `i` is meant for `addr + i`. -/
def burstAddrs (addr : Byte) (n : Nat) : List Nat := (List.range n).map (fun i => addr.toNat + i)

/-- A burst's range `addr .. addr + n - 1` contains A_CTRL (40_expander_io.md R103; log 16). -/
def burstReaches (a addr : Byte) (n : Nat) : Bool := (burstAddrs addr n).contains a.toNat

/-- `{CS(chip): 1, CS(other(chip)): 0}` (41_parallel_bus.md R122, 00_scope.md R15). -/
def selectSet (k : Chip) : CtrlSet := { cs1 := some (k = .chip1), cs2 := some (k = .chip2) }

/-- `{CS1: 0, CS2: 0}` (41_parallel_bus.md R120). -/
def deselectSet : CtrlSet := { cs1 := some false, cs2 := some false }

end Sys2Proof.Machine
end

