-- ==== Sys2Proof/Machine/Flags.lean ====
section
/-! DEFINITION. The single-bit state: the fields of `ctrl` (10_state.md R22), how an update changes them
(40_expander_io.md R104), and the dirty bits' change detection (43_framebuffer.md R190 to R193). -/

namespace Sys2Proof.Machine

/-- One bit of a byte set to a level. -/
def setBit (v : Byte) (i : Nat) (b : Bool) : Byte :=
  if b then v ||| (1#8 <<< i) else v &&& ~~~(1#8 <<< i)

/-- `new[pos(f)] <- b` when the set names the field (40_expander_io.md R104). -/
def setField (v : Byte) (i : Nat) : Option Bool → Byte
  | none => v
  | some b => setBit v i b

/-- The byte an update makes of the cached one: E=0, DI=1, RW=2, RST=3, CS1=4, CS2=5, BL=7, and bit 6
cleared (40_expander_io.md R104). -/
def applySet (s : CtrlSet) (ctrl : Byte) : Byte :=
  let v := setField ctrl 0 s.e
  let v := setField v 1 s.di
  let v := setField v 2 s.rw
  let v := setField v 3 s.rst
  let v := setField v 4 s.cs1
  let v := setField v 5 s.cs2
  let v := setField v 7 s.bl
  setBit v 6 false

/-- The fields of `ctrl` (10_state.md R22). -/
def ctrlE (v : Byte) : Bool := v.getLsbD 0
def ctrlDI (v : Byte) : Bool := v.getLsbD 1
def ctrlRW (v : Byte) : Bool := v.getLsbD 2
def ctrlRST (v : Byte) : Bool := v.getLsbD 3
def ctrlCS1 (v : Byte) : Bool := v.getLsbD 4
def ctrlCS2 (v : Byte) : Bool := v.getLsbD 5
def ctrlBL (v : Byte) : Bool := v.getLsbD 7

/-- The cell after a write of `v`: "sets dirty=true only if the value actually differs" (43_framebuffer.md
R190). -/
def FbCell.put (cell : FbCell) (v : Byte) : FbCell :=
  if cell.value = v then cell else { value := v, dirty := true }

/-- The maximal runs `[a, b)` of dirty columns, left to right, of the dirty bits from column `c` on; the
second argument is where a run that is open began (43_framebuffer.md R193). -/
def dirtyRunsFrom : Nat → Option Nat → List Bool → List (Nat × Nat)
  | _, none, [] => []
  | c, some a, [] => [(a, c)]
  | c, none, d :: ds => if d then dirtyRunsFrom (c + 1) (some c) ds else dirtyRunsFrom (c + 1) none ds
  | c, some a, d :: ds =>
    if d then dirtyRunsFrom (c + 1) (some a) ds else (a, c) :: dirtyRunsFrom (c + 1) none ds

/-- The dirty runs of a row given by its dirty bits (43_framebuffer.md R193). -/
def dirtyRuns (ds : List Bool) : List (Nat × Nat) := dirtyRunsFrom 0 none ds

end Sys2Proof.Machine
end

