-- ==== Sys2Proof/Machine/Ops.lean ====
section
/-! DEFINITION. The operations every meaning is built from: memory and framebuffer accessors, the
environment's reactions, sequencing and errors (00_scope.md R13, R14), the two transport calls
(40_expander_io.md R100), pins and waits, the register bodies and the control update (R102 to R106), and
the return to the caller. -/

namespace Sys2Proof.Machine

/-! ## Memory -/

/-- The value at an address; none where the model knows none (log 23). -/
def Memory.read? : Memory → Nat → Option Byte
  | [], _ => none
  | (b, w) :: m, a => if a = b then some w else Memory.read? m a

/-- Store a byte, keeping the addresses strictly rising. -/
def Memory.write : Memory → Nat → Byte → Memory
  | [], a, v => [(a, v)]
  | (b, w) :: m, a, v =>
    if a < b then (a, v) :: (b, w) :: m
    else if a = b then (a, v) :: m
    else (b, w) :: Memory.write m a v

/-- Forget the byte at an address. -/
def Memory.erase : Memory → Nat → Memory
  | [], _ => []
  | (b, w) :: m, a => if a = b then m else (b, w) :: Memory.erase m a

/-- Every listed address is above `lo` (when there is one) and they rise strictly. -/
def Memory.risingFrom : Option Nat → Memory → Bool
  | _, [] => true
  | none, (b, _) :: m => Memory.risingFrom (some b) m
  | some lo, (b, _) :: m => lo < b && Memory.risingFrom (some b) m

/-- The canonical form: addresses strictly rising. No entry can equal what an unlisted address reads as,
since that has no value. -/
def Memory.wf (m : Memory) : Bool := Memory.risingFrom none m

/-- Store consecutive bytes. -/
def Memory.writeMany : Memory → Nat → List Byte → Memory
  | m, _, [] => m
  | m, a, v :: vs => Memory.writeMany (Memory.write m a v) (a + 1) vs

/-- Forget the bytes at addresses. -/
def Memory.eraseMany : Memory → List Nat → Memory
  | m, [] => m
  | m, a :: as => Memory.eraseMany (Memory.erase m a) as

/-! ## The framebuffer (10_state.md R23) -/

/-- `fb[r][c]`; a clean zero cell outside the grid, where no operation looks (20_memory.md R52). -/
def FrameBuffer.cell (fb : FrameBuffer) (r c : Nat) : FbCell :=
  ((fb[r]?).bind (fun row => row[c]?)).getD { value := 0#8, dirty := false }

/-- `fb[r][c] <- x`. -/
def FrameBuffer.setCell (fb : FrameBuffer) (r c : Nat) (x : FbCell) : FrameBuffer :=
  match fb[r]? with
  | none => fb
  | some row => fb.setIfInBounds r (row.setIfInBounds c x)

/-- The dirty bits of a byte-row, column 0 first. -/
def FrameBuffer.rowDirty (fb : FrameBuffer) (r : Nat) : List Bool :=
  (List.range 128).map (fun c => (fb.cell r c).dirty)

/-- The values of columns `[a, b)` of a byte-row. -/
def FrameBuffer.values (fb : FrameBuffer) (r a b : Nat) : List Byte :=
  (List.range' a (b - a)).map (fun x => (fb.cell r x).value)

/-- Clear the dirty bits of `n` columns from `a` on (43_framebuffer.md R194). -/
def FrameBuffer.clean (fb : FrameBuffer) (r : Nat) : Nat → Nat → FrameBuffer
  | _, 0 => fb
  | a, n + 1 => FrameBuffer.clean (fb.setCell r a { (fb.cell r a) with dirty := false }) r (a + 1) n

/-! ## The environment: the LCD controllers (41_parallel_bus.md R140 to R148) -/

/-- A chip whose registers and RAM are unspecified (10_state.md R33, I10): free registers, no known RAM. -/
def Lcd.unspecified (d : Nat) : Lcd :=
  { on := (Config.freeByte d).getLsbD 0
    startLine := (Config.freeByte (d + 1)).setWidth 6
    page := (Config.freeByte (d + 2)).setWidth 3
    col := (Config.freeByte (d + 3)).setWidth 6
    ram := [] }

/-- A delivered data byte (41_parallel_bus.md R146): written at page and column, then the column advances
modulo 64 (PRESUMED by the spec, K12). -/
def Lcd.takeData (l : Lcd) (d : Byte) : Lcd :=
  { l with ram := l.ram.write (ramAddr l.page l.col) d, col := l.col + 1#6 }

/-- A delivered instruction byte (41_parallel_bus.md R142 to R145); a reserved one is refused (R148). -/
def Lcd.takeInstruction (l : Lcd) (b : Byte) : Option Lcd :=
  match classify b with
  | .power on => some { l with on := on }
  | .setColumn y => some { l with col := y }
  | .setPage p => some { l with page := p }
  | .setStartLine n => some { l with startLine := n }
  | .reserved => none

/-- A delivered bus word (41_parallel_bus.md R140). -/
def Lcd.take (l : Lcd) (di : Bool) (b : Byte) : Option Lcd :=
  if di then some (l.takeData b) else l.takeInstruction b

/-- The environment's chip `k`. -/
def State.lcd (s : State) : Chip → Option Lcd
  | .chip1 => s.lcd1
  | .chip2 => s.lcd2

/-- Replace the environment's chip `k`. -/
def State.setLcd (s : State) (k : Chip) (l : Option Lcd) : State :=
  { s with lcd1 := if k = .chip1 then l else s.lcd1, lcd2 := if k = .chip2 then l else s.lcd2 }

/-- Deliver a bus word to chip `k` (41_parallel_bus.md R140). -/
def State.deliver (s : State) (k : Chip) (di : Bool) (b : Byte) : State :=
  s.setLcd k ((s.lcd k).bind (fun l => l.take di b))

/-- "If that write itself fails, delivery is a draw: delivered or not" (41_parallel_bus.md R140, I12). -/
def State.deliverDrawn (s : State) (k : Chip) (di : Bool) (b : Byte) : State :=
  { s.setLcd k (if (Config.freeByte s.draws).getLsbD 0 then (s.lcd k).bind (fun l => l.take di b) else s.lcd k)
    with draws := s.draws + 1 }

/-- After a data read the chip's column is unknown (41_parallel_bus.md R147, I9). -/
def State.forgetColumn (s : State) (k : Chip) : State :=
  { s.setLcd k ((s.lcd k).map (fun l => { l with col := (Config.freeByte s.draws).setWidth 6 }))
    with draws := s.draws + 1 }

/-- A control frame that carries RST = 0 asserts the panel reset, after which the chips' values are
unspecified (10_state.md R22, R33; log 12).
A FAILED frame that carries RST = 1 leaves both chips as they were, which is the model's choice (log 32, DESIGN
CHOICE, unsafe): R30 has such a frame latched or not, D32 and I7 let the port hold any byte, RST = 0 too. -/
def State.panelHeld (s : State) (frame : Byte) : State :=
  { s with
    lcd1 := if ctrlRST frame then s.lcd1 else s.lcd1.map (fun _ => Lcd.unspecified s.draws)
    lcd2 := if ctrlRST frame then s.lcd2 else s.lcd2.map (fun _ => Lcd.unspecified (s.draws + 4))
    draws := if ctrlRST frame then s.draws else s.draws + 8 }

/-- The byte a chip's RAM holds, where the model knows one (10_state.md R33). -/
def Lcd.byteAt (l : Lcd) (page localColumn : Nat) : Option Byte := l.ram.read? (page * 64 + localColumn)

/-- The byte the panel holds at a page and a logical column (20_memory.md R54). -/
def State.panelByte (s : State) (page c : Nat) : Option Byte :=
  (s.lcd (chipOf c)).bind (fun l => l.byteAt page (localCol c))

/-! ## The environment: the expander's registers (10_state.md R32; log 15) -/

/-- A frame that stored `v` in register `a`: known if `a` is one of the four addresses, and if it is not,
its effect on the registers is unknown (I2). -/
def State.expStored (s : State) (a v : Byte) : State :=
  { s with exp := if Params.isNamed s.params a then s.exp.write a.toNat v else [] }

/-- A failed write frame to register `a`: its value is unknown (I7, D32). A failed read: `State.expRead`. -/
def State.expLost (s : State) (a : Byte) : State :=
  { s with exp := if Params.isNamed s.params a then s.exp.erase a.toNat else [] }

/-- A read frame, answered or failed: no effect is stated for the four addresses (log 15, DEDUCED); for another
it is unknown (I2). That a FAILED read keeps a known value too is the model's choice (log 31, DESIGN CHOICE,
unsafe): I7 speaks of any failed frame to a register, D32 of a failed write only. -/
def State.expRead (s : State) (a : Byte) : State :=
  { s with exp := if Params.isNamed s.params a then s.exp else [] }

/-- Every address of a burst is one of the four. -/
def Params.namesBurst (p : Params) (addr : Byte) (n : Nat) : Bool :=
  (burstAddrs addr n).all (fun a => (p.addresses.map (fun b => b.toNat)).contains a)

/-- A burst that succeeded (K8: payload byte `i` goes to register `addr + i`). -/
def State.expBurstStored (s : State) (addr : Byte) (vs : List Byte) : State :=
  { s with exp := if Params.namesBurst s.params addr vs.length then s.exp.writeMany addr.toNat vs else [] }

/-- A burst that failed. -/
def State.expBurstLost (s : State) (addr : Byte) (n : Nat) : State :=
  { s with exp := if Params.namesBurst s.params addr n then s.exp.eraseMany (burstAddrs addr n) else [] }

/-- The hardware reset of the expander, and the panel as boot finds it: every value unspecified (I10, I11). -/
def State.environmentUnspecified (s : State) : State :=
  { s with exp := [], lcd1 := some (Lcd.unspecified s.draws), lcd2 := some (Lcd.unspecified (s.draws + 4)),
           draws := s.draws + 8 }

/-! ## Sequencing and errors (00_scope.md R13, R14; 60_exceptions.md R220 to R227) -/

/-- How a piece of an operation ends: with a value, by raising an error in the state reached so far
(nothing done before is undone), or stuck in a transport call. -/
inductive Ran (α : Type) where
  | ok (a : α) (s : State)
  | err (e : Err) (s : State)
  | stuck (f : Fault)

/-- A piece of an operation. -/
abbrev Action (α : Type) := State → Ran α

/-- `return v`. -/
def Action.ret {α : Type} (a : α) : Action α := fun s => .ok a s

/-- TAKING AN EXCEPTION: `raise e` ends the operation in the state reached, changes no mode, saves
nothing, and transfers control only back to the caller (00_scope.md R13, 60_exceptions.md R224). -/
def Action.raise {α : Type} (e : Err) : Action α := fun s => .err e s

/-- Statements run in the order written; one that raises ends the operation at once (00_scope.md R14). -/
def Action.bind {α β : Type} (p : Action α) (q : α → Action β) : Action β := fun s =>
  match p s with
  | .ok a t => q a t
  | .err e t => .err e t
  | .stuck f => .stuck f

/-- One statement after another, the first one's value unused. -/
def Action.andThen {α β : Type} (p : Action α) (q : Action β) : Action β := p.bind (fun _ => q)

/-- Statements in the order listed. -/
def Action.inOrder : List (Action Unit) → Action Unit
  | [] => Action.ret ()
  | p :: ps => p.andThen (Action.inOrder ps)

/-- `for x in xs: f x`. -/
def Action.forEach {α : Type} (f : α → Action Unit) : List α → Action Unit
  | [] => Action.ret ()
  | x :: xs => (f x).andThen (Action.forEach f xs)

/-- A change of state that emits nothing and cannot fail. -/
def Action.change (f : State → State) : Action Unit := fun s => .ok () (f s)

/-! ## Trace events, transport, pins and waits -/

/-- Append one event to the trace (00_scope.md R16). -/
def State.emit (s : State) (e : Event) : State := { s with trace := s.trace ++ [.event e] }

/-- `SpiWrite(bytes)`: one transport call, answered by the oracle with a count (40_expander_io.md R100).
Answers the state does not list count every byte as transferred (log 4). -/
def spiWrite (bytes : List Byte) : Action Nat := fun s =>
  match s.answers with
  | [] => .ok bytes.length (s.emit (.spiWrite bytes))
  | .reply k _ _ _ :: rest => .ok k ({ s with answers := rest }.emit (.spiWrite bytes))
  | .hang :: _ => .stuck .transportHang

/-- `SpiTransfer(tx)` of a three-byte frame: a count and three received bytes (40_expander_io.md R100). -/
def spiTransfer (tx : List Byte) : Action (Nat × Byte) := fun s =>
  match s.answers with
  | [] =>
    let d := s.draws
    .ok (tx.length, Config.freeByte (d + 2))
      ({ s with draws := d + 3 }.emit
        (.spiTransfer tx [Config.freeByte d, Config.freeByte (d + 1), Config.freeByte (d + 2)]))
  | .reply k r0 r1 r2 :: rest => .ok (k, r2) ({ s with answers := rest }.emit (.spiTransfer tx [r0, r1, r2]))
  | .hang :: _ => .stuck .transportHang

/-- `Pin(name, level)`: always succeeds; the block records the level (40_expander_io.md R101). -/
def State.drivePin (s : State) (n : PinName) (level : Bool) : State :=
  { s.emit (.pin n level) with
    xcs := if n = .xcs then level else s.xcs, xrst := if n = .xrst then level else s.xrst }

/-- `Delay(name)`: one blocking wait (00_scope.md R11). -/
def delay (w : Wait) : Action Unit := Action.change (fun s => s.emit (.delay w))

/-! ## Register writes and reads, and the control update (40_expander_io.md R102 to R106) -/

/-- The body of `exp.writeRegister`, without its refusal of A_CTRL (40_expander_io.md R102, R104). -/
def writeRegisterBody (a v : Byte) : Action Unit := fun s =>
  match spiWrite [expOpWrite, a, v] s with
  | .ok k t => if k = 3 then .ok () (t.expStored a v) else Action.raise .transportError (t.expLost a)
  | .err e t => .err e t
  | .stuck f => .stuck f

/-- The body of `exp.writeRegisterBurst` (40_expander_io.md R103). -/
def writeBurstBody (a : Byte) (vs : List Byte) : Action Unit := fun s =>
  match spiWrite (expOpWrite :: a :: vs) s with
  | .ok k t =>
    if k = 2 + vs.length then .ok () (t.expBurstStored a vs)
    else Action.raise .transportError (t.expBurstLost a vs.length)
  | .err e t => .err e t
  | .stuck f => .stuck f

/-- The body of `exp.readRegister` (40_expander_io.md R105). A read that fails leaves the known value of a named
register as it was, which is the model's choice (10_state.md R32, I7, D32; log 31, DESIGN CHOICE). -/
def readRegisterBody (a : Byte) : Action Byte := fun s =>
  match spiTransfer [expOpRead, a, 0#8] s with
  | .ok (k, r) t => if k = 3 then .ok r (t.expRead a) else Action.raise .transportError (t.expRead a)
  | .err e t => .err e t
  | .stuck f => .stuck f

/-- Write the control port: `ctrl` takes the byte only after a successful write (40_expander_io.md R104,
10_state.md R21). Used by the control update and by the boot write (70_reset_and_hazards.md R251). -/
def controlWrite (new : Byte) : Action Unit := fun s =>
  match writeRegisterBody s.params.aCtrl new s with
  | .ok _ t => .ok () ({ t with ctrl := new }.panelHeld new)
  | .err e t => .err e (t.panelHeld new)
  | .stuck f => .stuck f

/-- The body of `ctrl.update`: suppressed when the byte equals the cache (40_expander_io.md R104). -/
def updateBody (set : CtrlSet) : Action Unit := fun s =>
  let new := applySet set s.ctrl
  if new = s.ctrl then .ok () s else controlWrite new s

/-- `dataDir(DDR_OUT)`, `dataDir(DDR_IN)`, `dataOut(v)`, `dataIn()`: never suppressed (40_expander_io.md R106). -/
def dataDirOut : Action Unit := fun s => writeRegisterBody s.params.aDataDir s.params.ddrOut s
def dataDirIn : Action Unit := fun s => writeRegisterBody s.params.aDataDir s.params.ddrIn s
def dataOut (v : Byte) : Action Unit := fun s => writeRegisterBody s.params.aData v s
def dataIn : Action Byte := fun s => readRegisterBody s.params.aData s

/-! ## The return to the caller -/

/-- The three outcomes of an operation. -/
abbrev Outcome := Host.Outcome State Fault Refusal

/-- Record the result an operation returns (00_scope.md R16, R19; nothing else stores it, 10_state.md R28). -/
def State.record (s : State) (r : OpResult) : State := { s with trace := s.trace ++ [.result r] }

/-- The return to the caller, after success or after an error: the machine goes on (60_exceptions.md R224,
R225); a hang has no further step (R227). -/
def Ran.finish : Ran Value → Outcome
  | .ok v s => .next (s.record (.ok v))
  | .err e s => .next (s.record (.error e))
  | .stuck f => .fault f

/-- Perform an operation that requires Ready; while Absent it is refused (10_state.md R29). -/
def State.perform (s : State) (p : Action Value) : Outcome :=
  match s.phase with
  | .absent => .refused .absent
  | .ready => (p s).finish

/-- An operation whose result is the unit value (00_scope.md R19). -/
def Action.unit (p : Action Unit) : Action Value := p.andThen (Action.ret .unit)

/-- Refuse where the rule refuses; before that, an Absent block refuses everything (10_state.md R29). -/
def State.refuseWith (s : State) (r : Refusal) : Outcome :=
  match s.phase with
  | .absent => .refused .absent
  | .ready => .refused r

/-! ## Fetching the caller's next request (10_state.md R27) -/

/-- The request at the head of the caller's queue, decoded, and the state without it. -/
def State.fetch (s : State) : Option (Except DecodeError Instr × State) :=
  match s.calls with
  | [] => none
  | q :: rest => some (decode q, { s with calls := rest })

/-- The state with the table word `w` of `nbits` bits where `fetch` looks next. -/
def State.placeTableWord (s : State) (nbits w : Nat) : State :=
  { s with calls := requestOfTableWord nbits w :: s.calls }

end Sys2Proof.Machine
end

