-- ==== Sys2Proof/Machine/ParallelBus.lean ====
section
/-! DEFINITION. ParallelBusProtocol (41_parallel_bus.md): the two bus sequences and the panel primitives. -/

namespace Sys2Proof.Machine

/-! ## The bus sequences -/

/-- The control write of step 4, on whose Enable toggle the chip takes the byte (41_parallel_bus.md R120,
R140, R141). -/
def enableToggle (k : Chip) (di : Bool) (b : Byte) : Action Unit := fun s =>
  match updateBody { e := some false } s with
  | .ok _ t => .ok () (t.deliver k di b)
  | .err e t => .err e (t.deliverDrawn k di b)
  | .stuck f => .stuck f

/-- `bus.write chip, di, byte` (41_parallel_bus.md R120, steps 1 to 7). -/
def busWriteSeq (k : Chip) (di : Bool) (b : Byte) : Action Unit :=
  Action.inOrder
    [ updateBody { di := some di, rw := some false, e := some true },
      dataDirOut,
      dataOut b,
      updateBody (selectSet k),
      delay .tPre,
      enableToggle k di b,
      delay .tPost,
      updateBody deselectSet,
      updateBody { e := some true, rw := some true },
      dataDirIn ]

/-- From the select step of a data read on, the chip's column is unknown (41_parallel_bus.md R147; log 13). -/
def readDisturbs (k : Chip) (di : Bool) : Action Unit :=
  Action.change (fun s => if di then s.forgetColumn k else s)

/-- `bus.read chip, di` (41_parallel_bus.md R121). -/
def busReadSeq (k : Chip) (di : Bool) : Action Byte :=
  (Action.inOrder
    [ dataDirIn,
      updateBody { di := some di, rw := some true },
      readDisturbs k di,
      updateBody (selectSet k),
      updateBody { e := some true },
      delay .tRead ]).andThen
  (dataIn.bind fun v =>
    (Action.inOrder
      [ updateBody deselectSet,
        updateBody { e := some true, rw := some true } ]).andThen
    (Action.ret v))

/-- `bus.write` (41_parallel_bus.md R120). -/
def execBusWrite (chip : Chip) (di : Bool) (byte : Byte) (s : State) : Outcome :=
  s.perform (busWriteSeq chip di byte).unit

/-- `bus.read` (41_parallel_bus.md R121). -/
def execBusRead (chip : Chip) (di : Bool) (s : State) : Outcome :=
  s.perform ((busReadSeq chip di).bind (fun b => Action.ret (.byte b)))

/-! ## The panel primitives, each one bus sequence (30_encoding.md R82) -/

/-- 41_parallel_bus.md R125. -/
def lcdPower (k : Chip) (on : Bool) : Action Unit := busWriteSeq k false (powerByte on)

/-- 41_parallel_bus.md R126. -/
def lcdSetStartLine (k : Chip) (line : Nat) : Action Unit := busWriteSeq k false (startLineByte line)

/-- 41_parallel_bus.md R127. -/
def lcdSetPage (k : Chip) (page : Nat) : Action Unit := busWriteSeq k false (pageByte page)

/-- 41_parallel_bus.md R128. -/
def lcdSetColumn (k : Chip) (col : Nat) : Action Unit := busWriteSeq k false (columnByte col)

/-- 41_parallel_bus.md R129. -/
def lcdWriteData (k : Chip) (v : Byte) : Action Unit := busWriteSeq k true v

/-- `lcd.power` (41_parallel_bus.md R125). -/
def execLcdPower (chip : Chip) (on : Bool) (s : State) : Outcome := s.perform (lcdPower chip on).unit

/-- `lcd.setStartLine` (41_parallel_bus.md R126). -/
def execLcdSetStartLine (chip : Chip) (line : Nat) (s : State) : Outcome :=
  s.perform (lcdSetStartLine chip line).unit

/-- `lcd.setPage` (41_parallel_bus.md R127). -/
def execLcdSetPage (chip : Chip) (page : Nat) (s : State) : Outcome := s.perform (lcdSetPage chip page).unit

/-- `lcd.setColumn` (41_parallel_bus.md R128). -/
def execLcdSetColumn (chip : Chip) (col : Nat) (s : State) : Outcome := s.perform (lcdSetColumn chip col).unit

/-- `lcd.writeData` (41_parallel_bus.md R129). -/
def execLcdWriteData (chip : Chip) (value : Byte) (s : State) : Outcome := s.perform (lcdWriteData chip value).unit

/-- `lcd.readStatus` (41_parallel_bus.md R130): the byte is returned uninterpreted. -/
def execLcdReadStatus (chip : Chip) (s : State) : Outcome :=
  s.perform ((busReadSeq chip false).bind (fun b => Action.ret (.byte b)))

/-- `lcd.readData` (41_parallel_bus.md R131). -/
def execLcdReadData (chip : Chip) (s : State) : Outcome :=
  s.perform ((busReadSeq chip true).bind (fun b => Action.ret (.byte b)))

end Sys2Proof.Machine
end

