-- ==== Sys2Proof/Machine/DualChipPanel.lean ====
section
/-! DEFINITION. DualChipPanel (42_dual_chip_panel.md). -/

namespace Sys2Proof.Machine

/-- One chip segment of a run: set page, set column, then the data bytes (42_dual_chip_panel.md R162). -/
def writeSegment (k : Chip) (page col : Nat) (bytes : List Byte) : Action Unit :=
  Action.inOrder [lcdSetPage k page, lcdSetColumn k col, Action.forEach (lcdWriteData k) bytes]

/-- How many bytes of a run of `n` from `column` go to Chip1 (42_dual_chip_panel.md R162). -/
def chip1Count (column n : Nat) : Nat := if column < 64 then min n (64 - column) else 0

/-- How many go to Chip2, "capped at 64 total columns on that chip" (42_dual_chip_panel.md R162, R163). -/
def chip2Count (column n : Nat) : Nat :=
  let written := chip1Count column n
  if n - written > 0 then min (n - written) (64 - ((column + written) - 64)) else 0

/-- `panel.setBytesAt`: the geometry check before any traffic, then one segment for each chip the run
touches; it returns how many bytes were written (42_dual_chip_panel.md R161, R162). -/
def setBytesAtSeq (byteRow column : Nat) (bytes : List Byte) : Action Nat :=
  let n := bytes.length
  if runFits byteRow column n then
    let n1 := chip1Count column n
    let n2 := chip2Count column n
    (Action.inOrder
      [ if column < 64 ∧ 0 < n then writeSegment .chip1 byteRow column (bytes.take n1) else Action.ret (),
        if 0 < n2 then writeSegment .chip2 byteRow ((column + n1) - 64) ((bytes.drop n1).take n2)
          else Action.ret () ]).andThen
    (Action.ret (n1 + n2))
  else Action.raise .geometryError

/-- `panel.setOnOff`: Chip1, then Chip2 (42_dual_chip_panel.md R164). -/
def setOnOffSeq (on : Bool) : Action Unit := Action.inOrder [lcdPower .chip1 on, lcdPower .chip2 on]

/-- One page of one chip written with 64 zeros (42_dual_chip_panel.md R165). -/
def clearPage (k : Chip) (p : Nat) : Action Unit := writeSegment k p 0 (List.replicate 64 0x00#8)

/-- `panel.clear`: Chip1 pages 0 to 7, then Chip2 (42_dual_chip_panel.md R165). -/
def clearSeq : Action Unit :=
  Action.forEach (fun k => Action.forEach (clearPage k) (List.range 8)) [.chip1, .chip2]

/-- `panel.setBacklight`: one control update (42_dual_chip_panel.md R166). -/
def setBacklightSeq (on : Bool) : Action Unit := updateBody { bl := some on }

/-- `panel.setBytesAt` (42_dual_chip_panel.md R162). -/
def execPanelSetBytesAt (byteRow column : Nat) (bytes : List Byte) (s : State) : Outcome :=
  s.perform ((setBytesAtSeq byteRow column bytes).bind (fun n => Action.ret (.nat n)))

/-- `panel.setOnOff` (42_dual_chip_panel.md R164). -/
def execPanelSetOnOff (on : Bool) (s : State) : Outcome := s.perform (setOnOffSeq on).unit

/-- `panel.clear` (42_dual_chip_panel.md R165). -/
def execPanelClear (s : State) : Outcome := s.perform clearSeq.unit

/-- `panel.setBacklight` (42_dual_chip_panel.md R166). -/
def execPanelSetBacklight (on : Bool) (s : State) : Outcome := s.perform (setBacklightSeq on).unit

/-- `panel.getBacklight`: the cached bit, with no event (42_dual_chip_panel.md R167, 90_conflicts.md C2). -/
def execPanelGetBacklight (s : State) : Outcome :=
  s.perform (fun t => .ok (.flag (ctrlBL t.ctrl)) t)

end Sys2Proof.Machine
end

