-- ==== Sys2Proof/Machine/FrameBuffer.lean ====
section
/-! DEFINITION. FrameBuffer (43_framebuffer.md). -/

namespace Sys2Proof.Machine

/-- Write a byte with change detection (43_framebuffer.md R190). -/
def FrameBuffer.putByte (fb : FrameBuffer) (r c : Nat) (v : Byte) : FrameBuffer :=
  fb.setCell r c ((fb.cell r c).put v)

/-- Set or clear a pixel: `old | (1 << i)` or `old & ~(1 << i)` (43_framebuffer.md R191). -/
def FrameBuffer.putPixel (fb : FrameBuffer) (y c : Nat) (on : Bool) : FrameBuffer :=
  fb.putByte (pixelRow y) c (setBit (fb.cell (pixelRow y) c).value (pixelBit y) on)

/-- Copy one matrix row from column `c` on (43_framebuffer.md R192). -/
def FrameBuffer.putRow : FrameBuffer → Nat → Nat → List Bool → FrameBuffer
  | fb, _, _, [] => fb
  | fb, y, c, b :: bs => FrameBuffer.putRow (fb.putPixel y c b) y (c + 1) bs

/-- Copy the matrix rows from pixel row `y` on (43_framebuffer.md R192). -/
def FrameBuffer.putMatrix : FrameBuffer → Nat → Nat → List (List Bool) → FrameBuffer
  | fb, _, _, [] => fb
  | fb, y, c, row :: rows => FrameBuffer.putMatrix (FrameBuffer.putRow fb y c row) (y + 1) c rows

/-- A setter: `GeometryError` with no change where the address is illegal (20_memory.md R52), else the
change; no event either way. -/
def setterSeq (legal : Bool) (f : FrameBuffer → FrameBuffer) : Action Unit :=
  if legal then Action.change (fun s => { s with fb := f s.fb }) else Action.raise .geometryError

/-- Flush one dirty run `[a, b)` of byte-row `r`: one burst, then the run's dirty bits (43_framebuffer.md
R194). A short count raises GeometryError (unreachable, R163, I19). -/
def flushRun (r : Nat) (run : Nat × Nat) : Action Unit := fun s =>
  ((setBytesAtSeq r run.1 (s.fb.values r run.1 run.2)).bind fun k =>
    if k = run.2 - run.1 then Action.change (fun t => { t with fb := t.fb.clean r run.1 (run.2 - run.1) })
    else Action.raise .geometryError) s

/-- Flush a byte-row, its runs left to right (43_framebuffer.md R194, R196). -/
def flushRow (r : Nat) : Action Unit := fun s =>
  Action.forEach (flushRun r) (dirtyRuns (s.fb.rowDirty r)) s

/-- `fb.writeBack`: byte-rows 0 to 7 in order (43_framebuffer.md R194). -/
def writeBackSeq : Action Unit := Action.forEach flushRow (List.range 8)

/-- `fb.setByte` (43_framebuffer.md R190). -/
def execFbSetByte (byteRow column : Nat) (value : Byte) (s : State) : Outcome :=
  s.perform (setterSeq (fbLegal byteRow column) (fun fb => fb.putByte byteRow column value)).unit

/-- `fb.setBit` (43_framebuffer.md R191). -/
def execFbSetBit (row column : Nat) (value : Bool) (s : State) : Outcome :=
  s.perform (setterSeq (pixelLegal row column) (fun fb => fb.putPixel row column value)).unit

/-- `fb.setBitMatrix` (43_framebuffer.md R192): a ragged matrix is refused (D21); rows of width 0 that run past
pixel row 63 raise GeometryError (log 30). -/
def execFbSetBitMatrix (row0 col0 : Nat) (m : List (List Bool)) (s : State) : Outcome :=
  if matrixRectangular m then
    s.perform (setterSeq (matrixFits row0 col0 m.length (matrixWidth m))
      (fun fb => FrameBuffer.putMatrix fb row0 col0 m)).unit
  else s.refuseWith .raggedMatrix

/-- `fb.writeBack` (43_framebuffer.md R194). -/
def execFbWriteBack (s : State) : Outcome := s.perform writeBackSeq.unit

end Sys2Proof.Machine
end

