-- ==== Sys2Proof/Machine/Boot.lean ====
section
/-! DEFINITION. The boot operation (70_reset_and_hazards.md R250 to R256). -/

namespace Sys2Proof.Machine

/-- The control byte of the boot write: E = 1, DI = 0, RW = 1, RST = 0, no chip selected, BL = 0
(70_reset_and_hazards.md R251). -/
def bootControlByte : Byte := 0x05#8

/-- `Pin(XCS, 1)`, `Pin(XRST, 0)`: the expander's hardware reset is asserted, after which nothing of the
environment is known (70_reset_and_hazards.md R250, I10, I11). -/
def bootPinsLow : Action Unit :=
  Action.change (fun s => ((s.drivePin .xcs true).drivePin .xrst false).environmentUnspecified)

/-- `Pin(XRST, 1)` (70_reset_and_hazards.md R250). -/
def bootPinHigh : Action Unit := Action.change (fun s => s.drivePin .xrst true)

/-- `exp.writeRegister A_CTRL_DIR, CTRL_DIR_VALUE` (70_reset_and_hazards.md R250). -/
def ctrlDirOut : Action Unit := fun s => writeRegisterBody s.params.aCtrlDir s.params.ctrlDirValue s

/-- The framebuffer all dirty with value 0, and the phase Ready (70_reset_and_hazards.md R250, R253). -/
def bootDone : Action Unit := Action.change (fun s => { s with fb := .boot, phase := .ready })

/-- The boot sequence (70_reset_and_hazards.md R250). -/
def bootSeq : Action Unit :=
  Action.inOrder
    [ bootPinsLow,
      delay .tXrstLow,
      bootPinHigh,
      delay .tXrstRecover,
      controlWrite bootControlByte,
      ctrlDirOut,
      dataDirIn,
      delay .tLcdRst,
      updateBody { rst := some true },
      delay .tLcdRecover,
      lcdSetStartLine .chip1 0,
      lcdSetStartLine .chip2 0,
      clearSeq,
      setOnOffSeq true,
      setBacklightSeq false,
      bootDone ]

/-- `display.new` (70_reset_and_hazards.md R250): refused while Ready (R256); a failed boot leaves the block
Absent (60_exceptions.md R228), since only the last step sets the phase. -/
def execDisplayNew (s : State) : Outcome :=
  match s.phase with
  | .ready => .refused .alreadyReady
  | .absent => (bootSeq.unit s).finish

end Sys2Proof.Machine
end

