-- ==== Sys2Proof/Machine/ExpanderIo.lean ====
section
/-! DEFINITION. ExpanderRegisterIO (40_expander_io.md). -/

namespace Sys2Proof.Machine

/-- `exp.writeRegister` (40_expander_io.md R102): a write of A_CTRL is refused (D33). -/
def execExpWriteRegister (addr value : Byte) (s : State) : Outcome :=
  if addr = s.params.aCtrl then s.refuseWith .directControlWrite
  else s.perform (writeRegisterBody addr value).unit

/-- `exp.writeRegisterBurst` (40_expander_io.md R103): an empty burst is refused (D12), and one whose range
contains A_CTRL (D33). -/
def execExpWriteRegisterBurst (addr : Byte) (values : List Byte) (s : State) : Outcome :=
  if values = [] then s.refuseWith .emptyBurst
  else if burstReaches s.params.aCtrl addr values.length then s.refuseWith .directControlWrite
  else s.perform (writeBurstBody addr values).unit

/-- `ctrl.update` (40_expander_io.md R104). -/
def execCtrlUpdate (set : CtrlSet) (s : State) : Outcome := s.perform (updateBody set).unit

/-- `exp.readRegister` (40_expander_io.md R105). -/
def execExpReadRegister (addr : Byte) (s : State) : Outcome :=
  s.perform ((readRegisterBody addr).bind (fun b => Action.ret (.byte b)))

end Sys2Proof.Machine
end

