-- ==== Sys2Proof/Machine/Dispatch.lean ====
section
/-! DEFINITION. The meaning of each operation, one arm for each constructor (30_encoding.md R80). -/

namespace Sys2Proof.Machine

def exec (i : Instr) (s : State) : Host.Outcome State Fault Refusal :=
  match i with
  | .expWriteRegister addr value => Sys2Proof.Machine.execExpWriteRegister addr value s
  | .expWriteRegisterBurst addr values => Sys2Proof.Machine.execExpWriteRegisterBurst addr values s
  | .ctrlUpdate set => Sys2Proof.Machine.execCtrlUpdate set s
  | .expReadRegister addr => Sys2Proof.Machine.execExpReadRegister addr s
  | .busWrite chip di byte => Sys2Proof.Machine.execBusWrite chip di byte s
  | .busRead chip di => Sys2Proof.Machine.execBusRead chip di s
  | .lcdPower chip on => Sys2Proof.Machine.execLcdPower chip on s
  | .lcdSetStartLine chip line => Sys2Proof.Machine.execLcdSetStartLine chip line s
  | .lcdSetPage chip page => Sys2Proof.Machine.execLcdSetPage chip page s
  | .lcdSetColumn chip col => Sys2Proof.Machine.execLcdSetColumn chip col s
  | .lcdWriteData chip value => Sys2Proof.Machine.execLcdWriteData chip value s
  | .lcdReadStatus chip => Sys2Proof.Machine.execLcdReadStatus chip s
  | .lcdReadData chip => Sys2Proof.Machine.execLcdReadData chip s
  | .panelSetBytesAt byteRow column bytes => Sys2Proof.Machine.execPanelSetBytesAt byteRow column bytes s
  | .panelSetOnOff on => Sys2Proof.Machine.execPanelSetOnOff on s
  | .panelClear => Sys2Proof.Machine.execPanelClear s
  | .panelSetBacklight on => Sys2Proof.Machine.execPanelSetBacklight on s
  | .panelGetBacklight => Sys2Proof.Machine.execPanelGetBacklight s
  | .fbSetByte byteRow column value => Sys2Proof.Machine.execFbSetByte byteRow column value s
  | .fbSetBit row column value => Sys2Proof.Machine.execFbSetBit row column value s
  | .fbSetBitMatrix row0 col0 m => Sys2Proof.Machine.execFbSetBitMatrix row0 col0 m s
  | .fbWriteBack => Sys2Proof.Machine.execFbWriteBack s
  | .displayNew => Sys2Proof.Machine.execDisplayNew s

end Sys2Proof.Machine
end

