-- ==== Sys2Proof/Machine/Step.lean ====
section
/-! DEFINITION. One step: the next request of the caller, decoded and performed (10_state.md R27; log 1). -/

namespace Sys2Proof.Machine

/-- One step: with nothing requested the block only waits ("it only acts when called", 60_exceptions.md
R235); else the request at the head of the queue is decoded and performed. -/
def step (s : State) : Host.Outcome State Fault Refusal :=
  match s.fetch with
  | none => .next s
  | some (.error e, _) => .refused (.undecodable e)
  | some (.ok i, t) => exec i t

/-- The state whose next request is the opcode-table word `w` of `nbits` bits (log 1, 8). -/
def State.withFetchWord (s : State) (nbits w : Nat) : State := s.placeTableWord nbits w

end Sys2Proof.Machine
end

