-- ==== Sys2Proof/Safety.lean ====
section
/-! DEFINITION. What counts as a good state and a good run, in the terms the statements use. -/

namespace Sys2Proof.Machine

/-! ## The transport's answers (40_expander_io.md R100) -/

/-- The answer counts `len` bytes as transferred. -/
def Answer.acks (len : Nat) : Answer → Bool
  | .reply k _ _ _ => k == len
  | .hang => false

/-- The next `n` transport calls are answered, each with the count of a 3-byte frame. -/
abbrev State.Acks (s : State) (n : Nat) : Prop := ∀ a ∈ s.answers.take n, a.acks 3 = true

/-! ## Control states (41_parallel_bus.md R122, R123) -/

/-- The idle control state: E = 1, RW = 1, CS1 = CS2 = 0, RST = 1, and bit 6 = 0 (41_parallel_bus.md R123). -/
abbrev Idle (v : Byte) : Prop :=
  ctrlE v = true ∧ ctrlRW v = true ∧ ctrlCS1 v = false ∧ ctrlCS2 v = false ∧ ctrlRST v = true
    ∧ v.getLsbD 6 = false

/-- Both chips selected at once (41_parallel_bus.md R122). -/
abbrev DoubleSelect (v : Byte) : Prop := ctrlCS1 v = true ∧ ctrlCS2 v = true

/-! ## Events (00_scope.md R16) -/

/-- The short form `W(a, v)` (00_scope.md R16). -/
abbrev evW (a v : Byte) : Event := .spiWrite [0x40#8, a, v]

/-- The items of a list of events. -/
abbrev items (es : List Event) : List TraceItem := es.map .event

/-- The control byte of a bus sequence from the idle state: DI of the sequence, RST = 1, the backlight of
the cache (30_encoding.md R74, 41_parallel_bus.md R120). -/
def seqByte (ctrl : Byte) (di e rw cs1 cs2 : Bool) : Byte := ctrlByte e di rw true cs1 cs2 (ctrlBL ctrl)

/-- The events of `bus.write` from the idle state, as 41_parallel_bus.md R120 lists them. -/
def busWriteEvents (p : Params) (ctrl : Byte) (k : Chip) (di : Bool) (b : Byte) : List Event :=
  [ evW p.aCtrl (seqByte ctrl di true false false false),
    evW p.aDataDir p.ddrOut,
    evW p.aData b,
    evW p.aCtrl (seqByte ctrl di true false (k = .chip1) (k = .chip2)),
    .delay .tPre,
    evW p.aCtrl (seqByte ctrl di false false (k = .chip1) (k = .chip2)),
    .delay .tPost,
    evW p.aCtrl (seqByte ctrl di false false false false),
    evW p.aCtrl (seqByte ctrl di true true false false),
    evW p.aDataDir p.ddrIn ]

/-- The events of `bus.read` from the idle state: the DI update emits a frame only if DI changes
(41_parallel_bus.md R121). -/
def busReadEvents (p : Params) (ctrl : Byte) (k : Chip) (di : Bool) (rx : List Byte) : List Event :=
  [ evW p.aDataDir p.ddrIn ]
  ++ (if ctrlDI ctrl = di then [] else [evW p.aCtrl (seqByte ctrl di true true false false)])
  ++ [ evW p.aCtrl (seqByte ctrl di true true (k = .chip1) (k = .chip2)),
       .delay .tRead,
       .spiTransfer [0x41#8, p.aData, 0x00#8] rx,
       evW p.aCtrl (seqByte ctrl di true true false false) ]

/-- A bus word with its chip: what one bus write sends (30_encoding.md R75). -/
abbrev SentWord := Chip × Bool × Byte

/-- The words of one chip segment: set page, set column, the data bytes (42_dual_chip_panel.md R162). -/
def segmentWords (k : Chip) (page col : Nat) (bytes : List Byte) : List SentWord :=
  if bytes = [] then []
  else (k, false, pageByte page) :: (k, false, columnByte col) :: bytes.map (fun b => (k, true, b))

/-- The words of `panel.setBytesAt`: the bytes left of column 64 to Chip1, the others to Chip2 from local
column 0, or from `column - 64` (42_dual_chip_panel.md R162). -/
def runWords (page column : Nat) (bytes : List Byte) : List SentWord :=
  segmentWords .chip1 page column (bytes.take (64 - column))
    ++ segmentWords .chip2 page (column - 64) (bytes.drop (64 - column))

/-- The words of `panel.clear` (42_dual_chip_panel.md R165). -/
def clearWords : List SentWord :=
  [Chip.chip1, Chip.chip2].flatMap fun k =>
    (List.range 8).flatMap fun p => segmentWords k p 0 (List.replicate 64 0x00#8)

/-- The words of `fb.writeBack`: one burst for each dirty run, rows in order, runs left to right
(43_framebuffer.md R194, R196). -/
def writeBackWords (fb : FrameBuffer) : List SentWord :=
  (List.range 8).flatMap fun r =>
    (dirtyRuns (fb.rowDirty r)).flatMap fun run => runWords r run.1 (fb.values r run.1 run.2)

/-- The events of bus writes from the idle state, one after another. -/
def wordsEvents (p : Params) (ctrl : Byte) (ws : List SentWord) : List Event :=
  ws.flatMap fun w => busWriteEvents p ctrl w.1 w.2.1 w.2.2

/-- The words of the bursts that `fb.writeBack` sends before the one of byte-row `r` that begins at column `a`:
earlier rows whole, and the runs of row `r` left of `a` (43_framebuffer.md R194, R195). -/
def writeBackWordsBefore (fb : FrameBuffer) (r a : Nat) : List SentWord :=
  (List.range 8).flatMap fun r' =>
    ((dirtyRuns (fb.rowDirty r')).filter fun run => r' < r || (r' = r && run.1 < a)).flatMap fun run =>
      runWords r' run.1 (fb.values r' run.1 run.2)

/-- The bus writes of a run of `n` bytes from column `c`: `n + 2 * segments` (43_framebuffer.md R196,
70_reset_and_hazards.md R266). -/
def runBusWrites (c n : Nat) : Nat :=
  if n = 0 then 0 else n + 2 * (if c < 64 ∧ 64 < c + n then 2 else 1)

/-- Counting events (70_reset_and_hazards.md R266). -/
def Event.isSpiWrite : Event → Bool
  | .spiWrite _ => true
  | _ => false
def Event.isSpiTransfer : Event → Bool
  | .spiTransfer _ _ => true
  | _ => false
def Event.isDelay : Event → Bool
  | .delay _ => true
  | _ => false
def Event.isPin : Event → Bool
  | .pin _ _ => true
  | _ => false

/-- A transport call: one SPI frame (40_expander_io.md R100). -/
def Event.isFrame (e : Event) : Bool := e.isSpiWrite || e.isSpiTransfer

/-- A three-byte write frame to register `a`. -/
def Event.isWriteTo (a : Byte) : Event → Bool
  | .spiWrite [_, x, _] => x == a
  | _ => false

/-- The byte a three-byte write frame to register `a` carries. -/
def Event.byteTo? (a : Byte) : Event → Option Byte
  | .spiWrite [_, x, v] => if x = a then some v else none
  | _ => none

/-- How many items of a trace are events of a kind. -/
def countEvents (f : Event → Bool) (items : List TraceItem) : Nat :=
  items.countP fun
    | .event e => f e
    | .result _ => false

/-- The counts of the four event forms (00_scope.md R16), in the order SPIW, SPIX, DELAY, PIN. -/
structure EventCounts where
  spiWrites    : Nat
  spiTransfers : Nat
  delays       : Nat
  pins         : Nat
deriving DecidableEq, Repr

/-- The counts of what was appended to the trace of `s` to give that of `t`. -/
def newCounts (s t : State) : EventCounts :=
  let new := t.trace.drop s.trace.length
  { spiWrites := countEvents Event.isSpiWrite new, spiTransfers := countEvents Event.isSpiTransfer new,
    delays := countEvents Event.isDelay new, pins := countEvents Event.isPin new }

/-- The operation returns Ok, having appended exactly so many events of each form. -/
def Counted (i : Instr) (s : State) (n : EventCounts) : Prop :=
  ∃ t v, exec i s = .next t ∧ t.trace.getLast? = some (.result (.ok v)) ∧ newCounts s t = n

/-! ## A sequence cut by a failing frame (00_scope.md R14, 60_exceptions.md R224) -/

/-- The events up to and including the transport call number `j` (from 0). -/
def throughFrame : Nat → List Event → List Event
  | _, [] => []
  | j, e :: es =>
    if e.isFrame then (match j with
      | 0 => [e]
      | j + 1 => e :: throughFrame j es)
    else e :: throughFrame j es

/-- A control byte with the given lines, and RST and BL as in `c` (30_encoding.md R74). -/
def lineByte (c : Byte) (di e rw cs1 cs2 : Bool) : Byte := ctrlByte e di rw (ctrlRST c) cs1 cs2 (ctrlBL c)

/-- The frame of a control update from `old` to `new`, suppressed when they are equal (40_expander_io.md R104),
with the cache after it. -/
def controlStep (p : Params) (old new : Byte) : List (Event × Byte) :=
  if new = old then [] else [(evW p.aCtrl new, new)]

/-- The events of `bus.write` from any control byte `c`, each with the control cache after it
(41_parallel_bus.md R120, steps 1 to 7). -/
def busWritePlan (p : Params) (c : Byte) (k : Chip) (di : Bool) (b : Byte) : List (Event × Byte) :=
  let w1 := lineByte c di true false (ctrlCS1 c) (ctrlCS2 c)
  let w3 := lineByte c di true false (k = .chip1) (k = .chip2)
  let w4 := lineByte c di false false (k = .chip1) (k = .chip2)
  let w5 := lineByte c di false false false false
  let w6 := lineByte c di true true false false
  controlStep p c w1 ++ [(evW p.aDataDir p.ddrOut, w1), (evW p.aData b, w1)] ++ controlStep p w1 w3
    ++ [(.delay .tPre, w3)] ++ controlStep p w3 w4 ++ [(.delay .tPost, w4)] ++ controlStep p w4 w5
    ++ controlStep p w5 w6 ++ [(evW p.aDataDir p.ddrIn, w6)]

/-- How many frames of `bus.write` from control byte `c` come before the one of its Enable toggle. -/
def framesBeforeEnable (c : Byte) (k : Chip) (di : Bool) : Nat :=
  let w1 := lineByte c di true false (ctrlCS1 c) (ctrlCS2 c)
  (if w1 = c then 0 else 1) + 2 + (if lineByte c di true false (k = .chip1) (k = .chip2) = w1 then 0 else 1)

/-- The events of `bus.read` from any control byte `c`, each with the control cache after it, when the sampling
transfer receives `rx` (41_parallel_bus.md R121). -/
def busReadPlan (p : Params) (c : Byte) (k : Chip) (di : Bool) (rx : List Byte) : List (Event × Byte) :=
  let w2 := lineByte c di (ctrlE c) true (ctrlCS1 c) (ctrlCS2 c)
  let w3 := lineByte c di (ctrlE c) true (k = .chip1) (k = .chip2)
  let w4 := lineByte c di true true (k = .chip1) (k = .chip2)
  let w5 := lineByte c di true true false false
  [(evW p.aDataDir p.ddrIn, c)] ++ controlStep p c w2 ++ controlStep p w2 w3 ++ controlStep p w3 w4
    ++ [(.delay .tRead, w4), (.spiTransfer [0x41#8, p.aData, 0x00#8] rx, w4)] ++ controlStep p w4 w5

/-- The control cache after the first `n` events of a plan that began at `c`. -/
def cacheAfter (c : Byte) (plan : List (Event × Byte)) (n : Nat) : Byte :=
  ((plan.take n).getLast?.map Prod.snd).getD c

/-- The last byte the write frames among some events carried to A_CTRL, or `c` when there is none
(10_state.md R21, 60_exceptions.md R224). -/
def lastControl (p : Params) (c : Byte) (es : List Event) : Byte :=
  ((es.filterMap (Event.byteTo? p.aCtrl)).getLast?).getD c

/-- An event of one of the three frame formats, or no frame at all (30_encoding.md R70). -/
def Event.wellFormedFrame : Event → Prop
  | .spiWrite bytes => ∃ a v vs, bytes = 0x40#8 :: a :: v :: vs
  | .spiTransfer tx rx => (∃ a, tx = [0x41#8, a, 0x00#8]) ∧ rx.length = 3
  | .pin _ _ => True
  | .delay _ => True

/-! ## What does not change -/

/-- The block's four parts of state are unchanged (10_state.md R20). -/
def State.SameBlock (s t : State) : Prop :=
  t.phase = s.phase ∧ t.ctrl = s.ctrl ∧ t.fb = s.fb ∧ t.xcs = s.xcs ∧ t.xrst = s.xrst

/-- The environment's view is unchanged. -/
def State.SameEnvironment (s t : State) : Prop := t.exp = s.exp ∧ t.lcd1 = s.lcd1 ∧ t.lcd2 = s.lcd2

/-- The byte chip `k`'s RAM holds, where the model knows one. -/
def State.chipByte (s : State) (k : Chip) (page col : Nat) : Option Byte :=
  (s.lcd k).bind (fun l => l.byteAt page col)

/-! ## Invariants -/

/-- The addresses of a memory lie below a bound. -/
def Memory.below (m : Memory) (n : Nat) : Bool := m.all (fun c => c.1 < n)

/-- A memory is canonical and within its address space (20_memory.md R50). -/
def Memory.good (m : Memory) (n : Nat) : Bool := m.wf && m.below n

/-- A chip's RAM is canonical and within its 512 addresses. -/
def Lcd.good (l : Option Lcd) : Bool :=
  match l with
  | none => true
  | some l => l.ram.good 512

/-- The structural invariant: canonical memories within their spaces (20_memory.md R50), control bit 6
clear (10_state.md R22), and both pins high while Ready (10_state.md R26). -/
def State.Inv (s : State) : Bool :=
  s.exp.good 256 && Lcd.good s.lcd1 && Lcd.good s.lcd2 && !s.ctrl.getLsbD 6
    && (s.phase == .absent || (s.xcs && s.xrst))

/-- "the cached copy must always equal the last value successfully written": where the device's control
port is known, it holds what the cache holds (10_state.md R21, R30). -/
def State.CacheAgrees (s : State) : Prop :=
  s.params.Distinct ∧ ∀ v, s.exp.read? s.params.aCtrl.toNat = some v → v = s.ctrl

/-- Every clean cell's value is what the panel holds there (10_state.md R24, 20_memory.md R68), with the
panel's reset released and no chip refused. -/
def State.Synced (s : State) : Prop :=
  ctrlRST s.ctrl = true ∧ s.lcd1 ≠ none ∧ s.lcd2 ≠ none ∧
    ∀ r c, r < 8 → c < 128 → (s.fb.cell r c).dirty = false → s.panelByte r c = some (s.fb.cell r c).value

/-- The operations that write the panel's RAM past the framebuffer or touch the control lines directly
(10_state.md R25, 70_reset_and_hazards.md R263). -/
def bypassesFrameBuffer : Instr → Bool
  | .busWrite .. | .lcdWriteData .. | .panelSetBytesAt .. | .panelClear | .ctrlUpdate .. => true
  | _ => false

/-! ## Time (00_scope.md R11, 70_reset_and_hazards.md R260) -/

/-- An event with the real time, in microseconds, that it took. -/
abbrev Timed := Event × Nat

/-- The environment's obligation: each DELAY took at least its parameter (70_reset_and_hazards.md R260). -/
def waitsRespected (p : Params) (es : List Timed) : Bool :=
  es.all fun t => match t.1 with
    | .delay w => (match p.waitLength w with
      | some n => n ≤ t.2
      | none => true)
    | _ => true

/-! ## The visible image (PRESUMED by the spec, K5, K10, K11; log 26) -/

/-- The pixel a chip shows at display row `y` of its column `x`: nothing while it is off
(41_parallel_bus.md R142), else the RAM line `startLine + y`, with wrap (R145).
That display row 0 is the top edge of the glass, so that with start line 0 pixel row 0, bit 0 of page 0, is the
top line and the pixels of a page run downward from bit 0 to bit 7, is the model's (log 26, PRESUMED, K5):
20_memory.md R58 leaves the orientation open. -/
def Lcd.shownPixel (l : Lcd) (y x : Nat) : Option Bool :=
  if l.on then
    let ramLine := (l.startLine.toNat + y) % 64
    (l.byteAt (ramLine / 8) x).map (fun b => b.getLsbD (ramLine % 8))
  else none

end Sys2Proof.Machine
end

