-- ==== Sys2Proof/Certificates/Slice0/Obligations.lean ====
section
/-! DEFINITION. The statements for the provers. Every one is about the model's own step, meanings, decoder
or shared operations; each docstring names the rules of spec/ it formalises. -/

open Sys2Proof Sys2Proof.Machine

/-! ## Reset, step, encodings -/

/-- 10_state.md R35: the reset values, block and environment. -/
def Obligations.ResetHoldsTheValuesAfterBoot : Prop :=
  State.reset.phase = .ready ∧ State.reset.ctrl = 0x0D#8 ∧
  (∀ r < 8, ∀ c < 128, State.reset.fb.cell r c = { value := 0#8, dirty := true }) ∧
  State.reset.xcs = true ∧ State.reset.xrst = true ∧
  (∀ k, ∃ l, State.reset.lcd k = some l ∧ l.on = true ∧ l.startLine = 0#6 ∧ l.page = 7#3 ∧ l.col = 0#6 ∧
    ∀ p < 8, ∀ y < 64, l.byteAt p y = some 0#8) ∧
  State.reset.exp.read? State.reset.params.aDataDir.toNat = some State.reset.params.ddrIn ∧
  State.reset.exp.read? State.reset.params.aCtrlDir.toNat = some State.reset.params.ctrlDirValue

/-- 10_state.md R27 (log 1): a step decodes the caller's next request and performs it; with none it waits;
a request that decodes to nothing is refused by name; a table word put first is the next operation. -/
def Obligations.StepPerformsTheDecodedRequest : Prop :=
  (∀ s q rest i, s.calls = q :: rest → decode q = .ok i → step s = exec i { s with calls := rest }) ∧
  (∀ s q rest e, s.calls = q :: rest → decode q = .error e → step s = .refused (.undecodable e)) ∧
  (∀ s, s.calls = [] → step s = .next s) ∧
  (∀ s nbits w i, decodeTableWord nbits w = some i → step (s.withFetchWord nbits w) = exec i s)

/-- 30_encoding.md R70, R74, R76, R78, R81: words and lines written out from the spec's tables.
That a bus word shared by two rows of the table decodes to lcd.*, and the reserved byte 0x00 to bus.write, is the
model's choice (log 7, DESIGN CHOICE). -/
def Obligations.WrittenOutWordsDecode : Prop :=
  decode (.frame [0b01000000#8, 0x01#8, 0x00#8]) = .ok (.expWriteRegister 0x01#8 0x00#8) ∧
  decode (.frame [0b01000000#8, 0x00#8, 0x00#8, 0xFF#8]) = .ok (.expWriteRegisterBurst 0x00#8 [0x00#8, 0xFF#8]) ∧
  decode (.frame [0b01000001#8, 0x13#8, 0x00#8]) = .ok (.expReadRegister 0x13#8) ∧
  decode (.frame [0b01000010#8, 0x13#8, 0x00#8]) = .error .reservedOpcode ∧
  decode (.control 0b10101010#8) =
    .ok (.ctrlUpdate ⟨some false, some true, some false, some true, some false, some true, some true⟩) ∧
  decode (.control 0b01000000#8) = .error .controlBit6 ∧
  (∀ k, decode (.busWord k 0b0000111111#10) = .ok (.lcdPower k true) ∧
    decode (.busWord k 0b0001111111#10) = .ok (.lcdSetColumn k 63) ∧
    decode (.busWord k 0b0010111001#10) = .ok (.lcdSetPage k 1) ∧
    decode (.busWord k 0b0011000110#10) = .ok (.lcdSetStartLine k 6) ∧
    decode (.busWord k 0b0101011010#10) = .ok (.lcdWriteData k 0x5A#8) ∧
    decode (.busWord k 0b1000000000#10) = .ok (.lcdReadStatus k) ∧
    decode (.busWord k 0b1100000000#10) = .ok (.lcdReadData k) ∧
    decode (.busWord k 0b0000000000#10) = .ok (.busWrite k false 0x00#8)) ∧
  decode (.line "fb.setByte 0, 40, 0xFF ; comment".toList) = .ok (.fbSetByte 0 40 0xFF#8)

/-- 30_encoding.md R78: the four classes by their patterns, exclusive, and what is left is reserved. -/
def Obligations.InstructionByteClassesDoNotOverlap : Prop :=
  (∀ b : Byte,
    (b &&& 0xFE#8 = 0x3E#8 → classify b = .power (b.getLsbD 0)) ∧
    (b &&& 0xC0#8 = 0x40#8 → classify b = .setColumn (b.setWidth 6)) ∧
    (b &&& 0xF8#8 = 0xB8#8 → classify b = .setPage (b.setWidth 3)) ∧
    (b &&& 0xC0#8 = 0xC0#8 → classify b = .setStartLine (b.setWidth 6)) ∧
    (classify b = .reserved ↔ b.toNat ≤ 0x3D ∨ (0x80 ≤ b.toNat ∧ b.toNat ≤ 0xB7)))

/-- 30_encoding.md R77: operands are masked, never range-checked; an out-of-range one aliases. -/
def Obligations.PrimitiveOperandsAreMasked : Prop :=
  (∀ n, (pageByte n).toNat = 0xB8 + n % 8 ∧ (columnByte n).toNat = 0x40 + n % 64 ∧
    (startLineByte n).toNat = 0xC0 + n % 64) ∧
  powerByte true = 0x3F#8 ∧ powerByte false = 0x3E#8 ∧ pageByte 9 = 0xB9#8 ∧
  (∀ k n s, exec (.lcdSetPage k n) s = exec (.lcdSetPage k (n % 8)) s ∧
    exec (.lcdSetColumn k n) s = exec (.lcdSetColumn k (n % 64)) s ∧
    exec (.lcdSetStartLine k n) s = exec (.lcdSetStartLine k (n % 64)) s)

/-- 30_encoding.md R82: each panel primitive is its bus sequence. -/
def Obligations.PrimitivesExpandToBusSequences : Prop :=
  ∀ (k : Chip) (s : State),
    (∀ on : Bool, exec (.lcdPower k on) s = exec (.busWrite k false (0x3E#8 ||| (if on then 1#8 else 0#8))) s) ∧
    (∀ n, exec (.lcdSetStartLine k n) s = exec (.busWrite k false (0xC0#8 ||| (BitVec.ofNat 8 n &&& 0x3F#8))) s) ∧
    (∀ n, exec (.lcdSetPage k n) s = exec (.busWrite k false (0xB8#8 ||| (BitVec.ofNat 8 n &&& 0x07#8))) s) ∧
    (∀ n, exec (.lcdSetColumn k n) s = exec (.busWrite k false (0x40#8 ||| (BitVec.ofNat 8 n &&& 0x3F#8))) s) ∧
    (∀ v, exec (.lcdWriteData k v) s = exec (.busWrite k true v) s) ∧
    exec (.lcdReadStatus k) s = exec (.busRead k false) s ∧
    exec (.lcdReadData k) s = exec (.busRead k true) s

/-- 30_encoding.md R70, R74 to R78, R81: decoding an encoded well-formed operation gives its canonical form. -/
def Obligations.DecodeOfEncodeIsCanonical : Prop :=
  ∀ i : Instr, i.wellFormed = true → decode (encode i) = .ok i.canonical

/-- 30_encoding.md R77, R82 (log 7): the canonical form of an operation is the operation, in every state. -/
def Obligations.CanonicalFormHasTheSameEffect : Prop :=
  ∀ (i : Instr) (s : State), i.wellFormed = true → exec i.canonical s = exec i s

/-- 30_encoding.md R81 (log 9): the program line of every operation reads back as that operation. -/
def Obligations.ProgramLinesReadBack : Prop :=
  ∀ i : Instr, decode (.line (renderLine i)) = .ok i

/-! ## ExpanderRegisterIO -/

/-- 40_expander_io.md R102: one frame, its count checked, A_CTRL refused, nothing of the block written. The clauses
about the environment are the model's: that no chip changes rests on log 10 (PRESUMED), that the other registers
keep their values, also after a failure, on log 15 (DEDUCED). -/
def Obligations.WriteRegisterSendsOneCheckedFrame : Prop :=
  ∀ (s : State) (a v : Byte), s.phase = .ready →
    (a ≠ s.params.aCtrl → s.Acks 1 → ∃ t, exec (.expWriteRegister a v) s = .next t ∧
      t.trace = s.trace ++ [.event (evW a v), .result (.ok .unit)] ∧ s.SameBlock t ∧
      t.lcd1 = s.lcd1 ∧ t.lcd2 = s.lcd2 ∧
      (a ∈ s.params.addresses → ∀ x, t.exp.read? x = if x = a.toNat then some v else s.exp.read? x)) ∧
    (a ≠ s.params.aCtrl → ∀ k r0 r1 r2 rest, s.answers = .reply k r0 r1 r2 :: rest → k ≠ 3 →
      ∃ t, exec (.expWriteRegister a v) s = .next t ∧
        t.trace = s.trace ++ [.event (evW a v), .result (.error .transportError)] ∧ s.SameBlock t ∧
        t.lcd1 = s.lcd1 ∧ t.lcd2 = s.lcd2 ∧
        (a ∈ s.params.addresses → ∀ x, x ≠ a.toNat → t.exp.read? x = s.exp.read? x)) ∧
    exec (.expWriteRegister s.params.aCtrl v) s = .refused .directControlWrite

/-- 40_expander_io.md R103: one frame for the whole burst, its count checked, and the two refusals. The model's:
the range does not wrap at 0x100 (log 16, PRESUMED), and no chip changes (log 10, PRESUMED). -/
def Obligations.WriteBurstSendsOneCheckedFrame : Prop :=
  ∀ (s : State) (a : Byte) (vs : List Byte), s.phase = .ready →
    (vs ≠ [] → ¬ (a.toNat ≤ s.params.aCtrl.toNat ∧ s.params.aCtrl.toNat < a.toNat + vs.length) →
      (∀ r ∈ s.answers.take 1, r.acks (2 + vs.length) = true) →
      ∃ t, exec (.expWriteRegisterBurst a vs) s = .next t ∧
        t.trace = s.trace ++ [.event (.spiWrite (0x40#8 :: a :: vs)), .result (.ok .unit)] ∧ s.SameBlock t ∧
        t.lcd1 = s.lcd1 ∧ t.lcd2 = s.lcd2) ∧
    (vs ≠ [] → ¬ (a.toNat ≤ s.params.aCtrl.toNat ∧ s.params.aCtrl.toNat < a.toNat + vs.length) →
      ∀ k r0 r1 r2 rest, s.answers = .reply k r0 r1 r2 :: rest → k ≠ 2 + vs.length →
      ∃ t, exec (.expWriteRegisterBurst a vs) s = .next t ∧
        t.trace = s.trace ++ [.event (.spiWrite (0x40#8 :: a :: vs)), .result (.error .transportError)] ∧
        s.SameBlock t ∧ t.lcd1 = s.lcd1 ∧ t.lcd2 = s.lcd2) ∧
    exec (.expWriteRegisterBurst a []) s = .refused .emptyBurst ∧
    (a.toNat ≤ s.params.aCtrl.toNat ∧ s.params.aCtrl.toNat < a.toNat + vs.length →
      exec (.expWriteRegisterBurst a vs) s = .refused .directControlWrite)

/-- The model's choice (log 16, K8): a burst over named registers stores byte `i` in register `addr + i`. -/
def Obligations.BurstStoresConsecutiveRegisters : Prop :=
  ∀ (s t : State) (a : Byte) (vs : List Byte),
    (∀ j < vs.length, ∃ b ∈ s.params.addresses, b.toNat = a.toNat + j) →
    exec (.expWriteRegisterBurst a vs) s = .next t → t.trace.getLast? = some (.result (.ok .unit)) →
    ∀ x, t.exp.read? x = if a.toNat ≤ x ∧ x < a.toNat + vs.length then vs[x - a.toNat]? else s.exp.read? x

/-- 40_expander_io.md R104: the byte a set makes of the cached one (the named bits set, the others kept, bit 6
cleared); no event when it equals the cache; else one frame, and the cache takes the byte only after a
successful write. The frame: nothing else of the block changes, no other expander register, and no chip while
the panel's reset stays released.
The clauses about the environment, and that a direct call runs with every set and delivers no bus word, are the
model's: logs 10 (PRESUMED), 12 and 15 (DEDUCED), 17 and 32 (DESIGN CHOICE; 32: no chip changes on a failed frame). -/
def Obligations.ControlUpdateWritesOnlyAChange : Prop :=
  ∀ (s : State) (set : CtrlSet) (new : Byte), s.phase = .ready →
    (∀ n, new.getLsbD n = match n with
      | 0 => set.e.getD (s.ctrl.getLsbD 0)
      | 1 => set.di.getD (s.ctrl.getLsbD 1)
      | 2 => set.rw.getD (s.ctrl.getLsbD 2)
      | 3 => set.rst.getD (s.ctrl.getLsbD 3)
      | 4 => set.cs1.getD (s.ctrl.getLsbD 4)
      | 5 => set.cs2.getD (s.ctrl.getLsbD 5)
      | 7 => set.bl.getD (s.ctrl.getLsbD 7)
      | _ => false) →
    (new = s.ctrl → exec (.ctrlUpdate set) s = .next (s.record (.ok .unit))) ∧
    (new ≠ s.ctrl → s.Acks 1 → ∃ t, exec (.ctrlUpdate set) s = .next t ∧
      t.trace = s.trace ++ [.event (evW s.params.aCtrl new), .result (.ok .unit)] ∧
      t.ctrl = new ∧ s.SameBlock { t with ctrl := s.ctrl } ∧
      (∀ x, t.exp.read? x = if x = s.params.aCtrl.toNat then some new else s.exp.read? x) ∧
      (ctrlRST new = true → t.lcd1 = s.lcd1 ∧ t.lcd2 = s.lcd2)) ∧
    (new ≠ s.ctrl → ∀ k r0 r1 r2 rest, s.answers = .reply k r0 r1 r2 :: rest → k ≠ 3 →
      ∃ t, exec (.ctrlUpdate set) s = .next t ∧
        t.trace = s.trace ++ [.event (evW s.params.aCtrl new), .result (.error .transportError)] ∧
        s.SameBlock t ∧
        (∀ x, x ≠ s.params.aCtrl.toNat → t.exp.read? x = s.exp.read? x) ∧
        (ctrlRST new = true → t.lcd1 = s.lcd1 ∧ t.lcd2 = s.lcd2))

/-- 40_expander_io.md R105: the result is the third received byte, the first two being ignored; the count is
checked; no state of the block is written; and the only read any other operation makes is that of A_DATA by a
bus read.
The clauses about the environment are the model's: that a read changes no chip rests on log 10 (PRESUMED), that
it changes no named register on log 15 (DEDUCED), and that a FAILED read changes none either on log 31 (DESIGN
CHOICE: I7 could be read to make the value unknown). -/
def Obligations.ReadRegisterReturnsTheThirdByte : Prop :=
  (∀ (s : State) (a : Byte), s.phase = .ready →
    (s.Acks 1 → ∃ t r0 r1 r2, exec (.expReadRegister a) s = .next t ∧
      t.trace = s.trace ++ [.event (.spiTransfer [0x41#8, a, 0x00#8] [r0, r1, r2]), .result (.ok (.byte r2))] ∧
      (∀ k x0 x1 x2 rest, s.answers = .reply k x0 x1 x2 :: rest → r0 = x0 ∧ r1 = x1 ∧ r2 = x2) ∧
      s.SameBlock t ∧ t.lcd1 = s.lcd1 ∧ t.lcd2 = s.lcd2 ∧ (a ∈ s.params.addresses → t.exp = s.exp)) ∧
    (∀ k r0 r1 r2 rest, s.answers = .reply k r0 r1 r2 :: rest → k ≠ 3 →
      ∃ t, exec (.expReadRegister a) s = .next t ∧
        t.trace = s.trace ++ [.event (.spiTransfer [0x41#8, a, 0x00#8] [r0, r1, r2]),
          .result (.error .transportError)] ∧
        s.SameBlock t ∧ t.lcd1 = s.lcd1 ∧ t.lcd2 = s.lcd2 ∧ (a ∈ s.params.addresses → t.exp = s.exp))) ∧
  (∀ (i : Instr) (s t : State) (es : List TraceItem) (tx rx : List Byte), (∀ a, i ≠ .expReadRegister a) →
    exec i s = .next t → t.trace = s.trace ++ es → TraceItem.event (.spiTransfer tx rx) ∈ es →
    tx = [0x41#8, s.params.aData, 0x00#8] ∧
      ∃ k di, i = .busRead k di ∨ i = .lcdReadStatus k ∨ i = .lcdReadData k)

/-! ## ParallelBusProtocol -/

/-- 41_parallel_bus.md R120, R123: from the idle state a bus write emits exactly its eight frames and two
waits, and ends idle with DI the sequence's. -/
def Obligations.BusWriteFromIdleEmitsItsSequence : Prop :=
  ∀ (s : State) (k : Chip) (di : Bool) (b : Byte), s.phase = .ready → Idle s.ctrl → s.Acks 8 →
    ∃ t, exec (.busWrite k di b) s = .next t ∧
      t.trace = s.trace ++ items (busWriteEvents s.params s.ctrl k di b) ++ [.result (.ok .unit)] ∧
      t.ctrl = seqByte s.ctrl di true true false false ∧ Idle t.ctrl ∧
      t.fb = s.fb ∧ t.phase = s.phase ∧ t.xcs = s.xcs ∧ t.xrst = s.xrst ∧ t.answers = s.answers.drop 8

/-- 41_parallel_bus.md R120, R121: from any control state an answered bus sequence leaves E = 1, RW = 1, no
chip selected, DI the sequence's, RST and BL as they were. -/
def Obligations.BusSequencesRestoreTheIdleLines : Prop :=
  ∀ (s : State) (k : Chip) (di : Bool) (b : Byte), s.phase = .ready → s.Acks 8 →
    (∃ t, exec (.busWrite k di b) s = .next t ∧ t.trace.getLast? = some (.result (.ok .unit)) ∧
      ctrlE t.ctrl = true ∧ ctrlRW t.ctrl = true ∧ ctrlCS1 t.ctrl = false ∧ ctrlCS2 t.ctrl = false ∧
      ctrlDI t.ctrl = di ∧ ctrlRST t.ctrl = ctrlRST s.ctrl ∧ ctrlBL t.ctrl = ctrlBL s.ctrl ∧ t.fb = s.fb) ∧
    (∃ t v, exec (.busRead k di) s = .next t ∧ t.trace.getLast? = some (.result (.ok (.byte v))) ∧
      ctrlE t.ctrl = true ∧ ctrlRW t.ctrl = true ∧ ctrlCS1 t.ctrl = false ∧ ctrlCS2 t.ctrl = false ∧
      ctrlDI t.ctrl = di ∧ ctrlRST t.ctrl = ctrlRST s.ctrl ∧ ctrlBL t.ctrl = ctrlBL s.ctrl ∧ t.fb = s.fb)

/-- 41_parallel_bus.md R121, R123: from the idle state a bus read emits its sequence, the DI frame only if DI
changes, and returns the third byte of the sampling transfer. -/
def Obligations.BusReadFromIdleReturnsTheSample : Prop :=
  ∀ (s : State) (k : Chip) (di : Bool), s.phase = .ready → Idle s.ctrl → s.Acks 5 →
    ∃ t r0 r1 r2, exec (.busRead k di) s = .next t ∧
      t.trace = s.trace ++ items (busReadEvents s.params s.ctrl k di [r0, r1, r2]) ++ [.result (.ok (.byte r2))] ∧
      (∀ c x0 x1 x2, s.answers[if ctrlDI s.ctrl = di then 2 else 3]? = some (.reply c x0 x1 x2) →
        r0 = x0 ∧ r1 = x1 ∧ r2 = x2) ∧
      t.ctrl = seqByte s.ctrl di true true false false ∧ Idle t.ctrl ∧ s.SameBlock { t with ctrl := s.ctrl }

/-- 41_parallel_bus.md R125 to R129: from the idle state each writing primitive is one bus write of its byte. -/
def Obligations.WritingPrimitivesSendTheirByte : Prop :=
  ∀ (s : State) (k : Chip), s.phase = .ready → Idle s.ctrl → s.Acks 8 →
    (∀ on, ∃ t, exec (.lcdPower k on) s = .next t ∧ t.trace = s.trace ++
      items (busWriteEvents s.params s.ctrl k false (if on then 0x3F#8 else 0x3E#8)) ++ [.result (.ok .unit)]) ∧
    (∀ n, ∃ t, exec (.lcdSetStartLine k n) s = .next t ∧ t.trace = s.trace ++
      items (busWriteEvents s.params s.ctrl k false (BitVec.ofNat 8 (0xC0 + n % 64))) ++ [.result (.ok .unit)]) ∧
    (∀ n, ∃ t, exec (.lcdSetPage k n) s = .next t ∧ t.trace = s.trace ++
      items (busWriteEvents s.params s.ctrl k false (BitVec.ofNat 8 (0xB8 + n % 8))) ++ [.result (.ok .unit)]) ∧
    (∀ n, ∃ t, exec (.lcdSetColumn k n) s = .next t ∧ t.trace = s.trace ++
      items (busWriteEvents s.params s.ctrl k false (BitVec.ofNat 8 (0x40 + n % 64))) ++ [.result (.ok .unit)]) ∧
    (∀ v, ∃ t, exec (.lcdWriteData k v) s = .next t ∧ t.trace = s.trace ++
      items (busWriteEvents s.params s.ctrl k true v) ++ [.result (.ok .unit)])

/-- 41_parallel_bus.md R130, R131: from the idle state each reading primitive is one bus read, and returns
the sampled byte uninterpreted. -/
def Obligations.ReadingPrimitivesReturnTheSample : Prop :=
  ∀ (s : State) (k : Chip), s.phase = .ready → Idle s.ctrl → s.Acks 5 →
    (∃ t r0 r1 r2, exec (.lcdReadStatus k) s = .next t ∧ t.trace = s.trace ++
      items (busReadEvents s.params s.ctrl k false [r0, r1, r2]) ++ [.result (.ok (.byte r2))] ∧
      t.ctrl = seqByte s.ctrl false true true false false) ∧
    (∃ t r0 r1 r2, exec (.lcdReadData k) s = .next t ∧ t.trace = s.trace ++
      items (busReadEvents s.params s.ctrl k true [r0, r1, r2]) ++ [.result (.ok (.byte r2))] ∧
      t.ctrl = seqByte s.ctrl true true true false false)

/-- 41_parallel_bus.md R147 (frame): however it ends, a read leaves the other chip alone, a status read leaves
its own chip alone, and a data read changes nothing of its chip but the column, which is then unknown (log 13).
(Environment model, log 10; after a failed frame, log 32, DESIGN CHOICE.) -/
def Obligations.ReadsChangeAtMostTheColumn : Prop :=
  ∀ (i : Instr) (s t : State) (k : Chip) (di : Bool),
    (i = .busRead k di ∨ (di = false ∧ i = .lcdReadStatus k) ∨ (di = true ∧ i = .lcdReadData k)) →
    ctrlRST s.ctrl = true → exec i s = .next t →
    t.lcd k.other = s.lcd k.other ∧ (di = false → t.lcd k = s.lcd k) ∧
    (∀ l, s.lcd k = some l → ∃ y, t.lcd k = some { l with col := y })

/-- 41_parallel_bus.md R142 to R145 (environment model): what a chip makes of each instruction byte; the other
chip is unchanged.
(Log 10, PRESUMED.) -/
def Obligations.ChipObeysInstructionBytes : Prop :=
  ∀ (s : State) (k : Chip) (l : Lcd), s.phase = .ready → ctrlRST s.ctrl = true → s.lcd k = some l → s.Acks 8 →
    (∀ on, ∃ t, exec (.lcdPower k on) s = .next t ∧ t.lcd k = some { l with on := on } ∧
      t.lcd k.other = s.lcd k.other) ∧
    (∀ n, ∃ t, exec (.lcdSetStartLine k n) s = .next t ∧
      t.lcd k = some { l with startLine := BitVec.ofNat 6 n } ∧ t.lcd k.other = s.lcd k.other) ∧
    (∀ n, ∃ t, exec (.lcdSetPage k n) s = .next t ∧ t.lcd k = some { l with page := BitVec.ofNat 3 n } ∧
      t.lcd k.other = s.lcd k.other) ∧
    (∀ n, ∃ t, exec (.lcdSetColumn k n) s = .next t ∧ t.lcd k = some { l with col := BitVec.ofNat 6 n } ∧
      t.lcd k.other = s.lcd k.other)

/-- 41_parallel_bus.md R146 (environment model; the column's advance is PRESUMED by the spec, K12, log 10): a
data byte lands at the chip's page and column, nothing else of the RAM changes, and the column advances. -/
def Obligations.ChipStoresDataBytes : Prop :=
  ∀ (s : State) (k : Chip) (l : Lcd) (v : Byte), s.phase = .ready → ctrlRST s.ctrl = true → s.lcd k = some l →
    s.Acks 8 → ∃ t l', exec (.lcdWriteData k v) s = .next t ∧ t.lcd k = some l' ∧
      t.lcd k.other = s.lcd k.other ∧ l'.on = l.on ∧ l'.startLine = l.startLine ∧ l'.page = l.page ∧
      l'.col.toNat = (l.col.toNat + 1) % 64 ∧
      ∀ x, l'.ram.read? x = if x = l.page.toNat * 64 + l.col.toNat then some v else l.ram.read? x

/-- 30_encoding.md R79, 41_parallel_bus.md R148 (log 11): the bus write of a reserved instruction byte
completes, and the environment model refuses that chip, the other one being unchanged. -/
def Obligations.ReservedByteIsRefusedByItsChip : Prop :=
  ∀ (s : State) (k : Chip) (b : Byte), s.phase = .ready → ctrlRST s.ctrl = true → classify b = .reserved →
    s.Acks 8 → ∃ t, exec (.busWrite k false b) s = .next t ∧ t.trace.getLast? = some (.result (.ok .unit)) ∧
      t.lcd k = none ∧ t.lcd k.other = s.lcd k.other

/-- 30_encoding.md R79: no other operation sends a reserved byte: a chip that had a meaning keeps one.
(Environment model, logs 10, 11.) -/
def Obligations.NoOtherOperationSendsReservedBytes : Prop :=
  ∀ (i : Instr) (s t : State) (j : Chip),
    (∀ k b, i = .busWrite k false b → classify b ≠ .reserved) →
    exec i s = .next t → s.lcd j ≠ none → t.lcd j ≠ none

/-- 10_state.md R21, 41_parallel_bus.md R120, R121, 60_exceptions.md R224, 70_reset_and_hazards.md R262: a bus
sequence that fails, and the control cache it leaves.
(1) bus.write from any control state, its frame `j` failing: the events up to that frame, the error, the cache
at the last successful control write; whether the word was delivered (environment model, R140, logs 10 and 14:
a draw when the Enable write itself failed; that a failed control frame changes nothing else of a chip: log 32,
DESIGN CHOICE).
(2) bus.read from any control state, its frame `j` failing: the same; a select bit may be left set.
(3) From the idle state, the cache after each failing frame of bus.write, written out.
(4) Every operation, however it ends: the cache is the last control byte sent in a frame that did not fail. -/
def Obligations.FailedBusWriteLeavesTheLastControlState : Prop :=
  (∀ (s : State) (k : Chip) (di : Bool) (b : Byte) (j c : Nat) (r0 r1 r2 : Byte), s.phase = .ready →
    j < ((busWritePlan s.params s.ctrl k di b).map Prod.fst).countP Event.isFrame → s.Acks j →
    s.answers[j]? = some (.reply c r0 r1 r2) → c ≠ 3 →
    ∃ t es, es = throughFrame j ((busWritePlan s.params s.ctrl k di b).map Prod.fst) ∧
      exec (.busWrite k di b) s = .next t ∧
      t.trace = s.trace ++ items es ++ [.result (.error .transportError)] ∧
      t.ctrl = cacheAfter s.ctrl (busWritePlan s.params s.ctrl k di b) (es.length - 1) ∧
      s.SameBlock { t with ctrl := s.ctrl } ∧
      (ctrlRST s.ctrl = true → t.lcd k.other = s.lcd k.other ∧
        (j < framesBeforeEnable s.ctrl k di → t.lcd k = s.lcd k) ∧
        (j = framesBeforeEnable s.ctrl k di →
          t.lcd k = s.lcd k ∨ t.lcd k = (s.lcd k).bind (fun l => l.take di b)) ∧
        (framesBeforeEnable s.ctrl k di < j → t.lcd k = (s.lcd k).bind (fun l => l.take di b)))) ∧
  (∀ (s : State) (k : Chip) (di : Bool) (j c : Nat) (r0 r1 r2 : Byte), s.phase = .ready →
    j < ((busReadPlan s.params s.ctrl k di [r0, r1, r2]).map Prod.fst).countP Event.isFrame → s.Acks j →
    s.answers[j]? = some (.reply c r0 r1 r2) → c ≠ 3 →
    ∃ t rx es, es = throughFrame j ((busReadPlan s.params s.ctrl k di rx).map Prod.fst) ∧
      exec (.busRead k di) s = .next t ∧
      t.trace = s.trace ++ items es ++ [.result (.error .transportError)] ∧
      t.ctrl = cacheAfter s.ctrl (busReadPlan s.params s.ctrl k di rx) (es.length - 1) ∧
      s.SameBlock { t with ctrl := s.ctrl }) ∧
  (∀ (s : State) (k : Chip) (di : Bool) (b : Byte) (j c : Nat) (r0 r1 r2 : Byte),
    s.phase = .ready → Idle s.ctrl → j < 8 → s.Acks j → s.answers[j]? = some (.reply c r0 r1 r2) → c ≠ 3 →
    ∃ t, exec (.busWrite k di b) s = .next t ∧ t.trace.getLast? = some (.result (.error .transportError)) ∧
      t.fb = s.fb ∧
      t.ctrl = (if j = 0 then s.ctrl
        else if j ≤ 3 then seqByte s.ctrl di true false false false
        else if j = 4 then seqByte s.ctrl di true false (k = .chip1) (k = .chip2)
        else if j = 5 then seqByte s.ctrl di false false (k = .chip1) (k = .chip2)
        else if j = 6 then seqByte s.ctrl di false false false false
        else seqByte s.ctrl di true true false false) ∧
      t.lcd k.other = s.lcd k.other ∧
      (j < 4 → t.lcd k = s.lcd k) ∧
      (j = 4 → t.lcd k = s.lcd k ∨ t.lcd k = (s.lcd k).bind (fun l => l.take di b)) ∧
      (4 < j → t.lcd k = (s.lcd k).bind (fun l => l.take di b))) ∧
  (∀ (i : Instr) (s t : State) (es : List Event) (r : OpResult), s.params.Distinct → exec i s = .next t →
    t.trace = s.trace ++ items es ++ [.result r] →
    t.ctrl = lastControl s.params s.ctrl (if r = .error .transportError then es.dropLast else es))

/-- 41_parallel_bus.md R122, 70_reset_and_hazards.md R261: no operation but a direct ctrl.update writes a
control byte that selects both chips, or leaves the cache so. -/
def Obligations.BothChipsAreNeverSelected : Prop :=
  ∀ (i : Instr) (s t : State) (es : List TraceItem), (∀ set, i ≠ .ctrlUpdate set) → s.params.Distinct →
    exec i s = .next t → ¬ DoubleSelect s.ctrl → t.trace = s.trace ++ es →
    ¬ DoubleSelect t.ctrl ∧ ∀ v, TraceItem.event (evW s.params.aCtrl v) ∈ es → ¬ DoubleSelect v

/-- 70_reset_and_hazards.md R252: no operation after boot, but a direct ctrl.update, changes RST. -/
def Obligations.PanelResetIsNotTouchedAfterBoot : Prop :=
  ∀ (i : Instr) (s t : State), (∀ set, i ≠ .ctrlUpdate set) → s.phase = .ready → exec i s = .next t →
    ctrlRST t.ctrl = ctrlRST s.ctrl

/-- 10_state.md R32: after an answered bus write the device's registers hold the last bytes sent to them.
(The device-side view: logs 15, 22, DEDUCED.) -/
def Obligations.BusWriteLeavesTheDeviceRegisters : Prop :=
  ∀ (s : State) (k : Chip) (di : Bool) (b : Byte), s.phase = .ready → s.params.Distinct → Idle s.ctrl →
    s.Acks 8 → ∃ t, exec (.busWrite k di b) s = .next t ∧ ∀ x, t.exp.read? x =
      if x = s.params.aCtrl.toNat then some (seqByte s.ctrl di true true false false)
      else if x = s.params.aDataDir.toNat then some s.params.ddrIn
      else if x = s.params.aData.toNat then some b else s.exp.read? x

/-! ## DualChipPanel -/

/-- 42_dual_chip_panel.md R162, R163: a run that fits is sent as one segment for each chip it touches, and the
result is its length. -/
def Obligations.SetBytesAtSendsTheSplitRun : Prop :=
  ∀ (s : State) (r c : Nat) (bytes : List Byte), s.phase = .ready → r < 8 → c < 128 → c + bytes.length ≤ 128 →
    Idle s.ctrl → s.Acks (8 * (runWords r c bytes).length) →
    ∃ t, exec (.panelSetBytesAt r c bytes) s = .next t ∧
      t.trace = s.trace ++ items (wordsEvents s.params s.ctrl (runWords r c bytes))
        ++ [.result (.ok (.nat bytes.length))] ∧
      Idle t.ctrl ∧ t.fb = s.fb ∧ t.phase = s.phase ∧ t.xcs = s.xcs ∧ t.xrst = s.xrst

/-- 42_dual_chip_panel.md R161: a run that does not fit is rejected with no event and no state change. -/
def Obligations.SetBytesAtRejectsBeforeAnyTraffic : Prop :=
  ∀ (s : State) (r c : Nat) (bytes : List Byte), s.phase = .ready →
    (r ≥ 8 ∨ c ≥ 128 ∨ c + bytes.length > 128) →
    exec (.panelSetBytesAt r c bytes) s = .next (s.record (.error .geometryError))

/-- 42_dual_chip_panel.md R162, 20_memory.md R54, R59 (environment model, K12, log 10): byte `i` of the run
lands at logical column `c + i`, and no other byte of the panel changes. -/
def Obligations.SetBytesAtFillsItsColumns : Prop :=
  ∀ (s : State) (r c : Nat) (bytes : List Byte), s.phase = .ready → r < 8 → c < 128 → c + bytes.length ≤ 128 →
    ctrlRST s.ctrl = true → s.lcd1 ≠ none → s.lcd2 ≠ none → s.Acks (8 * (runWords r c bytes).length) →
    ∃ t, exec (.panelSetBytesAt r c bytes) s = .next t ∧
      t.trace.getLast? = some (.result (.ok (.nat bytes.length))) ∧
      ∀ p x, p < 8 → x < 128 → t.panelByte p x =
        if p = r ∧ c ≤ x ∧ x < c + bytes.length then bytes[x - c]? else s.panelByte p x

/-- 42_dual_chip_panel.md R162, "the bytes already delivered stay" (frame, however the operation ends): no
byte of the panel outside the run changes.
(Environment model, log 10; after a failed frame, log 32, DESIGN CHOICE.) -/
def Obligations.SetBytesAtTouchesOnlyItsColumns : Prop :=
  ∀ (s t : State) (r c : Nat) (bytes : List Byte), ctrlRST s.ctrl = true →
    exec (.panelSetBytesAt r c bytes) s = .next t →
    ∀ p x, p < 8 → x < 128 → ¬ (p = r ∧ c ≤ x ∧ x < c + bytes.length) → t.panelByte p x = s.panelByte p x

/-- 42_dual_chip_panel.md R164: both chips are switched, Chip1 first.
(The chips: environment model, log 10.) -/
def Obligations.SetOnOffSwitchesBothChips : Prop :=
  ∀ (s : State) (on : Bool), s.phase = .ready → Idle s.ctrl → s.Acks 16 →
    ∃ t, exec (.panelSetOnOff on) s = .next t ∧
      t.trace = s.trace ++ items (wordsEvents s.params s.ctrl
        [(.chip1, false, powerByte on), (.chip2, false, powerByte on)]) ++ [.result (.ok .unit)] ∧
      (∀ k l, s.lcd k = some l → t.lcd k = some { l with on := on }) ∧ Idle t.ctrl ∧ t.fb = s.fb

/-- 42_dual_chip_panel.md R165: the words of clear, and every RAM byte of both chips 0 (environment model);
the framebuffer keeps its values and dirty bits.
(The RAM: log 10, PRESUMED, with K12.) -/
def Obligations.ClearZeroesBothChips : Prop :=
  ∀ (s : State), s.phase = .ready → Idle s.ctrl → s.Acks 8448 →
    ∃ t, exec .panelClear s = .next t ∧
      t.trace = s.trace ++ items (wordsEvents s.params s.ctrl clearWords) ++ [.result (.ok .unit)] ∧
      t.fb = s.fb ∧ Idle t.ctrl ∧
      (s.lcd1 ≠ none → s.lcd2 ≠ none → ∀ p x, p < 8 → x < 128 → t.panelByte p x = some 0#8)

/-- 42_dual_chip_panel.md R166, 10_state.md R31: a change of the backlight is one frame that changes bit 7 only;
no change emits nothing.
The clauses about the environment are the model's: logs 10 (PRESUMED), 12 and 15 (DEDUCED). -/
def Obligations.SetBacklightChangesOneBit : Prop :=
  ∀ (s : State) (on : Bool), s.phase = .ready → s.ctrl.getLsbD 6 = false →
    (ctrlBL s.ctrl = on → exec (.panelSetBacklight on) s = .next (s.record (.ok .unit))) ∧
    (ctrlBL s.ctrl ≠ on → s.Acks 1 → ∃ t, exec (.panelSetBacklight on) s = .next t ∧
      t.trace = s.trace ++ [.event (evW s.params.aCtrl t.ctrl), .result (.ok .unit)] ∧
      (∀ n, t.ctrl.getLsbD n = if n = 7 then on else s.ctrl.getLsbD n) ∧ s.SameBlock { t with ctrl := s.ctrl } ∧
      (∀ x, t.exp.read? x = if x = s.params.aCtrl.toNat then some t.ctrl else s.exp.read? x) ∧
      (ctrlRST s.ctrl = true → t.lcd1 = s.lcd1 ∧ t.lcd2 = s.lcd2)) ∧
    (ctrlBL s.ctrl ≠ on → ∀ k r0 r1 r2 rest, s.answers = .reply k r0 r1 r2 :: rest → k ≠ 3 →
      ∃ t, exec (.panelSetBacklight on) s = .next t ∧ s.SameBlock t ∧
        t.trace.getLast? = some (.result (.error .transportError)))

/-- 42_dual_chip_panel.md R167: the cached bit, with no event and no state written. -/
def Obligations.GetBacklightReportsTheCache : Prop :=
  ∀ (s : State), s.phase = .ready →
    exec .panelGetBacklight s = .next (s.record (.ok (.flag (s.ctrl.getLsbD 7))))

/-! ## FrameBuffer -/

/-- 43_framebuffer.md R190: change detection, one cell, nothing else, no event. -/
def Obligations.SetByteMarksOnlyAChange : Prop :=
  ∀ (s : State) (r c : Nat) (v : Byte), s.phase = .ready →
    (r < 8 → c < 128 → ∃ fb', exec (.fbSetByte r c v) s = .next ({ s with fb := fb' }.record (.ok .unit)) ∧
      fb'.cell r c = (if (s.fb.cell r c).value = v then s.fb.cell r c else { value := v, dirty := true }) ∧
      ∀ r' c', (r', c') ≠ (r, c) → fb'.cell r' c' = s.fb.cell r' c') ∧
    (r ≥ 8 ∨ c ≥ 128 → exec (.fbSetByte r c v) s = .next (s.record (.error .geometryError)))

/-- 43_framebuffer.md R191, 20_memory.md R53: one pixel, one bit of one cell, dirty only on a change. -/
def Obligations.SetBitChangesOnePixel : Prop :=
  ∀ (s : State) (y c : Nat) (on : Bool), s.phase = .ready →
    (y < 64 → c < 128 → ∃ fb', exec (.fbSetBit y c on) s = .next ({ s with fb := fb' }.record (.ok .unit)) ∧
      (∀ n, (fb'.cell (y / 8) c).value.getLsbD n =
        if n = y % 8 then on else (s.fb.cell (y / 8) c).value.getLsbD n) ∧
      (fb'.cell (y / 8) c).dirty =
        ((s.fb.cell (y / 8) c).dirty || decide ((fb'.cell (y / 8) c).value ≠ (s.fb.cell (y / 8) c).value)) ∧
      ∀ r' c', (r', c') ≠ (y / 8, c) → fb'.cell r' c' = s.fb.cell r' c') ∧
    (y ≥ 64 ∨ c ≥ 128 → exec (.fbSetBit y c on) s = .next (s.record (.error .geometryError)))

/-- 43_framebuffer.md R192: every pixel of the rectangle takes its element, every other pixel keeps its value,
and a cell becomes dirty exactly when its value changed.
That rows of width 0 running past pixel row 63 raise GeometryError is the model's choice (log 30, DESIGN CHOICE). -/
def Obligations.SetBitMatrixCopiesTheRectangle : Prop :=
  ∀ (s : State) (row0 col0 : Nat) (m : List (List Bool)), s.phase = .ready →
    (matrixRectangular m = true → row0 + m.length ≤ 64 → col0 + matrixWidth m ≤ 128 →
      ∃ fb', exec (.fbSetBitMatrix row0 col0 m) s = .next ({ s with fb := fb' }.record (.ok .unit)) ∧
        (∀ y x, y < 64 → x < 128 → (fb'.cell (y / 8) x).value.getLsbD (y % 8) =
          if row0 ≤ y ∧ y < row0 + m.length ∧ col0 ≤ x ∧ x < col0 + matrixWidth m
          then (m.getD (y - row0) []).getD (x - col0) false
          else (s.fb.cell (y / 8) x).value.getLsbD (y % 8)) ∧
        (∀ r x, (fb'.cell r x).dirty =
          ((s.fb.cell r x).dirty || decide ((fb'.cell r x).value ≠ (s.fb.cell r x).value)))) ∧
    (matrixRectangular m = true → (row0 + m.length > 64 ∨ col0 + matrixWidth m > 128) →
      exec (.fbSetBitMatrix row0 col0 m) s = .next (s.record (.error .geometryError))) ∧
    (matrixRectangular m = false → exec (.fbSetBitMatrix row0 col0 m) s = .refused .raggedMatrix)

/-- 43_framebuffer.md R193: the dirty runs found are exactly the maximal intervals of dirty columns, separated
by a clean column, and together cover exactly the dirty cells. -/
def Obligations.DirtyRunsAreTheMaximalIntervals : Prop :=
  ∀ (fb : FrameBuffer) (r : Nat), r < 8 →
    (∀ a b, (a, b) ∈ dirtyRuns (fb.rowDirty r) ↔
      a < b ∧ b ≤ 128 ∧ (∀ x, a ≤ x → x < b → (fb.cell r x).dirty = true) ∧
      (a = 0 ∨ (fb.cell r (a - 1)).dirty = false) ∧ (b = 128 ∨ (fb.cell r b).dirty = false)) ∧
    (dirtyRuns (fb.rowDirty r)).Pairwise (fun p q => p.2 < q.1) ∧
    (∀ c < 128, (fb.cell r c).dirty = true ↔ ∃ p ∈ dirtyRuns (fb.rowDirty r), p.1 ≤ c ∧ c < p.2)

/-- 43_framebuffer.md R194, R196: from the idle state writeBack emits one burst for each dirty run, and leaves
every cell clean with its value. -/
def Obligations.WriteBackSendsOneBurstPerRun : Prop :=
  ∀ (s : State), s.phase = .ready → Idle s.ctrl → s.Acks (8 * (writeBackWords s.fb).length) →
    ∃ t, exec .fbWriteBack s = .next t ∧
      t.trace = s.trace ++ items (wordsEvents s.params s.ctrl (writeBackWords s.fb)) ++ [.result (.ok .unit)] ∧
      (∀ r c, t.fb.cell r c = { value := (s.fb.cell r c).value, dirty := false }) ∧
      Idle t.ctrl ∧ t.phase = s.phase ∧ t.xcs = s.xcs ∧ t.xrst = s.xrst

/-- 20_memory.md R68 (environment model, K12, log 10): after writeBack no cell is dirty, and the panel holds
every value that was dirty; the other bytes of the panel are unchanged. -/
def Obligations.WriteBackBringsThePanelUpToDate : Prop :=
  ∀ (s : State), s.phase = .ready → ctrlRST s.ctrl = true → s.lcd1 ≠ none → s.lcd2 ≠ none →
    s.Acks (8 * (writeBackWords s.fb).length) →
    ∃ t, exec .fbWriteBack s = .next t ∧ t.trace.getLast? = some (.result (.ok .unit)) ∧
      ∀ r c, r < 8 → c < 128 → (t.fb.cell r c).dirty = false ∧ t.panelByte r c =
        if (s.fb.cell r c).dirty then some (s.fb.cell r c).value else s.panelByte r c

/-- 43_framebuffer.md R195, 60_exceptions.md R224: a flush that fails.
(1) However the control lines stood: there is a failing run, in a dirty row, such that exactly the runs before
it are clean afterwards, it and every later one keep their dirty bits, and no value changes. It is the run whose
burst was cut: after the last event, the failing frame, is taken off, the data direction was set twice for each
bus write that completed, and those are all of the runs before it and not all of its own; and the data bytes
sent are the first ones of these runs, so nothing of a later run was sent. (That a register address tells the
frames apart needs distinct addresses, log 22.)
(2) From the idle state with the transport call number `n` the first that fails, where the flush makes that call:
it fails, having emitted exactly the events of its bursts up to that frame. -/
def Obligations.FailedWriteBackKeepsTheFailingRunDirty : Prop :=
  (∀ (s t : State), exec .fbWriteBack s = .next t →
    t.trace.getLast? = some (.result (.error .transportError)) →
    ∃ es f r a b, t.trace = s.trace ++ items (es ++ [f]) ++ [.result (.error .transportError)] ∧
      r < 8 ∧ (a, b) ∈ dirtyRuns (s.fb.rowDirty r) ∧
      (s.params.Distinct →
        (writeBackWordsBefore s.fb r a).length ≤ es.countP (Event.isWriteTo s.params.aDataDir) / 2 ∧
        es.countP (Event.isWriteTo s.params.aDataDir) / 2 <
          (writeBackWordsBefore s.fb r a).length + (runWords r a (s.fb.values r a b)).length ∧
        (es ++ [f]).filterMap (Event.byteTo? s.params.aData) <+:
          (writeBackWordsBefore s.fb r a ++ runWords r a (s.fb.values r a b)).map (fun w => w.2.2)) ∧
      ∀ r' c', r' < 8 → c' < 128 → (t.fb.cell r' c').value = (s.fb.cell r' c').value ∧
        ((t.fb.cell r' c').dirty = true ↔
          (s.fb.cell r' c').dirty = true ∧ (r < r' ∨ (r' = r ∧ a ≤ c')))) ∧
  (∀ (s : State) (n k : Nat) (r0 r1 r2 : Byte), s.phase = .ready → Idle s.ctrl →
    n < 8 * (writeBackWords s.fb).length → s.Acks n → s.answers[n]? = some (.reply k r0 r1 r2) → k ≠ 3 →
    ∃ t, exec .fbWriteBack s = .next t ∧
      t.trace = s.trace ++ items (throughFrame n (wordsEvents s.params s.ctrl (writeBackWords s.fb)))
        ++ [.result (.error .transportError)])

/-- 43_framebuffer.md R197: from a Ready, idle, answered state with every cell dirty, fb.writeBack sends every
byte of every row at its current value: 8 bursts, each set page, set column 0 and 64 bytes to Chip1 and the same
to Chip2, 1056 bus writes in all, after which every cell is clean; and no setter clears a dirty bit, so the state
after boot stays such a state whatever setters run. -/
def Obligations.FirstWriteBackSendsEveryByte : Prop :=
  (∀ s : State, s.phase = .ready → Idle s.ctrl → (∀ r < 8, ∀ c < 128, (s.fb.cell r c).dirty = true) →
    s.Acks 8448 →
    ∃ t ws, ws = ((List.range 8).flatMap fun r =>
        ([(.chip1, false, pageByte r), (.chip1, false, 0x40#8)]
          ++ (List.range 64).map (fun c => (.chip1, true, (s.fb.cell r c).value))
          ++ [(.chip2, false, pageByte r), (.chip2, false, 0x40#8)]
          ++ (List.range 64).map (fun c => (.chip2, true, (s.fb.cell r (64 + c)).value)) : List SentWord)) ∧
      ws.length = 1056 ∧ exec .fbWriteBack s = .next t ∧
      t.trace = s.trace ++ items (wordsEvents s.params s.ctrl ws) ++ [.result (.ok .unit)] ∧
      (∀ r < 8, ∀ c < 128, t.fb.cell r c = { value := (s.fb.cell r c).value, dirty := false })) ∧
  (∀ (i : Instr) (s t : State),
    (match i with
      | .fbSetByte .. | .fbSetBit .. | .fbSetBitMatrix .. => True
      | _ => False) →
    exec i s = .next t → ∀ r c, (s.fb.cell r c).dirty = true → (t.fb.cell r c).dirty = true)

/-- 70_reset_and_hazards.md R266, 43_framebuffer.md R196: what each operation appends to the trace, in counts of
SPIW, SPIX, DELAY and PIN, from the idle state (display.new from Absent), every call answered. -/
def Obligations.EventCountsOfTheOperations : Prop :=
  (∀ s : State, s.phase = .ready → Idle s.ctrl →
    (s.Acks 8 → ∀ k,
      (∀ di b, Counted (.busWrite k di b) s ⟨8, 0, 2, 0⟩) ∧ (∀ on, Counted (.lcdPower k on) s ⟨8, 0, 2, 0⟩) ∧
      (∀ n, Counted (.lcdSetStartLine k n) s ⟨8, 0, 2, 0⟩) ∧ (∀ n, Counted (.lcdSetPage k n) s ⟨8, 0, 2, 0⟩) ∧
      (∀ n, Counted (.lcdSetColumn k n) s ⟨8, 0, 2, 0⟩) ∧ (∀ v, Counted (.lcdWriteData k v) s ⟨8, 0, 2, 0⟩)) ∧
    (s.Acks 5 → ∀ k,
      (∀ di, Counted (.busRead k di) s ⟨if ctrlDI s.ctrl = di then 3 else 4, 1, 1, 0⟩) ∧
      Counted (.lcdReadStatus k) s ⟨if ctrlDI s.ctrl = false then 3 else 4, 1, 1, 0⟩ ∧
      Counted (.lcdReadData k) s ⟨if ctrlDI s.ctrl = true then 3 else 4, 1, 1, 0⟩) ∧
    (∀ r c bytes, r < 8 → c < 128 → c + bytes.length ≤ 128 → s.Acks (8 * runBusWrites c bytes.length) →
      Counted (.panelSetBytesAt r c bytes) s
        ⟨8 * runBusWrites c bytes.length, 0, 2 * runBusWrites c bytes.length, 0⟩) ∧
    (s.Acks 8448 → Counted .panelClear s ⟨8448, 0, 2112, 0⟩) ∧
    (s.Acks 16 → ∀ on, Counted (.panelSetOnOff on) s ⟨16, 0, 4, 0⟩) ∧
    (s.Acks 1 → ∀ on, Counted (.panelSetBacklight on) s ⟨if ctrlBL s.ctrl = on then 0 else 1, 0, 0, 0⟩) ∧
    (∀ n, n = ((List.range 8).map fun r =>
        ((dirtyRuns (s.fb.rowDirty r)).map fun run => runBusWrites run.1 (run.2 - run.1)).sum).sum →
      s.Acks (8 * n) → Counted .fbWriteBack s ⟨8 * n, 0, 2 * n, 0⟩) ∧
    ((∀ r < 8, ∀ c < 128, (s.fb.cell r c).dirty = true) → s.Acks 8448 →
      Counted .fbWriteBack s ⟨8448, 0, 2112, 0⟩)) ∧
  (∀ s : State, s.phase = .absent → s.Acks 8484 → Counted .displayNew s ⟨8484, 0, 2124, 3⟩)

/-! ## Boot, phase, errors -/

/-- 70_reset_and_hazards.md R250 to R253, 10_state.md R35: boot with every call answered emits its sequence and
leaves the reset values, in the block and in the environment (column 0 under K12, log 10). -/
def Obligations.BootLeavesTheResetValues : Prop :=
  ∀ (s : State), s.phase = .absent → s.Acks 8484 →
    ∃ t, exec .displayNew s = .next t ∧
      t.trace = s.trace ++ items (
        [ .pin .xcs true, .pin .xrst false, .delay .tXrstLow, .pin .xrst true, .delay .tXrstRecover,
          evW s.params.aCtrl 0x05#8, evW s.params.aCtrlDir s.params.ctrlDirValue,
          evW s.params.aDataDir s.params.ddrIn, .delay .tLcdRst, evW s.params.aCtrl 0x0D#8, .delay .tLcdRecover ]
        ++ wordsEvents s.params 0x0D#8
          ([(.chip1, false, 0xC0#8), (.chip2, false, 0xC0#8)] ++ clearWords
            ++ [(.chip1, false, 0x3F#8), (.chip2, false, 0x3F#8)])) ++ [.result (.ok .unit)] ∧
      t.phase = .ready ∧ t.ctrl = 0x0D#8 ∧ t.xcs = true ∧ t.xrst = true ∧
      (∀ r c, r < 8 → c < 128 → t.fb.cell r c = { value := 0#8, dirty := true }) ∧
      (∀ k, ∃ l, t.lcd k = some l ∧ l.on = true ∧ l.startLine = 0#6 ∧ l.page = 7#3 ∧ l.col = 0#6 ∧
        ∀ p y, p < 8 → y < 64 → l.byteAt p y = some 0#8) ∧
      (s.params.Distinct → t.exp.read? s.params.aDataDir.toNat = some s.params.ddrIn ∧
        t.exp.read? s.params.aCtrlDir.toNat = some s.params.ctrlDirValue)

/-- 60_exceptions.md R228: boot that returns leaves the block Ready exactly when it returned Ok; after
TransportError it is Absent and its framebuffer untouched. -/
def Obligations.FailedBootLeavesTheBlockAbsent : Prop :=
  ∀ (s t : State), s.phase = .absent → exec .displayNew s = .next t →
    (t.phase = .ready ∧ t.trace.getLast? = some (.result (.ok .unit))) ∨
    (t.phase = .absent ∧ t.fb = s.fb ∧ t.trace.getLast? = some (.result (.error .transportError)))

/-- 10_state.md R29: the block is Absent until boot completes with Ok, then Ready; while Absent every other
operation is refused; no other operation changes the phase. 70_reset_and_hazards.md R256: a second display.new
is refused while Ready.
That an operation refused on two grounds while Absent (an empty burst, a write or burst that reaches A_CTRL, a
ragged matrix) names the phase is the model's choice (log 19, DESIGN CHOICE). -/
def Obligations.PhaseDecidesWhatHasAMeaning : Prop :=
  (∀ (i : Instr) (s : State), s.phase = .absent → i ≠ .displayNew → exec i s = .refused .absent) ∧
  (∀ s : State, s.phase = .ready → exec .displayNew s = .refused .alreadyReady) ∧
  (∀ (i : Instr) (s t : State), exec i s = .next t → i ≠ .displayNew → t.phase = s.phase) ∧
  (∀ s t : State, s.phase = .absent → exec .displayNew s = .next t →
    (t.phase = .ready ↔ t.trace.getLast? = some (.result (.ok .unit))))

/-- 60_exceptions.md R222, R223: a GeometryError comes with no event and no change of state, in every
operation (writeBack's short-count check never raises it, 42_dual_chip_panel.md R163). -/
def Obligations.GeometryErrorsChangeNothing : Prop :=
  ∀ (i : Instr) (s t : State), exec i s = .next t →
    t.trace.getLast? = some (.result (.error .geometryError)) → t = s.record (.error .geometryError)

/-- 60_exceptions.md R227: a transport call that never returns leaves the operation with no further step.
(1) Whichever call it is: if an operation takes the answer that follows `pre` and goes on to a result, then with
a hang in that answer's place it faults; and nothing else is a fault.
(2) From the idle state (display.new from Absent), a hang after `j` answered calls, for every `j` below the number
of calls the operation makes.
(3) From any control state, a hang at the first call. -/
def Obligations.AHangHasNoFurtherStep : Prop :=
  (∀ (i : Instr) (s t : State) (pre rest rest' : List Answer) (k : Nat) (r0 r1 r2 : Byte),
    exec i { s with answers := pre ++ .reply k r0 r1 r2 :: rest } = .next t → t.answers.length ≤ rest.length →
    exec i { s with answers := pre ++ .hang :: rest' } = .fault .transportHang) ∧
  (∀ (i : Instr) (s : State) (f : Fault), exec i s = .fault f → f = .transportHang ∧ Answer.hang ∈ s.answers) ∧
  (∀ (s : State) (j : Nat), s.Acks j → s.answers[j]? = some .hang →
    (s.phase = .absent → j < 8484 → exec .displayNew s = .fault .transportHang) ∧
    (s.phase = .ready → Idle s.ctrl →
      (∀ k di b, j < 8 → exec (.busWrite k di b) s = .fault .transportHang) ∧
      (∀ k di, j < (if ctrlDI s.ctrl = di then 4 else 5) → exec (.busRead k di) s = .fault .transportHang) ∧
      (∀ r c bytes, r < 8 → c < 128 → c + bytes.length ≤ 128 → j < 8 * runBusWrites c bytes.length →
        exec (.panelSetBytesAt r c bytes) s = .fault .transportHang) ∧
      (∀ on, j < 16 → exec (.panelSetOnOff on) s = .fault .transportHang) ∧
      (j < 8448 → exec .panelClear s = .fault .transportHang) ∧
      (j < 8 * (writeBackWords s.fb).length → exec .fbWriteBack s = .fault .transportHang))) ∧
  (∀ (s : State) (rest : List Answer), s.answers = .hang :: rest →
    (s.phase = .absent → exec .displayNew s = .fault .transportHang) ∧
    (s.phase = .ready →
      (∀ a v, a ≠ s.params.aCtrl → exec (.expWriteRegister a v) s = .fault .transportHang) ∧
      (∀ a vs, vs ≠ [] → ¬ (a.toNat ≤ s.params.aCtrl.toNat ∧ s.params.aCtrl.toNat < a.toNat + vs.length) →
        exec (.expWriteRegisterBurst a vs) s = .fault .transportHang) ∧
      (∀ a, exec (.expReadRegister a) s = .fault .transportHang) ∧
      (∀ set, applySet set s.ctrl ≠ s.ctrl → exec (.ctrlUpdate set) s = .fault .transportHang) ∧
      (∀ k di b, exec (.busWrite k di b) s = .fault .transportHang) ∧
      (∀ k di, exec (.busRead k di) s = .fault .transportHang) ∧
      (∀ on, exec (.panelSetOnOff on) s = .fault .transportHang) ∧
      (∀ on, ctrlBL s.ctrl ≠ on → exec (.panelSetBacklight on) s = .fault .transportHang) ∧
      exec .panelClear s = .fault .transportHang ∧
      (∀ r c bytes, r < 8 → c < 128 → c + bytes.length ≤ 128 → bytes ≠ [] →
        exec (.panelSetBytesAt r c bytes) s = .fault .transportHang) ∧
      ((∃ r c, r < 8 ∧ c < 128 ∧ (s.fb.cell r c).dirty = true) →
        exec .fbWriteBack s = .fault .transportHang)))

/-! ## Whole-machine rules -/

/-- 00_scope.md R14, R16, R64: an operation that returns only appends to the trace: its events, then exactly
one result; and it changes neither parameters nor the caller's queue. -/
def Obligations.TraceOnlyGrowsByEventsAndOneResult : Prop :=
  ∀ (i : Instr) (s t : State), exec i s = .next t →
    (∃ es r, t.trace = s.trace ++ items es ++ [.result r]) ∧ t.params = s.params ∧ t.calls = s.calls

/-- 30_encoding.md R70, R73: the block emits three SPI frame formats and no others. -/
def Obligations.EveryFrameHasOneOfThreeFormats : Prop :=
  ∀ (i : Instr) (s t : State) (es : List TraceItem), exec i s = .next t → t.trace = s.trace ++ es →
    ∀ e, TraceItem.event e ∈ es → e.wellFormedFrame

/-- 10_state.md R25, R26 (frame): however they end, the operations of the three lower units leave framebuffer,
phase and pins alone; and those above the register operations leave every expander register but the control
port, the data direction and the data port alone.
(The expander's registers: log 15, DEDUCED.) -/
def Obligations.BusLevelOperationsKeepTheRest : Prop :=
  ∀ (i : Instr) (s t : State), exec i s = .next t →
    (match i with
      | .fbSetByte .. | .fbSetBit .. | .fbSetBitMatrix .. | .fbWriteBack | .displayNew => True
      | _ => t.fb = s.fb ∧ t.phase = s.phase ∧ t.xcs = s.xcs ∧ t.xrst = s.xrst) ∧
    (match i with
      | .expWriteRegister .. | .expWriteRegisterBurst .. | .expReadRegister .. | .displayNew => True
      | _ => ∀ x, x ≠ s.params.aCtrl.toNat → x ≠ s.params.aDataDir.toNat → x ≠ s.params.aData.toNat →
          t.exp.read? x = s.exp.read? x)

/-- 41_parallel_bus.md R142 to R147 (frame): the operations that send no data byte leave every RAM byte of both
chips alone, however they end.
(Environment model, logs 10, 12, 13; after a failed frame, log 32, DESIGN CHOICE.) -/
def Obligations.OnlyDataWritesChangeTheRam : Prop :=
  ∀ (i : Instr) (s t : State), ctrlRST s.ctrl = true → exec i s = .next t →
    (match i with
      | .expWriteRegister .. | .expWriteRegisterBurst .. | .expReadRegister .. | .busRead .. | .lcdPower ..
      | .lcdSetStartLine .. | .lcdSetPage .. | .lcdSetColumn .. | .lcdReadStatus .. | .lcdReadData ..
      | .panelSetOnOff .. | .panelSetBacklight .. | .panelGetBacklight | .fbSetByte .. | .fbSetBit ..
      | .fbSetBitMatrix .. => True
      | _ => False) →
    ∀ k p y, t.chipByte k p y = s.chipByte k p y

/-- 41_parallel_bus.md R142, R145 (frame): only the operations that send their instruction change a chip's
display state or its start line, however the operation ends.
(Environment model, logs 10, 12, 17; after a failed frame, log 32, DESIGN CHOICE.) -/
def Obligations.OnlyTheirInstructionsSwitchTheDisplay : Prop :=
  ∀ (i : Instr) (s t : State) (j : Chip) (l : Lcd), s.phase = .ready → ctrlRST s.ctrl = true →
    s.lcd j = some l → exec i s = .next t →
    (match i with
      | .ctrlUpdate .. | .displayNew => False
      | .busWrite k di _ => di = true ∨ k ≠ j
      | .lcdPower k _ | .lcdSetStartLine k _ => k ≠ j
      | .panelSetOnOff _ => False
      | _ => True) →
    ∃ l', t.lcd j = some l' ∧ l'.on = l.on ∧ l'.startLine = l.startLine

/-- 41_parallel_bus.md R129, R146 (frame): a data write, however it ends, changes at most the byte at the
chip's page and column.
(Environment model, log 10; after a failed frame, log 32, DESIGN CHOICE.) -/
def Obligations.DataWriteTouchesOneByte : Prop :=
  ∀ (i : Instr) (s t : State) (k : Chip) (v : Byte) (l : Lcd), (i = .lcdWriteData k v ∨ i = .busWrite k true v) →
    ctrlRST s.ctrl = true → s.lcd k = some l → exec i s = .next t →
    (∀ p y, p * 64 + y ≠ ramAddr l.page l.col → t.chipByte k p y = s.chipByte k p y) ∧
    (∀ p y, t.chipByte k.other p y = s.chipByte k.other p y)

/-! ## Invariants -/

/-- 10_state.md R35, R21, R24, R22, R26, 20_memory.md R50: at reset the structural invariant holds, every clean
cell agrees with the panel, and the device's control port, with distinct addresses, holds what the cache holds.
The last clause is the model's: the value of A_CTRL at reset is log 2 (DEDUCED, R35 lists none), the device-side
view log 15 (DEDUCED), and that the reset addresses are distinct log 6 (PRESUMED) with log 22 (DEDUCED). -/
def Obligations.ResetMeetsTheStateInvariant : Prop :=
  State.reset.Inv = true ∧ State.reset.Synced ∧ State.reset.CacheAgrees

/-- 20_memory.md R50, 10_state.md R22, R26: every step keeps the structural invariant. -/
def Obligations.EveryStepKeepsTheStateInvariant : Prop :=
  ∀ (s t : State), s.Inv = true → step s = .next t → t.Inv = true

/-- 10_state.md R21, R30: every step keeps "the cached copy must always equal the last value successfully
written", wherever the device's control port is known.
(The device-side view: logs 15, 16, 22.) -/
def Obligations.EveryStepKeepsTheCacheInvariant : Prop :=
  ∀ (s t : State), s.Inv = true → s.CacheAgrees → step s = .next t → t.CacheAgrees

/-- 10_state.md R24, R25, 20_memory.md R68 (environment model, K12, log 10): every operation that does not
bypass the framebuffer keeps every clean cell equal to what the panel holds, even when it fails.
(That a failed control frame leaves the chips as they were: log 32, DESIGN CHOICE.) -/
def Obligations.CleanCellsMatchThePanel : Prop :=
  ∀ (i : Instr) (s t : State), bypassesFrameBuffer i = false → s.phase = .ready → s.Synced →
    exec i s = .next t → t.Synced
end

