-- ==== Sys2Proof/Laws/Flags.lean ====
section
/-! SUPPORT. The bits of the control byte after an update, and the dirty runs of a row. -/

namespace Sys2Proof.Machine

/-- One bit set: that bit is the level, every other bit is as before. -/
theorem setBit_getLsbD (v : Byte) (i : Nat) (b : Bool) (j : Nat) (hi : i < 8) :
    (setBit v i b).getLsbD j = if j = i then b else v.getLsbD j := by
  by_cases hj : j < 8
  · cases b <;> simp only [setBit, Bool.false_eq_true, if_false, if_true]
    · simp only [BitVec.getLsbD_and, BitVec.getLsbD_not, BitVec.getLsbD_shiftLeft, BitVec.getLsbD_one, hj]
      by_cases h : j = i
      · subst h; simp
      · by_cases h2 : j < i
        · simp [h, h2]
        · simp [h, show ¬ j < i from h2, show ¬ (j - i = 0) by omega]
    · simp only [BitVec.getLsbD_or, BitVec.getLsbD_shiftLeft, BitVec.getLsbD_one, hj]
      by_cases h : j = i
      · subst h; simp
      · by_cases h2 : j < i
        · simp [h, h2]
        · simp [h, show ¬ j < i from h2, show ¬ (j - i = 0) by omega]
  · have : j ≠ i := by omega
    rw [if_neg this, BitVec.getLsbD_of_ge _ _ (by omega), BitVec.getLsbD_of_ge _ _ (by omega)]

/-- A named field takes its level, an unnamed one keeps its own. -/
theorem setField_getLsbD (v : Byte) (i : Nat) (o : Option Bool) (j : Nat) (hi : i < 8) :
    (setField v i o).getLsbD j = if j = i then o.getD (v.getLsbD j) else v.getLsbD j := by
  cases o with
  | none => simp [setField]
  | some b => simp [setField, setBit_getLsbD v i b j hi]

section
variable (s : CtrlSet) (v : Byte)

/-- Each bit of the byte an update makes (40_expander_io.md R104). -/
@[simp] theorem applySet_e : ctrlE (applySet s v) = s.e.getD (ctrlE v) := by
  simp [ctrlE, applySet, setBit_getLsbD, setField_getLsbD, -BitVec.getLsbD_eq_getElem]
@[simp] theorem applySet_di : ctrlDI (applySet s v) = s.di.getD (ctrlDI v) := by
  simp [ctrlDI, applySet, setBit_getLsbD, setField_getLsbD, -BitVec.getLsbD_eq_getElem]
@[simp] theorem applySet_rw : ctrlRW (applySet s v) = s.rw.getD (ctrlRW v) := by
  simp [ctrlRW, applySet, setBit_getLsbD, setField_getLsbD, -BitVec.getLsbD_eq_getElem]
@[simp] theorem applySet_rst : ctrlRST (applySet s v) = s.rst.getD (ctrlRST v) := by
  simp [ctrlRST, applySet, setBit_getLsbD, setField_getLsbD, -BitVec.getLsbD_eq_getElem]
@[simp] theorem applySet_cs1 : ctrlCS1 (applySet s v) = s.cs1.getD (ctrlCS1 v) := by
  simp [ctrlCS1, applySet, setBit_getLsbD, setField_getLsbD, -BitVec.getLsbD_eq_getElem]
@[simp] theorem applySet_cs2 : ctrlCS2 (applySet s v) = s.cs2.getD (ctrlCS2 v) := by
  simp [ctrlCS2, applySet, setBit_getLsbD, setField_getLsbD, -BitVec.getLsbD_eq_getElem]
@[simp] theorem applySet_bl : ctrlBL (applySet s v) = s.bl.getD (ctrlBL v) := by
  simp [ctrlBL, applySet, setBit_getLsbD, setField_getLsbD, -BitVec.getLsbD_eq_getElem]
@[simp] theorem applySet_bit6 : (applySet s v).getLsbD 6 = false := by
  simp [applySet, setBit_getLsbD, -BitVec.getLsbD_eq_getElem]
end

/-- A control byte is known by its seven fields once bit 6 is 0. -/
theorem ctrl_ext {v w : Byte} (h0 : ctrlE v = ctrlE w) (h1 : ctrlDI v = ctrlDI w) (h2 : ctrlRW v = ctrlRW w)
    (h3 : ctrlRST v = ctrlRST w) (h4 : ctrlCS1 v = ctrlCS1 w) (h5 : ctrlCS2 v = ctrlCS2 w)
    (h6 : v.getLsbD 6 = w.getLsbD 6) (h7 : ctrlBL v = ctrlBL w) : v = w := by
  apply BitVec.eq_of_getLsbD_eq
  intro i hi
  have : i = 0 ∨ i = 1 ∨ i = 2 ∨ i = 3 ∨ i = 4 ∨ i = 5 ∨ i = 6 ∨ i = 7 := by omega
  rcases this with rfl | rfl | rfl | rfl | rfl | rfl | rfl | rfl <;> assumption

section
variable (e di rw rst cs1 cs2 bl : Bool)

/-- The fields of a packed control byte (30_encoding.md R74). -/
@[simp] theorem ctrlByte_e : ctrlE (ctrlByte e di rw rst cs1 cs2 bl) = e := by
  revert e di rw rst cs1 cs2 bl; decide
@[simp] theorem ctrlByte_di : ctrlDI (ctrlByte e di rw rst cs1 cs2 bl) = di := by
  revert e di rw rst cs1 cs2 bl; decide
@[simp] theorem ctrlByte_rw : ctrlRW (ctrlByte e di rw rst cs1 cs2 bl) = rw := by
  revert e di rw rst cs1 cs2 bl; decide
@[simp] theorem ctrlByte_rst : ctrlRST (ctrlByte e di rw rst cs1 cs2 bl) = rst := by
  revert e di rw rst cs1 cs2 bl; decide
@[simp] theorem ctrlByte_cs1 : ctrlCS1 (ctrlByte e di rw rst cs1 cs2 bl) = cs1 := by
  revert e di rw rst cs1 cs2 bl; decide
@[simp] theorem ctrlByte_cs2 : ctrlCS2 (ctrlByte e di rw rst cs1 cs2 bl) = cs2 := by
  revert e di rw rst cs1 cs2 bl; decide
@[simp] theorem ctrlByte_bit6 : (ctrlByte e di rw rst cs1 cs2 bl).getLsbD 6 = false := by
  revert e di rw rst cs1 cs2 bl; decide
@[simp] theorem ctrlByte_bl : ctrlBL (ctrlByte e di rw rst cs1 cs2 bl) = bl := by
  revert e di rw rst cs1 cs2 bl; decide
end

/-- What an update makes of a byte, as a packed control byte (40_expander_io.md R104, 30_encoding.md R74). -/
theorem applySet_eq_ctrlByte (s : CtrlSet) (v : Byte) :
    applySet s v = ctrlByte (s.e.getD (ctrlE v)) (s.di.getD (ctrlDI v)) (s.rw.getD (ctrlRW v))
      (s.rst.getD (ctrlRST v)) (s.cs1.getD (ctrlCS1 v)) (s.cs2.getD (ctrlCS2 v)) (s.bl.getD (ctrlBL v)) := by
  apply ctrl_ext <;> simp [-BitVec.getLsbD_eq_getElem]

end Sys2Proof.Machine
end

