-- ==== Sys2Proof/Laws/State.lean ====
section
/-! SUPPORT. One lemma for each field of State under each named update, true by unfolding, so that no later
proof unfolds a record update; and what the chip accessors say after them. -/

namespace Sys2Proof.Machine

/-! `State.emit` -/

@[simp] theorem State.emit_phase (s : State) (e : Event) : (s.emit e).phase = s.phase := rfl
@[simp] theorem State.emit_ctrl (s : State) (e : Event) : (s.emit e).ctrl = s.ctrl := rfl
@[simp] theorem State.emit_fb (s : State) (e : Event) : (s.emit e).fb = s.fb := rfl
@[simp] theorem State.emit_xcs (s : State) (e : Event) : (s.emit e).xcs = s.xcs := rfl
@[simp] theorem State.emit_xrst (s : State) (e : Event) : (s.emit e).xrst = s.xrst := rfl
@[simp] theorem State.emit_exp (s : State) (e : Event) : (s.emit e).exp = s.exp := rfl
@[simp] theorem State.emit_lcd1 (s : State) (e : Event) : (s.emit e).lcd1 = s.lcd1 := rfl
@[simp] theorem State.emit_lcd2 (s : State) (e : Event) : (s.emit e).lcd2 = s.lcd2 := rfl
@[simp] theorem State.emit_answers (s : State) (e : Event) : (s.emit e).answers = s.answers := rfl
@[simp] theorem State.emit_calls (s : State) (e : Event) : (s.emit e).calls = s.calls := rfl
@[simp] theorem State.emit_trace (s : State) (e : Event) : (s.emit e).trace = s.trace ++ [.event e] := rfl
@[simp] theorem State.emit_params (s : State) (e : Event) : (s.emit e).params = s.params := rfl
@[simp] theorem State.emit_draws (s : State) (e : Event) : (s.emit e).draws = s.draws := rfl

/-! `State.record` -/

@[simp] theorem State.record_phase (s : State) (r : OpResult) : (s.record r).phase = s.phase := rfl
@[simp] theorem State.record_ctrl (s : State) (r : OpResult) : (s.record r).ctrl = s.ctrl := rfl
@[simp] theorem State.record_fb (s : State) (r : OpResult) : (s.record r).fb = s.fb := rfl
@[simp] theorem State.record_xcs (s : State) (r : OpResult) : (s.record r).xcs = s.xcs := rfl
@[simp] theorem State.record_xrst (s : State) (r : OpResult) : (s.record r).xrst = s.xrst := rfl
@[simp] theorem State.record_exp (s : State) (r : OpResult) : (s.record r).exp = s.exp := rfl
@[simp] theorem State.record_lcd1 (s : State) (r : OpResult) : (s.record r).lcd1 = s.lcd1 := rfl
@[simp] theorem State.record_lcd2 (s : State) (r : OpResult) : (s.record r).lcd2 = s.lcd2 := rfl
@[simp] theorem State.record_answers (s : State) (r : OpResult) : (s.record r).answers = s.answers := rfl
@[simp] theorem State.record_calls (s : State) (r : OpResult) : (s.record r).calls = s.calls := rfl
@[simp] theorem State.record_trace (s : State) (r : OpResult) : (s.record r).trace = s.trace ++ [.result r] := rfl
@[simp] theorem State.record_params (s : State) (r : OpResult) : (s.record r).params = s.params := rfl
@[simp] theorem State.record_draws (s : State) (r : OpResult) : (s.record r).draws = s.draws := rfl

/-! `State.setLcd` -/

@[simp] theorem State.setLcd_phase (s : State) (k : Chip) (l : Option Lcd) : (s.setLcd k l).phase = s.phase := rfl
@[simp] theorem State.setLcd_ctrl (s : State) (k : Chip) (l : Option Lcd) : (s.setLcd k l).ctrl = s.ctrl := rfl
@[simp] theorem State.setLcd_fb (s : State) (k : Chip) (l : Option Lcd) : (s.setLcd k l).fb = s.fb := rfl
@[simp] theorem State.setLcd_xcs (s : State) (k : Chip) (l : Option Lcd) : (s.setLcd k l).xcs = s.xcs := rfl
@[simp] theorem State.setLcd_xrst (s : State) (k : Chip) (l : Option Lcd) : (s.setLcd k l).xrst = s.xrst := rfl
@[simp] theorem State.setLcd_exp (s : State) (k : Chip) (l : Option Lcd) : (s.setLcd k l).exp = s.exp := rfl
@[simp] theorem State.setLcd_lcd1 (s : State) (k : Chip) (l : Option Lcd) : (s.setLcd k l).lcd1 = if k = .chip1 then l else s.lcd1 := rfl
@[simp] theorem State.setLcd_lcd2 (s : State) (k : Chip) (l : Option Lcd) : (s.setLcd k l).lcd2 = if k = .chip2 then l else s.lcd2 := rfl
@[simp] theorem State.setLcd_answers (s : State) (k : Chip) (l : Option Lcd) : (s.setLcd k l).answers = s.answers := rfl
@[simp] theorem State.setLcd_calls (s : State) (k : Chip) (l : Option Lcd) : (s.setLcd k l).calls = s.calls := rfl
@[simp] theorem State.setLcd_trace (s : State) (k : Chip) (l : Option Lcd) : (s.setLcd k l).trace = s.trace := rfl
@[simp] theorem State.setLcd_params (s : State) (k : Chip) (l : Option Lcd) : (s.setLcd k l).params = s.params := rfl
@[simp] theorem State.setLcd_draws (s : State) (k : Chip) (l : Option Lcd) : (s.setLcd k l).draws = s.draws := rfl

/-! `State.deliver` -/

@[simp] theorem State.deliver_phase (s : State) (k : Chip) (di : Bool) (b : Byte) : (s.deliver k di b).phase = s.phase := rfl
@[simp] theorem State.deliver_ctrl (s : State) (k : Chip) (di : Bool) (b : Byte) : (s.deliver k di b).ctrl = s.ctrl := rfl
@[simp] theorem State.deliver_fb (s : State) (k : Chip) (di : Bool) (b : Byte) : (s.deliver k di b).fb = s.fb := rfl
@[simp] theorem State.deliver_xcs (s : State) (k : Chip) (di : Bool) (b : Byte) : (s.deliver k di b).xcs = s.xcs := rfl
@[simp] theorem State.deliver_xrst (s : State) (k : Chip) (di : Bool) (b : Byte) : (s.deliver k di b).xrst = s.xrst := rfl
@[simp] theorem State.deliver_exp (s : State) (k : Chip) (di : Bool) (b : Byte) : (s.deliver k di b).exp = s.exp := rfl
@[simp] theorem State.deliver_answers (s : State) (k : Chip) (di : Bool) (b : Byte) : (s.deliver k di b).answers = s.answers := rfl
@[simp] theorem State.deliver_calls (s : State) (k : Chip) (di : Bool) (b : Byte) : (s.deliver k di b).calls = s.calls := rfl
@[simp] theorem State.deliver_trace (s : State) (k : Chip) (di : Bool) (b : Byte) : (s.deliver k di b).trace = s.trace := rfl
@[simp] theorem State.deliver_params (s : State) (k : Chip) (di : Bool) (b : Byte) : (s.deliver k di b).params = s.params := rfl
@[simp] theorem State.deliver_draws (s : State) (k : Chip) (di : Bool) (b : Byte) : (s.deliver k di b).draws = s.draws := rfl

/-! `State.deliverDrawn` -/

@[simp] theorem State.deliverDrawn_phase (s : State) (k : Chip) (di : Bool) (b : Byte) : (s.deliverDrawn k di b).phase = s.phase := rfl
@[simp] theorem State.deliverDrawn_ctrl (s : State) (k : Chip) (di : Bool) (b : Byte) : (s.deliverDrawn k di b).ctrl = s.ctrl := rfl
@[simp] theorem State.deliverDrawn_fb (s : State) (k : Chip) (di : Bool) (b : Byte) : (s.deliverDrawn k di b).fb = s.fb := rfl
@[simp] theorem State.deliverDrawn_xcs (s : State) (k : Chip) (di : Bool) (b : Byte) : (s.deliverDrawn k di b).xcs = s.xcs := rfl
@[simp] theorem State.deliverDrawn_xrst (s : State) (k : Chip) (di : Bool) (b : Byte) : (s.deliverDrawn k di b).xrst = s.xrst := rfl
@[simp] theorem State.deliverDrawn_exp (s : State) (k : Chip) (di : Bool) (b : Byte) : (s.deliverDrawn k di b).exp = s.exp := rfl
@[simp] theorem State.deliverDrawn_answers (s : State) (k : Chip) (di : Bool) (b : Byte) : (s.deliverDrawn k di b).answers = s.answers := rfl
@[simp] theorem State.deliverDrawn_calls (s : State) (k : Chip) (di : Bool) (b : Byte) : (s.deliverDrawn k di b).calls = s.calls := rfl
@[simp] theorem State.deliverDrawn_trace (s : State) (k : Chip) (di : Bool) (b : Byte) : (s.deliverDrawn k di b).trace = s.trace := rfl
@[simp] theorem State.deliverDrawn_params (s : State) (k : Chip) (di : Bool) (b : Byte) : (s.deliverDrawn k di b).params = s.params := rfl
@[simp] theorem State.deliverDrawn_draws (s : State) (k : Chip) (di : Bool) (b : Byte) : (s.deliverDrawn k di b).draws = s.draws + 1 := rfl

/-! `State.forgetColumn` -/

@[simp] theorem State.forgetColumn_phase (s : State) (k : Chip) : (s.forgetColumn k).phase = s.phase := rfl
@[simp] theorem State.forgetColumn_ctrl (s : State) (k : Chip) : (s.forgetColumn k).ctrl = s.ctrl := rfl
@[simp] theorem State.forgetColumn_fb (s : State) (k : Chip) : (s.forgetColumn k).fb = s.fb := rfl
@[simp] theorem State.forgetColumn_xcs (s : State) (k : Chip) : (s.forgetColumn k).xcs = s.xcs := rfl
@[simp] theorem State.forgetColumn_xrst (s : State) (k : Chip) : (s.forgetColumn k).xrst = s.xrst := rfl
@[simp] theorem State.forgetColumn_exp (s : State) (k : Chip) : (s.forgetColumn k).exp = s.exp := rfl
@[simp] theorem State.forgetColumn_answers (s : State) (k : Chip) : (s.forgetColumn k).answers = s.answers := rfl
@[simp] theorem State.forgetColumn_calls (s : State) (k : Chip) : (s.forgetColumn k).calls = s.calls := rfl
@[simp] theorem State.forgetColumn_trace (s : State) (k : Chip) : (s.forgetColumn k).trace = s.trace := rfl
@[simp] theorem State.forgetColumn_params (s : State) (k : Chip) : (s.forgetColumn k).params = s.params := rfl
@[simp] theorem State.forgetColumn_draws (s : State) (k : Chip) : (s.forgetColumn k).draws = s.draws + 1 := rfl

/-! `State.panelHeld` -/

@[simp] theorem State.panelHeld_phase (s : State) (v : Byte) : (s.panelHeld v).phase = s.phase := rfl
@[simp] theorem State.panelHeld_ctrl (s : State) (v : Byte) : (s.panelHeld v).ctrl = s.ctrl := rfl
@[simp] theorem State.panelHeld_fb (s : State) (v : Byte) : (s.panelHeld v).fb = s.fb := rfl
@[simp] theorem State.panelHeld_xcs (s : State) (v : Byte) : (s.panelHeld v).xcs = s.xcs := rfl
@[simp] theorem State.panelHeld_xrst (s : State) (v : Byte) : (s.panelHeld v).xrst = s.xrst := rfl
@[simp] theorem State.panelHeld_exp (s : State) (v : Byte) : (s.panelHeld v).exp = s.exp := rfl
@[simp] theorem State.panelHeld_answers (s : State) (v : Byte) : (s.panelHeld v).answers = s.answers := rfl
@[simp] theorem State.panelHeld_calls (s : State) (v : Byte) : (s.panelHeld v).calls = s.calls := rfl
@[simp] theorem State.panelHeld_trace (s : State) (v : Byte) : (s.panelHeld v).trace = s.trace := rfl
@[simp] theorem State.panelHeld_params (s : State) (v : Byte) : (s.panelHeld v).params = s.params := rfl

/-! `State.expStored` -/

@[simp] theorem State.expStored_phase (s : State) (a v : Byte) : (s.expStored a v).phase = s.phase := rfl
@[simp] theorem State.expStored_ctrl (s : State) (a v : Byte) : (s.expStored a v).ctrl = s.ctrl := rfl
@[simp] theorem State.expStored_fb (s : State) (a v : Byte) : (s.expStored a v).fb = s.fb := rfl
@[simp] theorem State.expStored_xcs (s : State) (a v : Byte) : (s.expStored a v).xcs = s.xcs := rfl
@[simp] theorem State.expStored_xrst (s : State) (a v : Byte) : (s.expStored a v).xrst = s.xrst := rfl
@[simp] theorem State.expStored_exp (s : State) (a v : Byte) : (s.expStored a v).exp = if Params.isNamed s.params a then s.exp.write a.toNat v else [] := rfl
@[simp] theorem State.expStored_lcd1 (s : State) (a v : Byte) : (s.expStored a v).lcd1 = s.lcd1 := rfl
@[simp] theorem State.expStored_lcd2 (s : State) (a v : Byte) : (s.expStored a v).lcd2 = s.lcd2 := rfl
@[simp] theorem State.expStored_answers (s : State) (a v : Byte) : (s.expStored a v).answers = s.answers := rfl
@[simp] theorem State.expStored_calls (s : State) (a v : Byte) : (s.expStored a v).calls = s.calls := rfl
@[simp] theorem State.expStored_trace (s : State) (a v : Byte) : (s.expStored a v).trace = s.trace := rfl
@[simp] theorem State.expStored_params (s : State) (a v : Byte) : (s.expStored a v).params = s.params := rfl
@[simp] theorem State.expStored_draws (s : State) (a v : Byte) : (s.expStored a v).draws = s.draws := rfl

/-! `State.expLost` -/

@[simp] theorem State.expLost_phase (s : State) (a : Byte) : (s.expLost a).phase = s.phase := rfl
@[simp] theorem State.expLost_ctrl (s : State) (a : Byte) : (s.expLost a).ctrl = s.ctrl := rfl
@[simp] theorem State.expLost_fb (s : State) (a : Byte) : (s.expLost a).fb = s.fb := rfl
@[simp] theorem State.expLost_xcs (s : State) (a : Byte) : (s.expLost a).xcs = s.xcs := rfl
@[simp] theorem State.expLost_xrst (s : State) (a : Byte) : (s.expLost a).xrst = s.xrst := rfl
@[simp] theorem State.expLost_exp (s : State) (a : Byte) : (s.expLost a).exp = if Params.isNamed s.params a then s.exp.erase a.toNat else [] := rfl
@[simp] theorem State.expLost_lcd1 (s : State) (a : Byte) : (s.expLost a).lcd1 = s.lcd1 := rfl
@[simp] theorem State.expLost_lcd2 (s : State) (a : Byte) : (s.expLost a).lcd2 = s.lcd2 := rfl
@[simp] theorem State.expLost_answers (s : State) (a : Byte) : (s.expLost a).answers = s.answers := rfl
@[simp] theorem State.expLost_calls (s : State) (a : Byte) : (s.expLost a).calls = s.calls := rfl
@[simp] theorem State.expLost_trace (s : State) (a : Byte) : (s.expLost a).trace = s.trace := rfl
@[simp] theorem State.expLost_params (s : State) (a : Byte) : (s.expLost a).params = s.params := rfl
@[simp] theorem State.expLost_draws (s : State) (a : Byte) : (s.expLost a).draws = s.draws := rfl

/-! `State.expRead` -/

@[simp] theorem State.expRead_phase (s : State) (a : Byte) : (s.expRead a).phase = s.phase := rfl
@[simp] theorem State.expRead_ctrl (s : State) (a : Byte) : (s.expRead a).ctrl = s.ctrl := rfl
@[simp] theorem State.expRead_fb (s : State) (a : Byte) : (s.expRead a).fb = s.fb := rfl
@[simp] theorem State.expRead_xcs (s : State) (a : Byte) : (s.expRead a).xcs = s.xcs := rfl
@[simp] theorem State.expRead_xrst (s : State) (a : Byte) : (s.expRead a).xrst = s.xrst := rfl
@[simp] theorem State.expRead_exp (s : State) (a : Byte) : (s.expRead a).exp = if Params.isNamed s.params a then s.exp else [] := rfl
@[simp] theorem State.expRead_lcd1 (s : State) (a : Byte) : (s.expRead a).lcd1 = s.lcd1 := rfl
@[simp] theorem State.expRead_lcd2 (s : State) (a : Byte) : (s.expRead a).lcd2 = s.lcd2 := rfl
@[simp] theorem State.expRead_answers (s : State) (a : Byte) : (s.expRead a).answers = s.answers := rfl
@[simp] theorem State.expRead_calls (s : State) (a : Byte) : (s.expRead a).calls = s.calls := rfl
@[simp] theorem State.expRead_trace (s : State) (a : Byte) : (s.expRead a).trace = s.trace := rfl
@[simp] theorem State.expRead_params (s : State) (a : Byte) : (s.expRead a).params = s.params := rfl
@[simp] theorem State.expRead_draws (s : State) (a : Byte) : (s.expRead a).draws = s.draws := rfl

/-! `State.expBurstStored` -/

@[simp] theorem State.expBurstStored_phase (s : State) (a : Byte) (vs : List Byte) : (s.expBurstStored a vs).phase = s.phase := rfl
@[simp] theorem State.expBurstStored_ctrl (s : State) (a : Byte) (vs : List Byte) : (s.expBurstStored a vs).ctrl = s.ctrl := rfl
@[simp] theorem State.expBurstStored_fb (s : State) (a : Byte) (vs : List Byte) : (s.expBurstStored a vs).fb = s.fb := rfl
@[simp] theorem State.expBurstStored_xcs (s : State) (a : Byte) (vs : List Byte) : (s.expBurstStored a vs).xcs = s.xcs := rfl
@[simp] theorem State.expBurstStored_xrst (s : State) (a : Byte) (vs : List Byte) : (s.expBurstStored a vs).xrst = s.xrst := rfl
@[simp] theorem State.expBurstStored_exp (s : State) (a : Byte) (vs : List Byte) : (s.expBurstStored a vs).exp = if Params.namesBurst s.params a vs.length then s.exp.writeMany a.toNat vs else [] := rfl
@[simp] theorem State.expBurstStored_lcd1 (s : State) (a : Byte) (vs : List Byte) : (s.expBurstStored a vs).lcd1 = s.lcd1 := rfl
@[simp] theorem State.expBurstStored_lcd2 (s : State) (a : Byte) (vs : List Byte) : (s.expBurstStored a vs).lcd2 = s.lcd2 := rfl
@[simp] theorem State.expBurstStored_answers (s : State) (a : Byte) (vs : List Byte) : (s.expBurstStored a vs).answers = s.answers := rfl
@[simp] theorem State.expBurstStored_calls (s : State) (a : Byte) (vs : List Byte) : (s.expBurstStored a vs).calls = s.calls := rfl
@[simp] theorem State.expBurstStored_trace (s : State) (a : Byte) (vs : List Byte) : (s.expBurstStored a vs).trace = s.trace := rfl
@[simp] theorem State.expBurstStored_params (s : State) (a : Byte) (vs : List Byte) : (s.expBurstStored a vs).params = s.params := rfl
@[simp] theorem State.expBurstStored_draws (s : State) (a : Byte) (vs : List Byte) : (s.expBurstStored a vs).draws = s.draws := rfl

/-! `State.expBurstLost` -/

@[simp] theorem State.expBurstLost_phase (s : State) (a : Byte) (n : Nat) : (s.expBurstLost a n).phase = s.phase := rfl
@[simp] theorem State.expBurstLost_ctrl (s : State) (a : Byte) (n : Nat) : (s.expBurstLost a n).ctrl = s.ctrl := rfl
@[simp] theorem State.expBurstLost_fb (s : State) (a : Byte) (n : Nat) : (s.expBurstLost a n).fb = s.fb := rfl
@[simp] theorem State.expBurstLost_xcs (s : State) (a : Byte) (n : Nat) : (s.expBurstLost a n).xcs = s.xcs := rfl
@[simp] theorem State.expBurstLost_xrst (s : State) (a : Byte) (n : Nat) : (s.expBurstLost a n).xrst = s.xrst := rfl
@[simp] theorem State.expBurstLost_exp (s : State) (a : Byte) (n : Nat) : (s.expBurstLost a n).exp = if Params.namesBurst s.params a n then s.exp.eraseMany (burstAddrs a n) else [] := rfl
@[simp] theorem State.expBurstLost_lcd1 (s : State) (a : Byte) (n : Nat) : (s.expBurstLost a n).lcd1 = s.lcd1 := rfl
@[simp] theorem State.expBurstLost_lcd2 (s : State) (a : Byte) (n : Nat) : (s.expBurstLost a n).lcd2 = s.lcd2 := rfl
@[simp] theorem State.expBurstLost_answers (s : State) (a : Byte) (n : Nat) : (s.expBurstLost a n).answers = s.answers := rfl
@[simp] theorem State.expBurstLost_calls (s : State) (a : Byte) (n : Nat) : (s.expBurstLost a n).calls = s.calls := rfl
@[simp] theorem State.expBurstLost_trace (s : State) (a : Byte) (n : Nat) : (s.expBurstLost a n).trace = s.trace := rfl
@[simp] theorem State.expBurstLost_params (s : State) (a : Byte) (n : Nat) : (s.expBurstLost a n).params = s.params := rfl
@[simp] theorem State.expBurstLost_draws (s : State) (a : Byte) (n : Nat) : (s.expBurstLost a n).draws = s.draws := rfl

/-! `State.environmentUnspecified` -/

@[simp] theorem State.environmentUnspecified_phase (s : State) : s.environmentUnspecified.phase = s.phase := rfl
@[simp] theorem State.environmentUnspecified_ctrl (s : State) : s.environmentUnspecified.ctrl = s.ctrl := rfl
@[simp] theorem State.environmentUnspecified_fb (s : State) : s.environmentUnspecified.fb = s.fb := rfl
@[simp] theorem State.environmentUnspecified_xcs (s : State) : s.environmentUnspecified.xcs = s.xcs := rfl
@[simp] theorem State.environmentUnspecified_xrst (s : State) : s.environmentUnspecified.xrst = s.xrst := rfl
@[simp] theorem State.environmentUnspecified_exp (s : State) : s.environmentUnspecified.exp = [] := rfl
@[simp] theorem State.environmentUnspecified_lcd1 (s : State) : s.environmentUnspecified.lcd1 = some (Lcd.unspecified s.draws) := rfl
@[simp] theorem State.environmentUnspecified_lcd2 (s : State) : s.environmentUnspecified.lcd2 = some (Lcd.unspecified (s.draws + 4)) := rfl
@[simp] theorem State.environmentUnspecified_answers (s : State) : s.environmentUnspecified.answers = s.answers := rfl
@[simp] theorem State.environmentUnspecified_calls (s : State) : s.environmentUnspecified.calls = s.calls := rfl
@[simp] theorem State.environmentUnspecified_trace (s : State) : s.environmentUnspecified.trace = s.trace := rfl
@[simp] theorem State.environmentUnspecified_params (s : State) : s.environmentUnspecified.params = s.params := rfl
@[simp] theorem State.environmentUnspecified_draws (s : State) : s.environmentUnspecified.draws = s.draws + 8 := rfl

/-! `State.drivePin` -/

@[simp] theorem State.drivePin_phase (s : State) (n : PinName) (l : Bool) : (s.drivePin n l).phase = s.phase := rfl
@[simp] theorem State.drivePin_ctrl (s : State) (n : PinName) (l : Bool) : (s.drivePin n l).ctrl = s.ctrl := rfl
@[simp] theorem State.drivePin_fb (s : State) (n : PinName) (l : Bool) : (s.drivePin n l).fb = s.fb := rfl
@[simp] theorem State.drivePin_xcs (s : State) (n : PinName) (l : Bool) : (s.drivePin n l).xcs = if n = .xcs then l else s.xcs := rfl
@[simp] theorem State.drivePin_xrst (s : State) (n : PinName) (l : Bool) : (s.drivePin n l).xrst = if n = .xrst then l else s.xrst := rfl
@[simp] theorem State.drivePin_exp (s : State) (n : PinName) (l : Bool) : (s.drivePin n l).exp = s.exp := rfl
@[simp] theorem State.drivePin_lcd1 (s : State) (n : PinName) (l : Bool) : (s.drivePin n l).lcd1 = s.lcd1 := rfl
@[simp] theorem State.drivePin_lcd2 (s : State) (n : PinName) (l : Bool) : (s.drivePin n l).lcd2 = s.lcd2 := rfl
@[simp] theorem State.drivePin_answers (s : State) (n : PinName) (l : Bool) : (s.drivePin n l).answers = s.answers := rfl
@[simp] theorem State.drivePin_calls (s : State) (n : PinName) (l : Bool) : (s.drivePin n l).calls = s.calls := rfl
@[simp] theorem State.drivePin_trace (s : State) (n : PinName) (l : Bool) : (s.drivePin n l).trace = s.trace ++ [.event (.pin n l)] := rfl
@[simp] theorem State.drivePin_params (s : State) (n : PinName) (l : Bool) : (s.drivePin n l).params = s.params := rfl
@[simp] theorem State.drivePin_draws (s : State) (n : PinName) (l : Bool) : (s.drivePin n l).draws = s.draws := rfl

/-! `State.placeTableWord` -/

@[simp] theorem State.placeTableWord_phase (s : State) (n w : Nat) : (s.placeTableWord n w).phase = s.phase := rfl
@[simp] theorem State.placeTableWord_ctrl (s : State) (n w : Nat) : (s.placeTableWord n w).ctrl = s.ctrl := rfl
@[simp] theorem State.placeTableWord_fb (s : State) (n w : Nat) : (s.placeTableWord n w).fb = s.fb := rfl
@[simp] theorem State.placeTableWord_xcs (s : State) (n w : Nat) : (s.placeTableWord n w).xcs = s.xcs := rfl
@[simp] theorem State.placeTableWord_xrst (s : State) (n w : Nat) : (s.placeTableWord n w).xrst = s.xrst := rfl
@[simp] theorem State.placeTableWord_exp (s : State) (n w : Nat) : (s.placeTableWord n w).exp = s.exp := rfl
@[simp] theorem State.placeTableWord_lcd1 (s : State) (n w : Nat) : (s.placeTableWord n w).lcd1 = s.lcd1 := rfl
@[simp] theorem State.placeTableWord_lcd2 (s : State) (n w : Nat) : (s.placeTableWord n w).lcd2 = s.lcd2 := rfl
@[simp] theorem State.placeTableWord_answers (s : State) (n w : Nat) : (s.placeTableWord n w).answers = s.answers := rfl
@[simp] theorem State.placeTableWord_calls (s : State) (n w : Nat) : (s.placeTableWord n w).calls = requestOfTableWord n w :: s.calls := rfl
@[simp] theorem State.placeTableWord_trace (s : State) (n w : Nat) : (s.placeTableWord n w).trace = s.trace := rfl
@[simp] theorem State.placeTableWord_params (s : State) (n w : Nat) : (s.placeTableWord n w).params = s.params := rfl
@[simp] theorem State.placeTableWord_draws (s : State) (n w : Nat) : (s.placeTableWord n w).draws = s.draws := rfl

/-! The chip accessors -/

@[simp] theorem State.setLcd_lcd (s : State) (k j : Chip) (l : Option Lcd) :
    (s.setLcd k l).lcd j = if j = k then l else s.lcd j := by
  cases k <;> cases j <;> rfl

@[simp] theorem State.emit_lcd (s : State) (e : Event) (k : Chip) : (s.emit e).lcd k = s.lcd k := by
  cases k <;> rfl

@[simp] theorem State.record_lcd (s : State) (r : OpResult) (k : Chip) : (s.record r).lcd k = s.lcd k := by
  cases k <;> rfl

@[simp] theorem State.expStored_lcd (s : State) (a v : Byte) (k : Chip) : (s.expStored a v).lcd k = s.lcd k := by
  cases k <;> rfl

@[simp] theorem State.expLost_lcd (s : State) (a : Byte) (k : Chip) : (s.expLost a).lcd k = s.lcd k := by
  cases k <;> rfl

@[simp] theorem State.expRead_lcd (s : State) (a : Byte) (k : Chip) : (s.expRead a).lcd k = s.lcd k := by
  cases k <;> rfl

@[simp] theorem State.deliver_lcd (s : State) (k j : Chip) (di : Bool) (b : Byte) :
    (s.deliver k di b).lcd j = if j = k then (s.lcd k).bind (fun l => l.take di b) else s.lcd j :=
  State.setLcd_lcd s k j _

/-- A drawn delivery delivers the word or leaves the chip as it was. -/
theorem State.deliverDrawn_lcd (s : State) (k j : Chip) (di : Bool) (b : Byte) :
    (s.deliverDrawn k di b).lcd j = (s.deliver k di b).lcd j ∨ (s.deliverDrawn k di b).lcd j = s.lcd j := by
  have e : (s.deliverDrawn k di b).lcd j
      = if j = k then (if (Config.freeByte s.draws).getLsbD 0 then (s.lcd k).bind (fun l => l.take di b)
          else s.lcd k) else s.lcd j := by
    cases k <;> cases j <;> rfl
  rw [e, State.deliver_lcd]
  by_cases h : j = k
  · subst h
    cases (Config.freeByte s.draws).getLsbD 0 <;> simp
  · simp [h]

/-- A control frame with RST = 1 does not touch the chips. -/
theorem State.panelHeld_released (s : State) (v : Byte) (h : ctrlRST v = true) : s.panelHeld v = s := by
  simp [State.panelHeld, h]

theorem State.forgetColumn_lcd (s : State) (k j : Chip) :
    (s.forgetColumn k).lcd j =
      if j = k then (s.lcd k).map (fun l => { l with col := (Config.freeByte s.draws).setWidth 6 })
      else s.lcd j := by
  cases k <;> cases j <;> rfl

end Sys2Proof.Machine
end

