-- ==== Sys2Proof/Laws/Actions.lean ====
section
/-! SUPPORT. What each shared operation can do: a relation kept along sequences, and the transport's cases. -/

namespace Sys2Proof.Machine

/-! ## Sequencing -/

/-- What holds of the state in which a piece ended, whether by success or by an error. -/
def Ran.Holds {α : Type} (Q : State → Prop) : Ran α → Prop
  | .ok _ t => Q t
  | .err _ t => Q t
  | .stuck _ => True

/-- The action relates every state to the one it ends in. -/
def Action.Keeps {α : Type} (R : State → State → Prop) (p : Action α) : Prop := ∀ s, (p s).Holds (R s)

@[simp] theorem Action.ret_apply {α : Type} (a : α) (s : State) : Action.ret a s = .ok a s := rfl
@[simp] theorem Action.raise_apply {α : Type} (e : Err) (s : State) :
    (Action.raise e : Action α) s = .err e s := rfl
@[simp] theorem Action.change_apply (f : State → State) (s : State) : Action.change f s = .ok () (f s) := rfl

theorem Action.bind_ok {α β : Type} {p : Action α} {q : α → Action β} {s t : State} {a : α}
    (h : p s = .ok a t) : p.bind q s = q a t := by simp [Action.bind, h]
theorem Action.bind_err {α β : Type} {p : Action α} {q : α → Action β} {s t : State} {e : Err}
    (h : p s = .err e t) : p.bind q s = .err e t := by simp [Action.bind, h]
theorem Action.bind_stuck {α β : Type} {p : Action α} {q : α → Action β} {s : State} {f : Fault}
    (h : p s = .stuck f) : p.bind q s = .stuck f := by simp [Action.bind, h]

theorem Action.andThen_ok {α β : Type} {p : Action α} {q : Action β} {s t : State} {a : α}
    (h : p s = .ok a t) : p.andThen q s = q t := Action.bind_ok h

theorem Action.inOrder_nil (s : State) : Action.inOrder [] s = .ok () s := rfl
theorem Action.inOrder_cons_ok {p : Action Unit} {ps : List (Action Unit)} {s t : State}
    (h : p s = .ok () t) : Action.inOrder (p :: ps) s = Action.inOrder ps t := Action.bind_ok h
theorem Action.inOrder_cons_err {p : Action Unit} {ps : List (Action Unit)} {s t : State} {e : Err}
    (h : p s = .err e t) : Action.inOrder (p :: ps) s = .err e t := Action.bind_err h
theorem Action.inOrder_cons_stuck {p : Action Unit} {ps : List (Action Unit)} {s : State} {f : Fault}
    (h : p s = .stuck f) : Action.inOrder (p :: ps) s = .stuck f := Action.bind_stuck h

section
variable {R : State → State → Prop} (refl : ∀ s, R s s) (trans : ∀ s t u, R s t → R t u → R s u)

include refl in
theorem Action.keeps_ret {α : Type} (a : α) : (Action.ret a).Keeps R := fun s => refl s

include refl in
theorem Action.keeps_raise {α : Type} (e : Err) : (Action.raise e : Action α).Keeps R := fun s => refl s

include trans in
theorem Action.keeps_bind {α β : Type} {p : Action α} {q : α → Action β} (hp : p.Keeps R)
    (hq : ∀ a, (q a).Keeps R) : (p.bind q).Keeps R := by
  intro s
  have h := hp s
  unfold Action.bind
  cases hps : p s with
  | ok a t =>
    rw [hps] at h
    have h2 := hq a t
    cases hqt : q a t with
    | ok b u => rw [hqt] at h2; simp only [hqt]; exact trans _ _ _ h h2
    | err e u => rw [hqt] at h2; simp only [hqt]; exact trans _ _ _ h h2
    | stuck f => simp only [hqt]; trivial
  | err e t => rw [hps] at h; exact h
  | stuck f => trivial

include trans in
theorem Action.keeps_andThen {α β : Type} {p : Action α} {q : Action β} (hp : p.Keeps R)
    (hq : q.Keeps R) : (p.andThen q).Keeps R := Action.keeps_bind trans hp (fun _ => hq)

include refl trans in
theorem Action.keeps_inOrder {ps : List (Action Unit)} (h : ∀ p ∈ ps, p.Keeps R) :
    (Action.inOrder ps).Keeps R := by
  induction ps with
  | nil => exact Action.keeps_ret refl ()
  | cons p ps ih =>
    exact Action.keeps_andThen trans (h p (by simp)) (ih (fun q hq => h q (by simp [hq])))

include refl trans in
theorem Action.keeps_forEach {α : Type} {f : α → Action Unit} {xs : List α} (h : ∀ x ∈ xs, (f x).Keeps R) :
    (Action.forEach f xs).Keeps R := by
  induction xs with
  | nil => exact Action.keeps_ret refl ()
  | cons x xs ih =>
    exact Action.keeps_andThen trans (h x (by simp)) (ih (fun y hy => h y (by simp [hy])))

include refl trans in
theorem Action.keeps_unit {p : Action Unit} (h : p.Keeps R) : p.unit.Keeps R :=
  Action.keeps_andThen trans h (Action.keeps_ret refl _)
end

/-! ## The transport -/

/-- The state after one transport call that emitted `e`. -/
def State.afterCall (s : State) (e : Event) : State := { s with answers := s.answers.drop 1 }.emit e

/-- Every case of a write call: it emits its frame and consumes one answer, or it hangs. -/
theorem spiWrite_cases (bytes : List Byte) (s : State) :
    (∃ k, spiWrite bytes s = .ok k (s.afterCall (.spiWrite bytes))) ∨ spiWrite bytes s = .stuck .transportHang := by
  unfold spiWrite State.afterCall
  rcases h : s.answers with _ | ⟨⟨k, r0, r1, r2⟩ | _, rest⟩
  · exact .inl ⟨bytes.length, by simp [State.emit, h]⟩
  · exact .inl ⟨k, by simp⟩
  · exact .inr rfl

theorem spiWrite_acked {bytes : List Byte} {s : State} {n : Nat} (hb : bytes.length = 3) (h : s.Acks (n + 1)) :
    spiWrite bytes s = .ok 3 (s.afterCall (.spiWrite bytes)) := by
  unfold spiWrite State.afterCall
  rcases ha : s.answers with _ | ⟨⟨⟩ | _, rest⟩
  · simp [State.emit, hb, ha]
  · have := h _ (by rw [ha]; simp; exact .inl rfl)
    simp [Answer.acks] at this
    simp [this]
  · have := h .hang (by rw [ha]; simp)
    simp [Answer.acks] at this

/-- Answers that acknowledge `n + 1` calls acknowledge `n` after one. -/
theorem State.Acks.tail {s : State} {n : Nat} (h : s.Acks (n + 1)) :
    ∀ a ∈ (s.answers.drop 1).take n, a.acks 3 = true := by
  intro a ha
  apply h a
  rcases hs : s.answers with _ | ⟨b, rest⟩
  · simp [hs] at ha
  · rw [hs] at ha; simp at ha ⊢; exact .inr ha

theorem State.Acks.mono {s : State} {m n : Nat} (h : s.Acks n) (hm : m ≤ n) : s.Acks m :=
  fun a ha => h a (List.take_subset_take_left _ hm ha)

/-- What a register write does when it is answered: the frame, and the device's register. -/
theorem writeRegisterBody_acked {a v : Byte} {s : State} {n : Nat} (h : s.Acks (n + 1)) :
    writeRegisterBody a v s = .ok () ((s.afterCall (evW a v)).expStored a v) := by
  simp [writeRegisterBody, spiWrite_acked (bytes := [expOpWrite, a, v]) rfl h]

/-- Every case of a register write: one frame and then success or TransportError, or a hang. -/
theorem writeRegisterBody_cases (a v : Byte) (s : State) :
    writeRegisterBody a v s = .ok () ((s.afterCall (evW a v)).expStored a v)
      ∨ writeRegisterBody a v s = .err .transportError ((s.afterCall (evW a v)).expLost a)
      ∨ writeRegisterBody a v s = .stuck .transportHang := by
  unfold writeRegisterBody
  rcases spiWrite_cases [expOpWrite, a, v] s with ⟨k, h⟩ | h
  · rw [h]
    by_cases hk : k = 3
    · simp [hk]
    · simp [hk]
  · rw [h]; simp

/-- Every case of a control update: suppressed, written and cached, failed with the cache kept, or a hang. -/
theorem updateBody_cases (set : CtrlSet) (s : State) :
    (applySet set s.ctrl = s.ctrl ∧ updateBody set s = .ok () s) ∨
    (applySet set s.ctrl ≠ s.ctrl ∧
      (updateBody set s = .ok () ({ ((s.afterCall (evW s.params.aCtrl (applySet set s.ctrl))).expStored
          s.params.aCtrl (applySet set s.ctrl)) with ctrl := applySet set s.ctrl }.panelHeld (applySet set s.ctrl))
        ∨ updateBody set s = .err .transportError (((s.afterCall (evW s.params.aCtrl (applySet set s.ctrl))).expLost
          s.params.aCtrl).panelHeld (applySet set s.ctrl))
        ∨ updateBody set s = .stuck .transportHang)) := by
  by_cases h : applySet set s.ctrl = s.ctrl
  · exact .inl ⟨h, by simp [updateBody, h]⟩
  · refine .inr ⟨h, ?_⟩
    simp only [updateBody, h, if_false, controlWrite]
    rcases writeRegisterBody_cases s.params.aCtrl (applySet set s.ctrl) s with h1 | h1 | h1 <;> rw [h1] <;> simp

/-- A control update that is answered: the byte it makes is the cache afterwards. -/
theorem updateBody_acked {set : CtrlSet} {s : State} {n : Nat} (h : s.Acks (n + 1)) :
    updateBody set s = if applySet set s.ctrl = s.ctrl then .ok () s else
      .ok () ({ ((s.afterCall (evW s.params.aCtrl (applySet set s.ctrl))).expStored
          s.params.aCtrl (applySet set s.ctrl)) with ctrl := applySet set s.ctrl }.panelHeld (applySet set s.ctrl)) := by
  by_cases he : applySet set s.ctrl = s.ctrl
  · simp [updateBody, he]
  · simp [updateBody, he, controlWrite, writeRegisterBody_acked h]

/-! ## The frame of the bus-level operations -/

/-- What no bus-level operation changes: phase, framebuffer, pins, parameters and the caller's queue. -/
def State.BusFrame (s t : State) : Prop :=
  t.phase = s.phase ∧ t.fb = s.fb ∧ t.xcs = s.xcs ∧ t.xrst = s.xrst ∧ t.params = s.params ∧ t.calls = s.calls

theorem State.BusFrame.refl (s : State) : s.BusFrame s := ⟨rfl, rfl, rfl, rfl, rfl, rfl⟩

theorem State.BusFrame.trans (s t u : State) (h : s.BusFrame t) (k : t.BusFrame u) : s.BusFrame u := by
  obtain ⟨a1, a2, a3, a4, a5, a6⟩ := h
  obtain ⟨b1, b2, b3, b4, b5, b6⟩ := k
  exact ⟨b1.trans a1, b2.trans a2, b3.trans a3, b4.trans a4, b5.trans a5, b6.trans a6⟩

theorem writeRegisterBody_busFrame (a v : Byte) : (writeRegisterBody a v).Keeps State.BusFrame := by
  intro s
  rcases writeRegisterBody_cases a v s with h | h | h <;> rw [h]
  exacts [⟨rfl, rfl, rfl, rfl, rfl, rfl⟩, ⟨rfl, rfl, rfl, rfl, rfl, rfl⟩, trivial]

theorem updateBody_busFrame (set : CtrlSet) : (updateBody set).Keeps State.BusFrame := by
  intro s
  rcases updateBody_cases set s with ⟨-, h⟩ | ⟨-, h | h | h⟩ <;> rw [h]
  exacts [⟨rfl, rfl, rfl, rfl, rfl, rfl⟩, ⟨rfl, rfl, rfl, rfl, rfl, rfl⟩, ⟨rfl, rfl, rfl, rfl, rfl, rfl⟩, trivial]

theorem delay_busFrame (w : Wait) : (delay w).Keeps State.BusFrame := fun _ => ⟨rfl, rfl, rfl, rfl, rfl, rfl⟩

theorem dataDirIn_busFrame : dataDirIn.Keeps State.BusFrame := fun s => writeRegisterBody_busFrame _ _ s
theorem dataDirOut_busFrame : dataDirOut.Keeps State.BusFrame := fun s => writeRegisterBody_busFrame _ _ s
theorem dataOut_busFrame (v : Byte) : (dataOut v).Keeps State.BusFrame := fun s => writeRegisterBody_busFrame _ _ s

theorem enableToggle_busFrame (k : Chip) (di : Bool) (b : Byte) :
    (enableToggle k di b).Keeps State.BusFrame := by
  intro s
  have h := updateBody_busFrame { e := some false } s
  unfold enableToggle
  cases hu : updateBody { e := some false } s with
  | ok _ t => rw [hu] at h; exact h
  | err _ t => rw [hu] at h; exact h
  | stuck _ => trivial

/-- A bus write changes neither phase, framebuffer, pins nor parameters, however it ends. -/
theorem busWriteSeq_busFrame (k : Chip) (di : Bool) (b : Byte) : (busWriteSeq k di b).Keeps State.BusFrame := by
  apply Action.keeps_inOrder State.BusFrame.refl State.BusFrame.trans
  intro p hp
  simp only [List.mem_cons, List.not_mem_nil, or_false] at hp
  rcases hp with rfl | rfl | rfl | rfl | rfl | rfl | rfl | rfl | rfl | rfl
  exacts [updateBody_busFrame _, dataDirOut_busFrame, dataOut_busFrame _, updateBody_busFrame _, delay_busFrame _,
    enableToggle_busFrame _ _ _, delay_busFrame _, updateBody_busFrame _, updateBody_busFrame _, dataDirIn_busFrame]

theorem writeSegment_busFrame (k : Chip) (p c : Nat) (bytes : List Byte) :
    (writeSegment k p c bytes).Keeps State.BusFrame := by
  apply Action.keeps_inOrder State.BusFrame.refl State.BusFrame.trans
  intro q hq
  simp only [List.mem_cons, List.not_mem_nil, or_false] at hq
  rcases hq with rfl | rfl | rfl
  exacts [busWriteSeq_busFrame _ _ _, busWriteSeq_busFrame _ _ _,
    Action.keeps_forEach State.BusFrame.refl State.BusFrame.trans (fun _ _ => busWriteSeq_busFrame _ _ _)]

/-- `panel.setBytesAt` changes neither phase, framebuffer, pins nor parameters, however it ends. -/
theorem setBytesAtSeq_busFrame (r c : Nat) (bytes : List Byte) :
    (setBytesAtSeq r c bytes).Keeps State.BusFrame := by
  unfold setBytesAtSeq
  dsimp only
  split
  · apply Action.keeps_andThen State.BusFrame.trans _ (Action.keeps_ret State.BusFrame.refl _)
    apply Action.keeps_inOrder State.BusFrame.refl State.BusFrame.trans
    intro q hq
    simp only [List.mem_cons, List.not_mem_nil, or_false] at hq
    rcases hq with rfl | rfl <;> split
    exacts [writeSegment_busFrame _ _ _ _, Action.keeps_ret State.BusFrame.refl _,
      writeSegment_busFrame _ _ _ _, Action.keeps_ret State.BusFrame.refl _]
  · exact Action.keeps_raise State.BusFrame.refl _

end Sys2Proof.Machine
end

