-- ==== Sys2Proof/Laws/BusWrite.lean ====
section
/-! SUPPORT. What an answered bus write does: exactly, from the idle state; and field by field, from any
control state. -/

namespace Sys2Proof.Machine

/-- A state in the middle of a sequence: `j` answers consumed, `es` emitted, the cache and the device's
registers as given. -/
def State.mid (s : State) (j : Nat) (es : List Event) (c : Byte) (m : Memory) : State :=
  { s with answers := s.answers.drop j, trace := s.trace ++ items es, ctrl := c, exp := m }

theorem State.mid_start (s : State) : s.mid 0 [] s.ctrl s.exp = s := by simp [State.mid]

/-- Answers that acknowledge `j + n` calls acknowledge `n` after the first `j`. -/
theorem State.Acks.mid {s : State} {j n : Nat} {es : List Event} {c : Byte} {m : Memory}
    (h : s.Acks (j + n)) : (s.mid j es c m).Acks n := by
  intro a ha
  apply h a
  simp only [State.mid, List.take_drop] at ha
  exact List.mem_of_mem_drop ha

/-- One event appended in the middle of a sequence. -/
theorem State.mid_afterCall (s : State) (j : Nat) (es : List Event) (c : Byte) (m : Memory) (e : Event) :
    (s.mid j es c m).afterCall e = s.mid (j + 1) (es ++ [e]) c m := by
  simp [State.mid, State.afterCall, State.emit, items]

/-- A wait in the middle of a sequence. -/
theorem delay_step (w : Wait) (s : State) (j : Nat) (es : List Event) (c : Byte) (m : Memory) :
    delay w (s.mid j es c m) = .ok () (s.mid j (es ++ [.delay w]) c m) := by
  simp [State.mid, delay, State.emit, items]

/-- One answered register write, with the device's registers left open. -/
theorem writeRegisterBody_step {a v : Byte} {s : State} {j : Nat} {es : List Event} {c : Byte} {m : Memory}
    (h : s.Acks (j + 1)) :
    ∃ m', writeRegisterBody a v (s.mid j es c m) = .ok () (s.mid (j + 1) (es ++ [evW a v]) c m') := by
  rw [writeRegisterBody_acked (State.Acks.mid (n := 1) h), State.mid_afterCall]
  exact ⟨_, rfl⟩

/-- One answered control update that changes the byte to `new`, RST staying released. -/
theorem updateBody_step {set : CtrlSet} {s : State} {j : Nat} {es : List Event} {c new : Byte} {m : Memory}
    (h : s.Acks (j + 1)) (hn : applySet set c = new) (hne : new ≠ c) (hr : ctrlRST new = true) :
    ∃ m', updateBody set (s.mid j es c m) = .ok () (s.mid (j + 1) (es ++ [evW s.params.aCtrl new]) new m') := by
  subst hn
  have e : (s.mid j es c m).ctrl = c := rfl
  rw [updateBody_acked (n := 0) (State.Acks.mid h), e, if_neg hne, State.panelHeld_released _ _ hr,
    State.mid_afterCall]
  exact ⟨_, rfl⟩

/-- Replacing a chip commutes with the middle of a sequence. -/
theorem State.mid_deliver (s : State) (j : Nat) (es : List Event) (c : Byte) (m : Memory) (k : Chip) (di : Bool)
    (b : Byte) : (s.mid j es c m).deliver k di b = (s.deliver k di b).mid j es c m := by
  cases k <;> rfl

/-- The Enable toggle delivers the word when its control write is answered. -/
theorem enableToggle_step {k : Chip} {di : Bool} {b : Byte} {s : State} {j : Nat} {es : List Event} {c new : Byte}
    {m : Memory} (h : s.Acks (j + 1)) (hn : applySet { e := some false } c = new) (hne : new ≠ c)
    (hr : ctrlRST new = true) :
    ∃ m', enableToggle k di b (s.mid j es c m) = .ok ()
      ((s.deliver k di b).mid (j + 1) (es ++ [evW s.params.aCtrl new]) new m') := by
  obtain ⟨m', he⟩ := updateBody_step (es := es) (m := m) h hn hne hr
  exact ⟨m', by simp only [enableToggle, he, State.mid_deliver]⟩

/-- Two control bytes that differ in a field are different bytes. -/
theorem ctrl_ne_of_e {v w : Byte} (h : ctrlE v ≠ ctrlE w) : v ≠ w := fun e => h (by rw [e])
theorem ctrl_ne_of_rw {v w : Byte} (h : ctrlRW v ≠ ctrlRW w) : v ≠ w := fun e => h (by rw [e])

/-- The control byte after an update within a bus sequence. -/
theorem applySet_seqByte (set : CtrlSet) (c : Byte) (di e rw cs1 cs2 : Bool) (hs : set.rst = none)
    (hb : set.bl = none) :
    applySet set (seqByte c di e rw cs1 cs2) =
      seqByte c (set.di.getD di) (set.e.getD e) (set.rw.getD rw) (set.cs1.getD cs1) (set.cs2.getD cs2) := by
  rw [applySet_eq_ctrlByte]
  simp [seqByte, hs, hb]

/-- An idle control byte is the idle byte of its own DI. -/
theorem idle_eq_seqByte {c : Byte} (h : Idle c) : c = seqByte c (ctrlDI c) true true false false := by
  obtain ⟨h1, h2, h3, h4, h5, h6⟩ := h
  apply ctrl_ext <;> simp [seqByte, h1, h2, h3, h4, h5, h6, -BitVec.getLsbD_eq_getElem]

@[simp] theorem seqByte_rst (c : Byte) (di e rw cs1 cs2 : Bool) : ctrlRST (seqByte c di e rw cs1 cs2) = true := by
  simp [seqByte]
@[simp] theorem seqByte_e (c : Byte) (di e rw cs1 cs2 : Bool) : ctrlE (seqByte c di e rw cs1 cs2) = e := by
  simp [seqByte]
@[simp] theorem seqByte_di (c : Byte) (di e rw cs1 cs2 : Bool) : ctrlDI (seqByte c di e rw cs1 cs2) = di := by
  simp [seqByte]
@[simp] theorem seqByte_rw (c : Byte) (di e rw cs1 cs2 : Bool) : ctrlRW (seqByte c di e rw cs1 cs2) = rw := by
  simp [seqByte]
@[simp] theorem seqByte_cs1 (c : Byte) (di e rw cs1 cs2 : Bool) : ctrlCS1 (seqByte c di e rw cs1 cs2) = cs1 := by
  simp [seqByte]
@[simp] theorem seqByte_cs2 (c : Byte) (di e rw cs1 cs2 : Bool) : ctrlCS2 (seqByte c di e rw cs1 cs2) = cs2 := by
  simp [seqByte]
@[simp] theorem seqByte_bl (c : Byte) (di e rw cs1 cs2 : Bool) : ctrlBL (seqByte c di e rw cs1 cs2) = ctrlBL c := by
  simp [seqByte]
@[simp] theorem seqByte_bit6 (c : Byte) (di e rw cs1 cs2 : Bool) :
    (seqByte c di e rw cs1 cs2).getLsbD 6 = false := by
  simp only [seqByte, ctrlByte_bit6]

/-- The byte a bus sequence ends with is idle. -/
theorem seqByte_idle (c : Byte) (di : Bool) : Idle (seqByte c di true true false false) := by
  simp [Idle, -BitVec.getLsbD_eq_getElem]

/-- `bus.write` from the idle state, answered throughout: the whole next state but the device's registers. -/
theorem busWriteSeq_idle {s : State} {k : Chip} {di : Bool} {b : Byte} (hi : Idle s.ctrl) (ha : s.Acks 8) :
    ∃ m, busWriteSeq k di b s = .ok () ((s.deliver k di b).mid 8 (busWriteEvents s.params s.ctrl k di b)
      (seqByte s.ctrl di true true false false) m) := by
  have hc := idle_eq_seqByte hi
  have hsel : seqByte s.ctrl di true false (k = .chip1) (k = .chip2) ≠ seqByte s.ctrl di true false false false := by
    intro h
    have h1 := congrArg ctrlCS1 h
    have h2 := congrArg ctrlCS2 h
    cases k <;> simp at h1 h2
  have hdes : seqByte s.ctrl di false false false false ≠ seqByte s.ctrl di false false (k = .chip1) (k = .chip2) := by
    intro h
    have h1 := congrArg ctrlCS1 h
    have h2 := congrArg ctrlCS2 h
    cases k <;> simp at h1 h2
  have hd : (s.deliver k di b).Acks 8 := ha
  -- the seven steps of 41_parallel_bus.md R120, in order
  obtain ⟨m1, h1⟩ := updateBody_step (s := s) (set := { di := some di, rw := some false, e := some true }) (j := 0)
    (es := []) (c := s.ctrl) (m := s.exp) (ha.mono (by omega))
    (new := seqByte s.ctrl di true false false false)
    (by rw [hc, applySet_seqByte _ _ _ _ _ _ _ rfl rfl]; simp [seqByte])
    (ctrl_ne_of_rw (by simp [hi.2.1])) (seqByte_rst _ _ _ _ _ _)
  rw [State.mid_start] at h1
  obtain ⟨m2, h2⟩ := writeRegisterBody_step (s := s) (a := s.params.aDataDir) (v := s.params.ddrOut) (j := 1)
    (es := [] ++ [evW s.params.aCtrl (seqByte s.ctrl di true false false false)])
    (c := seqByte s.ctrl di true false false false) (m := m1) (ha.mono (by omega))
  obtain ⟨m3, h3⟩ := writeRegisterBody_step (s := s) (a := s.params.aData) (v := b) (j := 2)
    (c := seqByte s.ctrl di true false false false) (m := m2) (ha.mono (by omega))
  obtain ⟨m4, h4⟩ := updateBody_step (s := s) (set := selectSet k) (j := 3) (m := m3) (ha.mono (by omega))
    (by rw [applySet_seqByte _ _ _ _ _ _ _ rfl rfl]; simp [selectSet]) hsel (seqByte_rst _ _ _ _ _ _)
  obtain ⟨m5, h5⟩ := enableToggle_step (s := s) (k := k) (di := di) (b := b) (j := 4) (m := m4) (ha.mono (by omega))
    (c := seqByte s.ctrl di true false (k = .chip1) (k = .chip2))
    (new := seqByte s.ctrl di false false (k = .chip1) (k = .chip2))
    (by rw [applySet_seqByte _ _ _ _ _ _ _ rfl rfl]; simp)
    (ctrl_ne_of_e (by simp)) (seqByte_rst _ _ _ _ _ _)
  obtain ⟨m6, h6⟩ := updateBody_step (s := s.deliver k di b) (set := deselectSet) (j := 5) (m := m5)
    (hd.mono (by omega)) (by rw [applySet_seqByte _ _ _ _ _ _ _ rfl rfl]; simp [deselectSet]) hdes
    (seqByte_rst _ _ _ _ _ _)
  obtain ⟨m7, h7⟩ := updateBody_step (s := s.deliver k di b) (set := { e := some true, rw := some true }) (j := 6)
    (m := m6) (c := seqByte s.ctrl di false false false false) (new := seqByte s.ctrl di true true false false)
    (hd.mono (by omega)) (by rw [applySet_seqByte _ _ _ _ _ _ _ rfl rfl]; simp)
    (ctrl_ne_of_e (by simp)) (seqByte_rst _ _ _ _ _ _)
  obtain ⟨m8, h8⟩ := writeRegisterBody_step (s := s.deliver k di b) (a := s.params.aDataDir) (v := s.params.ddrIn)
    (j := 7) (c := seqByte s.ctrl di true true false false) (m := m7) (hd.mono (by omega))
  refine ⟨m8, ?_⟩
  unfold busWriteSeq
  rw [Action.inOrder_cons_ok h1, Action.inOrder_cons_ok (p := dataDirOut) h2, Action.inOrder_cons_ok (p := dataOut b) h3,
    Action.inOrder_cons_ok h4, Action.inOrder_cons_ok (delay_step _ _ _ _ _ _), Action.inOrder_cons_ok h5,
    Action.inOrder_cons_ok (delay_step _ _ _ _ _ _), Action.inOrder_cons_ok h6, Action.inOrder_cons_ok h7,
    Action.inOrder_cons_ok (p := dataDirIn) h8]
  rfl

/-- Several bus writes from the idle state, one after another, answered throughout. -/
theorem busWrites_idle {s : State} (hi : Idle s.ctrl) (ws : List SentWord) (ha : s.Acks (8 * ws.length)) :
    ∃ t, Action.forEach (fun w : SentWord => busWriteSeq w.1 w.2.1 w.2.2) ws s = .ok () t ∧ Idle t.ctrl ∧
      ctrlBL t.ctrl = ctrlBL s.ctrl ∧ s.BusFrame t ∧ t.answers = s.answers.drop (8 * ws.length) ∧
      t.trace = s.trace ++ items (wordsEvents s.params s.ctrl ws) ∧
      (∀ k, t.lcd k = ws.foldl (fun l w => if w.1 = k then l.bind (fun x => x.take w.2.1 w.2.2) else l) (s.lcd k)) := by
  induction ws generalizing s with
  | nil => exact ⟨s, rfl, hi, rfl, State.BusFrame.refl s, by simp, by simp [wordsEvents, items], fun _ => rfl⟩
  | cons w ws ih =>
    obtain ⟨k, di, b⟩ := w
    obtain ⟨m, h⟩ := busWriteSeq_idle (k := k) (di := di) (b := b) hi (ha.mono (by simp))
    have ha' : s.Acks (8 + 8 * ws.length) := ha.mono (by simp; omega)
    obtain ⟨t, h1, h2, h3, h4, h5, h6, h7⟩ := ih
      (s := (s.deliver k di b).mid 8 (busWriteEvents s.params s.ctrl k di b)
        (seqByte s.ctrl di true true false false) m)
      (seqByte_idle _ _) (State.Acks.mid (s := s.deliver k di b) ha')
    refine ⟨t, ?_, h2, ?_, ?_, ?_, ?_, ?_⟩
    · rw [← h1]; exact Action.bind_ok h
    · rw [h3]; exact seqByte_bl _ _ _ _ _ _
    · exact State.BusFrame.trans _ _ _ ⟨rfl, rfl, rfl, rfl, rfl, rfl⟩ h4
    · rw [h5]; simp [State.mid, List.drop_drop]; congr 1; omega
    · rw [h6]
      have e : wordsEvents s.params (seqByte s.ctrl di true true false false) ws = wordsEvents s.params s.ctrl ws := by
        simp [wordsEvents, busWriteEvents, seqByte]
      simp only [State.mid, State.deliver_params, State.deliver_trace, e]
      simp [wordsEvents, items]
    · intro j
      rw [h7]
      have : (State.mid (s.deliver k di b) 8 (busWriteEvents s.params s.ctrl k di b)
          (seqByte s.ctrl di true true false false) m).lcd j = (s.deliver k di b).lcd j := by cases j <;> rfl
      rw [this, State.deliver_lcd]
      by_cases hj : k = j
      · subst hj; simp
      · simp [hj, Ne.symm hj]

end Sys2Proof.Machine
end

