-- ==== Sys2Proof/Laws/Keeps.lean ====
section
/-! SUPPORT. One induction for every sequence: a relation that each primitive piece keeps is kept by every bus
sequence, panel operation and flush built from them. -/

namespace Sys2Proof.Machine

/-- A relation between states that every primitive piece of a bus sequence keeps, where the words that reach
the Enable toggle satisfy `W`. -/
structure BusKept (W : Chip → Bool → Byte → Prop) (R : State → State → Prop) : Prop where
  refl : ∀ s, R s s
  trans : ∀ s t u, R s t → R t u → R s u
  update : ∀ set : CtrlSet, set.rst = none → (updateBody set).Keeps R
  dirOut : dataDirOut.Keeps R
  dirIn : dataDirIn.Keeps R
  out : ∀ v, (dataOut v).Keeps R
  wait : ∀ w, (delay w).Keeps R
  toggle : ∀ k di b, W k di b → (enableToggle k di b).Keeps R

section
variable {W : Chip → Bool → Byte → Prop} {R : State → State → Prop}

theorem BusKept.write (h : BusKept W R) {k : Chip} {di : Bool} {b : Byte} (hw : W k di b) :
    (busWriteSeq k di b).Keeps R := by
  apply Action.keeps_inOrder h.refl h.trans
  intro p hp
  simp only [List.mem_cons, List.not_mem_nil, or_false] at hp
  rcases hp with rfl | rfl | rfl | rfl | rfl | rfl | rfl | rfl | rfl | rfl
  exacts [h.update _ rfl, h.dirOut, h.out _, h.update _ rfl, h.wait _, h.toggle _ _ _ hw, h.wait _, h.update _ rfl,
    h.update _ rfl, h.dirIn]

/-- A bus read, where the sampling transfer and the effect of a data read on the column are kept too. -/
theorem BusKept.read (h : BusKept W R) {k : Chip} {di : Bool} (hi : dataIn.Keeps R)
    (hd : (readDisturbs k di).Keeps R) : (busReadSeq k di).Keeps R := by
  refine Action.keeps_andThen h.trans ?_ (Action.keeps_bind h.trans hi fun v =>
    Action.keeps_andThen h.trans ?_ (Action.keeps_ret h.refl v))
  · apply Action.keeps_inOrder h.refl h.trans
    intro p hp
    simp only [List.mem_cons, List.not_mem_nil, or_false] at hp
    rcases hp with rfl | rfl | rfl | rfl | rfl | rfl
    exacts [h.dirIn, h.update _ rfl, hd, h.update _ rfl, h.update _ rfl, h.wait _]
  · apply Action.keeps_inOrder h.refl h.trans
    intro p hp
    simp only [List.mem_cons, List.not_mem_nil, or_false] at hp
    rcases hp with rfl | rfl
    exacts [h.update _ rfl, h.update _ rfl]

theorem BusKept.segment (h : BusKept W R) {k : Chip} {p c : Nat} {bytes : List Byte}
    (hp : W k false (pageByte p)) (hc : W k false (columnByte c)) (hb : ∀ b ∈ bytes, W k true b) :
    (writeSegment k p c bytes).Keeps R := by
  apply Action.keeps_inOrder h.refl h.trans
  intro q hq
  simp only [List.mem_cons, List.not_mem_nil, or_false] at hq
  rcases hq with rfl | rfl | rfl
  exacts [h.write hp, h.write hc, Action.keeps_forEach h.refl h.trans fun b hm => h.write (hb b hm)]

/-- `panel.setBytesAt`, when every word it can send is one the relation allows. -/
theorem BusKept.setBytesAt (h : BusKept W R) {r c : Nat} {bytes : List Byte} (hp : ∀ k, W k false (pageByte r))
    (hc : ∀ k y, W k false (columnByte y)) (hb : ∀ k, ∀ b ∈ bytes, W k true b) :
    (setBytesAtSeq r c bytes).Keeps R := by
  unfold setBytesAtSeq
  dsimp only
  split
  · apply Action.keeps_andThen h.trans _ (Action.keeps_ret h.refl _)
    apply Action.keeps_inOrder h.refl h.trans
    intro q hq
    simp only [List.mem_cons, List.not_mem_nil, or_false] at hq
    rcases hq with rfl | rfl <;> split
    exacts [h.segment (hp _) (hc _ _) fun b hm => hb _ b (List.mem_of_mem_take hm), Action.keeps_ret h.refl _,
      h.segment (hp _) (hc _ _) fun b hm => hb _ b (List.mem_of_mem_drop (List.mem_of_mem_take hm)),
      Action.keeps_ret h.refl _]
  · exact Action.keeps_raise h.refl _

theorem BusKept.setOnOff (h : BusKept W R) {on : Bool} (hw : ∀ k, W k false (powerByte on)) :
    (setOnOffSeq on).Keeps R := by
  apply Action.keeps_inOrder h.refl h.trans
  intro p hp
  simp only [List.mem_cons, List.not_mem_nil, or_false] at hp
  rcases hp with rfl | rfl
  exacts [h.write (hw _), h.write (hw _)]

theorem BusKept.clear (h : BusKept W R) (hp : ∀ k p, W k false (pageByte p)) (hc : ∀ k, W k false (columnByte 0))
    (hz : ∀ k, W k true 0#8) : clearSeq.Keeps R :=
  Action.keeps_forEach h.refl h.trans fun k _ => Action.keeps_forEach h.refl h.trans fun p _ =>
    h.segment (hp k p) (hc k) fun b hb => by rw [List.eq_of_mem_replicate hb]; exact hz k

/-- The flush of one run: the burst, and then the change of the run's dirty bits. -/
theorem BusKept.flushRun (h : BusKept W R) {r : Nat} {run : Nat × Nat} (hp : ∀ k, W k false (pageByte r))
    (hc : ∀ k y, W k false (columnByte y)) (hb : ∀ k b, W k true b)
    (hf : ∀ s, R s { s with fb := s.fb.clean r run.1 (run.2 - run.1) }) : (flushRun r run).Keeps R := by
  intro s
  refine Action.keeps_bind h.trans (h.setBytesAt hp hc fun k b _ => hb k b) (fun n => ?_) s
  split
  · exact fun t => hf t
  · exact Action.keeps_raise h.refl _

theorem BusKept.writeBack (h : BusKept W R) (hp : ∀ k r, W k false (pageByte r))
    (hc : ∀ k y, W k false (columnByte y)) (hb : ∀ k b, W k true b)
    (hf : ∀ s r a n, R s { s with fb := s.fb.clean r a n }) : writeBackSeq.Keeps R :=
  Action.keeps_forEach h.refl h.trans fun r _ s =>
    Action.keeps_forEach h.refl h.trans
      (fun run _ => h.flushRun (fun k => hp k r) hc hb (fun s => hf s r run.1 (run.2 - run.1))) s
end

/-! ## From a sequence to the operation -/

/-- An operation that answers a next state ended in some state the relation reaches, with its result appended. -/
theorem Ran.finish_next {R : State → State → Prop} {p : Action Value} {s t : State} (hp : p.Keeps R)
    (h : (p s).finish = .next t) : ∃ u r, R s u ∧ t = u.record r := by
  have hk := hp s
  cases hr : p s with
  | ok v u => rw [hr] at h hk; simp only [Ran.finish] at h; exact ⟨u, _, hk, by cases h; rfl⟩
  | err e u => rw [hr] at h hk; simp only [Ran.finish] at h; exact ⟨u, _, hk, by cases h; rfl⟩
  | stuck f => rw [hr] at h; simp [Ran.finish] at h

/-- An operation performed answers a next state only while Ready, and then as its sequence does. -/
theorem State.perform_next {p : Action Value} {s t : State} (h : s.perform p = .next t) :
    s.phase = .ready ∧ (p s).finish = .next t := by
  unfold State.perform at h
  split at h
  · cases h
  · exact ⟨‹_›, h⟩

theorem State.perform_ready {p : Action Value} {s : State} (h : s.phase = .ready) :
    s.perform p = (p s).finish := by simp [State.perform, h]

theorem State.refuseWith_not_next (s : State) (r : Refusal) (t : State) : s.refuseWith r ≠ .next t := by
  unfold State.refuseWith; split <;> simp

/-- The frame of the bus-level operations is such a relation, for every word. -/
theorem busFrame_kept : BusKept (fun _ _ _ => True) State.BusFrame where
  refl := State.BusFrame.refl
  trans := State.BusFrame.trans
  update set _ := updateBody_busFrame set
  dirOut := dataDirOut_busFrame
  dirIn := dataDirIn_busFrame
  out := dataOut_busFrame
  wait := delay_busFrame
  toggle k di b _ := enableToggle_busFrame k di b

end Sys2Proof.Machine
end

