-- ==== Sys2Proof/Laws/Memory.lean ====
section
/-! SUPPORT. The laws of memory and of the framebuffer grid: reads after writes, the canonical form kept. -/

namespace Sys2Proof.Machine

/-! ## Memory -/

/-- `risingFrom lo` is the canonical form above `lo`. -/
theorem Memory.risingFrom_some_iff (lo : Nat) (m : Memory) :
    Memory.risingFrom (some lo) m = true ↔ Memory.wf m = true ∧ ∀ c ∈ m, lo < c.1 := by
  induction m generalizing lo with
  | nil => simp [Memory.risingFrom, Memory.wf]
  | cons c m ih =>
    obtain ⟨b, w⟩ := c
    simp only [Memory.risingFrom, Memory.wf, Bool.and_eq_true, decide_eq_true_eq, ih,
      List.mem_cons, forall_eq_or_imp]
    constructor
    · rintro ⟨h, h1, h2⟩
      exact ⟨⟨h1, h2⟩, h, fun c hc => by have := h2 c hc; omega⟩
    · rintro ⟨⟨h1, h2⟩, h, -⟩
      exact ⟨h, h1, h2⟩

theorem Memory.wf_cons_iff (b : Nat) (w : Byte) (m : Memory) :
    Memory.wf ((b, w) :: m) = true ↔ Memory.wf m = true ∧ ∀ c ∈ m, b < c.1 :=
  Memory.risingFrom_some_iff b m

/-- An address below every listed one has no value. -/
theorem Memory.read?_below (m : Memory) (a : Nat) (h : ∀ c ∈ m, a < c.1) : m.read? a = none := by
  induction m with
  | nil => rfl
  | cons c m ih =>
    obtain ⟨b, w⟩ := c
    have hb := h (b, w) (by simp)
    have : a ≠ b := by simp at hb; omega
    simp [Memory.read?, this, ih (fun c hc => h c (by simp [hc]))]

/-- A read after a write: the value written at its address, the old one elsewhere. -/
theorem Memory.read?_write (m : Memory) (a a' : Nat) (v : Byte) :
    (m.write a v).read? a' = if a' = a then some v else m.read? a' := by
  induction m with
  | nil => simp [Memory.write, Memory.read?]
  | cons c m ih =>
    obtain ⟨b, w⟩ := c
    unfold Memory.write
    split
    · simp [Memory.read?]
    · split
      · next h => subst h; by_cases h' : a' = a <;> simp [Memory.read?, h']
      · next h1 h2 =>
        simp only [Memory.read?, ih]
        by_cases h' : a' = b
        · have : ¬ a' = a := by omega
          simp [h', show b ≠ a by omega]
        · simp [h']

theorem Memory.mem_write (m : Memory) (a : Nat) (v : Byte) (c : Host.Cell) (h : c ∈ m.write a v) :
    c = (a, v) ∨ c ∈ m := by
  induction m with
  | nil => simpa [Memory.write] using h
  | cons d m ih =>
    obtain ⟨b, w⟩ := d
    unfold Memory.write at h
    split at h
    · simpa using h
    · split at h
      · simp at h ⊢; tauto
      · simp at h ⊢
        rcases h with h | h
        · tauto
        · rcases ih h with h | h <;> tauto

/-- A write keeps the canonical form. -/
theorem Memory.wf_write (m : Memory) (a : Nat) (v : Byte) (h : m.wf = true) : (m.write a v).wf = true := by
  induction m with
  | nil => rfl
  | cons c m ih =>
    obtain ⟨b, w⟩ := c
    have ⟨hm, hb⟩ := (Memory.wf_cons_iff b w m).1 h
    unfold Memory.write
    split
    · next hab =>
      refine (Memory.wf_cons_iff _ _ _).2 ⟨h, ?_⟩
      intro c hc
      rcases List.mem_cons.1 hc with rfl | hc
      · exact hab
      · have := hb c hc; omega
    · split
      · next hab => subst hab; exact (Memory.wf_cons_iff _ _ _).2 ⟨hm, hb⟩
      · refine (Memory.wf_cons_iff _ _ _).2 ⟨ih hm, ?_⟩
        intro c hc
        rcases Memory.mem_write m a v c hc with rfl | hc
        · simp; omega
        · exact hb c hc

theorem Memory.mem_erase (m : Memory) (a : Nat) (c : Host.Cell) (h : c ∈ m.erase a) : c ∈ m := by
  induction m with
  | nil => simp [Memory.erase] at h
  | cons d m ih =>
    obtain ⟨b, w⟩ := d
    unfold Memory.erase at h
    split at h
    · simp [h]
    · simp at h ⊢
      rcases h with h | h
      · tauto
      · exact .inr (ih h)

/-- Erasing keeps the canonical form. -/
theorem Memory.wf_erase (m : Memory) (a : Nat) (h : m.wf = true) : (m.erase a).wf = true := by
  induction m with
  | nil => rfl
  | cons c m ih =>
    obtain ⟨b, w⟩ := c
    have ⟨hm, hb⟩ := (Memory.wf_cons_iff b w m).1 h
    unfold Memory.erase
    split
    · exact hm
    · exact (Memory.wf_cons_iff _ _ _).2 ⟨ih hm, fun c hc => hb c (Memory.mem_erase m a c hc)⟩

/-- A read after an erase, in the canonical form: no value at its address, the old one elsewhere. -/
theorem Memory.read?_erase (m : Memory) (a a' : Nat) (h : m.wf = true) :
    (m.erase a).read? a' = if a' = a then none else m.read? a' := by
  induction m with
  | nil => simp [Memory.erase, Memory.read?]
  | cons c m ih =>
    obtain ⟨b, w⟩ := c
    have ⟨hm, hb⟩ := (Memory.wf_cons_iff b w m).1 h
    unfold Memory.erase
    split
    · next hab =>
      subst hab
      by_cases h' : a' = a
      · subst h'; simp [Memory.read?_below m a' hb]
      · simp [Memory.read?, h']
    · next hab =>
      simp only [Memory.read?, ih hm]
      by_cases h' : a' = b
      · simp [h', show ¬ b = a by omega]
      · simp [h']

/-- Erasing leaves every other address alone, whatever the form. -/
theorem Memory.read?_erase_of_ne (m : Memory) (a a' : Nat) (h : a' ≠ a) : (m.erase a).read? a' = m.read? a' := by
  induction m with
  | nil => rfl
  | cons c m ih =>
    obtain ⟨b, w⟩ := c
    unfold Memory.erase
    split
    · next hab => simp [Memory.read?, hab ▸ h]
    · simp only [Memory.read?, ih]

/-- Two canonical memories that read alike are equal. -/
theorem Memory.ext_of_wf {m n : Memory} (hm : m.wf = true) (hn : n.wf = true)
    (h : ∀ a, m.read? a = n.read? a) : m = n := by
  induction m generalizing n with
  | nil =>
    cases n with
    | nil => rfl
    | cons c n => have := h c.1; simp [Memory.read?] at this
  | cons c m ih =>
    cases n with
    | nil => have := h c.1; simp [Memory.read?] at this
    | cons d n =>
      obtain ⟨b, w⟩ := c
      obtain ⟨b', w'⟩ := d
      have ⟨hm', hb⟩ := (Memory.wf_cons_iff b w m).1 hm
      have ⟨hn', hb'⟩ := (Memory.wf_cons_iff b' w' n).1 hn
      have e : b = b' := by
        rcases Nat.lt_trichotomy b b' with hlt | heq | hgt
        · have h1 := h b
          have h2 : Memory.read? ((b', w') :: n) b = none := by
            apply Memory.read?_below
            intro c hc
            rcases List.mem_cons.1 hc with rfl | hc
            · exact hlt
            · have := hb' c hc; omega
          rw [h2] at h1; simp [Memory.read?] at h1
        · exact heq
        · have h1 := h b'
          have h2 : Memory.read? ((b, w) :: m) b' = none := by
            apply Memory.read?_below
            intro c hc
            rcases List.mem_cons.1 hc with rfl | hc
            · exact hgt
            · have := hb c hc; omega
          rw [h2] at h1; simp [Memory.read?] at h1
      subst e
      have hw : w = w' := by have := h b; simpa [Memory.read?] using this
      subst hw
      congr 1
      apply ih hm' hn'
      intro a
      have := h a
      simp only [Memory.read?] at this
      by_cases ha : a = b
      · subst ha; rw [Memory.read?_below m a hb, Memory.read?_below n a hb']
      · simpa [ha] using this

/-- A write inside its address space keeps a memory good. -/
theorem Memory.good_write (m : Memory) (n a : Nat) (v : Byte) (ha : a < n) (h : m.good n = true) :
    (m.write a v).good n = true := by
  simp only [Memory.good, Memory.below, Bool.and_eq_true, List.all_eq_true, decide_eq_true_eq] at *
  refine ⟨Memory.wf_write m a v h.1, fun c hc => ?_⟩
  rcases Memory.mem_write m a v c hc with rfl | hc
  · exact ha
  · exact h.2 c hc

theorem Memory.good_erase (m : Memory) (n a : Nat) (h : m.good n = true) : (m.erase a).good n = true := by
  simp only [Memory.good, Memory.below, Bool.and_eq_true, List.all_eq_true, decide_eq_true_eq] at *
  exact ⟨Memory.wf_erase m a h.1, fun c hc => h.2 c (Memory.mem_erase m a c hc)⟩

/-! ## The framebuffer -/

/-- A read after a write of one cell of the grid. -/
theorem FrameBuffer.cell_setCell (fb : FrameBuffer) (r c r' c' : Nat) (x : FbCell) :
    (fb.setCell r c x).cell r' c' =
      if r' = r ∧ c' = c ∧ r < 8 ∧ c < 128 then x else fb.cell r' c' := by
  by_cases hr : r < 8
  · have e : fb[r]? = some fb[r] := by simp [hr]
    simp only [FrameBuffer.setCell, e, FrameBuffer.cell, Vector.getElem?_setIfInBounds]
    by_cases h : r = r'
    · subst h
      by_cases hc : c = c'
      · subst hc
        by_cases hc' : c < 128
        · simp [hr, hc']
        · simp [hr, hc']
      · simp [hr, hc, Ne.symm hc]
    · simp [h, Ne.symm h]
  · simp [FrameBuffer.setCell, hr]

/-- Out of the grid a cell reads as clean and zero. -/
theorem FrameBuffer.cell_outside (fb : FrameBuffer) (r c : Nat) (h : ¬ (r < 8 ∧ c < 128)) :
    fb.cell r c = { value := 0#8, dirty := false } := by
  by_cases hr : r < 8
  · have hc : ¬ c < 128 := fun hc => h ⟨hr, hc⟩
    simp [FrameBuffer.cell, hr, hc]
  · simp [FrameBuffer.cell, hr]

/-- Cleaning `n` columns from `a` on clears exactly their dirty bits and keeps every value. -/
theorem FrameBuffer.cell_clean (fb : FrameBuffer) (r a n r' c' : Nat) :
    (fb.clean r a n).cell r' c' =
      if r' = r ∧ a ≤ c' ∧ c' < a + n then { (fb.cell r' c') with dirty := false } else fb.cell r' c' := by
  induction n generalizing fb a with
  | zero => rw [if_neg (by omega)]; rfl
  | succ n ih =>
    simp only [FrameBuffer.clean, ih, FrameBuffer.cell_setCell]
    by_cases h : r' = r
    · subst h
      by_cases hc : c' = a
      · subst hc
        by_cases hin : r' < 8 ∧ c' < 128
        · simp [hin, show ¬ (c' + 1 ≤ c') by omega]
        · have hf : ¬ (r' < 8 ∧ c' < 128) := hin
          simp [hf, FrameBuffer.cell_outside fb r' c' hf]
      · simp [hc, show a < c' ∧ c' < a + 1 + n ↔ a ≤ c' ∧ c' < a + (n + 1) by omega]
    · simp [h]

/-- A framebuffer whose cells are all one cell. -/
theorem FrameBuffer.cell_replicate (x : FbCell) (r c : Nat) (hr : r < 8) (hc : c < 128) :
    FrameBuffer.cell (.replicate 8 (.replicate 128 x)) r c = x := by
  simp [FrameBuffer.cell, hr, hc]

/-- The framebuffer after boot (70_reset_and_hazards.md R253). -/
theorem FrameBuffer.cell_boot (r c : Nat) (hr : r < 8) (hc : c < 128) :
    FrameBuffer.boot.cell r c = { value := 0#8, dirty := true } := FrameBuffer.cell_replicate _ r c hr hc

/-- A read of consecutive addresses that hold one byte. -/
theorem Memory.read?_const (v : Byte) (n lo a : Nat) :
    Memory.read? ((List.range' lo n).map (fun x => (x, v))) a = if lo ≤ a ∧ a < lo + n then some v else none := by
  induction n generalizing lo with
  | zero => simp [Memory.read?]
  | succ n ih =>
    simp only [List.range'_succ, List.map_cons, Memory.read?, ih]
    by_cases h : a = lo
    · simp [h]
    · rw [if_neg h]; congr 1; simp only [eq_iff_iff]; omega

/-- RAM after boot holds 0 everywhere (10_state.md R35). -/
theorem Memory.read?_zeroRam (a : Nat) (h : a < 512) : Memory.zeroRam.read? a = some 0#8 := by
  rw [Memory.zeroRam, List.range_eq_range', Memory.read?_const]
  simp [h]

/-- The panel after boot holds 0 everywhere (10_state.md R35). -/
theorem State.panelByte_of_boot {s : State} (h1 : s.lcd1 = some .boot) (h2 : s.lcd2 = some .boot) (p c : Nat)
    (hp : p < 8) (hc : c < 128) : s.panelByte p c = some 0#8 := by
  have h : s.lcd (chipOf c) = some .boot := by unfold chipOf; split <;> assumption
  have ha : p * 64 + localCol c < 512 := by unfold localCol; split <;> omega
  simp only [State.panelByte, h, Option.bind_some, Lcd.byteAt, Lcd.boot, Memory.read?_zeroRam _ ha]

end Sys2Proof.Machine
end

