-- ==== Sys2Proof/Laws/PerInstr.lean ====
section
/-! SUPPORT. One statement about the encoding of every operation, one lemma for each constructor. -/

namespace Sys2Proof.Laws.EncodesInItsFormat

/-- The operations whose bus word is a read (30_encoding.md R76). -/
def readsTheBus : Instr → Bool
  | .busRead .. | .lcdReadStatus .. | .lcdReadData .. => true
  | _ => false

/-- The request an operation encodes to has the shape 30_encoding.md gives it: a frame begins with one of the
two opcodes (R70, R71), a control byte has bit 6 clear (R74), a bus word's bit 9 says whether it reads (R75),
and a line is the operation's own (R81); an encoding is never the bare call. -/
def Statement (i : Instr) : Prop :=
  match encode i with
  | .frame bytes => ∃ rest, bytes = 0x40#8 :: rest ∨ bytes = 0x41#8 :: rest
  | .control b => b.getLsbD 6 = false
  | .busWord _ w => w.getLsbD 9 = readsTheBus i
  | .line text => text = renderLine i
  | .call _ => False

/-- Bit 9 of a bus word is its RW (30_encoding.md R75). -/
theorem busWordOf_bit9 (rw di : Bool) (d : Byte) : (busWordOf rw di d).getLsbD 9 = rw := by
  cases rw <;> cases di <;> simp [busWordOf]

theorem expWriteRegister (addr : Byte) (value : Byte) : Statement (.expWriteRegister addr value) := ⟨_, .inl rfl⟩
theorem expWriteRegisterBurst (addr : Byte) (values : List Byte) :
    Statement (.expWriteRegisterBurst addr values) := ⟨_, .inl rfl⟩
theorem ctrlUpdate (set : CtrlSet) : Statement (.ctrlUpdate set) := by
  unfold Statement
  simp only [encode]
  rcases set with ⟨_ | e, _ | di, _ | rw, _ | rst, _ | cs1, _ | cs2, _ | bl⟩
  all_goals first
    | rfl
    | exact Machine.ctrlByte_bit6 _ _ _ _ _ _ _
theorem expReadRegister (addr : Byte) : Statement (.expReadRegister addr) := ⟨_, .inr rfl⟩
theorem busWrite (chip : Chip) (di : Bool) (byte : Byte) : Statement (.busWrite chip di byte) := busWordOf_bit9 _ _ _
theorem busRead (chip : Chip) (di : Bool) : Statement (.busRead chip di) := busWordOf_bit9 _ _ _
theorem lcdPower (chip : Chip) (on : Bool) : Statement (.lcdPower chip on) := busWordOf_bit9 _ _ _
theorem lcdSetStartLine (chip : Chip) (line : Nat) : Statement (.lcdSetStartLine chip line) := busWordOf_bit9 _ _ _
theorem lcdSetPage (chip : Chip) (page : Nat) : Statement (.lcdSetPage chip page) := busWordOf_bit9 _ _ _
theorem lcdSetColumn (chip : Chip) (col : Nat) : Statement (.lcdSetColumn chip col) := busWordOf_bit9 _ _ _
theorem lcdWriteData (chip : Chip) (value : Byte) : Statement (.lcdWriteData chip value) := busWordOf_bit9 _ _ _
theorem lcdReadStatus (chip : Chip) : Statement (.lcdReadStatus chip) := busWordOf_bit9 _ _ _
theorem lcdReadData (chip : Chip) : Statement (.lcdReadData chip) := busWordOf_bit9 _ _ _
theorem panelSetBytesAt (byteRow column : Nat) (bytes : List Byte) : Statement (.panelSetBytesAt byteRow column bytes) := rfl
theorem panelSetOnOff (on : Bool) : Statement (.panelSetOnOff on) := rfl
theorem panelClear : Statement .panelClear := rfl
theorem panelSetBacklight (on : Bool) : Statement (.panelSetBacklight on) := rfl
theorem panelGetBacklight : Statement .panelGetBacklight := rfl
theorem fbSetByte (byteRow : Nat) (column : Nat) (value : Byte) : Statement (.fbSetByte byteRow column value) := rfl
theorem fbSetBit (row column : Nat) (value : Bool) : Statement (.fbSetBit row column value) := rfl
theorem fbSetBitMatrix (row0 : Nat) (col0 : Nat) (m : List (List Bool)) : Statement (.fbSetBitMatrix row0 col0 m) := rfl
theorem fbWriteBack : Statement .fbWriteBack := rfl
theorem displayNew : Statement .displayNew := rfl

end Sys2Proof.Laws.EncodesInItsFormat
end

