-- ==== Sys2Proof/Tests/Slice0.lean ====
section
/-! SUPPORT. Tests whose expected results come from spec/ (95_test_vectors.md, the tables of 30_encoding.md and
the examples of the rules), and for each statement with hypotheses a concrete state that meets them. -/

namespace Sys2Proof.Machine

/-! ## Helpers -/

/-- The Ready start state with the transport's next answers given (95_test_vectors.md). -/
def tReady (as : List Answer) : State := { State.reset with answers := as }

/-- The clean Ready state (95_test_vectors.md). -/
def tClean (as : List Answer) : State :=
  { State.reset with answers := as, fb := .replicate 8 (.replicate 128 { value := 0#8, dirty := false }) }

/-- `n` answers that count 3 bytes. -/
def tAcks (n : Nat) : List Answer := List.replicate n (.reply 3 0#8 0#8 0#8)

/-- What an operation's next state shows, or nothing. -/
def tShow {α : Type} (f : State → α) : Outcome → Option α
  | .next t => some (f t)
  | _ => none

/-- `W(a, v)` and `R(a) -> v` in the reference configuration (00_scope.md R16). -/
def tW (a v : Byte) : TraceItem := .event (evW a v)
def tR (a r0 r1 r2 : Byte) : TraceItem := .event (.spiTransfer [0x41#8, a, 0x00#8] [r0, r1, r2])
def tD (w : Wait) : TraceItem := .event (.delay w)
def tOk : TraceItem := .result (.ok .unit)
def tErr (e : Err) : TraceItem := .result (.error e)

/-- An operation that answers a next state. -/
def tNext : Outcome → Bool
  | .next _ => true
  | _ => false

theorem tNext_exists {o : Outcome} (h : tNext o = true) : ∃ t, o = .next t := by
  cases o with
  | next t => exact ⟨t, rfl⟩
  | fault _ => cases h
  | refused _ => cases h

/-- With no answers listed every call is acknowledged. -/
theorem tAcks_of_nil {s : State} (h : s.answers = []) (n : Nat) : s.Acks n := by
  intro a ha; simp [h] at ha

/-! ## Well-formedness (40_expander_io.md R103, 43_framebuffer.md R192) -/

theorem test_empty_burst_ill_formed : (Instr.expWriteRegisterBurst 0x05#8 []).wellFormed = false := by decide +kernel
theorem test_ragged_matrix_ill_formed :
    (Instr.fbSetBitMatrix 0 0 [[true, true], [true]]).wellFormed = false := by decide +kernel
theorem test_well_formed : (Instr.fbSetBitMatrix 64 128 []).wellFormed = true ∧
    (Instr.expWriteRegisterBurst 0x00#8 [0#8]).wellFormed = true := by decide +kernel

/-! ## Words written out bit by bit from 30_encoding.md R70 to R76, and lines of R81 -/

/-- ExpanderRegisterIO: the frames of the examples of 40_expander_io.md R102, R103, R105. -/
theorem test_decode_frames :
    decode (.frame [0b01000000#8, 0b00000001#8, 0b00000000#8]) = .ok (.expWriteRegister 0x01#8 0x00#8) ∧
    decode (.frame [0b01000000#8, 0b00000000#8, 0b00000000#8, 0b11111111#8])
      = .ok (.expWriteRegisterBurst 0x00#8 [0x00#8, 0xFF#8]) ∧
    decode (.frame [0b01000001#8, 0b00010011#8, 0b00000000#8]) = .ok (.expReadRegister 0x13#8) := by decide +kernel

/-- R73, R79: reserved opcodes, frames too short, a read frame of the wrong length, a dummy byte not zero. -/
theorem test_decode_refuses_frames :
    decode (.frame [0x42#8, 0x00#8, 0x00#8]) = .error .reservedOpcode ∧
    decode (.frame [0x40#8, 0x00#8]) = .error .frameTooShort ∧
    decode (.frame [0x41#8, 0x13#8]) = .error .readFrameLength ∧
    decode (.frame [0x41#8, 0x13#8, 0x01#8]) = .error .readDummyNotZero := by decide +kernel

/-- R74: `0x0B` is E = 1, DI = 1, RW = 0, RST = 1, no chip, BL = 0. -/
theorem test_decode_control :
    decode (.control 0b00001011#8) = .ok (.ctrlUpdate
      { e := some true, di := some true, rw := some false, rst := some true, cs1 := some false, cs2 := some false,
        bl := some false }) ∧
    decode (.control 0b01001011#8) = .error .controlBit6 := by decide +kernel

/-- R76: RW, DI, D; and a reserved instruction byte is a plain bus.write (R79). -/
theorem test_decode_bus_words :
    decode (.busWord .chip1 0b0000111110#10) = .ok (.lcdPower .chip1 false) ∧
    decode (.busWord .chip2 0b0001001010#10) = .ok (.lcdSetColumn .chip2 10) ∧
    decode (.busWord .chip1 0b0010111101#10) = .ok (.lcdSetPage .chip1 5) ∧
    decode (.busWord .chip2 0b0011111111#10) = .ok (.lcdSetStartLine .chip2 63) ∧
    decode (.busWord .chip1 0b0110101010#10) = .ok (.lcdWriteData .chip1 0xAA#8) ∧
    decode (.busWord .chip2 0b1000000000#10) = .ok (.lcdReadStatus .chip2) ∧
    decode (.busWord .chip1 0b1100000000#10) = .ok (.lcdReadData .chip1) ∧
    decode (.busWord .chip2 0b0010110111#10) = .ok (.busWrite .chip2 false 0xB7#8) := by decide +kernel

/-- R78: the table of 95_test_vectors.md section 2.4. -/
theorem test_instruction_byte_classes :
    [0x00#8, 0x3D#8, 0x3E#8, 0x3F#8, 0x40#8, 0x7F#8, 0x80#8, 0xB7#8, 0xB8#8, 0xBF#8, 0xC0#8, 0xFF#8].map classify
      = [.reserved, .reserved, .power false, .power true, .setColumn 0#6, .setColumn 63#6, .reserved, .reserved,
         .setPage 0#3, .setPage 7#3, .setStartLine 0#6, .setStartLine 63#6] := by decide +kernel

/-- The operand bytes of V-LCD-1 to V-LCD-14. -/
theorem test_operand_bytes :
    [powerByte true, powerByte false] = [0x3F#8, 0x3E#8] ∧
    [0, 63, 64, 70].map startLineByte = [0xC0#8, 0xFF#8, 0xC0#8, 0xC6#8] ∧
    [0, 7, 8, 9].map pageByte = [0xB8#8, 0xBF#8, 0xB8#8, 0xB9#8] ∧
    [0, 63, 64, 127].map columnByte = [0x40#8, 0x7F#8, 0x40#8, 0x7F#8] := by decide +kernel

/-- Lines of R81 and of the programs P-1 to P-5. -/
theorem test_decode_line_setByte :
    decode (.line "fb.setByte 0, 40, 0xFF".toList) = .ok (.fbSetByte 0 40 0xFF#8) := by decide +kernel
theorem test_decode_line_setBytesAt :
    decode (.line "panel.setBytesAt 3, 62, [0xAA, 0x55] ; 2 bytes".toList)
      = .ok (.panelSetBytesAt 3 62 [0xAA#8, 0x55#8]) := by decide +kernel
theorem test_decode_line_setBit :
    decode (.line "fb.setBit 64, 0, true".toList) = .ok (.fbSetBit 64 0 true) := by decide +kernel
theorem test_decode_line_power : decode (.line "lcd.power Chip1, true".toList) = .ok (.lcdPower .chip1 true) := by decide +kernel
theorem test_decode_line_boot : decode (.line "display.new".toList) = .ok .displayNew := by decide +kernel
theorem test_decode_line_refused :
    decode (.line "fb.fly 1".toList) = .error .unknownOperation ∧
    decode (.line "fb.setByte 0, 40, 256".toList) = .error .badArguments := by decide +kernel

/-- A table word: byte 0 of a frame in the highest bits (spec/opcode_table.json). -/
theorem test_table_words :
    decodeTableWord 24 0x400100 = some (.expWriteRegister 0x01#8 0x00#8) ∧
    decodeTableWord 8 0x0D = some (.ctrlUpdate ⟨some true, some false, some true, some true, some false, some false,
      some false⟩) ∧
    decodeTableWord 16 0b0010111001 = some (.lcdSetPage .chip1 1) := by decide +kernel

/-- The first step after reset runs the word placed next. -/
theorem test_step_runs_table_words : [(24, 0x400000), (24, 0x410000), (8, 0x00), (16, 0x000), (16, 0x200), (16, 0x03E),
      (16, 0x040), (16, 0x0B8), (16, 0x0C0), (16, 0x100), (16, 0x300), (32, 0x40000000)].all
      (fun w => tNext (step (State.reset.withFetchWord w.1 w.2))) = true := by decide +kernel

/-! ## ExpanderRegisterIO -/

/-- V-EXP-1. -/
theorem test_writeRegister : tShow State.trace (exec (.expWriteRegister 0x01#8 0x00#8) (tReady (tAcks 1)))
    = some [tW 0x01#8 0x00#8, tOk] := by decide +kernel
/-- V-EXP-3: a count above 3 fails too. -/
theorem test_writeRegister_count : tShow State.trace
    (exec (.expWriteRegister 0x01#8 0x00#8) (tReady [.reply 4 0#8 0#8 0#8]))
    = some [tW 0x01#8 0x00#8, tErr .transportError] := by decide +kernel
/-- V-EXP-8. -/
theorem test_writeRegister_refused : exec (.expWriteRegister 0x12#8 0x00#8) State.reset
    = .refused .directControlWrite := rfl
/-- V-EXP-4. -/
theorem test_burst : tShow State.trace
    (exec (.expWriteRegisterBurst 0x00#8 [0x00#8, 0xFF#8]) (tReady [.reply 4 0#8 0#8 0#8]))
    = some [.event (.spiWrite [0x40#8, 0x00#8, 0x00#8, 0xFF#8]), tOk] := by decide +kernel
/-- V-EXP-6, V-EXP-7. -/
theorem test_burst_refused : exec (.expWriteRegisterBurst 0x05#8 []) State.reset = .refused .emptyBurst ∧
    exec (.expWriteRegisterBurst 0x10#8 [1#8, 2#8, 3#8]) State.reset = .refused .directControlWrite := ⟨rfl, rfl⟩
/-- V-EXP-9, V-EXP-11. -/
theorem test_readRegister : tShow State.trace (exec (.expReadRegister 0x13#8) (tReady [.reply 3 0#8 0#8 0x5A#8]))
    = some [tR 0x13#8 0#8 0#8 0x5A#8, .result (.ok (.byte 0x5A#8))] := by decide +kernel
theorem test_readRegister_count : tShow State.trace (exec (.expReadRegister 0x13#8) (tReady [.reply 1 0#8 0#8 0#8]))
    = some [tR 0x13#8 0#8 0#8 0#8, tErr .transportError] := by decide +kernel
/-- V-CTRL-1, V-CTRL-2. -/
theorem test_ctrlUpdate : tShow (fun t => (t.trace, t.ctrl))
    (exec (.ctrlUpdate { di := some true, rw := some false, e := some true }) (tReady (tAcks 1)))
    = some ([tW 0x12#8 0x0B#8, tOk], 0x0B#8) := by decide +kernel
theorem test_ctrlUpdate_suppressed : tShow (fun t => (t.trace, t.ctrl))
    (exec (.ctrlUpdate { e := some true }) (tReady (tAcks 1))) = some ([tOk], 0x0D#8) := by decide +kernel
/-- V-CTRL-7: the byte, however many fields change. -/
theorem test_ctrl_bits : applySet
    ⟨some false, some true, some false, none, some true, some false, none⟩ 0x8D#8 = 0x9A#8 := by decide +kernel

/-! ## ParallelBusProtocol -/

/-- V-BUS-1. -/
theorem test_busWrite : tShow (fun t => (t.trace, t.ctrl)) (exec (.busWrite .chip1 true 0xAA#8) (tReady (tAcks 8)))
    = some ([tW 0x12#8 0x0B#8, tW 0x01#8 0x00#8, tW 0x13#8 0xAA#8, tW 0x12#8 0x1B#8, tD .tPre, tW 0x12#8 0x1A#8,
        tD .tPost, tW 0x12#8 0x0A#8, tW 0x12#8 0x0F#8, tW 0x01#8 0xFF#8, tOk], 0x0F#8) := by decide +kernel
/-- V-BUS-7: the 4th frame fails. -/
theorem test_busWrite_fails : tShow (fun t => (t.trace, t.ctrl))
    (exec (.busWrite .chip1 false 0x3F#8) (tReady (tAcks 3 ++ [.reply 0 0#8 0#8 0#8])))
    = some ([tW 0x12#8 0x09#8, tW 0x01#8 0x00#8, tW 0x13#8 0x3F#8, tW 0x12#8 0x19#8, tErr .transportError],
        0x09#8) := by decide +kernel
/-- V-BUS-5, V-BUS-6. -/
theorem test_busRead : tShow (fun t => (t.trace, t.ctrl))
    (exec (.busRead .chip2 true) (tReady (tAcks 3 ++ [.reply 3 0#8 0#8 0x81#8] ++ tAcks 1)))
    = some ([tW 0x01#8 0xFF#8, tW 0x12#8 0x0F#8, tW 0x12#8 0x2F#8, tD .tRead, tR 0x13#8 0#8 0#8 0x81#8,
        tW 0x12#8 0x0F#8, .result (.ok (.byte 0x81#8))], 0x0F#8) := by decide +kernel
theorem test_readData_suppressed : tShow State.trace
    (exec (.lcdReadData .chip2) { tReady (tAcks 2 ++ [.reply 3 0#8 0#8 0x81#8] ++ tAcks 1) with ctrl := 0x0F#8 })
    = some [tW 0x01#8 0xFF#8, tW 0x12#8 0x2F#8, tD .tRead, tR 0x13#8 0#8 0#8 0x81#8, tW 0x12#8 0x0F#8,
        .result (.ok (.byte 0x81#8))] := by decide +kernel
/-- V-BUS-4. -/
theorem test_readStatus : tShow State.trace
    (exec (.lcdReadStatus .chip1) (tReady (tAcks 2 ++ [.reply 3 0#8 0#8 0x20#8] ++ tAcks 1)))
    = some [tW 0x01#8 0xFF#8, tW 0x12#8 0x1D#8, tD .tRead, tR 0x13#8 0#8 0#8 0x20#8, tW 0x12#8 0x0D#8,
        .result (.ok (.byte 0x20#8))] := by decide +kernel
/-- The example of 41_parallel_bus.md R125. -/
theorem test_power : tShow State.trace (exec (.lcdPower .chip1 true) (tReady (tAcks 8)))
    = some [tW 0x12#8 0x09#8, tW 0x01#8 0x00#8, tW 0x13#8 0x3F#8, tW 0x12#8 0x19#8, tD .tPre, tW 0x12#8 0x18#8,
        tD .tPost, tW 0x12#8 0x08#8, tW 0x12#8 0x0D#8, tW 0x01#8 0xFF#8, tOk] := by decide +kernel
/-- The third event of the examples of R126 to R129, and the select frame. -/
theorem test_primitives_send : [Instr.lcdSetStartLine .chip1 70, .lcdSetPage .chip2 9, .lcdSetColumn .chip1 63,
      .lcdWriteData .chip2 0x5A#8].map (fun i => tShow (fun t => (t.trace.drop 2).take 2) (exec i (tReady (tAcks 8))))
    = [some [tW 0x13#8 0xC6#8, tW 0x12#8 0x19#8], some [tW 0x13#8 0xB9#8, tW 0x12#8 0x29#8],
       some [tW 0x13#8 0x7F#8, tW 0x12#8 0x19#8], some [tW 0x13#8 0x5A#8, tW 0x12#8 0x2B#8]] := by decide +kernel
/-- Environment vector of 95_test_vectors.md section 2.4: the data byte lands at page 2, column 10. -/
theorem test_environment : (((Lcd.boot.takeInstruction 0xBA#8).bind (fun l => l.takeInstruction 0x4A#8)).map
      (fun l => (l.takeData 0xAB#8).takeData 0xCD#8)).map (fun l => (l.byteAt 2 10, l.byteAt 2 11, l.col, l.page))
    = some (some 0xAB#8, some 0xCD#8, 12#6, 2#3) := by decide +kernel
/-- R148: a reserved byte has no meaning for a chip. -/
theorem test_reserved_refused : Lcd.boot.takeInstruction 0xB7#8 = none := by decide +kernel

/-! ## DualChipPanel -/

/-- V-PNL-12 (P-1): the words of a run across the chips. -/
theorem test_straddling_words : runWords 3 62 [0xAA#8, 0x55#8, 0x0F#8, 0xF0#8]
    = [(.chip1, false, 0xBB#8), (.chip1, false, 0x7E#8), (.chip1, true, 0xAA#8), (.chip1, true, 0x55#8),
       (.chip2, false, 0xBB#8), (.chip2, false, 0x40#8), (.chip2, true, 0x0F#8), (.chip2, true, 0xF0#8)] := by decide +kernel
/-- V-PNL-5: six bus writes and the count returned. -/
theorem test_setBytesAt : tShow (fun t => (t.trace.filterMap (fun x => match x with
      | .event (.spiWrite [_, 0x13#8, v]) => some v
      | _ => none), t.trace.getLast?)) (exec (.panelSetBytesAt 0 63 [1#8, 2#8]) (tReady []))
    = some ([0xB8#8, 0x7F#8, 0x01#8, 0xB8#8, 0x40#8, 0x02#8], some (.result (.ok (.nat 2)))) := by decide +kernel
/-- V-PNL-8 to V-PNL-10, V-PNL-7. -/
theorem test_setBytesAt_geometry : [Instr.panelSetBytesAt 0 127 [1#8, 2#8], .panelSetBytesAt 8 0 [1#8],
      .panelSetBytesAt 0 128 [], .panelSetBytesAt 5 5 []].map (fun i => tShow State.trace (exec i (tReady [])))
    = [some [tErr .geometryError], some [tErr .geometryError], some [tErr .geometryError],
       some [.result (.ok (.nat 0))]] := by decide +kernel
/-- V-PNL-14: the power-off byte to Chip1, then Chip2. -/
theorem test_setOnOff : tShow (fun t => ([2, 3, 12, 13].map (fun n => t.trace[n]?), t.trace.length))
    (exec (.panelSetOnOff false) (tReady []))
    = some ([some (tW 0x13#8 0x3E#8), some (tW 0x12#8 0x19#8), some (tW 0x13#8 0x3E#8), some (tW 0x12#8 0x29#8)],
        21) := by decide +kernel
/-- V-PNL-15: the first words, words 67 and 529, the last. -/
theorem test_clear_words : clearWords.take 3
      = [(.chip1, false, 0xB8#8), (.chip1, false, 0x40#8), (.chip1, true, 0x00#8)] ∧
    clearWords[66]? = some (.chip1, false, 0xB9#8) ∧ clearWords[528]? = some (.chip2, false, 0xB8#8) ∧
    clearWords[1055]? = some (.chip2, true, 0x00#8) ∧ clearWords[1056]? = none := by decide +kernel
/-- V-PNL-16, V-PNL-18. -/
theorem test_setBacklight : tShow (fun t => (t.trace, t.ctrl)) (exec (.panelSetBacklight true) (tReady (tAcks 1)))
    = some ([tW 0x12#8 0x8D#8, tOk], 0x8D#8) := by decide +kernel
theorem test_setBacklight_fails : tShow (fun t => (t.trace, t.ctrl))
    (exec (.panelSetBacklight true) (tReady [.reply 0 0#8 0#8 0#8]))
    = some ([tW 0x12#8 0x8D#8, tErr .transportError], 0x0D#8) := by decide +kernel
/-- V-PNL-17. -/
theorem test_getBacklight : tShow State.trace (exec .panelGetBacklight { tReady [] with ctrl := 0x8D#8 })
    = some [.result (.ok (.flag true))] := by decide +kernel

/-! ## FrameBuffer -/

/-- V-FB-1, V-FB-3. -/
theorem test_setByte : tShow (fun t => (t.trace, t.fb.cell 2 5, t.fb.cell 2 6))
    (exec (.fbSetByte 2 5 0x81#8) (tClean [])) = some ([tOk], ⟨0x81#8, true⟩, ⟨0x00#8, false⟩) := by decide +kernel
theorem test_setByte_same : tShow (fun t => t.fb.cell 2 5) (exec (.fbSetByte 2 5 0x00#8) (tClean []))
    = some ⟨0x00#8, false⟩ := by decide +kernel
/-- V-FB-6, V-FB-7. -/
theorem test_setBit : tShow (fun t => t.fb.cell 0 3) (exec (.fbSetBit 5 3 true) (tClean []))
    = some ⟨0x20#8, true⟩ := by decide +kernel
theorem test_setBit_last : tShow (fun t => t.fb.cell 7 127) (exec (.fbSetBit 63 127 true) (tClean []))
    = some ⟨0x80#8, true⟩ := by decide +kernel
/-- V-FB-10, V-FB-9. -/
theorem test_setBitMatrix : tShow (fun t => (t.fb.cell 0 0, t.fb.cell 1 0))
    (exec (.fbSetBitMatrix 6 0 [[true], [true], [true]]) (tClean [])) = some (⟨0xC0#8, true⟩, ⟨0x01#8, true⟩) := by
  decide +kernel
theorem test_setBitMatrix_geometry : tShow State.trace
    (exec (.fbSetBitMatrix 62 0 [[true], [true], [true]]) (tClean [])) = some [tErr .geometryError] := by decide +kernel
/-- V-WB-4: two runs in different rows are two bursts. -/
theorem test_writeBack_words : writeBackWords (((tClean []).fb.putByte 0 127 1#8).putByte 1 0 2#8)
    = [(.chip2, false, 0xB8#8), (.chip2, false, 0x7F#8), (.chip2, true, 1#8),
       (.chip1, false, 0xB9#8), (.chip1, false, 0x40#8), (.chip1, true, 2#8)] := by decide +kernel
/-- The example of 43_framebuffer.md R194: two runs of one row. -/
theorem test_dirty_runs : dirtyRuns [true, false, true, true] = [(0, 1), (2, 4)] := by decide +kernel

/-! ## Boot -/

/-- V-BOOT-F: the second frame fails; the block stays Absent. -/
theorem test_boot_fails : tShow (fun t => (t.trace, t.phase))
    (exec .displayNew { State.powerUp with answers := tAcks 1 ++ [.reply 2 0#8 0#8 0#8] })
    = some ([.event (.pin .xcs true), .event (.pin .xrst false), tD .tXrstLow, .event (.pin .xrst true),
        tD .tXrstRecover, tW 0x12#8 0x05#8, tW 0x00#8 0x00#8, tErr .transportError], .absent) := by decide +kernel
/-- 70_reset_and_hazards.md R256. -/
theorem test_second_boot_refused : exec .displayNew State.reset = .refused .alreadyReady := rfl

/-! ## The hypotheses of each statement are met: `witness_<statement>`, a clause at a time where it has several.
A state with no answers listed has every call acknowledged (`tAcks_of_nil`). -/

/-- Four requests: one that decodes, one that does not, none, a table word. -/
theorem witness_StepPerformsTheDecodedRequest :
    (decode (.call .panelGetBacklight) = .ok .panelGetBacklight ∧
      ({ State.reset with calls := [.call .panelGetBacklight] } : State).calls = [.call .panelGetBacklight]) ∧
    decode (.frame []) = .error .emptyFrame ∧ State.reset.calls = [] ∧
    decodeTableWord 24 0x400100 = some (.expWriteRegister 0x01#8 0x00#8) := by decide +kernel

/-- Each class at both ends of its range. -/
theorem witness_InstructionByteClassesDoNotOverlap :
    (0x3E#8 &&& 0xFE#8 = 0x3E#8 ∧ 0x3F#8 &&& 0xFE#8 = 0x3E#8) ∧ (0x40#8 &&& 0xC0#8 = 0x40#8 ∧ 0x7F#8 &&& 0xC0#8 = 0x40#8) ∧
    (0xB8#8 &&& 0xF8#8 = 0xB8#8 ∧ 0xBF#8 &&& 0xF8#8 = 0xB8#8) ∧ (0xC0#8 &&& 0xC0#8 = 0xC0#8 ∧ 0xFF#8 &&& 0xC0#8 = 0xC0#8) ∧
    [0x00#8, 0x3D#8, 0x80#8, 0xB7#8].map classify = [.reserved, .reserved, .reserved, .reserved] := by decide

theorem witness_DecodeOfEncodeIsCanonical : (Instr.fbSetBitMatrix 6 0 [[true], [true]]).wellFormed = true ∧
    (Instr.lcdSetPage .chip1 9).wellFormed = true := by decide

theorem witness_CanonicalFormHasTheSameEffect : (Instr.expWriteRegisterBurst 0x01#8 [0xFF#8]).wellFormed = true ∧
    (Instr.expWriteRegisterBurst 0x01#8 [0xFF#8]).canonical = .expWriteRegister 0x01#8 0xFF#8 := by decide

theorem witness_WriteRegisterSendsOneCheckedFrame : State.reset.phase = .ready ∧
    (0x01#8 ≠ State.reset.params.aCtrl ∧ 0x01#8 ∈ State.reset.params.addresses ∧ (tReady (tAcks 1)).Acks 1) ∧
    ((tReady [.reply 2 0#8 0#8 0#8]).answers = .reply 2 0#8 0#8 0#8 :: [] ∧ 2 ≠ 3) := by decide

/-- The two bursts nearest the refused ones, and the one-byte burst to A_CTRL itself. -/
theorem witness_WriteBurstSendsOneCheckedFrame : State.reset.phase = .ready ∧
    ([1#8, 2#8] ≠ [] ∧ ¬ ((0x10#8).toNat ≤ State.reset.params.aCtrl.toNat ∧
      State.reset.params.aCtrl.toNat < (0x10#8).toNat + 2)) ∧
    ([1#8] ≠ [] ∧ ¬ ((0x13#8).toNat ≤ State.reset.params.aCtrl.toNat ∧
      State.reset.params.aCtrl.toNat < (0x13#8).toNat + 1)) ∧
    (∀ r ∈ (tReady [.reply 3 0#8 0#8 0#8]).answers.take 1, r.acks (2 + 1) = true) ∧
    ((tReady [.reply 0 0#8 0#8 0#8]).answers = .reply 0 0#8 0#8 0#8 :: [] ∧ 0 ≠ 2 + 1) ∧
    ((0x12#8).toNat ≤ State.reset.params.aCtrl.toNat ∧
      State.reset.params.aCtrl.toNat < (0x12#8).toNat + 1) := by decide

theorem witness_BurstStoresConsecutiveRegisters :
    (∀ j < [0x00#8, 0xFF#8].length, ∃ b ∈ State.reset.params.addresses, b.toNat = (0x00#8).toNat + j) ∧
    tShow (fun t => t.trace.getLast?) (exec (.expWriteRegisterBurst 0x00#8 [0x00#8, 0xFF#8]) State.reset)
      = some (some tOk) := by decide +kernel

/-- V-CTRL-2 (no change), V-CTRL-1 (a change), V-CTRL-6 (a change that fails). -/
theorem witness_ControlUpdateWritesOnlyAChange : State.reset.phase = .ready ∧
    applySet { e := some true } State.reset.ctrl = State.reset.ctrl ∧
    (applySet { bl := some true } State.reset.ctrl = 0x8D#8 ∧ 0x8D#8 ≠ State.reset.ctrl ∧
      (tReady (tAcks 1)).Acks 1) ∧
    ((tReady [.reply 0 0#8 0#8 0#8]).answers = .reply 0 0#8 0#8 0#8 :: [] ∧ 0 ≠ 3) := by decide
theorem witness_ControlUpdateWritesOnlyAChange_bits : ∀ n, (0x8D#8 : Byte).getLsbD n = match n with
    | 0 => (none : Option Bool).getD (State.reset.ctrl.getLsbD 0)
    | 1 => (none : Option Bool).getD (State.reset.ctrl.getLsbD 1)
    | 2 => (none : Option Bool).getD (State.reset.ctrl.getLsbD 2)
    | 3 => (none : Option Bool).getD (State.reset.ctrl.getLsbD 3)
    | 4 => (none : Option Bool).getD (State.reset.ctrl.getLsbD 4)
    | 5 => (none : Option Bool).getD (State.reset.ctrl.getLsbD 5)
    | 7 => (some true).getD (State.reset.ctrl.getLsbD 7)
    | _ => false := by
  intro n
  match n with
  | 0 | 1 | 2 | 3 | 4 | 5 | 6 | 7 => decide
  | n + 8 => exact BitVec.getLsbD_of_ge _ _ (by omega)

theorem witness_ReadRegisterReturnsTheThirdByte : State.reset.phase = .ready ∧
    ((tReady [.reply 3 0#8 0#8 0x5A#8]).Acks 1 ∧ 0x13#8 ∈ State.reset.params.addresses) ∧
    ((tReady [.reply 1 0#8 0#8 0#8]).answers = .reply 1 0#8 0#8 0#8 :: [] ∧ 1 ≠ 3) := by decide

theorem witness_ReadRegisterReturnsTheThirdByte_others : (∀ a, Instr.lcdReadStatus .chip1 ≠ .expReadRegister a) ∧
    tShow State.trace (exec (.lcdReadStatus .chip1) (tReady (tAcks 4))) = some ([] ++
      [tW 0x01#8 0xFF#8, tW 0x12#8 0x1D#8, tD .tRead, tR 0x13#8 0#8 0#8 0#8, tW 0x12#8 0x0D#8,
        .result (.ok (.byte 0#8))]) := ⟨by simp, by decide +kernel⟩

theorem witness_BusWriteFromIdleEmitsItsSequence :
    State.reset.phase = .ready ∧ Idle State.reset.ctrl ∧ (tReady (tAcks 8)).Acks 8 := by decide

/-- From a control state that a failed write left: CS1 set, E = 0, RW = 0. -/
theorem witness_BusSequencesRestoreTheIdleLines :
    ({ tReady (tAcks 8) with ctrl := 0x18#8 } : State).phase = .ready ∧
    ({ tReady (tAcks 8) with ctrl := 0x18#8 } : State).Acks 8 ∧ ¬ Idle 0x18#8 := by decide

/-- With DI unchanged and with DI changed. -/
theorem witness_BusReadFromIdleReturnsTheSample : State.reset.phase = .ready ∧ Idle State.reset.ctrl ∧
    (tReady (tAcks 5)).Acks 5 ∧ ctrlDI State.reset.ctrl = false ∧
    (tReady (tAcks 5)).answers[2]? = some (.reply 3 0#8 0#8 0#8) ∧
    (tReady (tAcks 5)).answers[3]? = some (.reply 3 0#8 0#8 0#8) := by decide

theorem witness_WritingPrimitivesSendTheirByte :
    State.reset.phase = .ready ∧ Idle State.reset.ctrl ∧ (tReady (tAcks 8)).Acks 8 := by decide

theorem witness_ReadingPrimitivesReturnTheSample :
    State.reset.phase = .ready ∧ Idle State.reset.ctrl ∧ (tReady (tAcks 5)).Acks 5 := by decide

theorem witness_ReadsChangeAtMostTheColumn : ctrlRST State.reset.ctrl = true ∧
    (∃ l, State.reset.lcd .chip2 = some l) ∧
    [Instr.busRead .chip2 false, .busRead .chip2 true, .lcdReadStatus .chip2, .lcdReadData .chip2].all
      (fun i => tNext (exec i State.reset)) = true :=
  ⟨by decide, ⟨_, rfl⟩, by decide +kernel⟩

theorem witness_ChipObeysInstructionBytes : State.reset.phase = .ready ∧ ctrlRST State.reset.ctrl = true ∧
    State.reset.lcd .chip1 = some .boot ∧ (tReady (tAcks 8)).Acks 8 := ⟨rfl, by decide, rfl, by decide⟩

theorem witness_ChipStoresDataBytes : State.reset.phase = .ready ∧ ctrlRST State.reset.ctrl = true ∧
    State.reset.lcd .chip2 = some .boot ∧ (tReady (tAcks 8)).Acks 8 := ⟨rfl, by decide, rfl, by decide⟩

theorem witness_ReservedByteIsRefusedByItsChip : State.reset.phase = .ready ∧ ctrlRST State.reset.ctrl = true ∧
    classify 0xB7#8 = .reserved ∧ (tReady (tAcks 8)).Acks 8 := by decide

/-- An operation other than the bus write of a reserved byte, and the bus write nearest to one. -/
theorem witness_NoOtherOperationSendsReservedBytes : (∀ k b, Instr.panelGetBacklight ≠ .busWrite k false b) ∧
    classify 0xB8#8 ≠ .reserved ∧ (∃ t, exec (.busWrite .chip1 false 0xB8#8) State.reset = .next t) ∧
    (State.reset.lcd .chip1).isSome = true :=
  ⟨by simp, by decide, tNext_exists (by decide +kernel), rfl⟩

/-- From a control state left non-idle (CS1 set, E = 0, RW = 0; its Enable frame is number 4): the first, the
Enable, and the last frame of bus.write failing. -/
theorem witness_FailedBusWriteLeavesTheLastControlState : ∀ j ∈ [0, 4, 7],
    (tReady []).phase = .ready ∧ ctrlRST 0x18#8 = true ∧ ¬ Idle 0x18#8 ∧ framesBeforeEnable 0x18#8 .chip2 true = 4 ∧
    j < ((busWritePlan Params.reference 0x18#8 .chip2 true 0xAA#8).map Prod.fst).countP Event.isFrame ∧
    (tReady (tAcks j ++ [.reply 2 0#8 0#8 0#8])).Acks j ∧
    (tReady (tAcks j ++ [.reply 2 0#8 0#8 0#8])).answers[j]? = some (.reply 2 0#8 0#8 0#8) ∧ 2 ≠ 3 := by
  decide +kernel
/-- V-BUS-9 and the frames at either end of a bus.read. -/
theorem witness_FailedBusWriteLeavesTheLastControlState_read : ∀ j ∈ [0, 2, 3],
    j < ((busReadPlan Params.reference State.reset.ctrl .chip1 false [0#8, 0#8, 0#8]).map Prod.fst).countP
      Event.isFrame ∧
    (tReady (tAcks j ++ [.reply 2 0#8 0#8 0#8])).Acks j ∧
    (tReady (tAcks j ++ [.reply 2 0#8 0#8 0#8])).answers[j]? = some (.reply 2 0#8 0#8 0#8) ∧ 2 ≠ 3 := by
  decide +kernel
theorem witness_FailedBusWriteLeavesTheLastControlState_idle : Idle State.reset.ctrl ∧ 0 < 8 ∧ 4 < 8 ∧ 7 < 8 := by
  decide
theorem witness_FailedBusWriteLeavesTheLastControlState_every : State.reset.params.Distinct ∧
    tShow State.trace (exec (.expWriteRegister 0x01#8 0#8) (tReady [.reply 2 0#8 0#8 0#8]))
      = some ([] ++ items [evW 0x01#8 0#8] ++ [tErr .transportError]) := ⟨by decide, by decide +kernel⟩

theorem witness_BothChipsAreNeverSelected : (∀ set, Instr.lcdReadStatus .chip2 ≠ .ctrlUpdate set) ∧
    State.reset.params.Distinct ∧ ¬ DoubleSelect 0x1D#8 ∧
    (∃ t, exec (.lcdReadStatus .chip2) { State.reset with ctrl := 0x1D#8 } = .next t) :=
  ⟨by simp, by decide, by decide, tNext_exists (by decide +kernel)⟩

theorem witness_PanelResetIsNotTouchedAfterBoot : (∀ set, Instr.lcdReadStatus .chip1 ≠ .ctrlUpdate set) ∧
    State.reset.phase = .ready ∧ (∃ t, exec (.lcdReadStatus .chip1) State.reset = .next t) :=
  ⟨by simp, rfl, tNext_exists (by decide +kernel)⟩

theorem witness_BusWriteLeavesTheDeviceRegisters : State.reset.phase = .ready ∧ State.reset.params.Distinct ∧
    Idle State.reset.ctrl ∧ (tReady (tAcks 8)).Acks 8 := by decide

/-- Runs at the edges: the whole row, the last column, none. -/
theorem witness_SetBytesAtSendsTheSplitRun : State.reset.phase = .ready ∧ Idle State.reset.ctrl ∧ 7 < 8 ∧
    (0 < 128 ∧ 0 + (List.replicate 128 (0#8 : Byte)).length ≤ 128) ∧ (127 < 128 ∧ 127 + [0x99#8].length ≤ 128) ∧
    (5 < 128 ∧ 5 + ([] : List Byte).length ≤ 128) ∧
    (tReady (tAcks 24)).Acks (8 * (runWords 7 127 [0x99#8]).length) := by decide +kernel

/-- Each ground of rejection at its edge. -/
theorem witness_SetBytesAtRejectsBeforeAnyTraffic : State.reset.phase = .ready ∧ 8 ≥ 8 ∧ 128 ≥ 128 ∧
    127 + [1#8, 2#8].length > 128 := by decide

theorem witness_SetBytesAtFillsItsColumns : State.reset.phase = .ready ∧ ctrlRST State.reset.ctrl = true ∧
    State.reset.lcd1.isSome = true ∧ State.reset.lcd2.isSome = true ∧ (0 < 8 ∧ 63 < 128 ∧ 63 + [1#8, 2#8].length ≤ 128) ∧
    (tReady (tAcks 48)).Acks (8 * (runWords 0 63 [1#8, 2#8]).length) := by decide +kernel

theorem witness_SetBytesAtTouchesOnlyItsColumns : ctrlRST State.reset.ctrl = true ∧
    (∃ t, exec (.panelSetBytesAt 0 127 [1#8]) State.reset = .next t) ∧
    ¬ ((0 : Nat) = 0 ∧ 127 ≤ 126 ∧ 126 < 127 + [1#8].length) := ⟨by decide, tNext_exists (by decide +kernel), by decide⟩

theorem witness_SetOnOffSwitchesBothChips : State.reset.phase = .ready ∧ Idle State.reset.ctrl ∧
    (tReady (tAcks 16)).Acks 16 ∧ (State.reset.lcd .chip2).isSome = true := by decide +kernel

theorem witness_ClearZeroesBothChips : State.reset.phase = .ready ∧ Idle State.reset.ctrl ∧ State.reset.Acks 8448 ∧
    State.reset.lcd1.isSome = true ∧ State.reset.lcd2.isSome = true :=
  ⟨rfl, by decide, tAcks_of_nil rfl _, rfl, rfl⟩

theorem witness_SetBacklightChangesOneBit : State.reset.phase = .ready ∧ State.reset.ctrl.getLsbD 6 = false ∧
    ctrlBL State.reset.ctrl = false ∧ (tReady (tAcks 1)).Acks 1 ∧
    ((tReady [.reply 0 0#8 0#8 0#8]).answers = .reply 0 0#8 0#8 0#8 :: [] ∧ 0 ≠ 3) := by decide

theorem witness_GetBacklightReportsTheCache : State.reset.phase = .ready := rfl

theorem witness_SetByteMarksOnlyAChange : State.reset.phase = .ready ∧ (7 < 8 ∧ 127 < 128) ∧ 8 ≥ 8 ∧ 128 ≥ 128 := by
  decide

theorem witness_SetBitChangesOnePixel : State.reset.phase = .ready ∧ (63 < 64 ∧ 127 < 128) ∧ 64 ≥ 64 ∧ 128 ≥ 128 := by
  decide

/-- A matrix in the last corner, one past each edge, a ragged one. -/
theorem witness_SetBitMatrixCopiesTheRectangle : State.reset.phase = .ready ∧
    (matrixRectangular [[true, false]] = true ∧ 63 + [[true, false]].length ≤ 64 ∧
      126 + matrixWidth [[true, false]] ≤ 128) ∧
    64 + [[true, false]].length > 64 ∧ 127 + matrixWidth [[true, false]] > 128 ∧
    matrixRectangular [[true, true], [true]] = false := by decide

theorem witness_DirtyRunsAreTheMaximalIntervals : 0 < 8 ∧ 7 < 8 ∧
    (0, 128) ∈ dirtyRuns (State.reset.fb.rowDirty 7) := by decide +kernel

theorem witness_WriteBackSendsOneBurstPerRun : State.reset.phase = .ready ∧ Idle State.reset.ctrl ∧
    State.reset.Acks (8 * (writeBackWords State.reset.fb).length) := ⟨rfl, by decide, tAcks_of_nil rfl _⟩

theorem witness_WriteBackBringsThePanelUpToDate : State.reset.phase = .ready ∧ ctrlRST State.reset.ctrl = true ∧
    State.reset.lcd1.isSome = true ∧ State.reset.lcd2.isSome = true ∧
    State.reset.Acks (8 * (writeBackWords State.reset.fb).length) := ⟨rfl, by decide, rfl, rfl, tAcks_of_nil rfl _⟩

theorem witness_FailedWriteBackKeepsTheFailingRunDirty : State.reset.params.Distinct ∧
    tShow (fun t => t.trace.getLast?) (exec .fbWriteBack (tReady [.reply 0 0#8 0#8 0#8]))
      = some (some (tErr .transportError)) := ⟨by decide, by decide +kernel⟩
/-- The first and the last call of a flush of one byte. -/
theorem witness_FailedWriteBackKeepsTheFailingRunDirty_idle : State.reset.phase = .ready ∧ Idle State.reset.ctrl ∧
    ∀ n ∈ [0, 23], n < 8 * (writeBackWords ((tClean []).fb.putByte 7 127 1#8)).length ∧
      (tReady (tAcks n ++ [.reply 4 0#8 0#8 0#8])).Acks n ∧
      (tReady (tAcks n ++ [.reply 4 0#8 0#8 0#8])).answers[n]? = some (.reply 4 0#8 0#8 0#8) ∧ 4 ≠ 3 := by
  decide +kernel

theorem witness_FirstWriteBackSendsEveryByte : State.reset.phase = .ready ∧ Idle State.reset.ctrl ∧
    (∀ r < 8, ∀ c < 128, (State.reset.fb.cell r c).dirty = true) ∧ State.reset.Acks 8448 :=
  ⟨rfl, by decide, fun r hr c hc => by rw [show State.reset.fb = .boot from rfl, FrameBuffer.cell_boot r c hr hc],
    tAcks_of_nil rfl _⟩
theorem witness_FirstWriteBackSendsEveryByte_setter : (∃ t, exec (.fbSetBit 0 0 true) State.reset = .next t) ∧
    (State.reset.fb.cell 7 127).dirty = true := ⟨⟨_, rfl⟩, by decide +kernel⟩

/-- The idle state with nothing listed answers every call; a run that straddles, one that touches column 64 from
the left, one that starts there; no setBacklight change and a change. -/
theorem witness_EventCountsOfTheOperations : State.reset.phase = .ready ∧ Idle State.reset.ctrl ∧
    (∀ n, State.reset.Acks n) ∧ (∀ r < 8, ∀ c < 128, (State.reset.fb.cell r c).dirty = true) ∧
    [runBusWrites 63 2, runBusWrites 63 1, runBusWrites 64 64, runBusWrites 127 0] = [6, 3, 66, 0] ∧
    ctrlBL State.reset.ctrl = false ∧ State.powerUp.phase = .absent ∧ (∀ n, State.powerUp.Acks n) :=
  ⟨rfl, by decide, tAcks_of_nil rfl, witness_FirstWriteBackSendsEveryByte.2.2.1, by decide, by decide, rfl,
    tAcks_of_nil rfl⟩

theorem witness_BootLeavesTheResetValues : State.powerUp.phase = .absent ∧ State.powerUp.Acks 8484 ∧
    State.powerUp.params.Distinct := ⟨rfl, tAcks_of_nil rfl _, by decide⟩

theorem witness_FailedBootLeavesTheBlockAbsent : State.powerUp.phase = .absent ∧
    ∃ t, exec .displayNew { State.powerUp with answers := [.reply 0 0#8 0#8 0#8] } = .next t :=
  ⟨rfl, tNext_exists (by decide +kernel)⟩

theorem witness_PhaseDecidesWhatHasAMeaning : (State.powerUp.phase = .absent ∧ Instr.fbWriteBack ≠ .displayNew) ∧
    State.reset.phase = .ready ∧ (∃ t, exec .panelGetBacklight State.reset = .next t) ∧
    (∃ t, exec .displayNew { State.powerUp with answers := [.reply 0 0#8 0#8 0#8] } = .next t) :=
  ⟨⟨rfl, by decide⟩, rfl, ⟨_, rfl⟩, tNext_exists (by decide +kernel)⟩

theorem witness_GeometryErrorsChangeNothing : tShow (fun t => t.trace.getLast?) (exec (.fbSetByte 8 0 1#8) State.reset)
    = some (some (tErr .geometryError)) := by decide +kernel

/-- The first and the last call of a bus read from the idle state, as the first clause asks of any operation. -/
theorem witness_AHangHasNoFurtherStep : ∀ pre ∈ [[], tAcks 3],
    tShow (fun t => decide (t.answers.length ≤ (tAcks 1).length))
      (exec (.busRead .chip1 false) { State.reset with answers := pre ++ .reply 3 0#8 0#8 0#8 :: tAcks 1 })
      = some true := by decide +kernel
theorem witness_AHangHasNoFurtherStep_fault :
    exec (.expReadRegister 0x13#8) (tReady [.hang]) = .fault .transportHang := rfl
/-- The last call of each operation, from the idle state. -/
theorem witness_AHangHasNoFurtherStep_idle : Idle State.reset.ctrl ∧ ctrlDI State.reset.ctrl = false ∧
    8 * runBusWrites 127 1 = 24 ∧
    ∀ j ∈ [0, 3, 4, 7, 15, 23], (tReady (tAcks j ++ [.hang])).Acks j ∧
      (tReady (tAcks j ++ [.hang])).answers[j]? = some .hang := by decide +kernel
theorem witness_AHangHasNoFurtherStep_long : ∀ j,
    (tReady (tAcks j ++ [.hang])).Acks j ∧ (tReady (tAcks j ++ [.hang])).answers[j]? = some .hang := by
  intro j
  refine ⟨fun a ha => ?_, by simp [tReady, tAcks]⟩
  simp only [tReady, tAcks, List.take_append_of_le_length (Nat.le_of_eq (List.length_replicate).symm)] at ha
  rw [List.eq_of_mem_replicate (List.mem_of_mem_take ha)]
  rfl
/-- At the first call, from any control state. -/
theorem witness_AHangHasNoFurtherStep_first : (tReady [.hang]).answers = .hang :: [] ∧
    State.powerUp.phase = .absent ∧ (tReady [.hang]).phase = .ready ∧ 0x01#8 ≠ State.reset.params.aCtrl ∧
    applySet { bl := some true } State.reset.ctrl ≠ State.reset.ctrl ∧ ctrlBL State.reset.ctrl ≠ true ∧
    ([1#8] ≠ [] ∧ 127 + [1#8].length ≤ 128 ∧ ¬ ((0x11#8).toNat ≤ State.reset.params.aCtrl.toNat ∧
      State.reset.params.aCtrl.toNat < (0x11#8).toNat + [1#8].length)) ∧
    (State.reset.fb.cell 7 127).dirty = true := by decide +kernel

theorem witness_TraceOnlyGrowsByEventsAndOneResult : ∃ t, exec (.lcdReadStatus .chip1) State.reset = .next t :=
  tNext_exists (by decide +kernel)

theorem witness_EveryFrameHasOneOfThreeFormats :
    tShow State.trace (exec (.expWriteRegister 0x01#8 0#8) State.reset) = some ([] ++ [tW 0x01#8 0#8, tOk]) := by
  decide +kernel

theorem witness_BusLevelOperationsKeepTheRest : (∃ t, exec (.lcdReadStatus .chip1) State.reset = .next t) ∧
    0x00#8 ∈ State.reset.params.addresses ∧ (0x00#8).toNat ≠ State.reset.params.aCtrl.toNat ∧
    (0x00#8).toNat ≠ State.reset.params.aDataDir.toNat ∧ (0x00#8).toNat ≠ State.reset.params.aData.toNat :=
  ⟨tNext_exists (by decide +kernel), by decide, by decide, by decide, by decide⟩

theorem witness_OnlyDataWritesChangeTheRam : ctrlRST State.reset.ctrl = true ∧
    ∃ t, exec (.lcdReadData .chip1) State.reset = .next t := ⟨by decide, tNext_exists (by decide +kernel)⟩

theorem witness_OnlyTheirInstructionsSwitchTheDisplay : State.reset.phase = .ready ∧ ctrlRST State.reset.ctrl = true ∧
    State.reset.lcd .chip2 = some .boot ∧ (∃ t, exec (.lcdPower .chip1 false) State.reset = .next t) ∧
    Chip.chip1 ≠ .chip2 := ⟨rfl, by decide, rfl, tNext_exists (by decide +kernel), by decide⟩

theorem witness_DataWriteTouchesOneByte : ctrlRST State.reset.ctrl = true ∧ State.reset.lcd .chip1 = some .boot ∧
    (∃ t, exec (.lcdWriteData .chip1 0x5A#8) State.reset = .next t) ∧
    7 * 64 + 1 ≠ ramAddr Lcd.boot.page Lcd.boot.col :=
  ⟨by decide, rfl, tNext_exists (by decide +kernel), by decide⟩

/-- A step of one queued request. -/
theorem witness_EveryStepKeepsTheStateInvariant :
    ({ State.reset with calls := [.call (.lcdReadStatus .chip1)] } : State).Inv = true ∧
    ∃ t, step { State.reset with calls := [.call (.lcdReadStatus .chip1)] } = .next t :=
  ⟨by decide +kernel, tNext_exists (by decide +kernel)⟩

theorem witness_EveryStepKeepsTheCacheInvariant :
    ({ State.reset with calls := [.call (.panelSetBacklight true)] } : State).Inv = true ∧
    ({ State.reset with calls := [.call (.panelSetBacklight true)] } : State).CacheAgrees ∧
    ∃ t, step { State.reset with calls := [.call (.panelSetBacklight true)] } = .next t :=
  ⟨by decide +kernel, ⟨by decide, fun v h => (Option.some.inj h).symm⟩, tNext_exists (by decide +kernel)⟩

/-- The all-dirty reset state, and a state with a clean cell. -/
theorem witness_CleanCellsMatchThePanel : bypassesFrameBuffer (.fbSetByte 2 5 0x81#8) = false ∧
    (tClean []).phase = .ready ∧ (tClean []).Synced ∧ ∃ t, exec (.fbSetByte 2 5 0x81#8) (tClean []) = .next t := by
  refine ⟨rfl, rfl, ⟨by decide, by simp [tClean, State.reset], by simp [tClean, State.reset], ?_⟩,
    tNext_exists (by decide +kernel)⟩
  intro r c hr hc _
  rw [State.panelByte_of_boot rfl rfl r c hr hc]
  exact congrArg (fun x : FbCell => some x.value)
    (FrameBuffer.cell_replicate { value := 0#8, dirty := false } r c hr hc).symm

end Sys2Proof.Machine
end

section
/-! The trace of an operation (00_scope.md R14, R16): a state continues another when its trace is the other's
with events appended. Every piece of every operation continues the state it starts from, and the return to the
caller appends the one result. -/

namespace Sys2Proof.Machine

/-! ## The relation -/

/-- `t` continues `s`: its trace is that of `s` and then events only, each a frame of one of the three formats or
no frame (30_encoding.md R70), and the parameters and the caller's queue are those of `s`. -/
def State.Continues (s t : State) : Prop :=
  (∃ es, (∀ e ∈ es, Event.wellFormedFrame e) ∧ t.trace = s.trace ++ items es) ∧ t.params = s.params ∧ t.calls = s.calls

/-- A change that leaves trace, parameters and queue alone. -/
theorem State.Continues.of_quiet {s t : State} (ht : t.trace = s.trace) (hp : t.params = s.params)
    (hc : t.calls = s.calls) : s.Continues t :=
  ⟨⟨[], by simp, by simp [ht]⟩, hp, hc⟩

/-- A change that emits one event. -/
theorem State.Continues.of_event {s t : State} {e : Event} (he : e.wellFormedFrame)
    (ht : t.trace = s.trace ++ [.event e]) (hp : t.params = s.params) (hc : t.calls = s.calls) : s.Continues t :=
  ⟨⟨[e], by simpa using he, ht⟩, hp, hc⟩

theorem State.Continues.refl (s : State) : s.Continues s := .of_quiet rfl rfl rfl

theorem State.Continues.trans (s t u : State) (h : s.Continues t) (k : t.Continues u) : s.Continues u := by
  obtain ⟨⟨es, hes, hst⟩, hp, hc⟩ := h
  obtain ⟨⟨fs, hfs, htu⟩, kp, kc⟩ := k
  refine ⟨⟨es ++ fs, fun e he => ?_, by simp [htu, hst]⟩, kp.trans hp, kc.trans hc⟩
  exact (List.mem_append.mp he).elim (hes e) (hfs e)

/-! ## Events and frames -/

/-- Every case of a transfer: it emits its frame with three received bytes and consumes one answer, drawing free
values when no answer is listed, or it hangs. -/
theorem spiTransfer_cases (tx : List Byte) (s : State) :
    (∃ k b rx d, rx.length = 3 ∧ spiTransfer tx s = .ok (k, b) { s.afterCall (.spiTransfer tx rx) with draws := d })
      ∨ spiTransfer tx s = .stuck .transportHang := by
  unfold spiTransfer State.afterCall
  rcases s.answers with _ | ⟨⟨k, r0, r1, r2⟩ | _, rest⟩
  · exact .inl ⟨tx.length, Config.freeByte (s.draws + 2),
      [Config.freeByte s.draws, Config.freeByte (s.draws + 1), Config.freeByte (s.draws + 2)], s.draws + 3, rfl,
      by simp [State.emit]⟩
  · exact .inl ⟨k, r2, [r0, r1, r2], s.draws, rfl, by simp [State.emit]⟩
  · exact .inr rfl

theorem evW_wellFormedFrame (a v : Byte) : (evW a v).wellFormedFrame := ⟨a, v, [], rfl⟩

theorem delay_continues (w : Wait) : (delay w).Keeps State.Continues :=
  fun _ => .of_event (e := .delay w) trivial rfl rfl rfl

theorem writeRegisterBody_continues (a v : Byte) : (writeRegisterBody a v).Keeps State.Continues := by
  intro s
  rcases writeRegisterBody_cases a v s with h | h | h <;> rw [h]
  · exact .of_event (evW_wellFormedFrame a v) rfl rfl rfl
  · exact .of_event (evW_wellFormedFrame a v) rfl rfl rfl
  · trivial

theorem writeBurstBody_continues (a : Byte) {vs : List Byte} (hvs : vs ≠ []) :
    (writeBurstBody a vs).Keeps State.Continues := by
  intro s
  have he : (Event.spiWrite (expOpWrite :: a :: vs)).wellFormedFrame := by
    obtain ⟨v, vs, rfl⟩ := List.exists_cons_of_ne_nil hvs
    exact ⟨a, v, vs, rfl⟩
  unfold writeBurstBody
  rcases spiWrite_cases (expOpWrite :: a :: vs) s with ⟨k, h⟩ | h <;> simp only [h]
  · split <;> exact .of_event he rfl rfl rfl
  · trivial

theorem readRegisterBody_continues (a : Byte) : (readRegisterBody a).Keeps State.Continues := by
  intro s
  unfold readRegisterBody
  rcases spiTransfer_cases [expOpRead, a, 0#8] s with ⟨k, b, rx, d, hrx, h⟩ | h <;> simp only [h]
  · split <;> exact .of_event (e := .spiTransfer [expOpRead, a, 0#8] rx) ⟨⟨a, rfl⟩, hrx⟩ rfl rfl rfl
  · trivial

/-! ## The control port -/

theorem controlWrite_continues (new : Byte) : (controlWrite new).Keeps State.Continues := by
  intro s
  have hw := writeRegisterBody_continues s.params.aCtrl new s
  unfold controlWrite
  cases h : writeRegisterBody s.params.aCtrl new s with
  | ok _ t => rw [h] at hw; exact .trans _ _ _ hw (.of_quiet rfl rfl rfl)
  | err _ t => rw [h] at hw; exact .trans _ _ _ hw (.of_quiet rfl rfl rfl)
  | stuck _ => trivial

theorem updateBody_continues (set : CtrlSet) : (updateBody set).Keeps State.Continues := by
  intro s
  unfold updateBody
  dsimp only
  split
  · exact State.Continues.refl s
  · exact controlWrite_continues _ s

theorem enableToggle_continues (k : Chip) (di : Bool) (b : Byte) : (enableToggle k di b).Keeps State.Continues := by
  intro s
  have hu := updateBody_continues { e := some false } s
  unfold enableToggle
  cases h : updateBody { e := some false } s with
  | ok _ t => rw [h] at hu; exact .trans _ _ _ hu (.of_quiet rfl rfl rfl)
  | err _ t => rw [h] at hu; exact .trans _ _ _ hu (.of_quiet rfl rfl rfl)
  | stuck _ => trivial

/-! ## Sequences -/

/-- Every piece of a bus sequence continues its state, for every word. -/
theorem continues_kept : BusKept (fun _ _ _ => True) State.Continues where
  refl := State.Continues.refl
  trans := State.Continues.trans
  update set _ := updateBody_continues set
  dirOut _ := writeRegisterBody_continues _ _ _
  dirIn _ := writeRegisterBody_continues _ _ _
  out _ _ := writeRegisterBody_continues _ _ _
  wait := delay_continues
  toggle k di b _ := enableToggle_continues k di b

theorem busWriteSeq_continues (k : Chip) (di : Bool) (b : Byte) : (busWriteSeq k di b).Keeps State.Continues :=
  continues_kept.write trivial

theorem readDisturbs_continues (k : Chip) (di : Bool) : (readDisturbs k di).Keeps State.Continues := by
  intro s
  cases di
  · exact State.Continues.refl s
  · exact .of_quiet rfl rfl rfl

theorem busReadSeq_continues (k : Chip) (di : Bool) : (busReadSeq k di).Keeps State.Continues :=
  continues_kept.read (fun _ => readRegisterBody_continues _ _) (readDisturbs_continues k di)

theorem clearSeq_continues : clearSeq.Keeps State.Continues :=
  continues_kept.clear (fun _ _ => trivial) (fun _ => trivial) (fun _ => trivial)

theorem setOnOffSeq_continues (on : Bool) : (setOnOffSeq on).Keeps State.Continues :=
  continues_kept.setOnOff fun _ => trivial

theorem setterSeq_continues (legal : Bool) (f : FrameBuffer → FrameBuffer) :
    (setterSeq legal f).Keeps State.Continues := by
  unfold setterSeq
  split
  · exact fun _ => .of_quiet rfl rfl rfl
  · exact Action.keeps_raise State.Continues.refl _

theorem writeBackSeq_continues : writeBackSeq.Keeps State.Continues :=
  continues_kept.writeBack (fun _ _ => trivial) (fun _ _ => trivial) (fun _ _ => trivial)
    fun _ _ _ _ => .of_quiet rfl rfl rfl

/-- The boot drives XCS and XRST: two pin events, which no frame format constrains. -/
theorem bootPinsLow_continues : bootPinsLow.Keeps State.Continues := fun s =>
  .trans s (s.drivePin .xcs true) _ (.of_event (e := .pin .xcs true) trivial rfl rfl rfl)
    (.of_event (e := .pin .xrst false) trivial rfl rfl rfl)

theorem bootPinHigh_continues : bootPinHigh.Keeps State.Continues :=
  fun _ => .of_event (e := .pin .xrst true) trivial rfl rfl rfl

theorem bootSeq_continues : bootSeq.Keeps State.Continues := by
  apply Action.keeps_inOrder State.Continues.refl State.Continues.trans
  intro p hp
  simp only [List.mem_cons, List.not_mem_nil, or_false] at hp
  rcases hp with rfl | rfl | rfl | rfl | rfl | rfl | rfl | rfl | rfl | rfl | rfl | rfl | rfl | rfl | rfl | rfl
  exacts [bootPinsLow_continues, delay_continues _, bootPinHigh_continues, delay_continues _,
    controlWrite_continues _, fun _ => writeRegisterBody_continues _ _ _, continues_kept.dirIn, delay_continues _,
    updateBody_continues _, delay_continues _, busWriteSeq_continues _ _ _, busWriteSeq_continues _ _ _,
    clearSeq_continues, setOnOffSeq_continues _, updateBody_continues _, fun _ => .of_quiet rfl rfl rfl]

/-! ## Operations -/

/-- An operation performed ends in a state its sequence's relation reaches, with its result appended. -/
theorem State.perform_keeps {R : State → State → Prop} {p : Action Value} {s t : State} (hp : p.Keeps R)
    (h : s.perform p = .next t) : ∃ u r, R s u ∧ t = u.record r :=
  Ran.finish_next hp (State.perform_next h).2

/-- An operation that returns nothing, through its statements. -/
theorem State.perform_unit_continues {p : Action Unit} {s t : State} (hp : p.Keeps State.Continues)
    (h : s.perform p.unit = .next t) : ∃ u r, s.Continues u ∧ t = u.record r :=
  State.perform_keeps (Action.keeps_unit State.Continues.refl State.Continues.trans hp) h

/-- An operation that returns a value its statements give. -/
theorem State.perform_value_continues {α : Type} {p : Action α} {f : α → Value} {s t : State}
    (hp : p.Keeps State.Continues) (h : s.perform (p.bind fun a => Action.ret (f a)) = .next t) :
    ∃ u r, s.Continues u ∧ t = u.record r :=
  State.perform_keeps
    (Action.keeps_bind State.Continues.trans hp fun _ => Action.keeps_ret State.Continues.refl _) h

/-- Every operation that returns: it continued its state, and then recorded its one result. -/
theorem exec_continues {i : Instr} {s t : State} (h : exec i s = .next t) :
    ∃ u r, s.Continues u ∧ t = u.record r := by
  cases i with
  | expWriteRegister a v =>
    simp only [exec, execExpWriteRegister] at h
    split at h
    · exact absurd h (State.refuseWith_not_next _ _ _)
    · exact State.perform_unit_continues (writeRegisterBody_continues a v) h
  | expWriteRegisterBurst a vs =>
    simp only [exec, execExpWriteRegisterBurst] at h
    split at h
    · exact absurd h (State.refuseWith_not_next _ _ _)
    · split at h
      · exact absurd h (State.refuseWith_not_next _ _ _)
      · exact State.perform_unit_continues (writeBurstBody_continues a ‹_›) h
  | ctrlUpdate set => exact State.perform_unit_continues (updateBody_continues set) h
  | expReadRegister a => exact State.perform_value_continues (readRegisterBody_continues a) h
  | busWrite k di b => exact State.perform_unit_continues (busWriteSeq_continues k di b) h
  | busRead k di => exact State.perform_value_continues (busReadSeq_continues k di) h
  | lcdPower k on => exact State.perform_unit_continues (busWriteSeq_continues k _ _) h
  | lcdSetStartLine k line => exact State.perform_unit_continues (busWriteSeq_continues k _ _) h
  | lcdSetPage k page => exact State.perform_unit_continues (busWriteSeq_continues k _ _) h
  | lcdSetColumn k col => exact State.perform_unit_continues (busWriteSeq_continues k _ _) h
  | lcdWriteData k v => exact State.perform_unit_continues (busWriteSeq_continues k _ _) h
  | lcdReadStatus k => exact State.perform_value_continues (busReadSeq_continues k false) h
  | lcdReadData k => exact State.perform_value_continues (busReadSeq_continues k true) h
  | panelSetBytesAt r c bytes =>
    exact State.perform_value_continues
      (continues_kept.setBytesAt (fun _ => trivial) (fun _ _ => trivial) fun _ _ _ => trivial) h
  | panelSetOnOff on => exact State.perform_unit_continues (setOnOffSeq_continues on) h
  | panelClear => exact State.perform_unit_continues clearSeq_continues h
  | panelSetBacklight on => exact State.perform_unit_continues (updateBody_continues _) h
  | panelGetBacklight =>
    exact State.perform_keeps (p := fun t => .ok (.flag (ctrlBL t.ctrl)) t) State.Continues.refl h
  | fbSetByte r c v => exact State.perform_unit_continues (setterSeq_continues _ _) h
  | fbSetBit r c v => exact State.perform_unit_continues (setterSeq_continues _ _) h
  | fbSetBitMatrix r c m =>
    simp only [exec, execFbSetBitMatrix] at h
    split at h
    · exact State.perform_unit_continues (setterSeq_continues _ _) h
    · exact absurd h (State.refuseWith_not_next _ _ _)
  | fbWriteBack => exact State.perform_unit_continues writeBackSeq_continues h
  | displayNew =>
    simp only [exec, execDisplayNew] at h
    split at h
    · cases h
    · exact Ran.finish_next (Action.keeps_unit State.Continues.refl State.Continues.trans bootSeq_continues) h

/-- Settles O51: the state an operation ends in continues the one it began in, and the return to the caller
appends the result. -/
theorem traceOnlyGrowsByEventsAndOneResult : Obligations.TraceOnlyGrowsByEventsAndOneResult := by
  intro i s t h
  obtain ⟨u, r, ⟨⟨es, -, htrace⟩, hparams, hcalls⟩, rfl⟩ := exec_continues h
  exact ⟨⟨es, r, by simp [htrace]⟩, hparams, hcalls⟩

end Sys2Proof.Machine
end

section
/-! What an operation performs and how it can end. `exec_next` says once what a next state of `exec` comes from:
the phase, the refusals passed, and the sequence performed. `Action.Ends` relates a state to the one a piece ends in
and to the error it raised, if any; one induction carries such a relation from the primitive pieces to every
sequence built of bus writes and reads. -/

namespace Sys2Proof.Machine

/-! ## The sequence of an operation -/

/-- The sequence an operation performs when nothing refuses it (30_encoding.md R80, R82). -/
def sequenceOf : Instr → Action Value
  | .expWriteRegister a v => (writeRegisterBody a v).unit
  | .expWriteRegisterBurst a vs => (writeBurstBody a vs).unit
  | .ctrlUpdate set => (updateBody set).unit
  | .expReadRegister a => (readRegisterBody a).bind fun b => Action.ret (.byte b)
  | .busWrite k di b => (busWriteSeq k di b).unit
  | .busRead k di => (busReadSeq k di).bind fun b => Action.ret (.byte b)
  | .lcdPower k on => (lcdPower k on).unit
  | .lcdSetStartLine k line => (lcdSetStartLine k line).unit
  | .lcdSetPage k page => (lcdSetPage k page).unit
  | .lcdSetColumn k col => (lcdSetColumn k col).unit
  | .lcdWriteData k v => (lcdWriteData k v).unit
  | .lcdReadStatus k => (busReadSeq k false).bind fun b => Action.ret (.byte b)
  | .lcdReadData k => (busReadSeq k true).bind fun b => Action.ret (.byte b)
  | .panelSetBytesAt r c bytes => (setBytesAtSeq r c bytes).bind fun n => Action.ret (.nat n)
  | .panelSetOnOff on => (setOnOffSeq on).unit
  | .panelClear => clearSeq.unit
  | .panelSetBacklight on => (setBacklightSeq on).unit
  | .panelGetBacklight => fun t => .ok (.flag (ctrlBL t.ctrl)) t
  | .fbSetByte r c v => (setterSeq (fbLegal r c) fun fb => fb.putByte r c v).unit
  | .fbSetBit y c v => (setterSeq (pixelLegal y c) fun fb => fb.putPixel y c v).unit
  | .fbSetBitMatrix y c m =>
    (setterSeq (matrixFits y c m.length (matrixWidth m)) fun fb => FrameBuffer.putMatrix fb y c m).unit
  | .fbWriteBack => writeBackSeq.unit
  | .displayNew => bootSeq.unit

/-- The phase in which an operation has a meaning (10_state.md R29, 70_reset_and_hazards.md R256). -/
def startPhase : Instr → Phase
  | .displayNew => .absent
  | _ => .ready

/-- A direct register write that performs reaches no A_CTRL, and a burst has a byte (40_expander_io.md R102, R103). -/
def Admitted (s : State) : Instr → Prop
  | .expWriteRegister a _ => a ≠ s.params.aCtrl
  | .expWriteRegisterBurst a vs => vs ≠ [] ∧ burstReaches s.params.aCtrl a vs.length = false
  | _ => True

/-- An operation performed while Ready with no further refusal. -/
theorem perform_next_admitted {i : Instr} {s t : State} (hp : startPhase i = .ready) (ha : Admitted s i)
    (h : s.perform (sequenceOf i) = .next t) :
    s.phase = startPhase i ∧ Admitted s i ∧ (sequenceOf i s).finish = .next t := by
  obtain ⟨hs, hf⟩ := State.perform_next h
  exact ⟨hs.trans hp.symm, ha, hf⟩

/-- What a next state of an operation comes from: its phase held, it was admitted, and its sequence returned. -/
theorem exec_next {i : Instr} {s t : State} (h : exec i s = .next t) :
    s.phase = startPhase i ∧ Admitted s i ∧ (sequenceOf i s).finish = .next t := by
  cases i with
  | expWriteRegister a v =>
    simp only [exec, execExpWriteRegister] at h
    split at h
    · exact absurd h (State.refuseWith_not_next _ _ _)
    · exact perform_next_admitted rfl ‹_› h
  | expWriteRegisterBurst a vs =>
    simp only [exec, execExpWriteRegisterBurst] at h
    split at h
    · exact absurd h (State.refuseWith_not_next _ _ _)
    · split at h
      · exact absurd h (State.refuseWith_not_next _ _ _)
      · next hne hreach => exact perform_next_admitted rfl ⟨hne, Bool.eq_false_iff.mpr hreach⟩ h
  | fbSetBitMatrix y c m =>
    simp only [exec, execFbSetBitMatrix] at h
    split at h
    · exact perform_next_admitted rfl trivial h
    · exact absurd h (State.refuseWith_not_next _ _ _)
  | displayNew =>
    simp only [exec, execDisplayNew] at h
    split at h
    · cases h
    · exact ⟨‹_›, trivial, h⟩
  | _ => exact perform_next_admitted rfl trivial h

/-! ## How a piece ends -/

/-- What holds of the error a piece raised, if any, and of the state it ended in. -/
def Ran.Ends {α : Type} (Q : Option Err → State → Prop) : Ran α → Prop
  | .ok _ t => Q none t
  | .err e t => Q (some e) t
  | .stuck _ => True

/-- The action relates every state to how it ends from there. -/
def Action.Ends {α : Type} (Q : State → Option Err → State → Prop) (p : Action α) : Prop := ∀ s, (p s).Ends (Q s)

theorem Ran.Ends.mono {α : Type} {Q Q' : Option Err → State → Prop} {r : Ran α} (h : r.Ends Q)
    (hq : ∀ o t, Q o t → Q' o t) : r.Ends Q' := by
  cases r with
  | ok a t => exact hq _ _ h
  | err e t => exact hq _ _ h
  | stuck f => trivial

/-- What holds of the state alone. -/
theorem Ran.ends_of_holds {α : Type} {r : Ran α} {P : State → Prop} (h : r.Holds P) : r.Ends fun _ t => P t := by
  cases r with
  | ok a t => exact h
  | err e t => exact h
  | stuck f => trivial

/-- A relation that does not look at the error. -/
theorem Action.ends_of_keeps {α : Type} {R : State → State → Prop} {p : Action α} (h : p.Keeps R) :
    p.Ends fun s _ t => R s t := fun s => Ran.ends_of_holds (h s)

/-- What a relation to the end of a piece says of the states alone. -/
theorem Action.keeps_of_ends {α : Type} {Q : State → Option Err → State → Prop} {R : State → State → Prop}
    {p : Action α} (h : p.Ends Q) (hq : ∀ s o t, Q s o t → R s t) : p.Keeps R := by
  intro s
  have hs := h s
  cases hp : p s with
  | ok a t => rw [hp] at hs; exact hq _ _ _ hs
  | err e t => rw [hp] at hs; exact hq _ _ _ hs
  | stuck f => trivial

theorem Action.keeps_mono {α : Type} {R R' : State → State → Prop} {p : Action α} (h : p.Keeps R)
    (hr : ∀ s t, R s t → R' s t) : p.Keeps R' :=
  Action.keeps_of_ends (Action.ends_of_keeps h) fun s _ t => hr s t

/-- One piece after another: the first one's error ends both, else the second one's end is theirs. -/
theorem Action.bind_ends {α β : Type} {p : Action α} {q : α → Action β} {s : State} {P Q : Option Err → State → Prop}
    (hp : (p s).Ends P) (he : ∀ e t, P (some e) t → Q (some e) t)
    (hq : ∀ a t, p s = .ok a t → P none t → (q a t).Ends Q) : (p.bind q s).Ends Q := by
  cases h : p s with
  | ok a t => rw [Action.bind_ok h]; rw [h] at hp; exact hq a t h hp
  | err e t => rw [Action.bind_err h]; rw [h] at hp; exact he e t hp
  | stuck f => rw [Action.bind_stuck h]; trivial

/-- A value returned after a piece ends as the piece did. -/
theorem Action.bind_ret_ends {α : Type} {p : Action α} {s : State} {Q : Option Err → State → Prop} (f : α → Value)
    (h : (p s).Ends Q) : (p.bind (fun a => Action.ret (f a)) s).Ends Q :=
  Action.bind_ends h (fun _ _ h => h) fun _ _ _ h => h

section
variable {Q : State → Option Err → State → Prop} (refl : ∀ s, Q s none s)
  (trans : ∀ s t u o, Q s none t → Q t o u → Q s o u)

include refl in
theorem Action.ends_ret {α : Type} (a : α) : (Action.ret a).Ends Q := fun s => refl s

include trans in
theorem Action.ends_bind {α β : Type} {p : Action α} {q : α → Action β} (hp : p.Ends Q) (hq : ∀ a, (q a).Ends Q) :
    (p.bind q).Ends Q := fun s =>
  Action.bind_ends (hp s) (fun _ _ h => h) fun a t _ h => (hq a t).mono fun _ _ => trans _ _ _ _ h

include trans in
theorem Action.ends_andThen {α β : Type} {p : Action α} {q : Action β} (hp : p.Ends Q) (hq : q.Ends Q) :
    (p.andThen q).Ends Q := Action.ends_bind trans hp fun _ => hq

include refl trans in
theorem Action.ends_inOrder {ps : List (Action Unit)} (h : ∀ p ∈ ps, p.Ends Q) : (Action.inOrder ps).Ends Q := by
  induction ps with
  | nil => exact Action.ends_ret refl ()
  | cons p ps ih => exact Action.ends_andThen trans (h p (by simp)) (ih fun q hq => h q (by simp [hq]))

include refl trans in
theorem Action.ends_forEach {α : Type} {f : α → Action Unit} {xs : List α} (h : ∀ x ∈ xs, (f x).Ends Q) :
    (Action.forEach f xs).Ends Q := by
  induction xs with
  | nil => exact Action.ends_ret refl ()
  | cons x xs ih => exact Action.ends_andThen trans (h x (by simp)) (ih fun y hy => h y (by simp [hy]))

theorem Action.ends_unit {p : Action Unit} (h : p.Ends Q) : p.unit.Ends Q :=
  fun s => Action.bind_ret_ends (fun _ => .unit) (h s)
end

/-- The return to the caller: the sequence's end, with a result that is the error raised, if any. -/
theorem Ran.finish_ends {Q : Option Err → State → Prop} {x : Ran Value} {t : State} (hx : x.Ends Q)
    (h : x.finish = .next t) : ∃ u o r, Q o u ∧ t = u.record r ∧ ∀ e, r = .error e ↔ o = some e := by
  cases x with
  | ok v u => cases h; exact ⟨u, none, .ok v, hx, rfl, by simp⟩
  | err e u => cases h; exact ⟨u, some e, .error e, hx, rfl, by simp⟩
  | stuck f => cases h

/-! ## From the pieces of a bus sequence to every sequence built of them -/

/-- A relation between a state and the end of a piece, which every primitive piece of a bus sequence satisfies. -/
structure BusEnds (Q : State → Option Err → State → Prop) : Prop where
  refl : ∀ s, Q s none s
  raise : ∀ s, Q s (some .geometryError) s
  trans : ∀ s t u o, Q s none t → Q t o u → Q s o u
  update : ∀ set : CtrlSet, set.rst = none → (updateBody set).Ends Q
  dirOut : dataDirOut.Ends Q
  dirIn : dataDirIn.Ends Q
  out : ∀ v, (dataOut v).Ends Q
  sample : dataIn.Ends Q
  wait : ∀ w, (delay w).Ends Q
  toggle : ∀ k di b, (enableToggle k di b).Ends Q
  disturb : ∀ k di, (readDisturbs k di).Ends Q

/-- A relation of the states alone that every piece keeps, the pieces of a read too. -/
theorem BusKept.ends {R : State → State → Prop} (h : BusKept (fun _ _ _ => True) R) (hs : dataIn.Keeps R)
    (hd : ∀ k di, (readDisturbs k di).Keeps R) : BusEnds fun s _ t => R s t where
  refl := h.refl
  raise := h.refl
  trans s t u _ := h.trans s t u
  update set hset := Action.ends_of_keeps (h.update set hset)
  dirOut := Action.ends_of_keeps h.dirOut
  dirIn := Action.ends_of_keeps h.dirIn
  out v := Action.ends_of_keeps (h.out v)
  sample := Action.ends_of_keeps hs
  wait w := Action.ends_of_keeps (h.wait w)
  toggle k di b := Action.ends_of_keeps (h.toggle k di b trivial)
  disturb k di := Action.ends_of_keeps (hd k di)

/-- A weaker relation, when it composes too. -/
theorem BusEnds.mono {Q Q' : State → Option Err → State → Prop} (h : BusEnds Q) (hq : ∀ s o t, Q s o t → Q' s o t)
    (trans : ∀ s t u o, Q' s none t → Q' t o u → Q' s o u) : BusEnds Q' where
  refl s := hq _ _ _ (h.refl s)
  raise s := hq _ _ _ (h.raise s)
  trans := trans
  update set hset s := (h.update set hset s).mono (hq s)
  dirOut s := (h.dirOut s).mono (hq s)
  dirIn s := (h.dirIn s).mono (hq s)
  out v s := (h.out v s).mono (hq s)
  sample s := (h.sample s).mono (hq s)
  wait w s := (h.wait w s).mono (hq s)
  toggle k di b s := (h.toggle k di b s).mono (hq s)
  disturb k di s := (h.disturb k di s).mono (hq s)

section
variable {Q : State → Option Err → State → Prop}

theorem BusEnds.busWrite (h : BusEnds Q) (k : Chip) (di : Bool) (b : Byte) : (busWriteSeq k di b).Ends Q := by
  apply Action.ends_inOrder h.refl h.trans
  intro p hp
  simp only [List.mem_cons, List.not_mem_nil, or_false] at hp
  rcases hp with rfl | rfl | rfl | rfl | rfl | rfl | rfl | rfl | rfl | rfl
  exacts [h.update _ rfl, h.dirOut, h.out _, h.update _ rfl, h.wait _, h.toggle _ _ _, h.wait _, h.update _ rfl,
    h.update _ rfl, h.dirIn]

theorem BusEnds.busRead (h : BusEnds Q) (k : Chip) (di : Bool) : (busReadSeq k di).Ends Q := by
  refine Action.ends_andThen h.trans ?_ (Action.ends_bind h.trans h.sample fun v =>
    Action.ends_andThen h.trans ?_ (Action.ends_ret h.refl v))
  · apply Action.ends_inOrder h.refl h.trans
    intro p hp
    simp only [List.mem_cons, List.not_mem_nil, or_false] at hp
    rcases hp with rfl | rfl | rfl | rfl | rfl | rfl
    exacts [h.dirIn, h.update _ rfl, h.disturb _ _, h.update _ rfl, h.update _ rfl, h.wait _]
  · apply Action.ends_inOrder h.refl h.trans
    intro p hp
    simp only [List.mem_cons, List.not_mem_nil, or_false] at hp
    rcases hp with rfl | rfl
    exacts [h.update _ rfl, h.update _ rfl]

theorem BusEnds.segment (h : BusEnds Q) (k : Chip) (p c : Nat) (bytes : List Byte) :
    (writeSegment k p c bytes).Ends Q := by
  apply Action.ends_inOrder h.refl h.trans
  intro q hq
  simp only [List.mem_cons, List.not_mem_nil, or_false] at hq
  rcases hq with rfl | rfl | rfl
  exacts [h.busWrite _ _ _, h.busWrite _ _ _, Action.ends_forEach h.refl h.trans fun _ _ => h.busWrite _ _ _]

theorem BusEnds.setBytesAt (h : BusEnds Q) (r c : Nat) (bytes : List Byte) : (setBytesAtSeq r c bytes).Ends Q := by
  unfold setBytesAtSeq
  dsimp only
  split
  · apply Action.ends_andThen h.trans _ (Action.ends_ret h.refl _)
    apply Action.ends_inOrder h.refl h.trans
    intro q hq
    simp only [List.mem_cons, List.not_mem_nil, or_false] at hq
    rcases hq with rfl | rfl <;> split
    exacts [h.segment _ _ _ _, Action.ends_ret h.refl _, h.segment _ _ _ _, Action.ends_ret h.refl _]
  · exact h.raise

theorem BusEnds.setOnOff (h : BusEnds Q) (on : Bool) : (setOnOffSeq on).Ends Q := by
  apply Action.ends_inOrder h.refl h.trans
  intro p hp
  simp only [List.mem_cons, List.not_mem_nil, or_false] at hp
  rcases hp with rfl | rfl
  exacts [h.busWrite _ _ _, h.busWrite _ _ _]

theorem BusEnds.clear (h : BusEnds Q) : clearSeq.Ends Q :=
  Action.ends_forEach h.refl h.trans fun _ _ => Action.ends_forEach h.refl h.trans fun _ _ => h.segment _ _ _ _

/-- A flush, when the change of a run's dirty bits is related too. -/
theorem BusEnds.writeBack (h : BusEnds Q) (hf : ∀ s r a n, Q s none { s with fb := s.fb.clean r a n }) :
    writeBackSeq.Ends Q :=
  Action.ends_forEach h.refl h.trans fun r _ s =>
    Action.ends_forEach h.refl h.trans (f := flushRun r)
      (fun run _ s => by
        refine Action.ends_bind h.trans (h.setBytesAt r run.1 (s.fb.values r run.1 run.2)) (fun n => ?_) s
        split
        · exact fun t => hf t r run.1 (run.2 - run.1)
        · exact h.raise) s

/-- The operations whose sequence is built of bus writes, bus reads and updates that leave RST alone. -/
def busLevel : Instr → Bool
  | .busWrite .. | .busRead .. | .lcdPower .. | .lcdSetStartLine .. | .lcdSetPage .. | .lcdSetColumn ..
  | .lcdWriteData .. | .lcdReadStatus .. | .lcdReadData .. | .panelSetBytesAt .. | .panelSetOnOff .. | .panelClear
  | .panelSetBacklight .. | .panelGetBacklight => true
  | _ => false

/-- Every bus-level operation ends as its pieces do. -/
theorem BusEnds.busLevel (h : BusEnds Q) {i : Instr} (hi : busLevel i = true) : (sequenceOf i).Ends Q := by
  have unit : ∀ {p : Action Unit}, p.Ends Q → p.unit.Ends Q := Action.ends_unit
  have value : ∀ {α : Type} {p : Action α} (f : α → Value), p.Ends Q → (p.bind fun a => Action.ret (f a)).Ends Q :=
    fun f hp s => Action.bind_ret_ends f (hp s)
  cases i with
  | busWrite k di b => exact unit (h.busWrite _ _ _)
  | busRead k di => exact value .byte (h.busRead _ _)
  | lcdPower k on => exact unit (h.busWrite _ _ _)
  | lcdSetStartLine k line => exact unit (h.busWrite _ _ _)
  | lcdSetPage k page => exact unit (h.busWrite _ _ _)
  | lcdSetColumn k col => exact unit (h.busWrite _ _ _)
  | lcdWriteData k v => exact unit (h.busWrite _ _ _)
  | lcdReadStatus k => exact value .byte (h.busRead _ _)
  | lcdReadData k => exact value .byte (h.busRead _ _)
  | panelSetBytesAt r c bytes => exact value .nat (h.setBytesAt _ _ _)
  | panelSetOnOff on => exact unit (h.setOnOff _)
  | panelClear => exact unit h.clear
  | panelSetBacklight on => exact unit (h.update _ rfl)
  | panelGetBacklight => exact h.refl
  | _ => cases hi

/-- A setter, when a change of the framebuffer alone is related. -/
theorem BusEnds.setter (h : BusEnds Q) (hf : ∀ s fb, Q s none { s with fb := fb }) (legal : Bool)
    (f : FrameBuffer → FrameBuffer) : (setterSeq legal f).Ends Q := by
  unfold setterSeq
  split
  · exact fun s => hf s (f s.fb)
  · exact h.raise

/-- The operations that neither write an expander register, or a set of control lines, directly nor boot. -/
def aboveTheRegisters : Instr → Bool
  | .expWriteRegister .. | .expWriteRegisterBurst .. | .ctrlUpdate .. | .expReadRegister .. | .displayNew => false
  | _ => true

/-- Every operation above the registers ends as its pieces do, when a change of the framebuffer alone is related. -/
theorem BusEnds.aboveTheRegisters (h : BusEnds Q) (hf : ∀ s fb, Q s none { s with fb := fb }) {i : Instr}
    (hi : aboveTheRegisters i = true) : (sequenceOf i).Ends Q := by
  cases i with
  | fbSetByte r c v => exact Action.ends_unit (h.setter hf _ _)
  | fbSetBit y c v => exact Action.ends_unit (h.setter hf _ _)
  | fbSetBitMatrix y c m => exact Action.ends_unit (h.setter hf _ _)
  | fbWriteBack => exact Action.ends_unit (h.writeBack fun s _ _ _ => hf s _)
  | expWriteRegister | expWriteRegisterBurst | ctrlUpdate | expReadRegister | displayNew => cases hi
  | _ => exact h.busLevel rfl
end

/-! ## Every case of the shared bodies that touch a register -/

/-- Every case of a register read: one transfer and then the sample or TransportError, or a hang. -/
theorem readRegisterBody_cases (a : Byte) (s : State) :
    (∃ b rx d, readRegisterBody a s
        = .ok b ({ s.afterCall (.spiTransfer [expOpRead, a, 0#8] rx) with draws := d }.expRead a))
      ∨ (∃ rx d, readRegisterBody a s
        = .err .transportError ({ s.afterCall (.spiTransfer [expOpRead, a, 0#8] rx) with draws := d }.expRead a))
      ∨ readRegisterBody a s = .stuck .transportHang := by
  unfold readRegisterBody
  rcases spiTransfer_cases [expOpRead, a, 0#8] s with ⟨k, b, rx, d, -, h⟩ | h
  · rw [h]
    by_cases hk : k = 3
    · exact .inl ⟨b, rx, d, by simp [hk]⟩
    · exact .inr (.inl ⟨rx, d, by simp [hk]⟩)
  · rw [h]; exact .inr (.inr rfl)

/-- Every case of a burst: one frame and then success or TransportError, or a hang. -/
theorem writeBurstBody_cases (a : Byte) (vs : List Byte) (s : State) :
    writeBurstBody a vs s = .ok () ((s.afterCall (.spiWrite (expOpWrite :: a :: vs))).expBurstStored a vs)
      ∨ writeBurstBody a vs s
        = .err .transportError ((s.afterCall (.spiWrite (expOpWrite :: a :: vs))).expBurstLost a vs.length)
      ∨ writeBurstBody a vs s = .stuck .transportHang := by
  unfold writeBurstBody
  rcases spiWrite_cases (expOpWrite :: a :: vs) s with ⟨k, h⟩ | h
  · rw [h]
    by_cases hk : k = 2 + vs.length
    · simp [hk]
    · simp [hk]
  · rw [h]; simp

/-- Every case of a control write: cached after success, the cache kept after a failure, or a hang. -/
theorem controlWrite_cases (new : Byte) (s : State) :
    controlWrite new s = .ok ()
        ({ ((s.afterCall (evW s.params.aCtrl new)).expStored s.params.aCtrl new) with ctrl := new }.panelHeld new)
      ∨ controlWrite new s
        = .err .transportError (((s.afterCall (evW s.params.aCtrl new)).expLost s.params.aCtrl).panelHeld new)
      ∨ controlWrite new s = .stuck .transportHang := by
  unfold controlWrite
  rcases writeRegisterBody_cases s.params.aCtrl new s with h | h | h <;> simp [h]

/-- A control update is suppressed, or it is the control write of the byte it makes. -/
theorem updateBody_eq (set : CtrlSet) (s : State) :
    (applySet set s.ctrl = s.ctrl ∧ updateBody set s = .ok () s)
      ∨ updateBody set s = controlWrite (applySet set s.ctrl) s := by
  by_cases h : applySet set s.ctrl = s.ctrl
  · exact .inl ⟨h, by simp [updateBody, h]⟩
  · exact .inr (by simp [updateBody, h])

/-- A relation that every control write satisfies is one every update satisfies. -/
theorem updateBody_ends {Q : State → Option Err → State → Prop} (refl : ∀ s, Q s none s)
    (h : ∀ new, (controlWrite new).Ends Q) (set : CtrlSet) : (updateBody set).Ends Q := by
  intro s
  rcases updateBody_eq set s with ⟨-, hu⟩ | hu <;> rw [hu]
  · exact refl s
  · exact h _ s

/-- A relation that an update satisfies, and a delivery and a drawn one after it, is one the Enable toggle
satisfies. -/
theorem enableToggle_ends {Q : State → Option Err → State → Prop} {k : Chip} {di : Bool} {b : Byte}
    (h : (updateBody { e := some false }).Ends Q) (hok : ∀ s t, Q s none t → Q s none (t.deliver k di b))
    (herr : ∀ s t e, Q s (some e) t → Q s (some e) (t.deliverDrawn k di b)) : (enableToggle k di b).Ends Q := by
  intro s
  have hs := h s
  unfold enableToggle
  cases hu : updateBody { e := some false } s with
  | ok _ t => rw [hu] at hs; exact hok _ _ hs
  | err e t => rw [hu] at hs; exact herr _ _ _ hs
  | stuck f => trivial

end Sys2Proof.Machine
end

section
/-! The reset state, the step, the phase, and what the operations leave alone (10_state.md R25 to R29, R35). -/

namespace Sys2Proof.Machine

/-! ## Reset and step -/

/-- Both chips hold after reset what boot leaves in them (10_state.md R35). -/
theorem reset_lcd (k : Chip) : State.reset.lcd k = some .boot := by cases k <;> rfl

/-- Settles O1: the block's values by evaluation, the grid and the RAM by their laws. -/
theorem resetHoldsTheValuesAfterBoot : Obligations.ResetHoldsTheValuesAfterBoot := by
  refine ⟨rfl, rfl, fun r hr c hc => FrameBuffer.cell_boot r c hr hc, rfl, rfl,
    fun k => ⟨.boot, reset_lcd k, rfl, rfl, rfl, rfl, fun p hp y hy => ?_⟩, rfl, rfl⟩
  have ha : p * 64 + y < 512 := by omega
  simp only [Lcd.byteAt, Lcd.boot, Memory.read?_zeroRam _ ha]

/-- A step whose next request decodes performs it. -/
theorem step_of_decode_ok {s : State} {q : Request} {rest : List Request} {i : Instr} (hs : s.calls = q :: rest)
    (hd : decode q = .ok i) : step s = exec i { s with calls := rest } := by
  simp [step, State.fetch, hs, hd]

/-- A table word that decodes to an operation is the request it is placed as. -/
theorem decode_requestOfTableWord {nbits w : Nat} {i : Instr} (h : decodeTableWord nbits w = some i) :
    decode (requestOfTableWord nbits w) = .ok i := by
  unfold decodeTableWord at h
  split at h
  · cases h; assumption
  · cases h

/-- Settles O2: the three cases of the queue's head, and the queue a placed word leaves. -/
theorem stepPerformsTheDecodedRequest : Obligations.StepPerformsTheDecodedRequest := by
  refine ⟨fun s q rest i => step_of_decode_ok, fun s q rest e hs hd => ?_, fun s hs => ?_, fun s nbits w i h => ?_⟩
  · simp [step, State.fetch, hs, hd]
  · simp [step, State.fetch, hs]
  · exact step_of_decode_ok (State.placeTableWord_calls s nbits w) (decode_requestOfTableWord h)

/-- Settles O57: after reset no cell is clean, and A_CTRL holds the cached byte. -/
theorem resetMeetsTheStateInvariant : Obligations.ResetMeetsTheStateInvariant := by
  refine ⟨by decide +kernel, ⟨by decide, by simp [State.reset], by simp [State.reset], ?_⟩, by decide, ?_⟩
  · intro r c hr hc hclean
    have hdirty : State.reset.fb.cell r c = _ := FrameBuffer.cell_boot r c hr hc
    rw [hdirty] at hclean
    cases hclean
  · exact fun v hv => (Option.some.inj hv).symm

/-! ## The frame of the operations below the framebuffer -/

theorem readRegisterBody_busFrame (a : Byte) : (readRegisterBody a).Keeps State.BusFrame := by
  intro s
  rcases readRegisterBody_cases a s with ⟨b, rx, d, h⟩ | ⟨rx, d, h⟩ | h <;> rw [h]
  exacts [⟨rfl, rfl, rfl, rfl, rfl, rfl⟩, ⟨rfl, rfl, rfl, rfl, rfl, rfl⟩, trivial]

theorem writeBurstBody_busFrame (a : Byte) (vs : List Byte) : (writeBurstBody a vs).Keeps State.BusFrame := by
  intro s
  rcases writeBurstBody_cases a vs s with h | h | h <;> rw [h]
  exacts [⟨rfl, rfl, rfl, rfl, rfl, rfl⟩, ⟨rfl, rfl, rfl, rfl, rfl, rfl⟩, trivial]

theorem controlWrite_busFrame (new : Byte) : (controlWrite new).Keeps State.BusFrame := by
  intro s
  rcases controlWrite_cases new s with h | h | h <;> rw [h]
  exacts [⟨rfl, rfl, rfl, rfl, rfl, rfl⟩, ⟨rfl, rfl, rfl, rfl, rfl, rfl⟩, trivial]

theorem readDisturbs_busFrame (k : Chip) (di : Bool) : (readDisturbs k di).Keeps State.BusFrame := by
  intro s
  cases di
  · exact State.BusFrame.refl s
  · exact ⟨rfl, rfl, rfl, rfl, rfl, rfl⟩

theorem busFrame_ends : BusEnds fun s _ t => s.BusFrame t :=
  busFrame_kept.ends (fun _ => readRegisterBody_busFrame _ _) readDisturbs_busFrame

/-- The operations that may change the framebuffer or the phase. -/
def touchesTheBuffer : Instr → Bool
  | .fbSetByte .. | .fbSetBit .. | .fbSetBitMatrix .. | .fbWriteBack | .displayNew => true
  | _ => false

/-- Every other operation leaves phase, framebuffer, pins, parameters and queue alone, however it ends. -/
theorem exec_busFrame {i : Instr} {s t : State} (hi : touchesTheBuffer i = false) (h : exec i s = .next t) :
    s.BusFrame t := by
  have hends : (sequenceOf i).Ends fun s _ t => s.BusFrame t := by
    cases i with
    | expWriteRegister a v => exact Action.ends_unit (Action.ends_of_keeps (writeRegisterBody_busFrame a v))
    | expWriteRegisterBurst a vs => exact Action.ends_unit (Action.ends_of_keeps (writeBurstBody_busFrame a vs))
    | ctrlUpdate set => exact Action.ends_unit (Action.ends_of_keeps (updateBody_busFrame set))
    | expReadRegister a =>
      exact fun s => Action.bind_ret_ends .byte (Action.ends_of_keeps (readRegisterBody_busFrame a) s)
    | fbSetByte | fbSetBit | fbSetBitMatrix | fbWriteBack | displayNew => cases hi
    | _ => exact busFrame_ends.busLevel rfl
  obtain ⟨-, -, hf⟩ := exec_next h
  obtain ⟨u, o, r, hu, rfl, -⟩ := Ran.finish_ends (hends s) hf
  exact hu

/-! ## The phase -/

/-- The pieces of a bus sequence keep the phase. -/
theorem phase_ends : BusEnds fun s _ t => t.phase = s.phase :=
  busFrame_ends.mono (fun _ _ _ h => h.1) fun _ _ _ _ h k => k.trans h

/-- Only the boot changes the phase (10_state.md R29). -/
theorem exec_phase {i : Instr} {s t : State} (h : exec i s = .next t) (hi : i ≠ .displayNew) : t.phase = s.phase := by
  cases hb : touchesTheBuffer i with
  | false => exact (exec_busFrame hb h).1
  | true =>
    have habove : aboveTheRegisters i = true := by
      cases i with
      | displayNew => exact absurd rfl hi
      | fbSetByte | fbSetBit | fbSetBitMatrix | fbWriteBack => rfl
      | _ => cases hb
    obtain ⟨-, -, hf⟩ := exec_next h
    obtain ⟨u, o, r, hu, rfl, -⟩ := Ran.finish_ends (phase_ends.aboveTheRegisters (fun _ _ => rfl) habove s) hf
    exact hu

/-- The boot sequence without its last step, which alone makes the block Ready (70_reset_and_hazards.md R250). -/
def bootTraffic : List (Action Unit) :=
  [ bootPinsLow, delay .tXrstLow, bootPinHigh, delay .tXrstRecover, controlWrite bootControlByte, ctrlDirOut,
    dataDirIn, delay .tLcdRst, updateBody { rst := some true }, delay .tLcdRecover, lcdSetStartLine .chip1 0,
    lcdSetStartLine .chip2 0, clearSeq, setOnOffSeq true, setBacklightSeq false ]

theorem Action.inOrder_append (ps qs : List (Action Unit)) :
    Action.inOrder (ps ++ qs) = (Action.inOrder ps).andThen (Action.inOrder qs) := by
  induction ps with
  | nil => rfl
  | cons p ps ih =>
    funext s
    simp only [List.cons_append, Action.inOrder, ih]
    cases hp : p s <;> simp [Action.andThen, Action.bind, hp]

theorem bootSeq_eq : bootSeq = (Action.inOrder bootTraffic).andThen (Action.inOrder [bootDone]) :=
  Action.inOrder_append bootTraffic [bootDone]

/-- The traffic of the boot ends as its pieces do: those of a bus sequence, the two pin steps, the control writes and
the direction of the control port. -/
theorem BusEnds.bootTraffic {Q : State → Option Err → State → Prop} (h : BusEnds Q) (hlow : bootPinsLow.Ends Q)
    (hhigh : bootPinHigh.Ends Q) (hc : ∀ new, (controlWrite new).Ends Q) (hd : ctrlDirOut.Ends Q) :
    (Action.inOrder bootTraffic).Ends Q := by
  apply Action.ends_inOrder h.refl h.trans
  intro p hp
  simp only [Machine.bootTraffic, List.mem_cons, List.not_mem_nil, or_false] at hp
  rcases hp with rfl | rfl | rfl | rfl | rfl | rfl | rfl | rfl | rfl | rfl | rfl | rfl | rfl | rfl | rfl
  exacts [hlow, h.wait _, hhigh, h.wait _, hc _, hd, h.dirIn, h.wait _, updateBody_ends h.refl hc _, h.wait _,
    h.busWrite _ _ _, h.busWrite _ _ _, h.clear, h.setOnOff _, h.update _ rfl]

/-- A relation that the pieces of every operation satisfy, a direct register write where it is admitted. -/
structure OpEnds (Q : State → Option Err → State → Prop) : Prop extends BusEnds Q where
  control : ∀ new, (controlWrite new).Ends Q
  register : ∀ s a v, a ≠ s.params.aCtrl → (writeRegisterBody a v s).Ends (Q s)
  burst : ∀ s a vs, burstReaches s.params.aCtrl a vs.length = false → (writeBurstBody a vs s).Ends (Q s)
  read : ∀ a, (readRegisterBody a).Ends Q
  framebuffer : ∀ s fb, Q s none { s with fb := fb }
  pinsLow : bootPinsLow.Ends Q
  pinHigh : bootPinHigh.Ends Q
  ctrlDir : ctrlDirOut.Ends Q
  done : bootDone.Ends Q

theorem OpEnds.boot {Q : State → Option Err → State → Prop} (h : OpEnds Q) : bootSeq.Ends Q := by
  rw [bootSeq_eq]
  refine Action.ends_andThen h.trans (h.toBusEnds.bootTraffic h.pinsLow h.pinHigh h.control h.ctrlDir)
    (Action.ends_inOrder h.refl h.trans fun p hp => ?_)
  rw [List.mem_singleton.mp hp]
  exact h.done

/-- Every operation that returns ended as its pieces do, and then recorded a result that names the error, if any. -/
theorem OpEnds.exec {Q : State → Option Err → State → Prop} (h : OpEnds Q) {i : Instr} {s t : State}
    (hx : exec i s = .next t) : ∃ u o r, Q s o u ∧ t = u.record r ∧ ∀ e, r = .error e ↔ o = some e := by
  obtain ⟨-, ha, hf⟩ := exec_next hx
  refine Ran.finish_ends ?_ hf
  cases i with
  | expWriteRegister a v => exact Action.bind_ret_ends (fun _ => .unit) (h.register s a v ha)
  | expWriteRegisterBurst a vs => exact Action.bind_ret_ends (fun _ => .unit) (h.burst s a vs ha.2)
  | ctrlUpdate set => exact Action.ends_unit (updateBody_ends h.refl h.control set) s
  | expReadRegister a => exact Action.bind_ret_ends .byte (h.read a s)
  | displayNew => exact Action.ends_unit h.boot s
  | _ => exact h.toBusEnds.aboveTheRegisters h.framebuffer rfl s

/-- The traffic of the boot keeps the phase. -/
theorem bootTraffic_phase : (Action.inOrder bootTraffic).Ends fun s _ t => t.phase = s.phase :=
  phase_ends.bootTraffic (fun _ => rfl) (fun _ => rfl)
    (fun new => Action.ends_of_keeps (Action.keeps_mono (controlWrite_busFrame new) fun _ _ h => h.1))
    (Action.ends_of_keeps (Action.keeps_mono (fun _ => writeRegisterBody_busFrame _ _ _) fun _ _ h => h.1))

/-- The boot ends Ready exactly when no step of it fails (10_state.md R29, 60_exceptions.md R228). -/
theorem bootSeq_phase {s : State} (hs : s.phase = .absent) : (bootSeq s).Ends fun o t => t.phase = .ready ↔ o = none := by
  rw [bootSeq_eq]
  refine Action.bind_ends (bootTraffic_phase s) (fun e t ht => ?_) fun _ t _ _ => ?_
  · simp [ht.trans hs]
  · exact ⟨fun _ => rfl, fun _ => rfl⟩

/-- A boot that returns records Ok exactly when it ends Ready. -/
theorem displayNew_ready_iff {s t : State} (hs : s.phase = .absent) (h : exec .displayNew s = .next t) :
    t.phase = .ready ↔ t.trace.getLast? = some (.result (.ok .unit)) := by
  obtain ⟨-, -, hf⟩ := exec_next h
  have hb := bootSeq_phase hs
  cases hr : bootSeq s with
  | ok _ u =>
    simp only [sequenceOf, Action.unit, Action.andThen_ok hr, Action.ret_apply, Ran.finish] at hf
    rw [hr] at hb
    cases hf
    simpa using hb.mpr rfl
  | err e u =>
    simp only [sequenceOf, Action.unit, Action.andThen, Action.bind_err hr, Ran.finish] at hf
    rw [hr] at hb
    cases hf
    simpa using fun hu => nomatch hb.mp hu
  | stuck f =>
    simp only [sequenceOf, Action.unit, Action.andThen, Action.bind_stuck hr, Ran.finish] at hf
    cases hf

/-- While Absent every operation but the boot is refused, whatever its operands (10_state.md R29). -/
theorem exec_absent {i : Instr} {s : State} (hs : s.phase = .absent) (hi : i ≠ .displayNew) :
    exec i s = .refused .absent := by
  have perform : ∀ p, s.perform p = .refused .absent := fun p => by simp [State.perform, hs]
  have refuse : ∀ r, s.refuseWith r = .refused .absent := fun r => by simp [State.refuseWith, hs]
  cases i with
  | expWriteRegister a v => simp [exec, execExpWriteRegister, perform, refuse]
  | expWriteRegisterBurst a vs => simp [exec, execExpWriteRegisterBurst, perform, refuse]
  | fbSetBitMatrix y c m => simp [exec, execFbSetBitMatrix, perform, refuse]
  | displayNew => exact absurd rfl hi
  | _ => exact perform _

/-- Settles O48, from the phase every operation starts in and the one it leaves. -/
theorem phaseDecidesWhatHasAMeaning : Obligations.PhaseDecidesWhatHasAMeaning :=
  ⟨fun _ _ hs hi => exec_absent hs hi, fun s hs => by simp [exec, execDisplayNew, hs],
    fun _ _ _ h hi => exec_phase h hi, fun _ _ hs h => displayNew_ready_iff hs h⟩

end Sys2Proof.Machine
end

section
/-! The device-side view of the expander's registers (10_state.md R21, R32): which registers an operation can change,
that A_CTRL holds what the cache holds wherever it is known, and what an answered bus write leaves in it. -/

namespace Sys2Proof.Machine

/-! ## Named registers -/

@[simp] theorem Params.isNamed_aCtrl (p : Params) : Params.isNamed p p.aCtrl = true := by
  simp [Params.isNamed, Params.addresses]
@[simp] theorem Params.isNamed_aDataDir (p : Params) : Params.isNamed p p.aDataDir = true := by
  simp [Params.isNamed, Params.addresses]
@[simp] theorem Params.isNamed_aData (p : Params) : Params.isNamed p p.aData = true := by
  simp [Params.isNamed, Params.addresses]

/-- What the device holds after a frame that stored a byte in a named register. -/
theorem State.expStored_read? (s : State) {a : Byte} (ha : Params.isNamed s.params a = true) (v : Byte) (x : Nat) :
    (s.expStored a v).exp.read? x = if x = a.toNat then some v else s.exp.read? x := by
  simp [ha, Memory.read?_write]

/-- A frame to a named register that failed leaves the others alone. -/
theorem State.expLost_read?_of_ne (s : State) {a : Byte} (ha : Params.isNamed s.params a = true) {x : Nat}
    (hx : x ≠ a.toNat) : (s.expLost a).exp.read? x = s.exp.read? x := by
  simp [ha, Memory.read?_erase_of_ne _ _ _ hx]

section
variable {p : Params} (hd : p.Distinct)
include hd

/-- The other three addresses are not A_CTRL (20_memory.md R51). -/
theorem Params.aCtrlDir_ne_aCtrl : p.aCtrlDir ≠ p.aCtrl := fun h => by
  simp [Params.Distinct, Params.addresses, h] at hd
theorem Params.aDataDir_ne_aCtrl : p.aDataDir ≠ p.aCtrl := fun h => by
  simp [Params.Distinct, Params.addresses, h] at hd
theorem Params.aData_ne_aCtrl : p.aData ≠ p.aCtrl := fun h => by
  simp [Params.Distinct, Params.addresses, h] at hd
end

/-! ## The registers a bus-level operation leaves alone -/

/-- The parameters, and every register but the three a bus sequence writes, are as before. -/
def State.OtherRegistersKept (s t : State) : Prop :=
  t.params = s.params ∧ ∀ x, x ≠ s.params.aCtrl.toNat → x ≠ s.params.aDataDir.toNat → x ≠ s.params.aData.toNat →
    t.exp.read? x = s.exp.read? x

theorem State.OtherRegistersKept.of_exp {s t : State} (hp : t.params = s.params) (he : t.exp = s.exp) :
    s.OtherRegistersKept t := ⟨hp, fun _ _ _ _ => by rw [he]⟩

theorem State.OtherRegistersKept.trans (s t u : State) (h : s.OtherRegistersKept t) (k : t.OtherRegistersKept u) :
    s.OtherRegistersKept u := by
  obtain ⟨hp, hr⟩ := h
  obtain ⟨kp, kr⟩ := k
  rw [hp] at kr
  exact ⟨kp.trans hp, fun x h1 h2 h3 => (kr x h1 h2 h3).trans (hr x h1 h2 h3)⟩

/-- A write to one of the three registers. -/
theorem writeRegisterBody_others {s : State} {a : Byte} (v : Byte)
    (ha : a = s.params.aCtrl ∨ a = s.params.aDataDir ∨ a = s.params.aData) :
    (writeRegisterBody a v s).Holds s.OtherRegistersKept := by
  have hn : Params.isNamed s.params a = true := by rcases ha with rfl | rfl | rfl <;> simp
  have hne : ∀ x, x ≠ s.params.aCtrl.toNat → x ≠ s.params.aDataDir.toNat → x ≠ s.params.aData.toNat →
      x ≠ a.toNat := by
    rcases ha with rfl | rfl | rfl
    exacts [fun _ h _ _ => h, fun _ _ h _ => h, fun _ _ _ h => h]
  rcases writeRegisterBody_cases a v s with h | h | h <;> rw [h]
  · refine ⟨rfl, fun x h1 h2 h3 => ?_⟩
    exact (State.expStored_read? (s.afterCall _) hn v x).trans (if_neg (hne x h1 h2 h3))
  · exact ⟨rfl, fun x h1 h2 h3 => State.expLost_read?_of_ne (s.afterCall _) hn (hne x h1 h2 h3)⟩
  · trivial

theorem controlWrite_others (new : Byte) : (controlWrite new).Keeps State.OtherRegistersKept := by
  intro s
  have hw := writeRegisterBody_others (s := s) new (.inl rfl)
  unfold controlWrite
  cases h : writeRegisterBody s.params.aCtrl new s with
  | ok _ t => rw [h] at hw; exact hw
  | err _ t => rw [h] at hw; exact hw
  | stuck _ => trivial

/-- The sampling transfer of a bus read reads a named register, which changes none. -/
theorem dataIn_exp (s : State) : (dataIn s).Holds fun t => t.params = s.params ∧ t.exp = s.exp := by
  unfold dataIn
  rcases readRegisterBody_cases s.params.aData s with ⟨b, rx, d, h⟩ | ⟨rx, d, h⟩ | h <;> rw [h]
  · exact ⟨rfl, by simp [State.afterCall]⟩
  · exact ⟨rfl, by simp [State.afterCall]⟩
  · trivial

/-- Every piece of a bus sequence leaves the other registers alone. -/
theorem otherRegisters_ends : BusEnds fun s _ t => s.OtherRegistersKept t where
  refl _ := .of_exp rfl rfl
  raise _ := .of_exp rfl rfl
  trans s t u _ := State.OtherRegistersKept.trans s t u
  update set _ := updateBody_ends (fun _ => .of_exp rfl rfl) (fun new => Action.ends_of_keeps (controlWrite_others new)) set
  dirOut := Action.ends_of_keeps fun _ => writeRegisterBody_others _ (.inr (.inl rfl))
  dirIn := Action.ends_of_keeps fun _ => writeRegisterBody_others _ (.inr (.inl rfl))
  out _ := Action.ends_of_keeps fun _ => writeRegisterBody_others _ (.inr (.inr rfl))
  sample := Action.ends_of_keeps fun s => by
    have h := dataIn_exp s
    cases hs : dataIn s with
    | ok b t => rw [hs] at h; obtain ⟨hp, he⟩ := h; exact .of_exp hp he
    | err e t => rw [hs] at h; obtain ⟨hp, he⟩ := h; exact .of_exp hp he
    | stuck f => trivial
  wait _ _ := .of_exp rfl rfl
  toggle _ _ _ := enableToggle_ends
    (updateBody_ends (fun _ => .of_exp rfl rfl) (fun new => Action.ends_of_keeps (controlWrite_others new)) _)
    (fun _ _ h => h) (fun _ _ _ h => h)
  disturb _ di s := by cases di <;> exact .of_exp rfl rfl

/-- Every operation but the direct register operations and the boot leaves the other registers alone. -/
theorem exec_others {i : Instr} {s t : State} (hi : aboveTheRegisters i = true ∨ ∃ set, i = .ctrlUpdate set)
    (h : exec i s = .next t) : s.OtherRegistersKept t := by
  have hends : (sequenceOf i).Ends fun s _ t => s.OtherRegistersKept t := by
    rcases hi with hi | ⟨set, rfl⟩
    · exact otherRegisters_ends.aboveTheRegisters (fun _ _ => .of_exp rfl rfl) hi
    · exact Action.ends_unit (updateBody_ends
        otherRegisters_ends.refl (fun new => Action.ends_of_keeps (controlWrite_others new)) set)
  obtain ⟨-, -, hf⟩ := exec_next h
  obtain ⟨u, o, r, hu, rfl, -⟩ := Ran.finish_ends (hends s) hf
  exact hu

/-- Settles O53, from the frame of the operations below the framebuffer and the registers they leave alone. -/
theorem busLevelOperationsKeepTheRest : Obligations.BusLevelOperationsKeepTheRest := by
  intro i s t h
  constructor
  · have frame : touchesTheBuffer i = false → t.fb = s.fb ∧ t.phase = s.phase ∧ t.xcs = s.xcs ∧ t.xrst = s.xrst := by
      intro hi
      obtain ⟨hphase, hfb, hxcs, hxrst, -, -⟩ := exec_busFrame hi h
      exact ⟨hfb, hphase, hxcs, hxrst⟩
    cases i with
    | fbSetByte | fbSetBit | fbSetBitMatrix | fbWriteBack | displayNew => trivial
    | _ => exact frame rfl
  · cases i with
    | expWriteRegister | expWriteRegisterBurst | expReadRegister | displayNew => trivial
    | ctrlUpdate set => exact (exec_others (.inr ⟨set, rfl⟩) h).2
    | _ => exact (exec_others (.inl rfl) h).2

/-! ## The cache invariant -/

theorem Memory.wf_writeMany (m : Memory) (a : Nat) (vs : List Byte) (h : m.wf = true) : (m.writeMany a vs).wf = true := by
  induction vs generalizing m a with
  | nil => exact h
  | cons v vs ih => exact ih _ _ (Memory.wf_write m a v h)

theorem Memory.wf_eraseMany (m : Memory) (as : List Nat) (h : m.wf = true) : (m.eraseMany as).wf = true := by
  induction as generalizing m with
  | nil => exact h
  | cons a as ih => exact ih _ (Memory.wf_erase m a h)

/-- Consecutive writes leave alone every address that is none of theirs. -/
theorem Memory.read?_writeMany_of_outside (m : Memory) (a x : Nat) (vs : List Byte)
    (hx : ¬ (a ≤ x ∧ x < a + vs.length)) : (m.writeMany a vs).read? x = m.read? x := by
  induction vs generalizing m a with
  | nil => rfl
  | cons v vs ih =>
    simp only [List.length_cons] at hx
    rw [Memory.writeMany, ih _ _ (by omega), Memory.read?_write, if_neg (by omega)]

theorem Memory.read?_eraseMany_of_notMem (m : Memory) (x : Nat) (as : List Nat) (hx : x ∉ as) :
    (m.eraseMany as).read? x = m.read? x := by
  induction as generalizing m with
  | nil => rfl
  | cons a as ih =>
    rw [List.mem_cons, not_or] at hx
    rw [Memory.eraseMany, ih _ hx.2, Memory.read?_erase_of_ne _ _ _ hx.1]

/-- The addresses of a burst are a range of the naturals (log 16). -/
theorem mem_burstAddrs {addr : Byte} {n x : Nat} : x ∈ burstAddrs addr n ↔ addr.toNat ≤ x ∧ x < addr.toNat + n := by
  simp only [burstAddrs, List.mem_map, List.mem_range]
  constructor
  · rintro ⟨i, hi, rfl⟩; omega
  · rintro ⟨h1, h2⟩; exact ⟨x - addr.toNat, by omega, by omega⟩

/-- The device-side view is canonical, so that an erased register reads as unknown, and the cache agrees with it. -/
def State.CacheSound (s : State) : Prop := s.exp.wf = true ∧ s.CacheAgrees

/-- A change that leaves cache and parameters alone and makes nothing newly known of A_CTRL. -/
theorem State.CacheSound.of_exp {s t : State} (h : s.CacheSound) (hp : t.params = s.params) (hc : t.ctrl = s.ctrl)
    (hwf : t.exp.wf = true)
    (hr : ∀ v, t.exp.read? s.params.aCtrl.toNat = some v → s.exp.read? s.params.aCtrl.toNat = some v) :
    t.CacheSound := by
  obtain ⟨-, hd, ha⟩ := h
  refine ⟨hwf, by rw [hp]; exact hd, fun v hv => ?_⟩
  rw [hp] at hv
  rw [hc]
  exact ha v (hr v hv)

/-- A change of other parts of the state. -/
theorem State.CacheSound.of_same {s t : State} (h : s.CacheSound) (hp : t.params = s.params) (hc : t.ctrl = s.ctrl)
    (he : t.exp = s.exp) : t.CacheSound := h.of_exp hp hc (he ▸ h.1) fun _ hv => he ▸ hv

/-- A change after which no register is known. -/
theorem State.CacheSound.of_unknown {s t : State} (h : s.CacheSound) (hp : t.params = s.params) (hc : t.ctrl = s.ctrl)
    (he : t.exp = []) : t.CacheSound :=
  h.of_exp hp hc (by rw [he]; rfl) fun v hv => by rw [he] at hv; cases hv

/-- The cache invariant goes on from one state to the other. -/
def State.CacheKept (s t : State) : Prop := s.CacheSound → t.CacheSound

/-- A write to a register other than A_CTRL. -/
theorem writeRegisterBody_cache {s : State} {a : Byte} (v : Byte) (ha : s.params.Distinct → a ≠ s.params.aCtrl) :
    (writeRegisterBody a v s).Holds s.CacheKept := by
  have hne : s.CacheSound → s.params.aCtrl.toNat ≠ a.toNat :=
    fun h he => ha h.2.1 (BitVec.eq_of_toNat_eq he.symm)
  rcases writeRegisterBody_cases a v s with hw | hw | hw <;> rw [hw]
  · intro h
    cases hn : Params.isNamed s.params a with
    | false => exact h.of_unknown rfl rfl (by simp [State.afterCall, hn])
    | true =>
      refine h.of_exp rfl rfl (by simpa [State.afterCall, hn] using Memory.wf_write _ _ _ h.1) fun w hr => ?_
      rw [State.expStored_read? (s.afterCall _) hn, if_neg (hne h)] at hr
      exact hr
  · intro h
    cases hn : Params.isNamed s.params a with
    | false => exact h.of_unknown rfl rfl (by simp [State.afterCall, hn])
    | true =>
      refine h.of_exp rfl rfl (by simpa [State.afterCall, hn] using Memory.wf_erase _ _ h.1) fun w hr => ?_
      rw [State.expLost_read?_of_ne (s.afterCall _) hn (hne h)] at hr
      exact hr
  · trivial

/-- A burst whose range does not contain A_CTRL. -/
theorem writeBurstBody_cache {s : State} {a : Byte} {vs : List Byte}
    (hr : burstReaches s.params.aCtrl a vs.length = false) : (writeBurstBody a vs s).Holds s.CacheKept := by
  have hout : s.params.aCtrl.toNat ∉ burstAddrs a vs.length := by simpa [burstReaches] using hr
  rcases writeBurstBody_cases a vs s with hw | hw | hw <;> rw [hw]
  · intro h
    cases hn : Params.namesBurst s.params a vs.length with
    | false => exact h.of_unknown rfl rfl (by simp [State.afterCall, hn])
    | true =>
      have he : ((s.afterCall (.spiWrite (expOpWrite :: a :: vs))).expBurstStored a vs).exp
          = s.exp.writeMany a.toNat vs := by simp [State.afterCall, hn]
      refine h.of_exp rfl rfl (he ▸ Memory.wf_writeMany _ _ _ h.1) fun w hw => ?_
      rwa [he, Memory.read?_writeMany_of_outside _ _ _ _ (mem_burstAddrs.not.mp hout)] at hw
  · intro h
    cases hn : Params.namesBurst s.params a vs.length with
    | false => exact h.of_unknown rfl rfl (by simp [State.afterCall, hn])
    | true =>
      have he : ((s.afterCall (.spiWrite (expOpWrite :: a :: vs))).expBurstLost a vs.length).exp
          = s.exp.eraseMany (burstAddrs a vs.length) := by simp [State.afterCall, hn]
      refine h.of_exp rfl rfl (he ▸ Memory.wf_eraseMany _ _ h.1) fun w hw => ?_
      rwa [he, Memory.read?_eraseMany_of_notMem _ _ _ hout] at hw
  · trivial

theorem readRegisterBody_cache (a : Byte) : (readRegisterBody a).Keeps State.CacheKept := by
  intro s
  rcases readRegisterBody_cases a s with ⟨b, rx, d, hr⟩ | ⟨rx, d, hr⟩ | hr <;> rw [hr]
  · intro h
    cases hn : Params.isNamed s.params a with
    | false => exact h.of_unknown rfl rfl (by simp [State.afterCall, hn])
    | true => exact h.of_same rfl rfl (by simp [State.afterCall, hn])
  · intro h
    cases hn : Params.isNamed s.params a with
    | false => exact h.of_unknown rfl rfl (by simp [State.afterCall, hn])
    | true => exact h.of_same rfl rfl (by simp [State.afterCall, hn])
  · trivial

/-- The device's control port is known and holds what the cache holds. -/
def State.ControlKnown (s : State) : Prop := s.exp.read? s.params.aCtrl.toNat = some s.ctrl

/-- A control write that succeeded: the port holds the new cache, every other register is as before. -/
theorem controlWrite_ok {new : Byte} {s t : State} (h : controlWrite new s = .ok () t) :
    t.params = s.params ∧ t.ControlKnown ∧ ∀ x, x ≠ s.params.aCtrl.toNat → t.exp.read? x = s.exp.read? x := by
  rcases controlWrite_cases new s with hw | hw | hw <;> rw [hw] at h <;> cases h
  have hr := State.expStored_read? (s.afterCall (evW s.params.aCtrl new)) (Params.isNamed_aCtrl s.params) new
  refine ⟨rfl, ?_, fun x hx => ?_⟩
  · exact (hr _).trans (if_pos rfl)
  · exact (hr x).trans (if_neg hx)

/-- The control write: the cache takes the byte the port took, and a failed one leaves the port unknown
(10_state.md R21, R30). -/
theorem controlWrite_cache (new : Byte) : (controlWrite new).Keeps State.CacheKept := by
  intro s
  rcases controlWrite_cases new s with hw | hw | hw
  · obtain ⟨-, hknown, -⟩ := controlWrite_ok hw
    rw [hw]
    rintro ⟨hwf, hd, -⟩
    exact ⟨by simpa [State.afterCall] using Memory.wf_write _ _ _ hwf, hd,
      fun v hv => Option.some.inj (hv.symm.trans hknown)⟩
  · rw [hw]
    intro h
    have he : (((s.afterCall (evW s.params.aCtrl new)).expLost s.params.aCtrl).panelHeld new).exp
        = s.exp.erase s.params.aCtrl.toNat := by simp [State.afterCall]
    refine h.of_exp rfl rfl (he ▸ Memory.wf_erase _ _ h.1) fun v hv => ?_
    rw [he, Memory.read?_erase _ _ _ h.1, if_pos rfl] at hv
    cases hv
  · rw [hw]; trivial

/-- Every piece of a bus sequence keeps the cache invariant. -/
theorem cache_ends : BusEnds fun s _ t => s.CacheKept t where
  refl _ h := h
  raise _ h := h
  trans _ _ _ _ h k hs := k (h hs)
  update set _ := updateBody_ends (fun _ h => h) (fun new => Action.ends_of_keeps (controlWrite_cache new)) set
  dirOut := Action.ends_of_keeps fun _ => writeRegisterBody_cache _ Params.aDataDir_ne_aCtrl
  dirIn := Action.ends_of_keeps fun _ => writeRegisterBody_cache _ Params.aDataDir_ne_aCtrl
  out _ := Action.ends_of_keeps fun _ => writeRegisterBody_cache _ Params.aData_ne_aCtrl
  sample := Action.ends_of_keeps fun s => readRegisterBody_cache s.params.aData s
  wait _ _ h := h.of_same rfl rfl rfl
  toggle _ _ _ := enableToggle_ends
    (updateBody_ends (fun _ h => h) (fun new => Action.ends_of_keeps (controlWrite_cache new)) _)
    (fun _ _ h hs => (h hs).of_same rfl rfl rfl) (fun _ _ _ h hs => (h hs).of_same rfl rfl rfl)
  disturb _ di s h := by cases di <;> exact h.of_same rfl rfl rfl

/-- Every piece of every operation keeps the cache invariant; the boot begins with no register known. -/
theorem cache_opEnds : OpEnds fun s _ t => s.CacheKept t where
  toBusEnds := cache_ends
  control new := Action.ends_of_keeps (controlWrite_cache new)
  register _ _ v ha := Ran.ends_of_holds (writeRegisterBody_cache v fun _ => ha)
  burst _ _ _ hr := Ran.ends_of_holds (writeBurstBody_cache hr)
  read a := Action.ends_of_keeps (readRegisterBody_cache a)
  framebuffer _ _ h := h.of_same rfl rfl rfl
  pinsLow _ h := h.of_unknown rfl rfl rfl
  pinHigh _ h := h.of_same rfl rfl rfl
  ctrlDir := Action.ends_of_keeps fun _ => writeRegisterBody_cache _ Params.aCtrlDir_ne_aCtrl
  done _ h := h.of_same rfl rfl rfl

/-- Every operation that returns keeps the cache invariant. -/
theorem exec_cache {i : Instr} {s t : State} (h : exec i s = .next t) : s.CacheKept t := by
  obtain ⟨u, o, r, hu, rfl, -⟩ := cache_opEnds.exec h
  exact fun hs => (hu hs).of_same rfl rfl rfl

/-- A step that answers a next state is idle, or performs an operation at the state without its request. -/
theorem step_next {s t : State} (h : step s = .next t) :
    t = s ∨ ∃ i rest, exec i { s with calls := rest } = .next t := by
  unfold step at h
  cases hf : s.fetch with
  | none => rw [hf] at h; cases h; exact .inl rfl
  | some q =>
    obtain ⟨e | i, u⟩ := q
    · rw [hf] at h; cases h
    · rw [hf] at h
      simp only [State.fetch] at hf
      split at hf
      · cases hf
      · simp only [Option.some.injEq, Prod.mk.injEq] at hf
        obtain ⟨-, rfl⟩ := hf
        exact .inr ⟨i, _, h⟩

/-- Settles O59: the structural invariant gives the canonical view, and every operation keeps the two together. -/
theorem everyStepKeepsTheCacheInvariant : Obligations.EveryStepKeepsTheCacheInvariant := by
  intro s t hinv hagree h
  have hwf : s.exp.wf = true := by
    simp only [State.Inv, Memory.good, Bool.and_eq_true] at hinv
    obtain ⟨⟨⟨⟨⟨hwf, -⟩, -⟩, -⟩, -⟩, -⟩ := hinv
    exact hwf
  rcases step_next h with rfl | ⟨i, rest, hx⟩
  · exact hagree
  · exact (exec_cache hx ⟨hwf, hagree⟩).2

/-! ## The registers after an answered bus write -/

/-- A register write that succeeded: parameters and cache as before, its byte stored. -/
theorem writeRegisterBody_ok {a v : Byte} {s t : State} (hn : Params.isNamed s.params a = true)
    (h : writeRegisterBody a v s = .ok () t) :
    t.params = s.params ∧ t.ctrl = s.ctrl ∧ ∀ x, t.exp.read? x = if x = a.toNat then some v else s.exp.read? x := by
  rcases writeRegisterBody_cases a v s with hw | hw | hw <;> rw [hw] at h <;> cases h
  exact ⟨rfl, rfl, State.expStored_read? (s.afterCall _) hn v⟩

/-- What a control update that succeeds does to the device: nothing but A_CTRL changes, which then holds the cache if
the update was written, or if it did before. -/
def State.ControlFollows (s : State) (o : Option Err) (t : State) : Prop :=
  o = none → t.params = s.params ∧ (s.ControlKnown → t.ControlKnown) ∧
    ∀ x, x ≠ s.params.aCtrl.toNat → t.exp.read? x = s.exp.read? x

theorem State.ControlFollows.refl (s : State) : s.ControlFollows none s := fun _ => ⟨rfl, fun h => h, fun _ _ => rfl⟩

theorem State.ControlFollows.trans (s t u : State) (o : Option Err) (h : s.ControlFollows none t)
    (k : t.ControlFollows o u) : s.ControlFollows o u := by
  intro ho
  obtain ⟨hp, hk, hr⟩ := h rfl
  obtain ⟨kp, kk, kr⟩ := k ho
  rw [hp] at kr
  exact ⟨kp.trans hp, fun h => kk (hk h), fun x hx => (kr x hx).trans (hr x hx)⟩

theorem updateBody_controlFollows (set : CtrlSet) : (updateBody set).Ends State.ControlFollows := by
  refine updateBody_ends State.ControlFollows.refl (fun new s => ?_) set
  cases h : controlWrite new s with
  | ok _ t =>
    intro _
    obtain ⟨hp, hk, hr⟩ := controlWrite_ok h
    exact ⟨hp, fun _ => hk, hr⟩
  | err e t => exact nofun
  | stuck f => trivial

/-- The first update of a bus write from the idle state lowers RW, so it is written and the port is known. -/
theorem firstUpdate_known {s t : State} {di : Bool} (hi : ctrlRW s.ctrl = true)
    (h : updateBody { di := some di, rw := some false, e := some true } s = .ok () t) :
    t.params = s.params ∧ t.ControlKnown ∧ ∀ x, x ≠ s.params.aCtrl.toNat → t.exp.read? x = s.exp.read? x := by
  rcases updateBody_eq { di := some di, rw := some false, e := some true } s with ⟨heq, -⟩ | hc
  · have := congrArg ctrlRW heq
    simp [hi] at this
  · exact controlWrite_ok (hc ▸ h)

/-- The part of a bus write from the select step to the last control update (41_parallel_bus.md R120, steps 3 to 6). -/
def selectToIdle (k : Chip) (di : Bool) (b : Byte) : List (Action Unit) :=
  [ updateBody (selectSet k), delay .tPre, enableToggle k di b, delay .tPost, updateBody deselectSet,
    updateBody { e := some true, rw := some true } ]

theorem selectToIdle_controlFollows (k : Chip) (di : Bool) (b : Byte) :
    (Action.inOrder (selectToIdle k di b)).Ends State.ControlFollows := by
  have hw : ∀ w, (delay w).Ends State.ControlFollows := fun w s _ => ⟨rfl, fun h => h, fun _ _ => rfl⟩
  apply Action.ends_inOrder State.ControlFollows.refl State.ControlFollows.trans
  intro p hp
  simp only [selectToIdle, List.mem_cons, List.not_mem_nil, or_false] at hp
  rcases hp with rfl | rfl | rfl | rfl | rfl | rfl
  exacts [updateBody_controlFollows _, hw _,
    enableToggle_ends (updateBody_controlFollows _) (fun _ _ h => h) fun _ _ _ _ => nofun,
    hw _, updateBody_controlFollows _, updateBody_controlFollows _]

/-- A sequence that succeeded did so through the state its first statement ended in. -/
theorem Action.andThen_ok_inv {α β : Type} {p : Action α} {q : Action β} {s u : State} {b : β}
    (h : p.andThen q s = .ok b u) : ∃ a t, p s = .ok a t ∧ q t = .ok b u := by
  cases hp : p s with
  | ok a t => exact ⟨a, t, rfl, by rwa [Action.andThen_ok hp] at h⟩
  | err e t => rw [Action.andThen, Action.bind_err hp] at h; cases h
  | stuck f => rw [Action.andThen, Action.bind_stuck hp] at h; cases h

/-- The registers after a bus write that succeeded, from a state whose RW is raised. -/
theorem busWriteSeq_registers {s t : State} {k : Chip} {di : Bool} {b : Byte} (hd : s.params.Distinct)
    (hi : ctrlRW s.ctrl = true) (h : busWriteSeq k di b s = .ok () t) (x : Nat) :
    t.exp.read? x = if x = s.params.aCtrl.toNat then some t.ctrl
      else if x = s.params.aDataDir.toNat then some s.params.ddrIn
      else if x = s.params.aData.toNat then some b else s.exp.read? x := by
  have hcd : s.params.aCtrl.toNat ≠ s.params.aDataDir.toNat := fun h =>
    Params.aDataDir_ne_aCtrl hd (BitVec.eq_of_toNat_eq h.symm)
  have hca : s.params.aCtrl.toNat ≠ s.params.aData.toNat := fun h =>
    Params.aData_ne_aCtrl hd (BitVec.eq_of_toNat_eq h.symm)
  obtain ⟨_, s1, h1, h⟩ := Action.andThen_ok_inv h
  obtain ⟨_, s2, h2, h⟩ := Action.andThen_ok_inv h
  obtain ⟨_, s3, h3, h⟩ := Action.andThen_ok_inv h
  replace h : Action.inOrder (selectToIdle k di b ++ [dataDirIn]) s3 = .ok () t := h
  rw [Action.inOrder_append] at h
  obtain ⟨_, s9, h9, h⟩ := Action.andThen_ok_inv h
  obtain ⟨_, _, h10, h⟩ := Action.andThen_ok_inv h
  cases h
  obtain ⟨p1, k1, r1⟩ := firstUpdate_known hi h1
  obtain ⟨p2, c2, r2⟩ := writeRegisterBody_ok (Params.isNamed_aDataDir _) h2
  obtain ⟨p3, c3, r3⟩ := writeRegisterBody_ok (Params.isNamed_aData _) h3
  have f9 := selectToIdle_controlFollows k di b s3
  rw [h9] at f9
  obtain ⟨p9, k9, r9⟩ := f9 rfl
  obtain ⟨p10, c10, r10⟩ := writeRegisterBody_ok (Params.isNamed_aDataDir _) h10
  have k3 : s3.ControlKnown := by
    have := k1
    unfold State.ControlKnown at this ⊢
    rw [r3, r2, c3, c2, p3, p2, p1, if_neg hca, if_neg hcd]
    rwa [p1] at this
  have k9' := k9 k3
  unfold State.ControlKnown at k9'
  simp only [p9, p3, p2, p1] at r2 r3 r9 r10 k9' ⊢
  rw [r10]
  by_cases hx : x = s.params.aCtrl.toNat
  · rw [hx, if_neg hcd, if_pos rfl, k9', c10]
  · rw [if_neg hx, r9 x hx, r3, r2, r1 x hx]
    by_cases hdd : x = s.params.aDataDir.toNat
    · rw [if_pos hdd, if_pos hdd]
    · rw [if_neg hdd, if_neg hdd, if_neg hdd]

/-- Settles O28: the answered sequence ends with the idle byte cached, and the registers are as its writes left them. -/
theorem busWriteLeavesTheDeviceRegisters : Obligations.BusWriteLeavesTheDeviceRegisters := by
  intro s k di b hs hd hi ha
  obtain ⟨t, h, hc⟩ : ∃ t, busWriteSeq k di b s = .ok () t ∧ t.ctrl = seqByte s.ctrl di true true false false :=
    let ⟨_, h⟩ := busWriteSeq_idle hi ha
    ⟨_, h, rfl⟩
  obtain ⟨-, hrw, -⟩ := hi
  refine ⟨t.record (.ok .unit), ?_, fun x => ?_⟩
  · exact (State.perform_ready hs).trans (by rw [Action.unit, Action.andThen_ok h]; rfl)
  · rw [State.record_exp, busWriteSeq_registers hd hrw h x, hc]

end Sys2Proof.Machine
end

section
/-! The panel against the framebuffer (10_state.md R24, R25, 20_memory.md R68). What a bus write does to the chips,
however it ends; then the relation `ShowsMore`: the framebuffer is as before, and every cell whose value the panel held
it still holds. A flush only ever sends a cell's own value to that cell's place, so it satisfies the relation even where
it is cut, and a run that was sent whole is shown whole. -/

namespace Sys2Proof.Machine

/-! ## What a bus write does to the chips -/

/-- The framebuffer is as before, and with the panel's reset released both chips are too. -/
def State.ChipsKept (s t : State) : Prop :=
  t.fb = s.fb ∧ (ctrlRST s.ctrl = true → ctrlRST t.ctrl = true ∧ ∀ k, t.lcd k = s.lcd k)

theorem State.ChipsKept.of_same {s t : State} (hf : t.fb = s.fb) (hc : t.ctrl = s.ctrl) (h1 : t.lcd1 = s.lcd1)
    (h2 : t.lcd2 = s.lcd2) : s.ChipsKept t :=
  ⟨hf, fun hr => ⟨hc ▸ hr, fun k => by cases k <;> assumption⟩⟩

theorem State.ChipsKept.refl (s : State) : s.ChipsKept s := .of_same rfl rfl rfl rfl

theorem State.ChipsKept.trans (s t u : State) (h : s.ChipsKept t) (k : t.ChipsKept u) : s.ChipsKept u := by
  obtain ⟨hf, hc⟩ := h
  obtain ⟨kf, kc⟩ := k
  refine ⟨kf.trans hf, fun hr => ?_⟩
  obtain ⟨ht, hl⟩ := hc hr
  obtain ⟨hu, kl⟩ := kc ht
  exact ⟨hu, fun j => (kl j).trans (hl j)⟩

theorem writeRegisterBody_chips (a v : Byte) : (writeRegisterBody a v).Keeps State.ChipsKept := by
  intro s
  rcases writeRegisterBody_cases a v s with h | h | h <;> rw [h]
  exacts [.of_same rfl rfl rfl rfl, .of_same rfl rfl rfl rfl, trivial]

theorem writeBurstBody_chips (a : Byte) (vs : List Byte) : (writeBurstBody a vs).Keeps State.ChipsKept := by
  intro s
  rcases writeBurstBody_cases a vs s with h | h | h <;> rw [h]
  exacts [.of_same rfl rfl rfl rfl, .of_same rfl rfl rfl rfl, trivial]

theorem readRegisterBody_chips (a : Byte) : (readRegisterBody a).Keeps State.ChipsKept := by
  intro s
  rcases readRegisterBody_cases a s with ⟨b, rx, d, h⟩ | ⟨rx, d, h⟩ | h <;> rw [h]
  exacts [.of_same rfl rfl rfl rfl, .of_same rfl rfl rfl rfl, trivial]

theorem delay_chips (w : Wait) : (delay w).Keeps State.ChipsKept := fun _ => .of_same rfl rfl rfl rfl

/-- An update that leaves RST alone sends RST as it was, so with the reset released no chip notices (log 12, 32). -/
theorem updateBody_chips {set : CtrlSet} (hset : set.rst = none) : (updateBody set).Keeps State.ChipsKept := by
  intro s
  have hrst : ctrlRST (applySet set s.ctrl) = ctrlRST s.ctrl := by simp [hset]
  rcases updateBody_eq set s with ⟨-, h⟩ | h
  · rw [h]; exact State.ChipsKept.refl s
  · rw [h]
    rcases controlWrite_cases (applySet set s.ctrl) s with h | h | h <;> rw [h]
    · refine ⟨rfl, fun hr => ⟨hrst.trans hr, fun k => ?_⟩⟩
      rw [State.panelHeld_released _ _ (hrst.trans hr)]
      cases k <;> rfl
    · refine ⟨rfl, fun hr => ⟨hr, fun k => ?_⟩⟩
      rw [State.panelHeld_released _ _ (hrst.trans hr)]
      cases k <;> rfl
    · trivial

/-- How a word reaches chip `k`, with the panel's reset released: the other chip is as before, and this one has taken
the word, or else an error was raised and it is as before (41_parallel_bus.md R140). -/
def State.Took (k : Chip) (di : Bool) (b : Byte) (s : State) (o : Option Err) (t : State) : Prop :=
  t.fb = s.fb ∧ (ctrlRST s.ctrl = true → ctrlRST t.ctrl = true ∧ t.lcd k.other = s.lcd k.other ∧
    (t.lcd k = (s.lcd k).bind (fun l => l.take di b) ∨ (o ≠ none ∧ t.lcd k = s.lcd k)))

theorem Chip.other_ne (k : Chip) : k.other ≠ k := by cases k <;> simp [Chip.other]

/-- A chip is the one or the other. -/
theorem Chip.eq_or_eq_other (j k : Chip) : j = k ∨ j = k.other := by cases j <;> cases k <;> simp [Chip.other]

theorem State.Took.of_chipsKept {k : Chip} {di : Bool} {b : Byte} {s t u : State} {o : Option Err}
    (h : s.ChipsKept t) (hk : t.Took k di b o u) : s.Took k di b o u := by
  obtain ⟨hf, hc⟩ := h
  obtain ⟨kf, kc⟩ := hk
  refine ⟨kf.trans hf, fun hr => ?_⟩
  obtain ⟨ht, hl⟩ := hc hr
  simpa only [hl] using kc ht

theorem State.Took.chipsKept {k : Chip} {di : Bool} {b : Byte} {s t u : State} {o : Option Err}
    (h : s.Took k di b none t) (hk : t.ChipsKept u) : s.Took k di b o u := by
  obtain ⟨hf, hc⟩ := h
  obtain ⟨kf, kc⟩ := hk
  refine ⟨kf.trans hf, fun hr => ?_⟩
  obtain ⟨ht, ho, hl⟩ := hc hr
  obtain ⟨hu, kl⟩ := kc ht
  exact ⟨hu, (kl _).trans ho, .inl ((kl k).trans (hl.resolve_right fun h => h.1 rfl))⟩

/-- A piece that fails without having sent the word. -/
theorem State.Took.of_failed {k : Chip} {di : Bool} {b : Byte} {s t : State} {e : Err} (h : s.ChipsKept t) :
    s.Took k di b (some e) t := by
  obtain ⟨hf, hc⟩ := h
  refine ⟨hf, fun hr => ?_⟩
  obtain ⟨ht, hl⟩ := hc hr
  exact ⟨ht, hl _, .inr ⟨nofun, hl k⟩⟩

/-- The Enable toggle: the chip takes the word when its write succeeds, and maybe when it fails (log 14). -/
theorem enableToggle_took (k : Chip) (di : Bool) (b : Byte) : (enableToggle k di b).Ends (State.Took k di b) := by
  intro s
  have hs := updateBody_chips (set := { e := some false }) rfl s
  unfold enableToggle
  cases hu : updateBody { e := some false } s with
  | ok _ t =>
    rw [hu] at hs
    refine .of_chipsKept hs ⟨rfl, fun hr => ⟨hr, ?_, .inl ?_⟩⟩
    · rw [State.deliver_lcd, if_neg (Chip.other_ne k)]
    · rw [State.deliver_lcd, if_pos rfl]
  | err e t =>
    rw [hu] at hs
    refine .of_chipsKept hs ⟨rfl, fun hr => ⟨hr, ?_, ?_⟩⟩
    · rcases State.deliverDrawn_lcd t k k.other di b with h | h
      · rw [h, State.deliver_lcd, if_neg (Chip.other_ne k)]
      · exact h
    · rcases State.deliverDrawn_lcd t k k di b with h | h
      · exact .inl (by rw [h, State.deliver_lcd, if_pos rfl])
      · exact .inr ⟨nofun, h⟩
  | stuck f => trivial

/-- A bus write before its Enable toggle, and after it (41_parallel_bus.md R120). -/
def busWriteSetup (k : Chip) (di : Bool) (b : Byte) : List (Action Unit) :=
  [ updateBody { di := some di, rw := some false, e := some true }, dataDirOut, dataOut b, updateBody (selectSet k),
    delay .tPre ]

def busWriteRestore : List (Action Unit) :=
  [delay .tPost, updateBody deselectSet, updateBody { e := some true, rw := some true }, dataDirIn]

theorem busWriteSeq_eq (k : Chip) (di : Bool) (b : Byte) :
    busWriteSeq k di b = (Action.inOrder (busWriteSetup k di b)).andThen
      ((enableToggle k di b).andThen (Action.inOrder busWriteRestore)) :=
  Action.inOrder_append (busWriteSetup k di b) (enableToggle k di b :: busWriteRestore)

theorem busWriteSetup_chips (k : Chip) (di : Bool) (b : Byte) :
    (Action.inOrder (busWriteSetup k di b)).Keeps State.ChipsKept := by
  apply Action.keeps_inOrder State.ChipsKept.refl State.ChipsKept.trans
  intro p hp
  simp only [busWriteSetup, List.mem_cons, List.not_mem_nil, or_false] at hp
  rcases hp with rfl | rfl | rfl | rfl | rfl
  exacts [updateBody_chips rfl, fun _ => writeRegisterBody_chips _ _ _, fun _ => writeRegisterBody_chips _ _ _,
    updateBody_chips rfl, delay_chips _]

theorem busWriteRestore_chips : (Action.inOrder busWriteRestore).Keeps State.ChipsKept := by
  apply Action.keeps_inOrder State.ChipsKept.refl State.ChipsKept.trans
  intro p hp
  simp only [busWriteRestore, List.mem_cons, List.not_mem_nil, or_false] at hp
  rcases hp with rfl | rfl | rfl | rfl
  exacts [delay_chips _, updateBody_chips rfl, updateBody_chips rfl, fun _ => writeRegisterBody_chips _ _ _]

/-- A bus write, however it ends: the word was taken, or an error was raised and the chip is as before. -/
theorem busWriteSeq_took (k : Chip) (di : Bool) (b : Byte) : (busWriteSeq k di b).Ends (State.Took k di b) := by
  intro s
  rw [busWriteSeq_eq]
  refine Action.bind_ends (Action.ends_of_keeps (busWriteSetup_chips k di b) s) (fun e t h => .of_failed h) ?_
  intro _ t _ ht
  refine Ran.Ends.mono ?_ fun _ _ h => State.Took.of_chipsKept ht h
  refine Action.bind_ends (enableToggle_took k di b t) (fun e u h => h) ?_
  intro _ u _ hu
  exact (Action.ends_of_keeps busWriteRestore_chips u).mono fun _ _ h => hu.chipsKept h

/-! ## What the panel shows of the framebuffer -/

/-- The panel's reset is released and no chip is refused. -/
def State.Live (s : State) : Prop := ctrlRST s.ctrl = true ∧ ∀ k, s.lcd k ≠ none

/-- The panel holds the value of cell `(r, c)`. -/
def State.Shows (s : State) (r c : Nat) : Prop := s.panelByte r c = some (s.fb.cell r c).value

theorem State.synced_iff (s : State) :
    s.Synced ↔ s.Live ∧ ∀ r c, r < 8 → c < 128 → (s.fb.cell r c).dirty = false → s.Shows r c := by
  constructor
  · rintro ⟨hr, h1, h2, hc⟩
    exact ⟨⟨hr, fun k => by cases k <;> assumption⟩, hc⟩
  · rintro ⟨⟨hr, hl⟩, hc⟩
    exact ⟨hr, hl .chip1, hl .chip2, hc⟩

/-- From a live panel: the panel stays live, the framebuffer is as before, and what was shown is shown. -/
def State.ShowsMore (s t : State) : Prop :=
  s.Live → t.Live ∧ t.fb = s.fb ∧ ∀ r c, r < 8 → c < 128 → s.Shows r c → t.Shows r c

theorem State.ShowsMore.refl (s : State) : s.ShowsMore s := fun h => ⟨h, rfl, fun _ _ _ _ h => h⟩

theorem State.ShowsMore.trans (s t u : State) (h : s.ShowsMore t) (k : t.ShowsMore u) : s.ShowsMore u := by
  intro hs
  obtain ⟨ht, hf, hm⟩ := h hs
  obtain ⟨hu, kf, km⟩ := k ht
  exact ⟨hu, kf.trans hf, fun r c hr hc h => km r c hr hc (hm r c hr hc h)⟩

theorem State.ShowsMore.synced {s t : State} (h : s.ShowsMore t) (hs : s.Synced) : t.Synced := by
  rw [State.synced_iff] at hs ⊢
  obtain ⟨hl, hc⟩ := hs
  obtain ⟨ht, hf, hm⟩ := h hl
  exact ⟨ht, fun r c hr hc' hd => hm r c hr hc' (hc r c hr hc' (hf ▸ hd))⟩

/-- The panel's byte is a byte of its chip's RAM. -/
theorem State.panelByte_eq (s : State) (r c : Nat) :
    s.panelByte r c = ((s.lcd (chipOf c)).map Lcd.ram).bind fun m => m.read? (r * 64 + localCol c) := by
  unfold State.panelByte
  cases s.lcd (chipOf c) <;> rfl

/-- A change that touches no chip's RAM, however it changes the registers. -/
theorem State.ShowsMore.of_ram {s t : State} (hf : t.fb = s.fb)
    (h : ctrlRST s.ctrl = true → ctrlRST t.ctrl = true ∧ ∀ k, (t.lcd k).map Lcd.ram = (s.lcd k).map Lcd.ram) :
    s.ShowsMore t := by
  rintro ⟨hr, hl⟩
  obtain ⟨ht, hm⟩ := h hr
  refine ⟨⟨ht, fun k hk => hl k ?_⟩, hf, fun r c _ _ hs => ?_⟩
  · have := hm k
    rw [hk] at this
    exact Option.map_eq_none_iff.mp this.symm
  · unfold State.Shows at hs ⊢
    rw [State.panelByte_eq, hm, ← State.panelByte_eq, hs, hf]

theorem State.ChipsKept.showsMore {s t : State} (h : s.ChipsKept t) : s.ShowsMore t := by
  obtain ⟨hf, hc⟩ := h
  refine .of_ram hf fun hr => ?_
  obtain ⟨ht, hl⟩ := hc hr
  exact ⟨ht, fun k => by rw [hl]⟩

/-! ## Instruction bytes -/

/-- The panel primitives' instruction bytes are those of their class (30_encoding.md R77, R78). -/
theorem classify_powerByte (on : Bool) : classify (powerByte on) = .power on := by cases on <;> decide

theorem classify_pageBits : ∀ x : Byte, classify (0xB8#8 ||| (x &&& 0x07#8)) = .setPage (x.setWidth 3) := by
  decide +kernel
theorem classify_columnBits : ∀ x : Byte, classify (0x40#8 ||| (x &&& 0x3F#8)) = .setColumn (x.setWidth 6) := by
  decide +kernel
theorem classify_startLineBits : ∀ x : Byte, classify (0xC0#8 ||| (x &&& 0x3F#8)) = .setStartLine (x.setWidth 6) := by
  decide +kernel

theorem classify_pageByte (p : Nat) : classify (pageByte p) = .setPage (BitVec.ofNat 3 p) := by
  rw [pageByte, classify_pageBits, BitVec.setWidth_ofNat_of_le (by omega)]
theorem classify_columnByte (c : Nat) : classify (columnByte c) = .setColumn (BitVec.ofNat 6 c) := by
  rw [columnByte, classify_columnBits, BitVec.setWidth_ofNat_of_le (by omega)]
theorem classify_startLineByte (n : Nat) : classify (startLineByte n) = .setStartLine (BitVec.ofNat 6 n) := by
  rw [startLineByte, classify_startLineBits, BitVec.setWidth_ofNat_of_le (by omega)]

/-- An instruction byte that a chip takes leaves its RAM alone (41_parallel_bus.md R142 to R145). -/
theorem Lcd.takeInstruction_ram {b : Byte} (hb : classify b ≠ .reserved) (l : Lcd) :
    ∃ l', l.take false b = some l' ∧ l'.ram = l.ram := by
  simp only [Lcd.take, Bool.false_eq_true, if_false, Lcd.takeInstruction]
  cases hc : classify b with
  | reserved => exact absurd hc hb
  | _ => exact ⟨_, rfl, rfl⟩

/-- A word that is an instruction byte of one of the four classes. -/
def IsInstruction (_ : Chip) (di : Bool) (b : Byte) : Prop := di = false ∧ classify b ≠ .reserved

theorem State.Took.showsMore {k : Chip} {di : Bool} {b : Byte} {s t : State} {o : Option Err}
    (hw : IsInstruction k di b) (h : s.Took k di b o t) : s.ShowsMore t := by
  obtain ⟨rfl, hb⟩ := hw
  obtain ⟨hf, hc⟩ := h
  refine .of_ram hf fun hr => ?_
  obtain ⟨ht, ho, hk⟩ := hc hr
  refine ⟨ht, fun j => ?_⟩
  rcases Chip.eq_or_eq_other j k with rfl | rfl
  · rcases hk with hk | ⟨-, hk⟩
    · rw [hk]
      cases s.lcd j with
      | none => rfl
      | some l =>
        obtain ⟨l', hl, hram⟩ := Lcd.takeInstruction_ram hb l
        simp [hl, hram]
    · rw [hk]
  · rw [ho]

/-- Every piece of a bus sequence shows what was shown, where the words sent are instruction bytes. -/
theorem showsMore_kept : BusKept IsInstruction State.ShowsMore where
  refl := State.ShowsMore.refl
  trans := State.ShowsMore.trans
  update _ hset := Action.keeps_mono (updateBody_chips hset) fun _ _ h => h.showsMore
  dirOut := Action.keeps_mono (fun _ => writeRegisterBody_chips _ _ _) fun _ _ h => h.showsMore
  dirIn := Action.keeps_mono (fun _ => writeRegisterBody_chips _ _ _) fun _ _ h => h.showsMore
  out v := Action.keeps_mono (fun _ => writeRegisterBody_chips _ v _) fun _ _ h => h.showsMore
  wait w := Action.keeps_mono (delay_chips w) fun _ _ h => h.showsMore
  toggle k di b hw := Action.keeps_of_ends (enableToggle_took k di b) fun _ _ _ h => h.showsMore hw

/-- A data read makes its chip's column unknown, and leaves its RAM alone (41_parallel_bus.md R147). -/
theorem readDisturbs_showsMore (k : Chip) (di : Bool) : (readDisturbs k di).Keeps State.ShowsMore := by
  intro s
  cases di
  · exact State.ShowsMore.refl s
  · refine .of_ram rfl fun hr => ⟨hr, fun j => ?_⟩
    simp only [if_true, State.forgetColumn_lcd]
    split
    · next h => subst h; cases s.lcd j <;> rfl
    · rfl

end Sys2Proof.Machine
end

section
/-! The flush against the panel: a segment, a run and a write-back send the framebuffer's own values to their places,
so what was shown stays shown however they end, and what was sent whole is shown (43_framebuffer.md R194, R195). -/

namespace Sys2Proof.Machine

/-! ## One word -/

/-- An instruction that succeeded, at its chip. -/
theorem busWriteSeq_instruction {k : Chip} {b : Byte} (hb : classify b ≠ .reserved) (s : State) :
    (busWriteSeq k false b s).Ends fun o t =>
      s.ShowsMore t ∧ (o = none → s.Live → t.lcd k = (s.lcd k).bind fun l => l.takeInstruction b) := by
  refine (busWriteSeq_took k false b s).mono fun o t h => ⟨h.showsMore ⟨rfl, hb⟩, ?_⟩
  rintro rfl ⟨hr, -⟩
  obtain ⟨-, hc⟩ := h
  obtain ⟨-, -, hk⟩ := hc hr
  exact hk.resolve_right fun h => h.1 rfl

/-- The logical column of a chip's local column (20_memory.md R54). -/
def logicalCol : Chip → Nat → Nat
  | .chip1, y => y
  | .chip2, y => y + 64

theorem chipOf_logicalCol {k : Chip} {y : Nat} (hy : y < 64) : chipOf (logicalCol k y) = k := by
  cases k <;> simp [chipOf, logicalCol, hy]

theorem localCol_logicalCol {k : Chip} {y : Nat} (hy : y < 64) : localCol (logicalCol k y) = y := by
  cases k <;> simp [localCol, logicalCol, hy]

theorem logicalCol_chipOf (c : Nat) : logicalCol (chipOf c) (localCol c) = c := by
  by_cases h : c < 64
  · simp [chipOf, localCol, logicalCol, h]
  · simp only [chipOf, localCol, logicalCol, h, if_false]; omega

theorem localCol_lt {c : Nat} (hc : c < 128) : localCol c < 64 := by unfold localCol; split <;> omega

/-- Chip `k` stands at page `p` and local column `y`. -/
def State.At (s : State) (k : Chip) (p y : Nat) : Prop :=
  ∃ l, s.lcd k = some l ∧ l.page = BitVec.ofNat 3 p ∧ l.col = BitVec.ofNat 6 y

/-- The RAM address of a page and a column within their ranges. -/
theorem ramAddr_ofNat {p y : Nat} (hp : p < 8) (hy : y < 64) :
    ramAddr (BitVec.ofNat 3 p) (BitVec.ofNat 6 y) = p * 64 + y := by
  simp only [ramAddr, BitVec.toNat_ofNat]
  rw [Nat.mod_eq_of_lt (show p < 2 ^ 3 by omega), Nat.mod_eq_of_lt (show y < 2 ^ 6 by omega)]

/-- After a data byte at page `p`, column `y`, chip `k`'s part of the panel: the byte there, the old bytes elsewhere. -/
theorem State.panelByte_takeData {s t : State} {k : Chip} {l : Lcd} {v : Byte} {p y r c : Nat} (hs : s.lcd k = some l)
    (hpage : l.page = BitVec.ofNat 3 p) (hcol : l.col = BitVec.ofNat 6 y) (ht : t.lcd k = some (l.takeData v))
    (hp : p < 8) (hy : y < 64) (hc : c < 128) (hk : chipOf c = k) :
    t.panelByte r c = if r = p ∧ c = logicalCol k y then some v else s.panelByte r c := by
  have hl := localCol_lt hc
  have hiff : r * 64 + localCol c = p * 64 + y ↔ r = p ∧ c = logicalCol k y := by
    constructor
    · intro h
      have he : localCol c = y := by omega
      exact ⟨by omega, by rw [← hk, ← he, logicalCol_chipOf]⟩
    · rintro ⟨rfl, rfl⟩
      rw [localCol_logicalCol hy]
  simp only [State.panelByte, hk, hs, ht, Option.bind_some, Lcd.byteAt, Lcd.takeData, hpage, hcol,
    ramAddr_ofNat hp hy, Memory.read?_write, hiff]

/-- A cell's own value sent to its place: what was shown stays shown, and if no error was raised the cell is shown and
the chip stands at the next column. -/
theorem lcdWriteData_shows {s : State} {k : Chip} {p y : Nat} (hl : s.Live) (ha : s.At k p y) (hp : p < 8)
    (hy : y < 64) : (lcdWriteData k (s.fb.cell p (logicalCol k y)).value s).Ends fun o t =>
      s.ShowsMore t ∧ (o = none → t.Shows p (logicalCol k y) ∧ t.At k p (y + 1)) := by
  obtain ⟨l, hlk, hpage, hcol⟩ := ha
  obtain ⟨hr, hne⟩ := hl
  have hlog : logicalCol k y < 128 := by cases k <;> simp only [logicalCol] <;> omega
  refine (busWriteSeq_took k true _ s).mono fun o t h => ?_
  obtain ⟨hf, hc⟩ := h
  obtain ⟨ht, ho, hk⟩ := hc hr
  rcases hk with hk | ⟨herr, hk⟩
  · replace hk : t.lcd k = some (l.takeData (s.fb.cell p (logicalCol k y)).value) := by rw [hk, hlk]; rfl
    have shown : t.Shows p (logicalCol k y) := by
      rw [State.Shows, State.panelByte_takeData hlk hpage hcol hk hp hy hlog (chipOf_logicalCol hy), if_pos ⟨rfl, rfl⟩,
        hf]
    refine ⟨fun _ => ⟨⟨ht, fun j => ?_⟩, hf, fun r c _ hc hs => ?_⟩, fun _ => ⟨shown, _, hk, hpage, ?_⟩⟩
    · rcases Chip.eq_or_eq_other j k with rfl | rfl
      · rw [hk]; exact nofun
      · rw [ho]; exact hne _
    · rcases Chip.eq_or_eq_other (chipOf c) k with hj | hj
      · by_cases he : r = p ∧ c = logicalCol k y
        · rw [he.1, he.2]; exact shown
        · rw [State.Shows, State.panelByte_takeData hlk hpage hcol hk hp hy hc hj, if_neg he, hf]
          exact hs
      · rw [State.Shows, hf, State.panelByte, hj, ho, ← hj]
        exact hs
    · simp only [Lcd.takeData, hcol]
      rw [← BitVec.ofNat_add]
  · refine ⟨State.ChipsKept.showsMore ⟨hf, fun _ => ⟨ht, fun j => ?_⟩⟩, fun he => absurd he herr⟩
    rcases Chip.eq_or_eq_other j k with rfl | rfl
    · exact hk
    · exact ho

/-! ## A segment and a run -/

/-- The bytes are the values of the `n` cells of byte-row `r` from logical column `c` on. -/
def IsRunOf (fb : FrameBuffer) (r c : Nat) (bytes : List Byte) : Prop :=
  ∀ i (h : i < bytes.length), bytes[i] = (fb.cell r (c + i)).value

/-- What a piece that sends such bytes does: what was shown stays shown, and without an error all of them are. -/
def State.SendsRun (r c n : Nat) (s : State) (o : Option Err) (t : State) : Prop :=
  s.ShowsMore t ∧ (o = none → ∀ i < n, t.Shows r (c + i))

theorem logicalCol_add (k : Chip) (y i : Nat) : logicalCol k y + i = logicalCol k (y + i) := by
  cases k
  · rfl
  · simp only [logicalCol]; omega

theorem logicalCol_lt {y : Nat} (k : Chip) (hy : y < 64) : logicalCol k y < 128 := by
  cases k <;> simp only [logicalCol] <;> omega

/-- The data bytes of a segment, from the chip's position on. -/
theorem writeData_sendsRun {k : Chip} {p y : Nat} {bytes : List Byte} {s : State} (hl : s.Live) (hp : p < 8)
    (hy : y + bytes.length ≤ 64) (ha : s.At k p y) (hb : IsRunOf s.fb p (logicalCol k y) bytes) :
    (Action.forEach (lcdWriteData k) bytes s).Ends (s.SendsRun p (logicalCol k y) bytes.length) := by
  induction bytes generalizing s y with
  | nil => exact ⟨State.ShowsMore.refl s, fun _ i hi => absurd hi (by simp)⟩
  | cons v bytes ih =>
    simp only [List.length_cons] at hy
    have next : ∀ i, logicalCol k (y + 1) + i = logicalCol k y + (i + 1) := fun i => by
      rw [logicalCol_add, logicalCol_add]; congr 1; omega
    have hv : v = (s.fb.cell p (logicalCol k y)).value := hb 0 (by simp)
    subst hv
    refine Action.bind_ends (lcdWriteData_shows hl ha hp (by omega)) (fun e t h => ⟨h.1, nofun⟩) ?_
    rintro _ t - ⟨hst, hok⟩
    obtain ⟨hshown, hat⟩ := hok rfl
    obtain ⟨htl, hf, -⟩ := hst hl
    have hb' : IsRunOf t.fb p (logicalCol k (y + 1)) bytes := by
      intro i hi
      rw [hf, next]
      exact hb (i + 1) (by simpa using hi)
    refine (ih htl (by omega) hat hb').mono ?_
    rintro o u ⟨htu, hrest⟩
    refine ⟨hst.trans _ _ _ htu, fun ho i hi => ?_⟩
    cases i with
    | zero =>
      obtain ⟨-, -, hkeep⟩ := htu htl
      exact hkeep _ _ hp (logicalCol_lt k (by omega)) hshown
    | succ i => exact next i ▸ hrest ho i (by simpa using hi)

/-- The page and the column set, a live chip stands there. -/
theorem State.At.of_set {s t u : State} {k : Chip} (hl : s.Live) (p y : Nat)
    (hpage : t.lcd k = (s.lcd k).bind fun l => l.takeInstruction (pageByte p))
    (hcol : u.lcd k = (t.lcd k).bind fun l => l.takeInstruction (columnByte y)) : u.At k p y := by
  obtain ⟨l, hlk⟩ := Option.ne_none_iff_exists'.mp (hl.2 k)
  rw [hpage, hlk] at hcol
  simp only [Option.bind_some, Lcd.takeInstruction, classify_pageByte, classify_columnByte] at hcol
  exact ⟨_, hcol, rfl, rfl⟩

/-- One chip segment of a run (42_dual_chip_panel.md R162). -/
theorem writeSegment_sendsRun {k : Chip} {p y : Nat} {bytes : List Byte} {s : State} (hl : s.Live) (hp : p < 8)
    (hy : y + bytes.length ≤ 64) (hb : IsRunOf s.fb p (logicalCol k y) bytes) :
    (writeSegment k p y bytes s).Ends (s.SendsRun p (logicalCol k y) bytes.length) := by
  refine Action.bind_ends (busWriteSeq_instruction (by simp [classify_pageByte]) s) (fun e t h => ⟨h.1, nofun⟩) ?_
  rintro _ t - ⟨hst, hpage⟩
  obtain ⟨htl, hft, -⟩ := hst hl
  refine Action.bind_ends (busWriteSeq_instruction (by simp [classify_columnByte]) t)
    (fun e u h => ⟨hst.trans _ _ _ h.1, nofun⟩) ?_
  rintro _ u - ⟨htu, hcol⟩
  obtain ⟨hul, hfu, -⟩ := htu htl
  have hsu := hst.trans _ _ _ htu
  have hat : u.At k p y := .of_set hl p y (hpage rfl hl) (hcol rfl htl)
  refine Action.bind_ends (writeData_sendsRun hul hp hy hat (by rw [hfu, hft]; exact hb)) ?_ ?_
  · exact fun e v h => ⟨hsu.trans _ _ _ h.1, nofun⟩
  · exact fun _ v _ h => ⟨hsu.trans _ _ _ h.1, h.2⟩

/-- Nothing sent. -/
theorem State.SendsRun.nothing (r c : Nat) (s : State) (o : Option Err) : s.SendsRun r c 0 o s :=
  ⟨State.ShowsMore.refl s, fun _ i hi => absurd hi (by omega)⟩

/-- Two adjacent parts of a run, each sent in its turn. -/
theorem Action.sendsRun_inOrder_pair {p q : Action Unit} {r c m n : Nat} {s : State} (hl : s.Live) (hr : r < 8)
    (hc : c + m ≤ 128) (hp : (p s).Ends (s.SendsRun r c m))
    (hq : ∀ t, s.ShowsMore t → (q t).Ends (t.SendsRun r (c + m) n)) :
    (Action.inOrder [p, q] s).Ends (s.SendsRun r c (m + n)) := by
  refine Action.bind_ends hp (fun e t h => ⟨h.1, nofun⟩) ?_
  rintro _ t - ⟨hst, hm⟩
  obtain ⟨htl, -, -⟩ := hst hl
  refine Action.bind_ends (hq t hst) (fun e u h => ⟨hst.trans _ _ _ h.1, nofun⟩) ?_
  rintro _ u - ⟨htu, hn⟩
  refine ⟨hst.trans _ _ _ htu, fun _ i hi => ?_⟩
  by_cases him : i < m
  · obtain ⟨-, -, hkeep⟩ := htu htl
    exact hkeep _ _ hr (by omega) (hm rfl i him)
  · have := hn rfl (i - m) (by omega)
    rwa [show c + m + (i - m) = c + i by omega] at this

/-- How a run that fits is split at column 64 (42_dual_chip_panel.md R162, R163). -/
theorem chip1Count_eq (c n : Nat) : chip1Count c n = min n (64 - c) := by
  unfold chip1Count; split <;> omega

theorem chip2Count_eq {c n : Nat} (h : c + n ≤ 128) : chip2Count c n = n - min n (64 - c) := by
  unfold chip2Count
  dsimp only
  rw [chip1Count_eq]
  split <;> omega

theorem IsRunOf.take {fb : FrameBuffer} {r c : Nat} {bytes : List Byte} (h : IsRunOf fb r c bytes) (n : Nat) :
    IsRunOf fb r c (bytes.take n) := by
  intro i hi
  rw [List.getElem_take]
  exact h i _

theorem IsRunOf.drop {fb : FrameBuffer} {r c : Nat} {bytes : List Byte} (h : IsRunOf fb r c bytes) (n : Nat) :
    IsRunOf fb r (c + n) (bytes.drop n) := by
  intro i hi
  rw [List.getElem_drop, Nat.add_assoc]
  exact h (n + i) _

/-- A run of the framebuffer's own values: one that does not fit is not sent, one that does is sent in its two parts
(42_dual_chip_panel.md R161, R162). -/
theorem setBytesAtSeq_sendsRun {r c : Nat} {bytes : List Byte} {s : State} (hl : s.Live)
    (hb : IsRunOf s.fb r c bytes) : (setBytesAtSeq r c bytes s).Ends (s.SendsRun r c bytes.length) := by
  unfold setBytesAtSeq
  dsimp only
  split
  · next hfits =>
    simp only [runFits, Bool.not_eq_true', Bool.or_eq_false_iff, decide_eq_false_iff_not] at hfits
    obtain ⟨⟨hr, hc⟩, hn⟩ := hfits
    have h1 := chip1Count_eq c bytes.length
    have h2 := chip2Count_eq (c := c) (n := bytes.length) (by omega)
    generalize chip1Count c bytes.length = n1 at h1 ⊢
    generalize chip2Count c bytes.length = n2 at h2 ⊢
    have hsum : n1 + n2 = bytes.length := by omega
    refine Action.bind_ends (Action.sendsRun_inOrder_pair (r := r) (c := c) (m := n1) (n := n2) hl (by omega)
      (by omega) ?left fun t hst => ?right) (fun e t h => ⟨h.1, nofun⟩) fun _ t _ h => by rwa [hsum] at h
    case left =>
      split
      · have hlen : (bytes.take n1).length = n1 := by rw [List.length_take]; omega
        simpa only [hlen, logicalCol] using
          writeSegment_sendsRun (k := .chip1) (y := c) hl (by omega) (by omega) (hb.take n1)
      · rw [show n1 = 0 by omega]
        exact .nothing _ _ _ _
    case right =>
      obtain ⟨htl, hf, -⟩ := hst hl
      split
      · have hlen : ((bytes.drop n1).take n2).length = n2 := by rw [List.length_take, List.length_drop]; omega
        have hcol : logicalCol .chip2 (c + n1 - 64) = c + n1 := by simp only [logicalCol]; omega
        simpa only [hlen, hcol] using
          writeSegment_sendsRun (k := .chip2) (y := c + n1 - 64) (bytes := (bytes.drop n1).take n2) htl
            (show r < 8 by omega) (by omega) (by rw [hcol, hf]; exact (hb.drop n1).take n2)
      · rw [show n2 = 0 by omega]
        exact .nothing _ _ _ _
  · exact ⟨State.ShowsMore.refl s, nofun⟩

/-! ## The flush -/

/-- What holds of a piece's end under a condition on where it began. -/
theorem Ran.ends_of_imp {α : Type} {r : Ran α} {P : Prop} {Q : Option Err → State → Prop} (h : P → r.Ends Q) :
    r.Ends fun o t => P → Q o t := by
  cases r with
  | ok a t => exact h
  | err e t => exact h
  | stuck f => trivial

theorem isRunOf_values (fb : FrameBuffer) (r a b : Nat) : IsRunOf fb r a (fb.values r a b) := by
  intro i hi
  simp [FrameBuffer.values]

/-- A flush of a run, of whichever cells: the panel agrees with the clean cells as before, and after a whole run with
those that became clean too. -/
theorem flushRun_synced (r : Nat) (run : Nat × Nat) : (flushRun r run).Ends fun s _ t => s.Synced → t.Synced := by
  intro s
  refine Ran.ends_of_imp fun hs => ?_
  obtain ⟨hl, hclean⟩ := (State.synced_iff s).mp hs
  have hlen : (s.fb.values r run.1 run.2).length = run.2 - run.1 := by simp [FrameBuffer.values]
  refine Action.bind_ends (setBytesAtSeq_sendsRun hl (isRunOf_values s.fb r run.1 run.2))
    (fun e t h => h.1.synced hs) fun n t _ h => ?_
  obtain ⟨hst, hrun⟩ := h
  rw [hlen] at hrun
  have ht := hst.synced hs
  split
  · obtain ⟨htl, htc⟩ := (State.synced_iff t).mp ht
    refine (State.synced_iff _).mpr ⟨htl, fun r' c hr hc hd => ?_⟩
    rw [FrameBuffer.cell_clean] at hd
    rw [State.Shows, FrameBuffer.cell_clean]
    split
    · next hin =>
      obtain ⟨rfl, hlo, hhi⟩ := hin
      have := hrun rfl (c - run.1) (by omega)
      rwa [show run.1 + (c - run.1) = c by omega] at this
    · next hout =>
      rw [if_neg hout] at hd
      exact htc r' c hr hc hd
  · exact ht

theorem writeBackSeq_synced : writeBackSeq.Ends fun s _ t => s.Synced → t.Synced :=
  Action.ends_forEach (fun _ h => h) (fun _ _ _ _ h k hs => k (h hs)) fun r _ s =>
    Action.ends_forEach (fun _ h => h) (fun _ _ _ _ h k hs => k (h hs)) (fun run _ => flushRun_synced r run) s

/-! ## The setters -/

/-- Every clean cell of the second framebuffer is that cell of the first. -/
def FrameBuffer.CleanFrom (fb fb' : FrameBuffer) : Prop :=
  ∀ r c, (fb'.cell r c).dirty = false → fb'.cell r c = fb.cell r c

theorem FrameBuffer.CleanFrom.trans {fb fb' fb'' : FrameBuffer} (h : fb.CleanFrom fb') (k : fb'.CleanFrom fb'') :
    fb.CleanFrom fb'' := by
  intro r c hd
  have hk := k r c hd
  rw [hk] at hd ⊢
  exact h r c hd

/-- A write leaves a cell clean only if it leaves it alone (43_framebuffer.md R190). -/
theorem FbCell.put_clean {x : FbCell} {v : Byte} (h : (x.put v).dirty = false) : x.put v = x := by
  unfold FbCell.put at h ⊢
  split at h
  · next hv => rw [if_pos hv]
  · cases h

theorem FrameBuffer.cleanFrom_putByte (fb : FrameBuffer) (r c : Nat) (v : Byte) : fb.CleanFrom (fb.putByte r c v) := by
  intro r' c' hd
  unfold FrameBuffer.putByte at hd ⊢
  rw [FrameBuffer.cell_setCell] at hd ⊢
  split
  · next h =>
    rw [if_pos h] at hd
    obtain ⟨rfl, rfl, -⟩ := h
    exact FbCell.put_clean hd
  · rfl

theorem FrameBuffer.cleanFrom_putRow (fb : FrameBuffer) (y c : Nat) (bs : List Bool) :
    fb.CleanFrom (FrameBuffer.putRow fb y c bs) := by
  induction bs generalizing fb c with
  | nil => exact fun _ _ _ => rfl
  | cons b bs ih => exact (fb.cleanFrom_putByte _ _ _).trans (ih _ _)

theorem FrameBuffer.cleanFrom_putMatrix (fb : FrameBuffer) (y c : Nat) (rows : List (List Bool)) :
    fb.CleanFrom (FrameBuffer.putMatrix fb y c rows) := by
  induction rows generalizing fb y with
  | nil => exact fun _ _ _ => rfl
  | cons row rows ih => exact (fb.cleanFrom_putRow _ _ _).trans (ih _ _)

theorem setterSeq_synced {f : FrameBuffer → FrameBuffer} (hf : ∀ fb : FrameBuffer, fb.CleanFrom (f fb)) (legal : Bool) :
    (setterSeq legal f).Ends fun s _ t => s.Synced → t.Synced := by
  unfold setterSeq
  split
  · intro s hs
    rw [State.synced_iff] at hs ⊢
    obtain ⟨hl, hc⟩ := hs
    refine ⟨hl, fun r c hr hc' hd => ?_⟩
    have hcell : (f s.fb).cell r c = s.fb.cell r c := hf s.fb r c hd
    have hd' : (s.fb.cell r c).dirty = false := hcell ▸ hd
    have hs := hc r c hr hc' hd'
    unfold State.Shows at hs ⊢
    exact hs.trans (by rw [hcell])
  · exact fun _ h => h

/-! ## Every operation that does not bypass the framebuffer -/

/-- A bus write of an instruction byte, and the reads. -/
theorem busWriteSeq_showsMore {b : Byte} (k : Chip) (hb : classify b ≠ .reserved) :
    (busWriteSeq k false b).Keeps State.ShowsMore := showsMore_kept.write ⟨rfl, hb⟩

theorem busReadSeq_showsMore (k : Chip) (di : Bool) : (busReadSeq k di).Keeps State.ShowsMore :=
  showsMore_kept.read (Action.keeps_mono (fun _ => readRegisterBody_chips _ _) fun _ _ h => h.showsMore)
    (readDisturbs_showsMore k di)

theorem powerByte_not_reserved (on : Bool) : classify (powerByte on) ≠ .reserved := by simp [classify_powerByte]

/-- The sequence of every operation that does not bypass the framebuffer, the boot apart. -/
theorem sequenceOf_synced {i : Instr} (hi : bypassesFrameBuffer i = false) (hb : i ≠ .displayNew) :
    (sequenceOf i).Ends fun s _ t => s.Synced → t.Synced := by
  have synced : ∀ {α : Type} {p : Action α}, p.Keeps State.ShowsMore → p.Ends fun s _ t => s.Synced → t.Synced :=
    fun hp => Action.ends_of_keeps (Action.keeps_mono hp fun _ _ h => h.synced)
  have unit : ∀ {p : Action Unit}, p.Keeps State.ShowsMore → p.unit.Ends fun s _ t => s.Synced → t.Synced :=
    fun hp => Action.ends_unit (synced hp)
  have value : ∀ {p : Action Byte}, p.Keeps State.ShowsMore →
      (p.bind fun b => Action.ret (Value.byte b)).Ends fun s _ t => s.Synced → t.Synced :=
    fun hp s => Action.bind_ret_ends Value.byte (synced hp s)
  cases i with
  | expWriteRegister a v => exact unit (Action.keeps_mono (writeRegisterBody_chips a v) fun _ _ h => h.showsMore)
  | expWriteRegisterBurst a vs => exact unit (Action.keeps_mono (writeBurstBody_chips a vs) fun _ _ h => h.showsMore)
  | expReadRegister a => exact value (Action.keeps_mono (readRegisterBody_chips a) fun _ _ h => h.showsMore)
  | busRead k di => exact value (busReadSeq_showsMore k di)
  | lcdPower k on => exact unit (busWriteSeq_showsMore k (powerByte_not_reserved on))
  | lcdSetStartLine k n => exact unit (busWriteSeq_showsMore k (by simp [classify_startLineByte]))
  | lcdSetPage k n => exact unit (busWriteSeq_showsMore k (by simp [classify_pageByte]))
  | lcdSetColumn k n => exact unit (busWriteSeq_showsMore k (by simp [classify_columnByte]))
  | lcdReadStatus k => exact value (busReadSeq_showsMore k false)
  | lcdReadData k => exact value (busReadSeq_showsMore k true)
  | panelSetOnOff on => exact unit (showsMore_kept.setOnOff fun _ => ⟨rfl, powerByte_not_reserved on⟩)
  | panelSetBacklight on => exact unit (showsMore_kept.update _ rfl)
  | panelGetBacklight => exact fun _ h => h
  | fbSetByte r c v => exact Action.ends_unit (setterSeq_synced (fun fb => fb.cleanFrom_putByte _ _ _) _)
  | fbSetBit y c v => exact Action.ends_unit (setterSeq_synced (fun fb => fb.cleanFrom_putByte _ _ _) _)
  | fbSetBitMatrix y c m => exact Action.ends_unit (setterSeq_synced (fun fb => fb.cleanFrom_putMatrix _ _ _) _)
  | fbWriteBack => exact Action.ends_unit writeBackSeq_synced
  | displayNew => exact absurd rfl hb
  | ctrlUpdate | busWrite | lcdWriteData | panelSetBytesAt | panelClear => cases hi

/-- Settles O60: while Ready the boot has no next state, and the sequence of every other operation that does not
bypass the framebuffer keeps the clean cells equal to the panel. -/
theorem cleanCellsMatchThePanel : Obligations.CleanCellsMatchThePanel := by
  intro i s t hi hready hs h
  obtain ⟨hphase, -, hf⟩ := exec_next h
  have hb : i ≠ .displayNew := by
    rintro rfl
    rw [hready] at hphase
    cases hphase
  obtain ⟨u, o, r, hu, rfl, -⟩ := Ran.finish_ends (sequenceOf_synced hi hb s) hf
  exact hu hs

end Sys2Proof.Machine
end

section
/-! The control cache follows the control frames (10_state.md R21, 60_exceptions.md R224): after every operation,
however it ends, it is the last control byte sent in a frame that did not fail. -/

namespace Sys2Proof.Machine

/-- The events of a piece without the frame that failed, which is the last one when TransportError was raised. -/
def withoutFailed (o : Option Err) (es : List Event) : List Event :=
  if o = some .transportError then es.dropLast else es

/-- With distinct addresses: the cache is the last control byte sent in a frame that did not fail. -/
def State.Tracks (s : State) (o : Option Err) (t : State) : Prop :=
  s.params.Distinct → ∃ es, t.trace = s.trace ++ items es ∧ t.params = s.params ∧
    (o = some .transportError → es ≠ []) ∧ t.ctrl = lastControl s.params s.ctrl (withoutFailed o es)

theorem lastControl_append (p : Params) (c : Byte) (es fs : List Event) :
    lastControl p c (es ++ fs) = lastControl p (lastControl p c es) fs := by
  unfold lastControl
  rw [List.filterMap_append, List.getLast?_append]
  cases (fs.filterMap (Event.byteTo? p.aCtrl)).getLast? <;> simp

theorem withoutFailed_append {o : Option Err} {es fs : List Event} (h : o = some .transportError → fs ≠ []) :
    withoutFailed o (es ++ fs) = es ++ withoutFailed o fs := by
  unfold withoutFailed
  split
  · next ho => exact List.dropLast_append_of_ne_nil (h ho)
  · rfl

/-- A change that emits nothing and touches neither cache nor parameters. -/
theorem State.Tracks.of_quiet {s t : State} {o : Option Err} (ho : o ≠ some .transportError) (ht : t.trace = s.trace)
    (hp : t.params = s.params) (hc : t.ctrl = s.ctrl) : s.Tracks o t :=
  fun _ => ⟨[], by simp [ht], hp, fun h => absurd h ho, by rw [hc, withoutFailed, if_neg ho]; rfl⟩

/-- A change of the environment at the end. -/
theorem State.Tracks.congr {s t u : State} {o : Option Err} (h : s.Tracks o t) (ht : u.trace = t.trace)
    (hp : u.params = t.params) (hc : u.ctrl = t.ctrl) : s.Tracks o u := by
  intro hd
  obtain ⟨es, h1, h2, h3, h4⟩ := h hd
  exact ⟨es, ht.trans h1, hp.trans h2, h3, hc.trans h4⟩

/-- One event that is no write to the control port, sent or failed. -/
theorem State.Tracks.of_event {s t : State} {o : Option Err} {e : Event}
    (he : s.params.Distinct → Event.byteTo? s.params.aCtrl e = none) (ht : t.trace = s.trace ++ [.event e])
    (hp : t.params = s.params) (hc : t.ctrl = s.ctrl) : s.Tracks o t := by
  refine fun hd => ⟨[e], ht, hp, fun _ => by simp, ?_⟩
  unfold withoutFailed
  split <;> simp [lastControl, he hd, hc]

theorem State.Tracks.trans (s t u : State) (o : Option Err) (h : s.Tracks none t) (k : t.Tracks o u) :
    s.Tracks o u := by
  intro hd
  obtain ⟨es, h1, h2, -, h4⟩ := h hd
  obtain ⟨fs, k1, k2, k3, k4⟩ := k (h2 ▸ hd)
  rw [h2] at k4
  refine ⟨es ++ fs, by simp [k1, h1], k2.trans h2, fun ho => by simp [k3 ho], ?_⟩
  rw [withoutFailed_append k3, lastControl_append, k4, h4]
  rfl

theorem byteTo?_evW_of_ne {a x : Byte} (v : Byte) (h : x ≠ a) : Event.byteTo? a (evW x v) = none := by
  simp [Event.byteTo?, h]

/-- A write to a register other than A_CTRL. -/
theorem writeRegisterBody_tracks {s : State} {a : Byte} (v : Byte) (ha : s.params.Distinct → a ≠ s.params.aCtrl) :
    (writeRegisterBody a v s).Ends s.Tracks := by
  rcases writeRegisterBody_cases a v s with h | h | h <;> rw [h]
  · exact .of_event (fun hd => byteTo?_evW_of_ne v (ha hd)) rfl rfl rfl
  · exact .of_event (fun hd => byteTo?_evW_of_ne v (ha hd)) rfl rfl rfl
  · trivial

/-- A burst that does not begin at A_CTRL: of one byte it is such a write, and a longer frame is no register write. -/
theorem byteTo?_burst_of_ne {a x : Byte} (vs : List Byte) (h : vs.length = 1 → x ≠ a) :
    Event.byteTo? a (.spiWrite (expOpWrite :: x :: vs)) = none := by
  match vs with
  | [] => rfl
  | [v] => exact byteTo?_evW_of_ne v (h rfl)
  | _ :: _ :: _ => rfl

theorem writeBurstBody_tracks {s : State} {a : Byte} {vs : List Byte}
    (hr : burstReaches s.params.aCtrl a vs.length = false) : (writeBurstBody a vs s).Ends s.Tracks := by
  have hout : s.params.aCtrl.toNat ∉ burstAddrs a vs.length := by simpa [burstReaches] using hr
  have hb : Event.byteTo? s.params.aCtrl (.spiWrite (expOpWrite :: a :: vs)) = none := by
    refine byteTo?_burst_of_ne vs fun hlen ha => hout ?_
    rw [mem_burstAddrs, ha]
    omega
  rcases writeBurstBody_cases a vs s with h | h | h <;> rw [h]
  · exact .of_event (fun _ => hb) rfl rfl rfl
  · exact .of_event (fun _ => hb) rfl rfl rfl
  · trivial

theorem readRegisterBody_tracks (a : Byte) : (readRegisterBody a).Ends State.Tracks := by
  intro s
  rcases readRegisterBody_cases a s with ⟨b, rx, d, h⟩ | ⟨rx, d, h⟩ | h <;> rw [h]
  · exact .of_event (e := .spiTransfer [expOpRead, a, 0#8] rx) (fun _ => rfl) rfl rfl rfl
  · exact .of_event (e := .spiTransfer [expOpRead, a, 0#8] rx) (fun _ => rfl) rfl rfl rfl
  · trivial

/-- The control write: its byte is cached, or its frame failed. -/
theorem controlWrite_tracks (new : Byte) : (controlWrite new).Ends State.Tracks := by
  intro s
  rcases controlWrite_cases new s with h | h | h <;> rw [h]
  · refine fun _ => ⟨[evW s.params.aCtrl new], rfl, rfl, fun _ => by simp, ?_⟩
    simp [withoutFailed, lastControl, Event.byteTo?]
  · exact fun _ => ⟨[evW s.params.aCtrl new], rfl, rfl, fun _ => by simp, rfl⟩
  · trivial

theorem State.Tracks.refl (s : State) : s.Tracks none s := .of_quiet nofun rfl rfl rfl

/-- Every piece of every operation is tracked. -/
theorem tracks_opEnds : OpEnds State.Tracks where
  refl := State.Tracks.refl
  raise _ := .of_quiet (by simp) rfl rfl rfl
  trans := State.Tracks.trans
  update set _ := updateBody_ends State.Tracks.refl controlWrite_tracks set
  dirOut _ := writeRegisterBody_tracks _ Params.aDataDir_ne_aCtrl
  dirIn _ := writeRegisterBody_tracks _ Params.aDataDir_ne_aCtrl
  out _ _ := writeRegisterBody_tracks _ Params.aData_ne_aCtrl
  sample s := readRegisterBody_tracks s.params.aData s
  wait w _ := .of_event (e := .delay w) (fun _ => rfl) rfl rfl rfl
  toggle _ _ _ := enableToggle_ends (updateBody_ends State.Tracks.refl controlWrite_tracks _)
    (fun _ _ h => h.congr rfl rfl rfl) (fun _ _ _ h => h.congr rfl rfl rfl)
  disturb _ di s := by cases di <;> exact .of_quiet nofun rfl rfl rfl
  control := controlWrite_tracks
  register _ _ v ha := writeRegisterBody_tracks v fun _ => ha
  burst _ _ _ hr := writeBurstBody_tracks hr
  read := readRegisterBody_tracks
  framebuffer _ _ := .of_quiet nofun rfl rfl rfl
  pinsLow s := .trans s (s.drivePin .xcs true) _ _ (.of_event (e := .pin .xcs true) (fun _ => rfl) rfl rfl rfl)
    (.of_event (e := .pin .xrst false) (fun _ => rfl) rfl rfl rfl)
  pinHigh _ := .of_event (e := .pin .xrst true) (fun _ => rfl) rfl rfl rfl
  ctrlDir _ := writeRegisterBody_tracks _ Params.aCtrlDir_ne_aCtrl
  done _ := .of_quiet nofun rfl rfl rfl

theorem items_injective {es fs : List Event} (h : items es = items fs) : es = fs :=
  List.map_injective_iff.mpr (fun _ _ he => TraceItem.event.inj he) h

/-- The cache after an operation, from the events it appended. -/
theorem exec_lastControl {i : Instr} {s t : State} {es : List Event} {r : OpResult} (hd : s.params.Distinct)
    (h : exec i s = .next t) (ht : t.trace = s.trace ++ items es ++ [.result r]) :
    t.ctrl = lastControl s.params s.ctrl (if r = .error .transportError then es.dropLast else es) := by
  obtain ⟨u, o, r', hu, rfl, hr⟩ := tracks_opEnds.exec h
  obtain ⟨fs, htrace, -, -, hc⟩ := hu hd
  rw [State.record_trace, htrace] at ht
  obtain ⟨hi, hres⟩ := List.append_inj' ht rfl
  obtain rfl := items_injective (List.append_cancel_left hi)
  obtain rfl : r' = r := by simpa using hres
  rw [State.record_ctrl, hc]
  simp only [withoutFailed, hr]

end Sys2Proof.Machine
end

section
/-! A bus sequence cut at any frame (60_exceptions.md R224, 41_parallel_bus.md R120, R121). `Action.Follows` says that a
piece emits the events of a plan, each with the control cache after it, up to the transport call that fails, or all of
them when the failure comes later. Plans append as pieces do, so the plan of a sequence is that of its pieces. -/

namespace Sys2Proof.Machine

/-! ## Plans -/

/-- Events with the control cache after each. -/
abbrev Plan := List (Event × Byte)

/-- The events of a plan. -/
def Plan.events (plan : Plan) : List Event := plan.map Prod.fst

/-- How many transport calls a plan makes. -/
def Plan.frames (plan : Plan) : Nat := plan.events.countP Event.isFrame

@[simp] theorem Plan.events_append (p q : Plan) : Plan.events (p ++ q) = p.events ++ q.events := List.map_append
@[simp] theorem Plan.frames_append (p q : Plan) : Plan.frames (p ++ q) = p.frames + q.frames := by
  simp [Plan.frames]

/-- A cut in the first part. -/
theorem throughFrame_append_left {es : List Event} (fs : List Event) {j : Nat} (h : j < es.countP Event.isFrame) :
    throughFrame j (es ++ fs) = throughFrame j es := by
  induction es generalizing j with
  | nil => simp at h
  | cons e es ih =>
    rw [List.countP_cons] at h
    simp only [List.cons_append, throughFrame]
    by_cases he : e.isFrame = true
    · rw [if_pos he] at h
      cases j with
      | zero => simp [he]
      | succ j => simp [he, ih (j := j) (by omega)]
    · rw [if_neg he] at h
      simp [he, ih h]

/-- A cut after the first part. -/
theorem throughFrame_append_right {es : List Event} (fs : List Event) {j : Nat} (h : es.countP Event.isFrame ≤ j) :
    throughFrame j (es ++ fs) = es ++ throughFrame (j - es.countP Event.isFrame) fs := by
  induction es generalizing j with
  | nil => simp
  | cons e es ih =>
    rw [List.countP_cons] at h ⊢
    simp only [List.cons_append, throughFrame]
    by_cases he : e.isFrame = true
    · rw [if_pos he] at h ⊢
      obtain ⟨j, rfl⟩ : ∃ j', j = j' + 1 := ⟨j - 1, by omega⟩
      simp [he, ih (j := j) (by omega)]
    · rw [if_neg he] at h ⊢
      simp [he, ih (j := j) (by omega)]

theorem throughFrame_length_le (j : Nat) (es : List Event) : (throughFrame j es).length ≤ es.length := by
  induction es generalizing j with
  | nil => exact Nat.le_refl 0
  | cons e es ih =>
    unfold throughFrame
    split
    · cases j with
      | zero => simp
      | succ j => simpa using ih j
    · simpa using ih j

theorem throughFrame_length_pos {j : Nat} {es : List Event} (h : j < es.countP Event.isFrame) :
    0 < (throughFrame j es).length := by
  cases es with
  | nil => simp at h
  | cons e es =>
    unfold throughFrame
    split
    · cases j <;> simp
    · simp

theorem cacheAfter_append_left (c : Byte) {p : Plan} (q : Plan) {n : Nat} (h : n ≤ p.length) :
    cacheAfter c (p ++ q) n = cacheAfter c p n := by
  rw [cacheAfter, List.take_append_of_le_length h, cacheAfter]

theorem cacheAfter_append_right (c : Byte) (p q : Plan) (n : Nat) :
    cacheAfter c (p ++ q) (p.length + n) = cacheAfter (cacheAfter c p p.length) q n := by
  simp only [cacheAfter, List.take_length_add_append, List.take_length, List.getLast?_append]
  cases (q.take n).getLast? <;> simp

/-! ## Following a plan up to a failing frame -/

/-- The first `j` calls are answered with the count of a 3-byte frame, and the next one with another. -/
def FailsAt (as : List Answer) (j : Nat) : Prop :=
  (∀ a ∈ as.take j, a.acks 3 = true) ∧ ∃ c r0 r1 r2, as[j]? = some (.reply c r0 r1 r2) ∧ c ≠ 3

theorem FailsAt.drop {as : List Answer} {n j : Nat} (h : FailsAt as j) (hn : n ≤ j) : FailsAt (as.drop n) (j - n) := by
  obtain ⟨ha, hc⟩ := h
  constructor
  · intro a hm
    rw [List.take_drop, Nat.add_sub_cancel' hn] at hm
    exact ha a (List.mem_of_mem_drop hm)
  · rwa [List.getElem?_drop, Nat.add_sub_cancel' hn]

/-- The state in which a plan from `s` was cut at its call `j`. -/
def State.CutAt (s : State) (plan : Plan) (j : Nat) (t : State) : Prop :=
  t.trace = s.trace ++ items (throughFrame j plan.events) ∧
    t.ctrl = cacheAfter s.ctrl plan ((throughFrame j plan.events).length - 1)

/-- The state after the whole of a plan from `s`, the cache being `c`. -/
def State.Through (s : State) (plan : Plan) (c : Byte) (t : State) : Prop :=
  t.trace = s.trace ++ items plan.events ∧ t.ctrl = c ∧ t.params = s.params ∧ t.answers = s.answers.drop plan.frames

/-- The next answer is listed, and counts 3 unless it is the failing one. -/
theorem FailsAt.head {as : List Answer} {j : Nat} (h : FailsAt as j) :
    ∃ k r0 r1 r2 rest, as = .reply k r0 r1 r2 :: rest ∧ (k = 3 ↔ j ≠ 0) := by
  obtain ⟨hacks, k, r0, r1, r2, hj, hk⟩ := h
  cases as with
  | nil => simp at hj
  | cons x rest =>
    cases j with
    | zero =>
      obtain rfl : x = .reply k r0 r1 r2 := by simpa using hj
      exact ⟨k, r0, r1, r2, rest, rfl, by simpa using hk⟩
    | succ j =>
      have hx := hacks x (by simp)
      cases x with
      | hang => simp [Answer.acks] at hx
      | reply k' q0 q1 q2 => exact ⟨k', q0, q1, q2, rest, rfl, by simpa [Answer.acks] using hx⟩

/-- From parameters `P`, answers `as` and control byte `c`, the action follows the plan to control byte `c'`: cut at
the call that fails, if that is one of the plan's, and else to its end. -/
structure Action.Follows {α : Type} (p : Action α) (P : Params) (as : List Answer) (c : Byte) (plan : Plan)
    (c' : Byte) : Prop where
  last : cacheAfter c plan plan.length = c'
  cut : ∀ s j, s.params = P → s.answers = as → s.ctrl = c → FailsAt as j → j < plan.frames →
    ∃ t, p s = .err .transportError t ∧ s.CutAt plan j t
  through : ∀ s j, s.params = P → s.answers = as → s.ctrl = c → FailsAt as j → plan.frames ≤ j →
    ∃ a t, p s = .ok a t ∧ s.Through plan c' t

theorem Action.Follows.bind {α β : Type} [Inhabited α] {p : Action α} {q : α → Action β} {P : Params} {as : List Answer}
    {c c1 c2 : Byte} {plan1 plan2 : Plan} (hp : p.Follows P as c plan1 c1)
    (hq : ∀ a, (q a).Follows P (as.drop plan1.frames) c1 plan2 c2) :
    (p.bind q).Follows P as c (plan1 ++ plan2) c2 where
  last := by
    rw [List.length_append, cacheAfter_append_right, hp.last]
    exact (hq default).last
  cut s j hP has hc hf hj := by
    by_cases h : j < plan1.frames
    · obtain ⟨t, ht, htr, hct⟩ := hp.cut s j hP has hc hf h
      refine ⟨t, Action.bind_err ht, ?_⟩
      rw [State.CutAt, Plan.events_append, throughFrame_append_left _ h, cacheAfter_append_left]
      · exact ⟨htr, hct⟩
      · have := throughFrame_length_le j plan1.events
        simp only [Plan.events, List.length_map] at this ⊢
        omega
    · rw [Plan.frames_append] at hj
      obtain ⟨a, t, ht, htr, hct, hpt, hat⟩ := hp.through s j hP has hc hf (by omega)
      have hj' : j - plan1.frames < plan2.frames := by omega
      obtain ⟨u, hu, hur, huc⟩ := (hq a).cut t (j - plan1.frames) (hpt.trans hP) (by rw [hat, has]) hct
        (hf.drop (by omega)) hj'
      refine ⟨u, (Action.bind_ok ht).trans hu, ?_⟩
      have hpos : 1 ≤ (throughFrame (j - plan1.frames) plan2.events).length := throughFrame_length_pos hj'
      have hcut : throughFrame j (plan1.events ++ plan2.events)
          = plan1.events ++ throughFrame (j - plan1.frames) plan2.events :=
        throughFrame_append_right _ (show plan1.frames ≤ j by omega)
      rw [State.CutAt, Plan.events_append, hcut]
      refine ⟨by simp [hur, htr], ?_⟩
      rw [List.length_append, Plan.events, List.length_map, Nat.add_sub_assoc hpos, cacheAfter_append_right, hc,
        hp.last, ← hct]
      exact huc
  through s j hP has hc hf hj := by
    rw [Plan.frames_append] at hj
    obtain ⟨a, t, ht, htr, hct, hpt, hat⟩ := hp.through s j hP has hc hf (by omega)
    obtain ⟨b, u, hu, hur, huc, hpu, hau⟩ := (hq a).through t (j - plan1.frames) (hpt.trans hP) (by rw [hat, has]) hct
      (hf.drop (by omega)) (by omega)
    refine ⟨b, u, (Action.bind_ok ht).trans hu, ?_, huc, hpu.trans hpt, ?_⟩
    · simp [hur, htr]
    · rw [hau, hat, List.drop_drop, Plan.frames_append]

/-! ## The pieces' plans -/

section
variable {P : Params} {as : List Answer} {c : Byte}

theorem Action.follows_ret {α : Type} (a : α) : (Action.ret a).Follows P as c [] c where
  last := rfl
  cut _ _ _ _ _ _ h := absurd h (Nat.not_lt_zero _)
  through s _ _ _ hc _ _ := ⟨a, s, rfl, (List.append_nil _).symm, hc, rfl, rfl⟩

theorem Action.follows_nil : (Action.inOrder []).Follows P as c [] c := Action.follows_ret ()

theorem Action.Follows.cons {p : Action Unit} {ps : List (Action Unit)} {plan1 plan2 : Plan} {c1 c2 : Byte}
    (hp : p.Follows P as c plan1 c1) (hps : (Action.inOrder ps).Follows P (as.drop plan1.frames) c1 plan2 c2) :
    (Action.inOrder (p :: ps)).Follows P as c (plan1 ++ plan2) c2 := hp.bind fun _ => hps

theorem delay_follows (w : Wait) : (delay w).Follows P as c [(.delay w, c)] c where
  last := rfl
  cut _ _ _ _ _ _ h := absurd h (Nat.not_lt_zero _)
  through s _ _ _ hc _ _ := ⟨(), s.emit (.delay w), rfl, rfl, hc, rfl, rfl⟩

theorem readDisturbs_follows (k : Chip) (di : Bool) : (readDisturbs k di).Follows P as c [] c where
  last := rfl
  cut _ _ _ _ _ _ h := absurd h (Nat.not_lt_zero _)
  through s _ _ _ hc _ _ := by
    cases di
    · exact ⟨(), s, rfl, (List.append_nil _).symm, hc, rfl, rfl⟩
    · exact ⟨(), s.forgetColumn k, rfl, (List.append_nil _).symm, hc, rfl, rfl⟩

/-- A register write whose call is the one that fails. -/
theorem writeRegisterBody_failed {s : State} (a v : Byte) (h : FailsAt s.answers 0) :
    writeRegisterBody a v s = .err .transportError ((s.afterCall (evW a v)).expLost a) := by
  obtain ⟨k, r0, r1, r2, rest, hs, hk⟩ := h.head
  simp [writeRegisterBody, spiWrite, State.afterCall, hs, hk]

/-- A register write whose call is not. -/
theorem writeRegisterBody_passed {s : State} (a v : Byte) {j : Nat} (h : FailsAt s.answers j) (hj : 1 ≤ j) :
    writeRegisterBody a v s = .ok () ((s.afterCall (evW a v)).expStored a v) := by
  obtain ⟨j, rfl⟩ : ∃ j', j = j' + 1 := ⟨j - 1, by omega⟩
  exact writeRegisterBody_acked h.1

/-- A register write, of a register and byte that the parameters give. -/
theorem register_follows {p : Action Unit} {a v : Byte} (hp : ∀ s, s.params = P → p s = writeRegisterBody a v s) :
    p.Follows P as c [(evW a v, c)] c where
  last := rfl
  cut s j hP has hc hf hj := by
    obtain rfl : j = 0 := Nat.lt_one_iff.mp hj
    exact ⟨_, (hp s hP).trans (writeRegisterBody_failed a v (has ▸ hf)), rfl, rfl⟩
  through s j hP has hc hf hj :=
    ⟨(), _, (hp s hP).trans (writeRegisterBody_passed a v (has ▸ hf) hj), rfl, hc, rfl, rfl⟩

/-- A control update: nothing when the byte is the cached one, else the frame, after which it is cached. -/
theorem updateBody_follows {set : CtrlSet} {new : Byte} (hn : applySet set c = new) :
    (updateBody set).Follows P as c (controlStep P c new) new := by
  subst hn
  by_cases he : applySet set c = c
  · have hsame : ∀ s : State, s.ctrl = c → updateBody set s = .ok () s := fun s hc => by simp [updateBody, hc, he]
    rw [controlStep, if_pos he]
    exact {
      last := he.symm
      cut := fun _ _ _ _ _ _ h => absurd h (Nat.not_lt_zero _)
      through := fun s _ _ _ hc _ _ => ⟨(), s, hsame s hc, (List.append_nil _).symm, hc.trans he.symm, rfl, rfl⟩ }
  · have hwrite : ∀ s : State, s.ctrl = c → updateBody set s = controlWrite (applySet set c) s := fun s hc => by
      simp [updateBody, hc, he]
    rw [controlStep, if_neg he]
    exact {
      last := rfl
      cut := fun s j hP has hc hf hj => by
        obtain rfl : j = 0 := Nat.lt_one_iff.mp hj
        rw [hwrite s hc, controlWrite, writeRegisterBody_failed _ _ (has ▸ hf), ← hP]
        exact ⟨_, rfl, rfl, rfl⟩
      through := fun s j hP has hc hf hj => by
        rw [hwrite s hc, controlWrite, writeRegisterBody_passed _ _ (has ▸ hf) hj, ← hP]
        exact ⟨(), _, rfl, rfl, rfl, rfl, rfl⟩ }

/-- The Enable toggle sends what its update sends. -/
theorem enableToggle_follows {k : Chip} {di : Bool} {b new : Byte} (hn : applySet { e := some false } c = new) :
    (enableToggle k di b).Follows P as c (controlStep P c new) new where
  last := (updateBody_follows (P := P) (as := as) hn).last
  cut s j hP has hc hf hj := by
    obtain ⟨t, ht, hcut⟩ := (updateBody_follows hn).cut s j hP has hc hf hj
    exact ⟨t.deliverDrawn k di b, by rw [enableToggle, ht], hcut⟩
  through s j hP has hc hf hj := by
    obtain ⟨_, t, ht, hthrough⟩ := (updateBody_follows hn).through s j hP has hc hf hj
    exact ⟨(), t.deliver k di b, by rw [enableToggle, ht], hthrough⟩

/-- The three bytes the next transfer receives, when its answer is listed. -/
def received : List Answer → List Byte
  | .reply _ r0 r1 r2 :: _ => [r0, r1, r2]
  | _ => []

/-- A transfer with a listed answer. -/
theorem readRegisterBody_reply {s : State} (a : Byte) {k : Nat} {r0 r1 r2 : Byte} {rest : List Answer}
    (h : s.answers = .reply k r0 r1 r2 :: rest) :
    readRegisterBody a s = if k = 3 then .ok r2 ((s.afterCall (.spiTransfer [expOpRead, a, 0#8] [r0, r1, r2])).expRead a)
      else .err .transportError ((s.afterCall (.spiTransfer [expOpRead, a, 0#8] [r0, r1, r2])).expRead a) := by
  simp only [readRegisterBody, spiTransfer, h, State.afterCall, Action.raise_apply, List.drop_one, List.tail_cons]

/-- The sampling transfer. -/
theorem dataIn_follows : dataIn.Follows P as c [(.spiTransfer [0x41#8, P.aData, 0x00#8] (received as), c)] c where
  last := rfl
  cut s j hP has hc hf hj := by
    obtain rfl : j = 0 := Nat.lt_one_iff.mp hj
    obtain ⟨k, r0, r1, r2, rest, rfl, hk⟩ := hf.head
    rw [dataIn, readRegisterBody_reply _ has, if_neg (by simp [hk]), ← hP]
    exact ⟨_, rfl, rfl, rfl⟩
  through s j hP has hc hf hj := by
    have hj' : 1 ≤ j := hj
    obtain ⟨k, r0, r1, r2, rest, rfl, hk⟩ := hf.head
    rw [dataIn, readRegisterBody_reply _ has, if_pos (hk.mpr (by omega)), ← hP]
    exact ⟨_, _, rfl, rfl, hc, rfl, rfl⟩

end

end Sys2Proof.Machine
end

section
/-! The two bus sequences follow their plans, and with them the statement about a sequence cut at any frame
(41_parallel_bus.md R120, R121, R140, 60_exceptions.md R224). -/

namespace Sys2Proof.Machine

/-! ## The control bytes of a sequence -/

/-- An update of the lines of a sequence: RST and BL stay those of the byte it began with. -/
theorem applySet_lineByte (set : CtrlSet) (c : Byte) (di e rw cs1 cs2 : Bool) (hs : set.rst = none)
    (hb : set.bl = none) :
    applySet set (lineByte c di e rw cs1 cs2) =
      lineByte c (set.di.getD di) (set.e.getD e) (set.rw.getD rw) (set.cs1.getD cs1) (set.cs2.getD cs2) := by
  rw [applySet_eq_ctrlByte]
  simp [lineByte, hs, hb]

/-- The first update of a sequence, from any control byte. -/
theorem applySet_eq_lineByte (set : CtrlSet) (c : Byte) (hs : set.rst = none) (hb : set.bl = none) :
    applySet set c = lineByte c (set.di.getD (ctrlDI c)) (set.e.getD (ctrlE c)) (set.rw.getD (ctrlRW c))
      (set.cs1.getD (ctrlCS1 c)) (set.cs2.getD (ctrlCS2 c)) := by
  rw [applySet_eq_ctrlByte, hs, hb]
  rfl

/-- A line byte differs from one with another Enable. -/
theorem lineByte_ne_of_e {c : Byte} {di di' e e' rw rw' a a' b b' : Bool} (h : e ≠ e') :
    lineByte c di e rw a b ≠ lineByte c di' e' rw' a' b' :=
  ctrl_ne_of_e (by simpa only [lineByte, ctrlByte_e] using h)

/-! ## The plan of a bus write -/

/-- The plan of a bus write before its Enable toggle. -/
def setupPlan (p : Params) (c : Byte) (k : Chip) (di : Bool) (b : Byte) : Plan :=
  let w1 := lineByte c di true false (ctrlCS1 c) (ctrlCS2 c)
  let w3 := lineByte c di true false (k = .chip1) (k = .chip2)
  controlStep p c w1 ++ ([(evW p.aDataDir p.ddrOut, w1)] ++ ([(evW p.aData b, w1)] ++ (controlStep p w1 w3
    ++ ([(.delay .tPre, w3)] ++ []))))

/-- The plan after it. -/
def restorePlan (p : Params) (c : Byte) (k : Chip) (di : Bool) : Plan :=
  let w4 := lineByte c di false false (k = .chip1) (k = .chip2)
  let w5 := lineByte c di false false false false
  let w6 := lineByte c di true true false false
  [(.delay .tPost, w4)] ++ (controlStep p w4 w5 ++ (controlStep p w5 w6 ++ ([(evW p.aDataDir p.ddrIn, w6)] ++ [])))

/-- The plan of the Enable toggle, one frame. -/
def togglePlan (p : Params) (c : Byte) (k : Chip) (di : Bool) : Plan :=
  controlStep p (lineByte c di true false (k = .chip1) (k = .chip2)) (lineByte c di false false (k = .chip1) (k = .chip2))

theorem busWritePlan_eq (p : Params) (c : Byte) (k : Chip) (di : Bool) (b : Byte) :
    busWritePlan p c k di b = setupPlan p c k di b ++ (togglePlan p c k di ++ restorePlan p c k di) := by
  simp [busWritePlan, setupPlan, togglePlan, restorePlan]

theorem frames_controlStep (p : Params) (old new : Byte) :
    Plan.frames (controlStep p old new) = if new = old then 0 else 1 := by
  unfold controlStep
  split <;> rfl

theorem frames_setupPlan (p : Params) (c : Byte) (k : Chip) (di : Bool) (b : Byte) :
    (setupPlan p c k di b).frames = framesBeforeEnable c k di := by
  simp only [setupPlan, framesBeforeEnable, Plan.frames_append, frames_controlStep]
  simp only [Plan.frames, Plan.events, Event.isFrame, Event.isSpiWrite, Event.isSpiTransfer, List.map_cons, List.map_nil,
    List.countP_cons, List.countP_nil]
  simp
  omega

theorem frames_togglePlan (p : Params) (c : Byte) (k : Chip) (di : Bool) : (togglePlan p c k di).frames = 1 := by
  rw [togglePlan, frames_controlStep, if_neg (lineByte_ne_of_e (by decide))]

section
variable (P : Params) (as : List Answer) (c : Byte) (k : Chip) (di : Bool) (b : Byte)

theorem busWriteSetup_follows : (Action.inOrder (busWriteSetup k di b)).Follows P as c (setupPlan P c k di b)
    (lineByte c di true false (k = .chip1) (k = .chip2)) :=
  .cons (updateBody_follows (applySet_eq_lineByte _ c rfl rfl)) <|
  .cons (register_follows fun s hP => by rw [dataDirOut, hP]) <|
  .cons (register_follows fun s hP => by rw [dataOut, hP]) <|
  .cons (updateBody_follows (applySet_lineByte _ c _ _ _ _ _ rfl rfl)) <|
  .cons (delay_follows _) Action.follows_nil

theorem busWriteRestore_follows : (Action.inOrder busWriteRestore).Follows P as
    (lineByte c di false false (k = .chip1) (k = .chip2)) (restorePlan P c k di) (lineByte c di true true false false) :=
  .cons (delay_follows _) <|
  .cons (updateBody_follows (applySet_lineByte _ c _ _ _ _ _ rfl rfl)) <|
  .cons (updateBody_follows (applySet_lineByte _ c _ _ _ _ _ rfl rfl)) <|
  .cons (register_follows fun s hP => by rw [dataDirIn, hP]) Action.follows_nil

theorem enableToggle_follows_toggle : (enableToggle k di b).Follows P as
    (lineByte c di true false (k = .chip1) (k = .chip2)) (togglePlan P c k di)
    (lineByte c di false false (k = .chip1) (k = .chip2)) :=
  enableToggle_follows (applySet_lineByte _ c _ _ _ _ _ rfl rfl)

theorem busWriteSeq_follows : (busWriteSeq k di b).Follows P as c (busWritePlan P c k di b)
    (lineByte c di true true false false) := by
  rw [busWriteSeq_eq, busWritePlan_eq]
  exact (busWriteSetup_follows P as c k di b).bind fun _ =>
    (enableToggle_follows_toggle P _ c k di b).bind fun _ => busWriteRestore_follows P _ c k di

end

/-- The chips after a bus write that was cut at call `j`, with the panel's reset released: the addressed one has taken
the word if the cut came after the Enable write, has not if it came before, and either way if it was that write. -/
theorem busWriteSeq_cut_chips {k : Chip} {di : Bool} {b : Byte} {s t : State} {e : Err} {j : Nat}
    (hf : FailsAt s.answers j) (hr : ctrlRST s.ctrl = true) (h : busWriteSeq k di b s = .err e t) :
    t.lcd k.other = s.lcd k.other ∧
      (j < framesBeforeEnable s.ctrl k di → t.lcd k = s.lcd k) ∧
      (j = framesBeforeEnable s.ctrl k di → t.lcd k = s.lcd k ∨ t.lcd k = (s.lcd k).bind (fun l => l.take di b)) ∧
      (framesBeforeEnable s.ctrl k di < j → t.lcd k = (s.lcd k).bind (fun l => l.take di b)) := by
  have setup := busWriteSetup_follows s.params s.answers s.ctrl k di b
  have hchips := busWriteSetup_chips k di b s
  rw [← frames_setupPlan s.params s.ctrl k di b]
  have htook := busWriteSeq_took k di b s
  rw [h] at htook
  obtain ⟨-, htook⟩ := htook
  obtain ⟨-, ho, hk⟩ := htook hr
  rw [busWriteSeq_eq] at h
  refine ⟨ho, fun hj => ?_, fun _ => hk.symm.imp_left And.right, fun hj => ?_⟩
  · obtain ⟨u, hu, -⟩ := setup.cut s j rfl rfl rfl hf hj
    obtain ⟨-, rfl⟩ : _ ∧ u = t := by simpa [Action.andThen, Action.bind_err hu] using h
    rw [hu] at hchips
    obtain ⟨-, hkept⟩ := hchips
    obtain ⟨-, hsame⟩ := hkept hr
    exact hsame k
  · obtain ⟨_, u, hu, -, huc, hup, hua⟩ := setup.through s j rfl rfl rfl hf (by omega)
    have htoggle := enableToggle_took k di b u
    obtain ⟨_, v, hv, -⟩ := (enableToggle_follows_toggle s.params u.answers s.ctrl k di b).through u _ hup rfl huc
      (hua ▸ hf.drop (Nat.le_of_lt hj)) (by rw [frames_togglePlan]; omega)
    rw [Action.andThen_ok hu, Action.andThen_ok hv] at h
    have hrestore := busWriteRestore_chips v
    rw [hu] at hchips
    rw [hv] at htoggle
    rw [h] at hrestore
    obtain ⟨-, htaken⟩ : s.Took k di b none t := .of_chipsKept hchips (htoggle.chipsKept hrestore)
    obtain ⟨-, -, htaken⟩ := htaken hr
    exact htaken.resolve_right fun hne => hne.1 rfl

/-! ## The plan of a bus read -/

/-- The plan of a bus read before its sampling transfer. -/
def samplePlan (p : Params) (c : Byte) (k : Chip) (di : Bool) : Plan :=
  let w2 := lineByte c di (ctrlE c) true (ctrlCS1 c) (ctrlCS2 c)
  let w3 := lineByte c di (ctrlE c) true (k = .chip1) (k = .chip2)
  let w4 := lineByte c di true true (k = .chip1) (k = .chip2)
  [(evW p.aDataDir p.ddrIn, c)] ++ (controlStep p c w2 ++ ([] ++ (controlStep p w2 w3 ++ (controlStep p w3 w4
    ++ ([(.delay .tRead, w4)] ++ [])))))

/-- The plan after it: the second update finds the byte it would send already cached. -/
def deselectPlan (p : Params) (c : Byte) (k : Chip) (di : Bool) : Plan :=
  let w4 := lineByte c di true true (k = .chip1) (k = .chip2)
  let w5 := lineByte c di true true false false
  controlStep p w4 w5 ++ (controlStep p w5 w5 ++ [])

theorem busReadPlan_eq (p : Params) (c : Byte) (k : Chip) (di : Bool) (rx : List Byte) :
    busReadPlan p c k di rx = samplePlan p c k di
      ++ ([(.spiTransfer [0x41#8, p.aData, 0x00#8] rx, lineByte c di true true (k = .chip1) (k = .chip2))]
        ++ (deselectPlan p c k di ++ [])) := by
  simp [busReadPlan, samplePlan, deselectPlan, controlStep]

/-- How many frames a read makes does not depend on the bytes it receives. -/
theorem frames_busReadPlan (p : Params) (c : Byte) (k : Chip) (di : Bool) (rx rx' : List Byte) :
    Plan.frames (busReadPlan p c k di rx) = Plan.frames (busReadPlan p c k di rx') := by
  simp only [busReadPlan_eq, Plan.frames_append]
  rfl

section
variable (P : Params) (as : List Answer) (c : Byte) (k : Chip) (di : Bool)

/-- A bus read follows its plan, where the sample's answer is the next one after those of the frames before it. -/
theorem busReadSeq_follows : (busReadSeq k di).Follows P as c
    (busReadPlan P c k di (received (as.drop (samplePlan P c k di).frames))) (lineByte c di true true false false) := by
  rw [busReadPlan_eq]
  refine Action.Follows.bind (c1 := lineByte c di true true (k = .chip1) (k = .chip2)) ?_ fun _ =>
    dataIn_follows.bind fun v => Action.Follows.bind (c1 := lineByte c di true true false false) ?_ fun _ =>
      Action.follows_ret v
  · exact .cons (register_follows fun s hP => by rw [dataDirIn, hP]) <|
      .cons (updateBody_follows (applySet_eq_lineByte _ c rfl rfl)) <|
      .cons (readDisturbs_follows k di) <|
      .cons (updateBody_follows (applySet_lineByte _ c _ _ _ _ _ rfl rfl)) <|
      .cons (updateBody_follows (applySet_lineByte _ c _ _ _ _ _ rfl rfl)) <|
      .cons (delay_follows _) Action.follows_nil
  · exact .cons (updateBody_follows (applySet_lineByte _ c _ _ _ _ _ rfl rfl)) <|
      .cons (updateBody_follows (applySet_lineByte _ c _ _ _ _ _ rfl rfl)) Action.follows_nil

end

/-! ## From the sequence to the operation -/

/-- An operation whose sequence raised an error returns it, in the state reached (60_exceptions.md R224). -/
theorem perform_err {α : Type} {p : Action α} {f : α → Value} {s t : State} {e : Err} (hs : s.phase = .ready)
    (h : p s = .err e t) : s.perform (p.bind fun a => Action.ret (f a)) = .next (t.record (.error e)) := by
  rw [State.perform_ready hs, Action.bind_err h, Ran.finish]

/-- The block's parts but the cache, after a piece that keeps the bus frame raised an error. -/
theorem sameBlock_of_err {α : Type} {p : Action α} {s t : State} {e : Err} {r : OpResult} (hp : p.Keeps State.BusFrame)
    (h : p s = .err e t) : s.SameBlock { t.record r with ctrl := s.ctrl } := by
  have hk := hp s
  rw [h] at hk
  obtain ⟨hphase, hfb, hxcs, hxrst, -, -⟩ := hk
  exact ⟨hphase, rfl, hfb, hxcs, hxrst⟩

/-- `bus.write` cut at its call `j`, from any control byte. -/
theorem busWrite_cut {s : State} {k : Chip} {di : Bool} {b : Byte} {j : Nat} (hs : s.phase = .ready)
    (hj : j < Plan.frames (busWritePlan s.params s.ctrl k di b)) (hf : FailsAt s.answers j) :
    ∃ t es, es = throughFrame j ((busWritePlan s.params s.ctrl k di b).map Prod.fst) ∧
      exec (.busWrite k di b) s = .next t ∧
      t.trace = s.trace ++ items es ++ [.result (.error .transportError)] ∧
      t.ctrl = cacheAfter s.ctrl (busWritePlan s.params s.ctrl k di b) (es.length - 1) ∧
      s.SameBlock { t with ctrl := s.ctrl } ∧
      (ctrlRST s.ctrl = true → t.lcd k.other = s.lcd k.other ∧
        (j < framesBeforeEnable s.ctrl k di → t.lcd k = s.lcd k) ∧
        (j = framesBeforeEnable s.ctrl k di →
          t.lcd k = s.lcd k ∨ t.lcd k = (s.lcd k).bind (fun l => l.take di b)) ∧
        (framesBeforeEnable s.ctrl k di < j → t.lcd k = (s.lcd k).bind (fun l => l.take di b))) := by
  obtain ⟨t, ht, htrace, hctrl⟩ :=
    (busWriteSeq_follows s.params s.answers s.ctrl k di b).cut s j rfl rfl rfl hf hj
  refine ⟨t.record (.error .transportError), _, rfl, perform_err (f := fun _ => .unit) hs ht, ?_, hctrl,
    sameBlock_of_err (busWriteSeq_busFrame k di b) ht, fun hr => ?_⟩
  · rw [State.record_trace, htrace]; rfl
  · simpa only [State.record_lcd] using busWriteSeq_cut_chips hf hr ht

/-- `bus.read` cut at its call `j`, from any control byte. -/
theorem busRead_cut {s : State} {k : Chip} {di : Bool} {rx : List Byte} {j : Nat} (hs : s.phase = .ready)
    (hj : j < Plan.frames (busReadPlan s.params s.ctrl k di rx)) (hf : FailsAt s.answers j) :
    ∃ t rx es, es = throughFrame j ((busReadPlan s.params s.ctrl k di rx).map Prod.fst) ∧
      exec (.busRead k di) s = .next t ∧
      t.trace = s.trace ++ items es ++ [.result (.error .transportError)] ∧
      t.ctrl = cacheAfter s.ctrl (busReadPlan s.params s.ctrl k di rx) (es.length - 1) ∧
      s.SameBlock { t with ctrl := s.ctrl } := by
  have hframe : (busReadSeq k di).Keeps State.BusFrame :=
    busFrame_kept.read (fun _ => readRegisterBody_busFrame _ _) (readDisturbs_busFrame k di)
  obtain ⟨t, ht, htrace, hctrl⟩ := (busReadSeq_follows s.params s.answers s.ctrl k di).cut s j rfl rfl rfl hf
    (frames_busReadPlan _ _ _ _ rx _ ▸ hj)
  refine ⟨t.record (.error .transportError), _, _, rfl, perform_err (f := .byte) hs ht, ?_, hctrl,
    sameBlock_of_err hframe ht⟩
  rw [State.record_trace, htrace]; rfl

/-! ## From the idle state -/

/-- With RST = 1 the line bytes are those of 41_parallel_bus.md R120. -/
theorem lineByte_eq_seqByte {c : Byte} (h : ctrlRST c = true) (di e rw cs1 cs2 : Bool) :
    lineByte c di e rw cs1 cs2 = seqByte c di e rw cs1 cs2 := by
  rw [lineByte, seqByte, h]

section
variable {c : Byte} (hi : Idle c) (k : Chip) (di : Bool)
include hi

/-- From the idle state no control frame of a bus write is suppressed. -/
theorem idle_ne_setup : seqByte c di true false false false ≠ c := by
  obtain ⟨-, hrw, -⟩ := hi
  exact ctrl_ne_of_rw (by rw [seqByte_rw, hrw]; exact nofun)

omit hi in
theorem select_ne_setup (e : Bool) :
    seqByte c di e false (k = .chip1) (k = .chip2) ≠ seqByte c di e false false false := by
  intro h
  have h1 := congrArg ctrlCS1 h
  have h2 := congrArg ctrlCS2 h
  cases k <;> simp at h1 h2

/-- The plan of a bus write from the idle state, written out. -/
theorem busWritePlan_idle (p : Params) (b : Byte) :
    busWritePlan p c k di b =
      [ (evW p.aCtrl (seqByte c di true false false false), seqByte c di true false false false),
        (evW p.aDataDir p.ddrOut, seqByte c di true false false false),
        (evW p.aData b, seqByte c di true false false false),
        (evW p.aCtrl (seqByte c di true false (k = .chip1) (k = .chip2)),
          seqByte c di true false (k = .chip1) (k = .chip2)),
        (.delay .tPre, seqByte c di true false (k = .chip1) (k = .chip2)),
        (evW p.aCtrl (seqByte c di false false (k = .chip1) (k = .chip2)),
          seqByte c di false false (k = .chip1) (k = .chip2)),
        (.delay .tPost, seqByte c di false false (k = .chip1) (k = .chip2)),
        (evW p.aCtrl (seqByte c di false false false false), seqByte c di false false false false),
        (evW p.aCtrl (seqByte c di true true false false), seqByte c di true true false false),
        (evW p.aDataDir p.ddrIn, seqByte c di true true false false) ] := by
  have h1 := idle_ne_setup hi di
  obtain ⟨-, -, hcs1, hcs2, hrst, -⟩ := hi
  have h3 := select_ne_setup (c := c) k di true
  have h4 : seqByte c di false false (k = .chip1) (k = .chip2) ≠ seqByte c di true false (k = .chip1) (k = .chip2) :=
    ctrl_ne_of_e (by simp)
  have h5 := (select_ne_setup (c := c) k di false).symm
  have h6 : seqByte c di true true false false ≠ seqByte c di false false false false := ctrl_ne_of_e (by simp)
  simp only [busWritePlan, hcs1, hcs2, lineByte_eq_seqByte hrst, controlStep, if_neg h1, if_neg h3, if_neg h4, if_neg h5,
    if_neg h6]
  rfl

theorem framesBeforeEnable_idle : framesBeforeEnable c k di = 4 := by
  have h1 := idle_ne_setup hi di
  obtain ⟨-, -, hcs1, hcs2, hrst, -⟩ := hi
  simp only [framesBeforeEnable, hcs1, hcs2, lineByte_eq_seqByte hrst, if_neg h1, if_neg (select_ne_setup k di true)]

/-- The cache where a bus write from the idle state is cut, frame by frame. -/
theorem cacheAfter_idle (p : Params) (b : Byte) {j : Nat} (hj : j < 8) :
    cacheAfter c (busWritePlan p c k di b)
        ((throughFrame j ((busWritePlan p c k di b).map Prod.fst)).length - 1) =
      if j = 0 then c
      else if j ≤ 3 then seqByte c di true false false false
      else if j = 4 then seqByte c di true false (k = .chip1) (k = .chip2)
      else if j = 5 then seqByte c di false false (k = .chip1) (k = .chip2)
      else if j = 6 then seqByte c di false false false false
      else seqByte c di true true false false := by
  rw [busWritePlan_idle hi]
  interval_cases j <;> rfl

end

/-- Settles O25: the two sequences cut at any frame from their plans, the idle cases written out, and the cache of every
operation from its control frames. -/
theorem failedBusWriteLeavesTheLastControlState : Obligations.FailedBusWriteLeavesTheLastControlState := by
  refine ⟨fun s k di b j c r0 r1 r2 hs hj ha hc hne => busWrite_cut hs hj ⟨ha, c, r0, r1, r2, hc, hne⟩,
    fun s k di j c r0 r1 r2 hs hj ha hc hne => busRead_cut hs hj ⟨ha, c, r0, r1, r2, hc, hne⟩,
    fun s k di b j c r0 r1 r2 hs hi hj ha hc hne => ?_, fun i s t es r hd h ht => exec_lastControl hd h ht⟩
  have hframes : Plan.frames (busWritePlan s.params s.ctrl k di b) = 8 := by
    rw [busWritePlan_idle hi]; rfl
  obtain ⟨t, es, rfl, hexec, htrace, hctrl, ⟨-, -, hfb, -, -⟩, hchips⟩ :=
    busWrite_cut (b := b) hs (hframes ▸ hj) ⟨ha, c, r0, r1, r2, hc, hne⟩
  rw [framesBeforeEnable_idle hi] at hchips
  have hcache := cacheAfter_idle hi k di s.params b hj
  obtain ⟨-, -, -, -, hrst, -⟩ := hi
  exact ⟨t, hexec, by rw [htrace, List.getLast?_concat], hfb, hctrl.trans hcache, hchips hrst⟩

end Sys2Proof.Machine
end

section
/-! The operations of the panel as lists of bus words (42_dual_chip_panel.md R162, R164, R165), and one induction over
the block's own sequences. `BusEnds` admits an update by any set of lines; the block itself only ever uses sets that
select at most one chip, and `OwnEnds` is the induction for relations that need that. -/

namespace Sys2Proof.Machine

/-! ## Panel operations as words -/

/-- Bus writes one after another. -/
def sendWords (ws : List SentWord) : Action Unit :=
  Action.forEach (fun w : SentWord => busWriteSeq w.1 w.2.1 w.2.2) ws

theorem Action.andThen_ret_unit (p : Action Unit) : p.andThen (Action.ret ()) = p := by
  funext s
  cases h : p s <;> simp [Action.andThen, Action.bind, h]

theorem Action.andThen_assoc {α β γ : Type} (p : Action α) (q : Action β) (r : Action γ) :
    (p.andThen q).andThen r = p.andThen (q.andThen r) := by
  funext s
  cases h : p s <;> simp [Action.andThen, Action.bind, h]

theorem Action.forEach_append {α : Type} (f : α → Action Unit) (xs ys : List α) :
    Action.forEach f (xs ++ ys) = (Action.forEach f xs).andThen (Action.forEach f ys) := by
  induction xs with
  | nil => rfl
  | cons x xs ih => simp only [List.cons_append, Action.forEach, ih, Action.andThen_assoc]

theorem Action.forEach_flatMap {α β : Type} (f : β → Action Unit) (g : α → List β) (xs : List α) :
    Action.forEach f (xs.flatMap g) = Action.forEach (fun x => Action.forEach f (g x)) xs := by
  induction xs with
  | nil => rfl
  | cons x xs ih => simp only [List.flatMap_cons, Action.forEach_append, Action.forEach, ih]

theorem sendWords_append (ws vs : List SentWord) : sendWords (ws ++ vs) = (sendWords ws).andThen (sendWords vs) :=
  Action.forEach_append _ _ _

theorem forEach_lcdWriteData_eq (k : Chip) (bytes : List Byte) :
    Action.forEach (lcdWriteData k) bytes = sendWords (bytes.map fun b => (k, true, b)) := by
  induction bytes with
  | nil => rfl
  | cons b bytes ih =>
    simp only [Action.forEach, ih]
    rfl

theorem writeSegment_eq {bytes : List Byte} (h : bytes ≠ []) (k : Chip) (p y : Nat) :
    writeSegment k p y bytes = sendWords (segmentWords k p y bytes) := by
  simp only [writeSegment, segmentWords, if_neg h, Action.inOrder, Action.andThen_ret_unit, forEach_lcdWriteData_eq]
  rfl

/-- A run that fits is its words, and its count is its length (42_dual_chip_panel.md R161 to R163). -/
theorem setBytesAtSeq_eq (r c : Nat) (bytes : List Byte) :
    setBytesAtSeq r c bytes = if runFits r c bytes.length then
      (sendWords (runWords r c bytes)).andThen (Action.ret bytes.length) else Action.raise .geometryError := by
  unfold setBytesAtSeq
  dsimp only
  split
  case isFalse => rfl
  case isTrue hfits =>
    simp only [runFits, Bool.not_eq_true', Bool.or_eq_false_iff, decide_eq_false_iff_not] at hfits
    obtain ⟨⟨-, -⟩, hn⟩ := hfits
    have left : (if c < 64 ∧ 0 < bytes.length then writeSegment .chip1 r c (bytes.take (min bytes.length (64 - c)))
        else Action.ret ()) = sendWords (segmentWords .chip1 r c (bytes.take (64 - c))) := by
      rw [Nat.min_comm, ← List.take_eq_take_min]
      split
      · exact writeSegment_eq (by rw [Ne, List.take_eq_nil_iff, ← List.length_eq_zero_iff]; omega) _ _ _
      · have hnil : bytes.take (64 - c) = [] := by rw [List.take_eq_nil_iff, ← List.length_eq_zero_iff]; omega
        simp only [hnil, segmentWords, if_true]
        rfl
    have right : (if 0 < bytes.length - min bytes.length (64 - c) then
        writeSegment .chip2 r (c + min bytes.length (64 - c) - 64)
          ((bytes.drop (min bytes.length (64 - c))).take (bytes.length - min bytes.length (64 - c)))
        else Action.ret ()) = sendWords (segmentWords .chip2 r (c - 64) (bytes.drop (64 - c))) := by
      split
      · have hmin : min bytes.length (64 - c) = 64 - c := by omega
        have hcol : c + (64 - c) - 64 = c - 64 := by omega
        rw [hmin, hcol, List.take_of_length_le (by rw [List.length_drop])]
        exact writeSegment_eq (by rw [Ne, List.drop_eq_nil_iff]; omega) _ _ _
      · have hnil : bytes.drop (64 - c) = [] := by rw [List.drop_eq_nil_iff]; omega
        simp only [hnil, segmentWords, if_true]
        rfl
    have hsum : min bytes.length (64 - c) + (bytes.length - min bytes.length (64 - c)) = bytes.length := by omega
    simp only [chip2Count_eq (show c + bytes.length ≤ 128 by omega), chip1Count_eq, left, right, hsum, runWords,
      sendWords_append, Action.inOrder, Action.andThen_ret_unit]

theorem setOnOffSeq_eq (on : Bool) :
    setOnOffSeq on = sendWords [(.chip1, false, powerByte on), (.chip2, false, powerByte on)] := rfl

theorem clearSeq_eq : clearSeq = sendWords clearWords := by
  have page : ∀ k, clearPage k = fun p => sendWords (segmentWords k p 0 (List.replicate 64 0x00#8)) := fun k =>
    funext fun p => writeSegment_eq (by simp) k p 0
  simp only [clearSeq, page]
  simp only [sendWords, clearWords, Action.forEach_flatMap]

/-! ## The block's own updates -/

/-- The set takes the select of one chip away, or names neither (41_parallel_bus.md R122). -/
def SelectsAtMostOne (set : CtrlSet) : Prop :=
  set.cs1 = some false ∨ set.cs2 = some false ∨ (set.cs1 = none ∧ set.cs2 = none)

/-- The select of one chip takes the select of the other away (00_scope.md R15). -/
theorem selectSet_selectsAtMostOne (k : Chip) : SelectsAtMostOne (selectSet k) := by
  cases k
  · exact .inr (.inl rfl)
  · exact .inl rfl

theorem deselectSet_selectsAtMostOne : SelectsAtMostOne deselectSet := .inl rfl

/-- A set of lines other than the selects. -/
theorem SelectsAtMostOne.of_none {set : CtrlSet} (h1 : set.cs1 = none) (h2 : set.cs2 = none) : SelectsAtMostOne set :=
  .inr (.inr ⟨h1, h2⟩)

/-- Such an update makes no double select of a byte that is none. -/
theorem SelectsAtMostOne.not_doubleSelect {set : CtrlSet} {c : Byte} (h : SelectsAtMostOne set)
    (hc : ¬ DoubleSelect c) : ¬ DoubleSelect (applySet set c) := by
  rw [DoubleSelect, applySet_cs1, applySet_cs2]
  rcases h with h | h | ⟨h1, h2⟩
  · simp [h]
  · simp [h]
  · rwa [h1, h2]

/-! ## The induction -/

/-- A relation between a state and the end of a piece, which the pieces of every operation but a direct ctrl.update
satisfy: updates by the block's own sets, the one control byte of the boot, and a direct register write where it is
admitted. -/
structure OwnEnds (Q : State → Option Err → State → Prop) : Prop where
  refl : ∀ s, Q s none s
  raise : ∀ s, Q s (some .geometryError) s
  trans : ∀ s t u o, Q s none t → Q t o u → Q s o u
  update : ∀ set, SelectsAtMostOne set → (updateBody set).Ends Q
  dirOut : dataDirOut.Ends Q
  dirIn : dataDirIn.Ends Q
  out : ∀ v, (dataOut v).Ends Q
  wait : ∀ w, (delay w).Ends Q
  toggle : ∀ k di b, (enableToggle k di b).Ends Q
  disturb : ∀ k di, (readDisturbs k di).Ends Q
  read : ∀ a, (readRegisterBody a).Ends Q
  framebuffer : ∀ s fb, Q s none { s with fb := fb }
  register : ∀ s a v, a ≠ s.params.aCtrl → (writeRegisterBody a v s).Ends (Q s)
  burst : ∀ s a vs, burstReaches s.params.aCtrl a vs.length = false → (writeBurstBody a vs s).Ends (Q s)
  pinsLow : bootPinsLow.Ends Q
  pinHigh : bootPinHigh.Ends Q
  bootControl : (controlWrite bootControlByte).Ends Q
  ctrlDir : ctrlDirOut.Ends Q
  done : bootDone.Ends Q

section
variable {Q : State → Option Err → State → Prop} (h : OwnEnds Q)
include h

/-- An update that names no select. -/
theorem OwnEnds.lines {set : CtrlSet} (h1 : set.cs1 = none := by rfl) (h2 : set.cs2 = none := by rfl) :
    (updateBody set).Ends Q := h.update set (.of_none h1 h2)

theorem OwnEnds.busWrite (k : Chip) (di : Bool) (b : Byte) : (busWriteSeq k di b).Ends Q := by
  apply Action.ends_inOrder h.refl h.trans
  intro p hp
  simp only [List.mem_cons, List.not_mem_nil, or_false] at hp
  rcases hp with rfl | rfl | rfl | rfl | rfl | rfl | rfl | rfl | rfl | rfl
  exacts [h.lines, h.dirOut, h.out _, h.update _ (selectSet_selectsAtMostOne k), h.wait _, h.toggle _ _ _, h.wait _,
    h.update _ deselectSet_selectsAtMostOne, h.lines, h.dirIn]

theorem OwnEnds.busRead (k : Chip) (di : Bool) : (busReadSeq k di).Ends Q := by
  refine Action.ends_andThen h.trans ?_ (Action.ends_bind h.trans (fun _ => h.read _ _) fun v =>
    Action.ends_andThen h.trans ?_ (Action.ends_ret h.refl v))
  · apply Action.ends_inOrder h.refl h.trans
    intro p hp
    simp only [List.mem_cons, List.not_mem_nil, or_false] at hp
    rcases hp with rfl | rfl | rfl | rfl | rfl | rfl
    exacts [h.dirIn, h.lines, h.disturb _ _, h.update _ (selectSet_selectsAtMostOne k), h.lines, h.wait _]
  · apply Action.ends_inOrder h.refl h.trans
    intro p hp
    simp only [List.mem_cons, List.not_mem_nil, or_false] at hp
    rcases hp with rfl | rfl
    exacts [h.update _ deselectSet_selectsAtMostOne, h.lines]

theorem OwnEnds.words (ws : List SentWord) : (sendWords ws).Ends Q :=
  Action.ends_forEach h.refl h.trans fun _ _ => h.busWrite _ _ _

theorem OwnEnds.setBytesAt (r c : Nat) (bytes : List Byte) : (setBytesAtSeq r c bytes).Ends Q := by
  rw [setBytesAtSeq_eq]
  split
  · exact Action.ends_andThen h.trans (h.words _) (Action.ends_ret h.refl _)
  · exact h.raise

theorem OwnEnds.flushRun (r : Nat) (run : Nat × Nat) : (flushRun r run).Ends Q := fun s =>
  Action.ends_bind h.trans (h.setBytesAt r run.1 (s.fb.values r run.1 run.2)) (fun n => by
    split
    · exact fun t => h.framebuffer t _
    · exact h.raise) s

theorem OwnEnds.writeBack : writeBackSeq.Ends Q :=
  Action.ends_forEach h.refl h.trans fun r _ s =>
    Action.ends_forEach h.refl h.trans (fun run _ => h.flushRun r run) s

theorem OwnEnds.setter (legal : Bool) (f : FrameBuffer → FrameBuffer) : (setterSeq legal f).Ends Q := by
  unfold setterSeq
  split
  · exact fun s => h.framebuffer s (f s.fb)
  · exact h.raise

theorem OwnEnds.boot : bootSeq.Ends Q := by
  apply Action.ends_inOrder h.refl h.trans
  intro p hp
  simp only [List.mem_cons, List.not_mem_nil, or_false] at hp
  rcases hp with rfl | rfl | rfl | rfl | rfl | rfl | rfl | rfl | rfl | rfl | rfl | rfl | rfl | rfl | rfl | rfl
  exacts [h.pinsLow, h.wait _, h.pinHigh, h.wait _, h.bootControl, h.ctrlDir, h.dirIn, h.wait _, h.lines, h.wait _,
    h.busWrite _ _ _, h.busWrite _ _ _, clearSeq_eq ▸ h.words _, setOnOffSeq_eq true ▸ h.words _, h.lines, h.done]

/-- The sequence of an operation, at a state that admits it; of a direct ctrl.update, if its own set is related. -/
theorem OwnEnds.sequenceOf {i : Instr} {s : State} (ha : Admitted s i)
    (hu : ∀ set, i = .ctrlUpdate set → (updateBody set).Ends Q) : (sequenceOf i s).Ends (Q s) := by
  have unit : ∀ {p : Action Unit}, p.Ends Q → (p.unit s).Ends (Q s) := fun hp => Action.ends_unit hp s
  have value : ∀ {α : Type} {p : Action α} (f : α → Value), p.Ends Q →
      ((p.bind fun a => Action.ret (f a)) s).Ends (Q s) := fun f hp => Action.bind_ret_ends f (hp s)
  cases i with
  | expWriteRegister a v => exact Action.bind_ret_ends (fun _ => .unit) (h.register s a v ha)
  | expWriteRegisterBurst a vs => exact Action.bind_ret_ends (fun _ => .unit) (h.burst s a vs ha.2)
  | ctrlUpdate set => exact unit (hu set rfl)
  | expReadRegister a => exact value .byte (h.read a)
  | busRead k di => exact value .byte (h.busRead k di)
  | lcdReadStatus k => exact value .byte (h.busRead k false)
  | lcdReadData k => exact value .byte (h.busRead k true)
  | panelSetBytesAt r c bytes => exact value .nat (h.setBytesAt r c bytes)
  | panelSetOnOff on => exact unit (setOnOffSeq_eq on ▸ h.words _)
  | panelClear => exact unit (clearSeq_eq ▸ h.words _)
  | panelSetBacklight on => exact unit h.lines
  | panelGetBacklight => exact h.refl s
  | fbSetByte | fbSetBit | fbSetBitMatrix => exact unit (h.setter _ _)
  | fbWriteBack => exact unit h.writeBack
  | displayNew => exact unit h.boot
  | busWrite | lcdPower | lcdSetStartLine | lcdSetPage | lcdSetColumn | lcdWriteData =>
    exact unit (h.busWrite _ _ _)

/-- Every operation that returns ended as its pieces do, and then recorded its result. -/
theorem OwnEnds.exec {i : Instr} {s t : State} (hu : ∀ set, i = .ctrlUpdate set → (updateBody set).Ends Q)
    (hx : exec i s = .next t) : ∃ u o r, Q s o u ∧ t = u.record r := by
  obtain ⟨-, ha, hf⟩ := exec_next hx
  obtain ⟨u, o, r, hq, ht, -⟩ := Ran.finish_ends (h.sequenceOf ha hu) hf
  exact ⟨u, o, r, hq, ht⟩

end

end Sys2Proof.Machine
end

section
/-! The structural invariant (20_memory.md R50, 10_state.md R22, R26): every piece of every operation keeps the memories
canonical and within their spaces and bit 6 of the cache clear; only the boot drives the pins, and it leaves them high. -/

namespace Sys2Proof.Machine

/-! ## Memories within their spaces -/

theorem Memory.good_writeMany {n a : Nat} {m : Memory} {vs : List Byte} (ha : a + vs.length ≤ n)
    (h : m.good n = true) : (m.writeMany a vs).good n = true := by
  induction vs generalizing m a with
  | nil => exact h
  | cons v vs ih =>
    simp only [List.length_cons] at ha
    exact ih (by omega) (Memory.good_write m n a v (by omega) h)

theorem Memory.good_eraseMany {n : Nat} {m : Memory} (as : List Nat) (h : m.good n = true) :
    (m.eraseMany as).good n = true := by
  induction as generalizing m with
  | nil => exact h
  | cons a as ih => exact ih (Memory.good_erase m n a h)

/-- A burst over named registers stays below 256. -/
theorem Params.namesBurst_le {p : Params} {addr : Byte} {n : Nat} (h : Params.namesBurst p addr n = true) :
    addr.toNat + n ≤ 256 := by
  by_contra hn
  have hmem : addr.toNat + (n - 1) ∈ burstAddrs addr n := mem_burstAddrs.mpr ⟨by omega, by omega⟩
  have hnamed := List.all_eq_true.mp h _ hmem
  rw [List.contains_iff_mem, List.mem_map] at hnamed
  obtain ⟨b, -, hb⟩ := hnamed
  have := b.isLt
  omega

/-- A chip's address lies in its RAM (20_memory.md R50). -/
theorem ramAddr_lt (page : BitVec 3) (col : BitVec 6) : ramAddr page col < 512 := by
  have := page.isLt
  have := col.isLt
  unfold ramAddr
  omega

/-- A chip that takes a word keeps its RAM good, or is refused. -/
theorem Lcd.good_take {l : Lcd} (h : Lcd.good (some l) = true) (di : Bool) (b : Byte) :
    Lcd.good (l.take di b) = true := by
  cases di with
  | true => exact Memory.good_write l.ram 512 _ b (ramAddr_lt _ _) h
  | false =>
    by_cases hb : classify b = .reserved
    · simp [Lcd.take, Lcd.takeInstruction, hb, Lcd.good]
    · obtain ⟨l', hl, hram⟩ := Lcd.takeInstruction_ram hb l
      rw [hl]
      exact (congrArg (fun m => Memory.good m 512) hram).trans h

theorem Lcd.good_bind_take {o : Option Lcd} (h : Lcd.good o = true) (di : Bool) (b : Byte) :
    Lcd.good (o.bind fun l => l.take di b) = true := by
  cases o with
  | none => rfl
  | some l => exact Lcd.good_take h di b

/-- After a panel reset a chip's RAM is unknown. -/
theorem Lcd.good_unspecified (o : Option Lcd) (d : Nat) : Lcd.good (o.map fun _ => Lcd.unspecified d) = true := by
  cases o <;> rfl

/-! ## The part of the invariant that every piece keeps -/

/-- Canonical memories within their spaces, and control bit 6 clear. -/
def State.Sound (s : State) : Prop :=
  s.exp.good 256 = true ∧ (∀ k, Lcd.good (s.lcd k) = true) ∧ s.ctrl.getLsbD 6 = false

/-- Both pins are high (10_state.md R26). -/
def State.PinsHigh (s : State) : Prop := s.xcs = true ∧ s.xrst = true

theorem State.inv_iff (s : State) : s.Inv = true ↔ s.Sound ∧ (s.phase = .ready → s.PinsHigh) := by
  have hl : (∀ k, Lcd.good (s.lcd k) = true) ↔ Lcd.good s.lcd1 = true ∧ Lcd.good s.lcd2 = true :=
    ⟨fun h => ⟨h .chip1, h .chip2⟩, fun h k => by cases k; exacts [h.1, h.2]⟩
  rw [State.Sound, hl]
  cases hp : s.phase <;> simp [State.Inv, State.PinsHigh, hp, and_assoc, -BitVec.getLsbD_eq_getElem]

/-- The invariant's part goes on from one state to the other. -/
def State.SoundKept (s t : State) : Prop := s.Sound → t.Sound

/-- A change of the device-side view alone, and of parts that the invariant does not speak of. -/
theorem State.SoundKept.of_exp {s t : State} (he : s.exp.good 256 = true → t.exp.good 256 = true)
    (h1 : t.lcd1 = s.lcd1) (h2 : t.lcd2 = s.lcd2) (hc : t.ctrl = s.ctrl) : s.SoundKept t := by
  rintro ⟨hexp, hlcd, hctrl⟩
  refine ⟨he hexp, fun k => ?_, hc ▸ hctrl⟩
  cases k with
  | chip1 => exact (congrArg Lcd.good h1).trans (hlcd .chip1)
  | chip2 => exact (congrArg Lcd.good h2).trans (hlcd .chip2)

theorem State.SoundKept.of_same {s t : State} (he : t.exp = s.exp) (h1 : t.lcd1 = s.lcd1) (h2 : t.lcd2 = s.lcd2)
    (hc : t.ctrl = s.ctrl) : s.SoundKept t := .of_exp (fun h => he ▸ h) h1 h2 hc

/-- A change of the chips alone. -/
theorem State.SoundKept.of_lcd {s t : State} (he : t.exp = s.exp)
    (hl : (∀ k, Lcd.good (s.lcd k) = true) → ∀ k, Lcd.good (t.lcd k) = true) (hc : t.ctrl = s.ctrl) :
    s.SoundKept t := by
  rintro ⟨hexp, hlcd, hctrl⟩
  exact ⟨he ▸ hexp, hl hlcd, hc ▸ hctrl⟩

theorem State.SoundKept.trans {s t u : State} (h : s.SoundKept t) (k : t.SoundKept u) : s.SoundKept u :=
  fun hs => k (h hs)

/-! ## The pieces -/

theorem State.expStored_good {s : State} (a v : Byte) (h : s.exp.good 256 = true) :
    (s.expStored a v).exp.good 256 = true := by
  rw [State.expStored_exp]
  split
  · exact Memory.good_write _ _ _ _ a.isLt h
  · rfl

theorem State.expLost_good {s : State} (a : Byte) (h : s.exp.good 256 = true) :
    (s.expLost a).exp.good 256 = true := by
  rw [State.expLost_exp]
  split
  · exact Memory.good_erase _ _ _ h
  · rfl

theorem writeRegisterBody_sound (a v : Byte) : (writeRegisterBody a v).Keeps State.SoundKept := by
  intro s
  rcases writeRegisterBody_cases a v s with h | h | h <;> rw [h]
  · exact .of_exp (State.expStored_good (s := s.afterCall _) a v) rfl rfl rfl
  · exact .of_exp (State.expLost_good (s := s.afterCall _) a) rfl rfl rfl
  · trivial

theorem writeBurstBody_sound (a : Byte) (vs : List Byte) : (writeBurstBody a vs).Keeps State.SoundKept := by
  intro s
  rcases writeBurstBody_cases a vs s with h | h | h <;> rw [h]
  · refine .of_exp (fun hexp => ?_) rfl rfl rfl
    rw [State.expBurstStored_exp]
    split
    · next hn => exact Memory.good_writeMany (Params.namesBurst_le hn) hexp
    · rfl
  · refine .of_exp (fun hexp => ?_) rfl rfl rfl
    rw [State.expBurstLost_exp]
    split
    · exact Memory.good_eraseMany _ hexp
    · rfl
  · trivial

theorem State.expRead_sound (s : State) (a : Byte) : s.SoundKept (s.expRead a) := by
  refine .of_exp (fun hexp => ?_) rfl rfl rfl
  rw [State.expRead_exp]
  split
  · exact hexp
  · rfl

theorem readRegisterBody_sound (a : Byte) : (readRegisterBody a).Keeps State.SoundKept := by
  intro s
  rcases readRegisterBody_cases a s with ⟨b, rx, d, h⟩ | ⟨rx, d, h⟩ | h <;> rw [h]
  exacts [State.expRead_sound { s.afterCall _ with draws := d } a,
    State.expRead_sound { s.afterCall _ with draws := d } a, trivial]

/-- A control frame, with the panel's reset asserted or not. -/
theorem State.panelHeld_sound (s : State) (v : Byte) : s.SoundKept (s.panelHeld v) := by
  refine .of_lcd rfl (fun hl k => ?_) rfl
  cases hr : ctrlRST v with
  | true => rw [State.panelHeld_released s v hr]; exact hl k
  | false => cases k <;> simp [State.panelHeld, State.lcd, hr, Lcd.good_unspecified]

/-- The control write of a byte whose bit 6 is clear (30_encoding.md R74). -/
theorem controlWrite_sound {new : Byte} (hn : new.getLsbD 6 = false) : (controlWrite new).Keeps State.SoundKept := by
  intro s
  have hw := writeRegisterBody_sound s.params.aCtrl new s
  unfold controlWrite
  cases h : writeRegisterBody s.params.aCtrl new s with
  | ok _ t =>
    rw [h] at hw
    refine State.SoundKept.trans (t := { t with ctrl := new }) (fun hs => ?_) (State.panelHeld_sound _ new)
    obtain ⟨hexp, hlcd, -⟩ := hw hs
    exact ⟨hexp, hlcd, hn⟩
  | err _ t =>
    rw [h] at hw
    exact State.SoundKept.trans hw (State.panelHeld_sound t new)
  | stuck _ => trivial

theorem updateBody_sound (set : CtrlSet) : (updateBody set).Keeps State.SoundKept := by
  intro s
  rcases updateBody_eq set s with ⟨-, h⟩ | h <;> rw [h]
  · exact fun hs => hs
  · exact controlWrite_sound (applySet_bit6 set s.ctrl) s

theorem State.deliver_sound (s : State) (k : Chip) (di : Bool) (b : Byte) : s.SoundKept (s.deliver k di b) := by
  refine .of_lcd rfl (fun hl j => ?_) rfl
  rw [State.deliver_lcd]
  split
  · exact Lcd.good_bind_take (hl k) di b
  · exact hl j

theorem State.deliverDrawn_sound (s : State) (k : Chip) (di : Bool) (b : Byte) :
    s.SoundKept (s.deliverDrawn k di b) := by
  rintro ⟨hexp, hlcd, hctrl⟩
  obtain ⟨-, hdelivered, -⟩ := State.deliver_sound s k di b ⟨hexp, hlcd, hctrl⟩
  refine ⟨hexp, fun j => ?_, hctrl⟩
  rcases State.deliverDrawn_lcd s k j di b with h | h <;> rw [h]
  exacts [hdelivered j, hlcd j]

theorem readDisturbs_sound (k : Chip) (di : Bool) : (readDisturbs k di).Keeps State.SoundKept := by
  intro s
  cases di with
  | false => exact fun hs => hs
  | true =>
    refine .of_lcd rfl (fun hl j => ?_) rfl
    simp only [if_true, State.forgetColumn_lcd]
    split
    · have hk := hl k
      cases hs : s.lcd k with
      | none => rfl
      | some l => rw [hs] at hk; exact hk
    · exact hl j

/-- The boot finds nothing known of the environment (10_state.md R33). -/
theorem bootPinsLow_sound : bootPinsLow.Keeps State.SoundKept := by
  rintro s ⟨-, -, hctrl⟩
  exact ⟨rfl, fun k => by cases k <;> rfl, hctrl⟩

/-- Every piece of every operation keeps the invariant's part. -/
theorem sound_ownEnds : OwnEnds fun s _ t => s.SoundKept t where
  refl _ h := h
  raise _ h := h
  trans _ _ _ _ h k := h.trans k
  update set _ := Action.ends_of_keeps (updateBody_sound set)
  dirOut := Action.ends_of_keeps fun _ => writeRegisterBody_sound _ _ _
  dirIn := Action.ends_of_keeps fun _ => writeRegisterBody_sound _ _ _
  out _ := Action.ends_of_keeps fun _ => writeRegisterBody_sound _ _ _
  wait _ _ := .of_same rfl rfl rfl rfl
  toggle k di b := enableToggle_ends (Action.ends_of_keeps (updateBody_sound _))
    (fun _ t h => h.trans (t.deliver_sound k di b)) (fun _ t _ h => h.trans (t.deliverDrawn_sound k di b))
  disturb k di := Action.ends_of_keeps (readDisturbs_sound k di)
  read a := Action.ends_of_keeps (readRegisterBody_sound a)
  framebuffer _ _ := .of_same rfl rfl rfl rfl
  register s a v _ := Ran.ends_of_holds (writeRegisterBody_sound a v s)
  burst s a vs _ := Ran.ends_of_holds (writeBurstBody_sound a vs s)
  pinsLow := Action.ends_of_keeps bootPinsLow_sound
  pinHigh _ := .of_same rfl rfl rfl rfl
  bootControl := Action.ends_of_keeps (controlWrite_sound (by decide))
  ctrlDir := Action.ends_of_keeps fun _ => writeRegisterBody_sound _ _ _
  done _ := .of_same rfl rfl rfl rfl

theorem exec_sound {i : Instr} {s t : State} (h : exec i s = .next t) : s.SoundKept t := by
  obtain ⟨u, o, r, hu, rfl⟩ := sound_ownEnds.exec (fun set _ => Action.ends_of_keeps (updateBody_sound set)) h
  exact hu.trans (.of_same rfl rfl rfl rfl)

/-! ## The pins -/

/-- The pins and the phase are as before. -/
def State.PinsKept (s t : State) : Prop := t.phase = s.phase ∧ t.xcs = s.xcs ∧ t.xrst = s.xrst

theorem State.BusFrame.pinsKept {s t : State} (h : s.BusFrame t) : s.PinsKept t := by
  obtain ⟨hphase, -, hxcs, hxrst, -, -⟩ := h
  exact ⟨hphase, hxcs, hxrst⟩

theorem pinsKept_ends : BusEnds fun s _ t => s.PinsKept t :=
  busFrame_ends.mono (fun _ _ _ h => h.pinsKept) fun _ _ _ _ ⟨hp, hc, hr⟩ ⟨kp, kc, kr⟩ =>
    ⟨kp.trans hp, kc.trans hc, kr.trans hr⟩

/-- Only the boot drives the pins (10_state.md R26). -/
theorem exec_pinsKept {i : Instr} {s t : State} (h : exec i s = .next t) (hi : i ≠ .displayNew) : s.PinsKept t := by
  cases i with
  | displayNew => exact absurd rfl hi
  | fbSetByte | fbSetBit | fbSetBitMatrix | fbWriteBack =>
    obtain ⟨-, -, hf⟩ := exec_next h
    obtain ⟨u, o, r, hu, rfl, -⟩ :=
      Ran.finish_ends (pinsKept_ends.aboveTheRegisters (fun _ _ => ⟨rfl, rfl, rfl⟩) rfl s) hf
    exact hu
  | _ => exact (exec_busFrame rfl h).pinsKept

theorem State.BusFrame.pinsHigh {s t : State} (h : s.BusFrame t) : s.PinsHigh → t.PinsHigh := by
  obtain ⟨-, -, hxcs, hxrst, -, -⟩ := h
  rintro ⟨hc, hr⟩
  exact ⟨hxcs.trans hc, hxrst.trans hr⟩

/-- The boot after its pin steps (70_reset_and_hazards.md R250). -/
def bootAfterPins : List (Action Unit) :=
  [ delay .tXrstRecover, controlWrite bootControlByte, ctrlDirOut, dataDirIn, delay .tLcdRst,
    updateBody { rst := some true }, delay .tLcdRecover, lcdSetStartLine .chip1 0, lcdSetStartLine .chip2 0, clearSeq,
    setOnOffSeq true, setBacklightSeq false, bootDone ]

theorem bootAfterPins_pinsHigh : (Action.inOrder bootAfterPins).Keeps fun s t => s.PinsHigh → t.PinsHigh := by
  have frame : ∀ {p : Action Unit}, p.Keeps State.BusFrame → p.Keeps fun s t => s.PinsHigh → t.PinsHigh :=
    fun hp => Action.keeps_mono hp fun _ _ h => h.pinsHigh
  apply Action.keeps_inOrder (fun _ h => h) (fun _ _ _ h k hs => k (h hs))
  intro p hp
  simp only [bootAfterPins, List.mem_cons, List.not_mem_nil, or_false] at hp
  rcases hp with rfl | rfl | rfl | rfl | rfl | rfl | rfl | rfl | rfl | rfl | rfl | rfl | rfl
  exacts [frame (delay_busFrame _), frame (controlWrite_busFrame _), frame fun _ => writeRegisterBody_busFrame _ _ _,
    frame dataDirIn_busFrame, frame (delay_busFrame _), frame (updateBody_busFrame _), frame (delay_busFrame _),
    frame (busWriteSeq_busFrame _ _ _), frame (busWriteSeq_busFrame _ _ _),
    frame (busFrame_kept.clear (fun _ _ => trivial) (fun _ => trivial) fun _ => trivial),
    frame (busFrame_kept.setOnOff fun _ => trivial), frame (updateBody_busFrame _), fun _ h => h]

/-- The pin steps cannot fail, and leave both pins high; nothing after them drives a pin. -/
theorem bootSeq_pinsHigh (s : State) : (bootSeq s).Ends fun _ t => t.PinsHigh := by
  obtain ⟨u, hu, hhigh⟩ : ∃ u, bootSeq s = Action.inOrder bootAfterPins u ∧ u.PinsHigh := ⟨_, rfl, rfl, rfl⟩
  rw [hu]
  exact (Ran.ends_of_holds (bootAfterPins_pinsHigh u)).mono fun _ _ h => h hhigh

/-- An operation that returns leaves both pins high while Ready. -/
theorem exec_pinsHigh {i : Instr} {s t : State} (h : exec i s = .next t) (hs : s.phase = .ready → s.PinsHigh) :
    t.phase = .ready → t.PinsHigh := by
  by_cases hi : i = .displayNew
  · subst hi
    obtain ⟨-, -, hf⟩ := exec_next h
    obtain ⟨u, o, r, hu, rfl, -⟩ := Ran.finish_ends (Action.bind_ret_ends (fun _ => .unit) (bootSeq_pinsHigh s)) hf
    exact fun _ => hu
  · obtain ⟨hphase, hxcs, hxrst⟩ := exec_pinsKept h hi
    intro ht
    obtain ⟨hc, hr⟩ := hs (hphase ▸ ht)
    exact ⟨hxcs.trans hc, hxrst.trans hr⟩

/-- Settles O58: an idle step changes nothing, and every operation keeps the memories and bit 6, and the pins. -/
theorem everyStepKeepsTheStateInvariant : Obligations.EveryStepKeepsTheStateInvariant := by
  intro s t hinv h
  rcases step_next h with rfl | ⟨i, rest, hx⟩
  · exact hinv
  · rw [State.inv_iff] at hinv ⊢
    obtain ⟨hsound, hpins⟩ := hinv
    exact ⟨exec_sound hx hsound, exec_pinsHigh hx hpins⟩

end Sys2Proof.Machine
end

section
/-! At most one chip is selected (41_parallel_bus.md R122, 70_reset_and_hazards.md R261): no update of the block's own
makes a control byte that selects both chips, so none is sent and none is cached. -/

namespace Sys2Proof.Machine

/-- With distinct addresses and a cache that selects not both chips: no control byte sent selects both, and the cache
does not either. -/
def State.SelectsApart (s t : State) : Prop :=
  s.params.Distinct → ¬ DoubleSelect s.ctrl → t.params = s.params ∧ ¬ DoubleSelect t.ctrl ∧
    ∃ es, t.trace = s.trace ++ items es ∧ ∀ e ∈ es, ∀ v, Event.byteTo? s.params.aCtrl e = some v → ¬ DoubleSelect v

theorem State.SelectsApart.trans {s t u : State} (h : s.SelectsApart t) (k : t.SelectsApart u) : s.SelectsApart u := by
  intro hd hs
  obtain ⟨hp, ht, es, htrace, hes⟩ := h hd hs
  obtain ⟨kp, hu, fs, ktrace, hfs⟩ := k (hp ▸ hd) ht
  rw [hp] at hfs
  refine ⟨kp.trans hp, hu, es ++ fs, by simp [ktrace, htrace], fun e he => ?_⟩
  exact (List.mem_append.mp he).elim (hes e) (hfs e)

/-- A change that emits nothing and touches neither cache nor parameters. -/
theorem State.SelectsApart.of_quiet {s t : State} (ht : t.trace = s.trace) (hp : t.params = s.params)
    (hc : t.ctrl = s.ctrl) : s.SelectsApart t :=
  fun _ hs => ⟨hp, hc ▸ hs, [], by simp [ht], by simp⟩

theorem State.SelectsApart.refl (s : State) : s.SelectsApart s := .of_quiet rfl rfl rfl

/-- One event that is no write to the control port, the cache being as before. -/
theorem State.SelectsApart.of_event {s t : State} {e : Event}
    (he : s.params.Distinct → Event.byteTo? s.params.aCtrl e = none) (ht : t.trace = s.trace ++ [.event e])
    (hp : t.params = s.params) (hc : t.ctrl = s.ctrl) : s.SelectsApart t :=
  fun hd hs => ⟨hp, hc ▸ hs, [e], ht, by simp [he hd]⟩

/-- A control byte that selects not both chips, sent or failed, and cached or not. -/
theorem controlWrite_selectsApart {s : State} {new : Byte} (hn : ¬ DoubleSelect s.ctrl → ¬ DoubleSelect new) :
    (controlWrite new s).Holds s.SelectsApart := by
  have sent : ¬ DoubleSelect s.ctrl → ∀ e ∈ [evW s.params.aCtrl new], ∀ v,
      Event.byteTo? s.params.aCtrl e = some v → ¬ DoubleSelect v := by
    intro hs e he v hv
    rw [List.mem_singleton.mp he] at hv
    obtain rfl : new = v := by simpa [Event.byteTo?] using hv
    exact hn hs
  rcases controlWrite_cases new s with h | h | h <;> rw [h]
  · exact fun _ hs => ⟨rfl, hn hs, _, rfl, sent hs⟩
  · exact fun _ hs => ⟨rfl, hs, _, rfl, sent hs⟩
  · trivial

theorem updateBody_selectsApart {set : CtrlSet} (hset : SelectsAtMostOne set) :
    (updateBody set).Keeps State.SelectsApart := by
  intro s
  rcases updateBody_eq set s with ⟨-, h⟩ | h <;> rw [h]
  · exact State.SelectsApart.refl s
  · exact controlWrite_selectsApart hset.not_doubleSelect

/-- A write to a register other than A_CTRL. -/
theorem writeRegisterBody_selectsApart {s : State} {a : Byte} (v : Byte) (ha : s.params.Distinct → a ≠ s.params.aCtrl) :
    (writeRegisterBody a v s).Holds s.SelectsApart := by
  rcases writeRegisterBody_cases a v s with h | h | h <;> rw [h]
  · exact .of_event (fun hd => byteTo?_evW_of_ne v (ha hd)) rfl rfl rfl
  · exact .of_event (fun hd => byteTo?_evW_of_ne v (ha hd)) rfl rfl rfl
  · trivial

/-- A burst whose range does not contain A_CTRL sends no control byte. -/
theorem byteTo?_burst_of_not_reaches {a x : Byte} {vs : List Byte} (h : burstReaches a x vs.length = false) :
    Event.byteTo? a (.spiWrite (expOpWrite :: x :: vs)) = none := by
  have hout : a.toNat ∉ burstAddrs x vs.length := by simpa [burstReaches] using h
  refine byteTo?_burst_of_ne vs fun hlen hx => hout ?_
  rw [mem_burstAddrs, hx]
  omega

theorem writeBurstBody_selectsApart {s : State} {a : Byte} {vs : List Byte}
    (hr : burstReaches s.params.aCtrl a vs.length = false) : (writeBurstBody a vs s).Holds s.SelectsApart := by
  have hb := byteTo?_burst_of_not_reaches hr
  rcases writeBurstBody_cases a vs s with h | h | h <;> rw [h]
  · exact .of_event (fun _ => hb) rfl rfl rfl
  · exact .of_event (fun _ => hb) rfl rfl rfl
  · trivial

theorem readRegisterBody_selectsApart (a : Byte) : (readRegisterBody a).Keeps State.SelectsApart := by
  intro s
  rcases readRegisterBody_cases a s with ⟨b, rx, d, h⟩ | ⟨rx, d, h⟩ | h <;> rw [h]
  · exact .of_event (e := .spiTransfer [expOpRead, a, 0#8] rx) (fun _ => rfl) rfl rfl rfl
  · exact .of_event (e := .spiTransfer [expOpRead, a, 0#8] rx) (fun _ => rfl) rfl rfl rfl
  · trivial

/-- Every piece of every operation but a direct ctrl.update selects one chip at a time. -/
theorem selectsApart_ownEnds : OwnEnds fun s _ t => s.SelectsApart t where
  refl := State.SelectsApart.refl
  raise := State.SelectsApart.refl
  trans _ _ _ _ h k := h.trans k
  update _ hset := Action.ends_of_keeps (updateBody_selectsApart hset)
  dirOut := Action.ends_of_keeps fun _ => writeRegisterBody_selectsApart _ Params.aDataDir_ne_aCtrl
  dirIn := Action.ends_of_keeps fun _ => writeRegisterBody_selectsApart _ Params.aDataDir_ne_aCtrl
  out _ := Action.ends_of_keeps fun _ => writeRegisterBody_selectsApart _ Params.aData_ne_aCtrl
  wait w _ := .of_event (e := .delay w) (fun _ => rfl) rfl rfl rfl
  toggle k di b := enableToggle_ends (Action.ends_of_keeps (updateBody_selectsApart (.of_none rfl rfl)))
    (fun _ _ h => h.trans (.of_quiet rfl rfl rfl)) (fun _ _ _ h => h.trans (.of_quiet rfl rfl rfl))
  disturb _ di _ := by cases di <;> exact .of_quiet rfl rfl rfl
  read a := Action.ends_of_keeps (readRegisterBody_selectsApart a)
  framebuffer _ _ := .of_quiet rfl rfl rfl
  register _ _ v ha := Ran.ends_of_holds (writeRegisterBody_selectsApart v fun _ => ha)
  burst _ _ _ hr := Ran.ends_of_holds (writeBurstBody_selectsApart hr)
  pinsLow s := State.SelectsApart.trans (t := s.drivePin .xcs true)
    (.of_event (e := .pin .xcs true) (fun _ => rfl) rfl rfl rfl)
    (.of_event (e := .pin .xrst false) (fun _ => rfl) rfl rfl rfl)
  pinHigh _ := .of_event (e := .pin .xrst true) (fun _ => rfl) rfl rfl rfl
  bootControl := Action.ends_of_keeps fun _ => controlWrite_selectsApart fun _ => by decide
  ctrlDir := Action.ends_of_keeps fun _ => writeRegisterBody_selectsApart _ Params.aCtrlDir_ne_aCtrl
  done _ := .of_quiet rfl rfl rfl

/-- Settles O26: the trace of an operation is what its pieces sent, and then a result. -/
theorem bothChipsAreNeverSelected : Obligations.BothChipsAreNeverSelected := by
  intro i s t es hi hd h hs htrace
  obtain ⟨u, o, r, hu, rfl⟩ := selectsApart_ownEnds.exec (fun set he => absurd he (hi set)) h
  obtain ⟨-, hctrl, fs, hfs, hsent⟩ := hu hd hs
  refine ⟨hctrl, fun v hv => ?_⟩
  rw [State.record_trace, hfs, List.append_assoc] at htrace
  rw [← List.append_cancel_left htrace] at hv
  have hmem : evW s.params.aCtrl v ∈ fs := by simpa [items] using hv
  exact hsent _ hmem v (by simp [Event.byteTo?])

end Sys2Proof.Machine
end

section
/-! Words that are answered, from any control state (41_parallel_bus.md R120, R140), and what a run of bytes leaves on
the panel (42_dual_chip_panel.md R162; environment model, log 10). -/

namespace Sys2Proof.Machine

/-! ## Pieces that make at most so many calls -/

/-- Where the next `n + m` calls are answered the action succeeds, and `m` are answered after it. -/
def Action.Answered {α : Type} (n : Nat) (p : Action α) : Prop :=
  ∀ s m, s.Acks (n + m) → ∃ a t, p s = .ok a t ∧ t.Acks m

theorem Action.Answered.cons {n k : Nat} {p : Action Unit} {ps : List (Action Unit)} (hp : p.Answered n)
    (hps : (Action.inOrder ps).Answered k) : (Action.inOrder (p :: ps)).Answered (n + k) := by
  intro s m ha
  obtain ⟨a, t, ht, hta⟩ := hp s (k + m) (by rwa [← Nat.add_assoc])
  obtain ⟨b, u, hu, hua⟩ := hps t m hta
  exact ⟨b, u, (Action.inOrder_cons_ok ht).trans hu, hua⟩

theorem Action.answered_nil : (Action.inOrder []).Answered 0 := fun s m ha => ⟨(), s, rfl, by rwa [Nat.zero_add] at ha⟩

/-- One answer fewer. -/
theorem State.Acks.one {s : State} {m : Nat} (h : s.Acks (1 + m)) :
    ∀ a ∈ (s.answers.drop 1).take m, a.acks 3 = true := State.Acks.tail (by rwa [Nat.add_comm] at h)

theorem writeRegisterBody_answered (a v : Byte) : (writeRegisterBody a v).Answered 1 := fun s m ha =>
  ⟨(), _, writeRegisterBody_acked (n := m) (by rwa [Nat.add_comm]), ha.one⟩

theorem updateBody_answered (set : CtrlSet) : (updateBody set).Answered 1 := by
  intro s m ha
  rw [updateBody_acked (n := m) (by rwa [Nat.add_comm])]
  split
  · exact ⟨_, _, rfl, ha.mono (by omega)⟩
  · exact ⟨_, _, rfl, ha.one⟩

theorem delay_answered (w : Wait) : (delay w).Answered 0 := fun s m ha =>
  ⟨(), s.emit (.delay w), rfl, by rwa [Nat.zero_add] at ha⟩

theorem enableToggle_answered (k : Chip) (di : Bool) (b : Byte) : (enableToggle k di b).Answered 1 := by
  intro s m ha
  obtain ⟨_, t, ht, hta⟩ := updateBody_answered { e := some false } s m ha
  exact ⟨(), t.deliver k di b, by rw [enableToggle, ht], hta⟩

/-- A bus write makes at most eight calls, from any control state. -/
theorem busWriteSeq_answered (k : Chip) (di : Bool) (b : Byte) : (busWriteSeq k di b).Answered 8 :=
  .cons (updateBody_answered _) <| .cons (fun s => writeRegisterBody_answered _ _ s) <|
  .cons (fun s => writeRegisterBody_answered _ _ s) <| .cons (updateBody_answered _) <| .cons (delay_answered _) <|
  .cons (enableToggle_answered _ _ _) <| .cons (delay_answered _) <| .cons (updateBody_answered _) <|
  .cons (updateBody_answered _) <| .cons (fun s => writeRegisterBody_answered _ _ s) Action.answered_nil

/-! ## What a chip makes of the words -/

/-- What chip `k` makes of words sent one after another. -/
def takeWords (k : Chip) (ws : List SentWord) (o : Option Lcd) : Option Lcd :=
  ws.foldl (fun l w => if w.1 = k then l.bind (fun x => x.take w.2.1 w.2.2) else l) o

theorem takeWords_append (k : Chip) (ws vs : List SentWord) (o : Option Lcd) :
    takeWords k (ws ++ vs) o = takeWords k vs (takeWords k ws o) := List.foldl_append

/-- Words to the other chip. -/
theorem takeWords_of_ne {k : Chip} {ws : List SentWord} (h : ∀ w ∈ ws, w.1 ≠ k) (o : Option Lcd) :
    takeWords k ws o = o := by
  induction ws with
  | nil => rfl
  | cons w ws ih =>
    rw [takeWords, List.foldl_cons, if_neg (h w (by simp))]
    exact ih fun v hv => h v (by simp [hv])

/-- Answered words from any control state, with the panel's reset released: each chip takes its own. -/
theorem sendWords_answered {s : State} {ws : List SentWord} {m : Nat} (hr : ctrlRST s.ctrl = true)
    (ha : s.Acks (8 * ws.length + m)) :
    ∃ t, sendWords ws s = .ok () t ∧ t.Acks m ∧ t.fb = s.fb ∧ ctrlRST t.ctrl = true ∧
      ∀ k, t.lcd k = takeWords k ws (s.lcd k) := by
  induction ws generalizing s with
  | nil => exact ⟨s, rfl, by simpa using ha, rfl, hr, fun _ => rfl⟩
  | cons w ws ih =>
    obtain ⟨j, di, b⟩ := w
    obtain ⟨_, t, ht, hta⟩ := busWriteSeq_answered j di b s (8 * ws.length + m)
      (ha.mono (by simp only [List.length_cons]; omega))
    have htook := busWriteSeq_took j di b s
    rw [ht] at htook
    obtain ⟨hfb, hchips⟩ := htook
    obtain ⟨htr, hother, htaken⟩ := hchips hr
    replace htaken := htaken.resolve_right fun h => h.1 rfl
    obtain ⟨u, hu, hua, hufb, hur, hul⟩ := ih htr hta
    refine ⟨u, (Action.andThen_ok ht).trans hu, hua, hufb.trans hfb, hur, fun k => (hul k).trans ?_⟩
    rw [takeWords, takeWords, List.foldl_cons]
    rcases Chip.eq_or_eq_other k j with rfl | rfl
    · rw [if_pos rfl, htaken]
    · rw [if_neg (Chip.other_ne j).symm, hother]

/-! ## A segment -/

/-- Data bytes to a chip that stands at page `p` and column `y`. -/
theorem takeWords_data {k : Chip} {p y : Nat} {bytes : List Byte} {l : Lcd} (hp : p < 8) (hy : y + bytes.length ≤ 64)
    (hpage : l.page = BitVec.ofNat 3 p) (hcol : l.col = BitVec.ofNat 6 y) :
    ∃ l', takeWords k (bytes.map fun b => (k, true, b)) (some l) = some l' ∧ ∀ x, l'.ram.read? x =
      if p * 64 + y ≤ x ∧ x < p * 64 + y + bytes.length then bytes[x - (p * 64 + y)]? else l.ram.read? x := by
  induction bytes generalizing y l with
  | nil => exact ⟨l, rfl, fun x => (if_neg (by simp)).symm⟩
  | cons b bytes ih =>
    simp only [List.length_cons] at hy
    obtain ⟨l', hl', hram⟩ := ih (y := y + 1) (l := l.takeData b) (by omega) hpage
      (by simp only [Lcd.takeData, hcol]; rw [← BitVec.ofNat_add])
    refine ⟨l', ?_, fun x => ?_⟩
    · rw [← hl', takeWords, List.map_cons, List.foldl_cons, if_pos rfl]
      rfl
    · have hfirst : (l.takeData b).ram.read? x = if x = p * 64 + y then some b else l.ram.read? x := by
        simp only [Lcd.takeData, Memory.read?_write, hpage, hcol, ramAddr_ofNat hp (show y < 64 by omega)]
      rw [hram, hfirst, List.length_cons]
      rcases Nat.lt_trichotomy x (p * 64 + y) with hlt | rfl | hgt
      · rw [if_neg (by omega), if_neg (by omega), if_neg (by omega)]
      · rw [if_neg (by omega), if_pos rfl, if_pos (by omega), Nat.sub_self, List.getElem?_cons_zero]
      · obtain ⟨i, rfl⟩ : ∃ i, x = p * 64 + y + (i + 1) := ⟨x - (p * 64 + y) - 1, by omega⟩
        rw [if_neg (show p * 64 + y + (i + 1) ≠ p * 64 + y by omega), Nat.add_sub_cancel_left,
          List.getElem?_cons_succ, show p * 64 + y + (i + 1) - (p * 64 + (y + 1)) = i by omega]
        exact if_congr (by omega) rfl rfl

/-- A segment: the page, the column, and the bytes from there on (42_dual_chip_panel.md R162). -/
theorem takeWords_segment {k : Chip} {p y : Nat} {bytes : List Byte} (l : Lcd) (hp : p < 8)
    (hy : bytes ≠ [] → y + bytes.length ≤ 64) :
    ∃ l', takeWords k (segmentWords k p y bytes) (some l) = some l' ∧ ∀ x, l'.ram.read? x =
      if p * 64 + y ≤ x ∧ x < p * 64 + y + bytes.length then bytes[x - (p * 64 + y)]? else l.ram.read? x := by
  by_cases hb : bytes = []
  · subst hb
    exact ⟨l, rfl, fun x => (if_neg (by simp)).symm⟩
  · obtain ⟨l', hl', hram⟩ := takeWords_data (k := k) (p := p) (y := y) (bytes := bytes)
      (l := { l with page := BitVec.ofNat 3 p, col := BitVec.ofNat 6 y }) hp (hy hb) rfl rfl
    refine ⟨l', ?_, hram⟩
    rw [← hl', segmentWords, if_neg hb, takeWords, List.foldl_cons, List.foldl_cons]
    simp only [if_true, Option.bind_some, Lcd.take, Bool.false_eq_true, if_false, Lcd.takeInstruction,
      classify_pageByte, classify_columnByte]
    rfl

theorem chip_of_mem_segmentWords {k : Chip} {p y : Nat} {bytes : List Byte} {w : SentWord}
    (h : w ∈ segmentWords k p y bytes) : w.1 = k := by
  unfold segmentWords at h
  split at h
  · simp at h
  · simp only [List.mem_cons, List.mem_map] at h
    rcases h with rfl | rfl | ⟨b, -, rfl⟩ <;> rfl

theorem takeWords_segment_other {j k : Chip} (h : j ≠ k) (p y : Nat) (bytes : List Byte) (o : Option Lcd) :
    takeWords k (segmentWords j p y bytes) o = o :=
  takeWords_of_ne (fun _ hw => chip_of_mem_segmentWords hw ▸ h) o

/-! ## A run -/

/-- What a run of bytes at byte-row `r` from column `c` on leaves on the panel: the bytes in their columns, and every
other byte as it was. -/
def State.Written (r c : Nat) (bytes : List Byte) (s t : State) : Prop :=
  ∀ r' c', r' < 8 → c' < 128 → t.panelByte r' c' =
    if r' = r ∧ c ≤ c' ∧ c' < c + bytes.length then bytes[c' - c]? else s.panelByte r' c'

/-- A chip's part of the panel after a segment sent to it. -/
theorem panelByte_of_segment {s t : State} {k : Chip} {r y : Nat} {bytes : List Byte} (hr : r < 8)
    (hy : bytes ≠ [] → y + bytes.length ≤ 64) (hs : s.lcd k ≠ none)
    (ht : t.lcd k = takeWords k (segmentWords k r y bytes) (s.lcd k)) :
    t.lcd k ≠ none ∧ ∀ r' c', c' < 128 → chipOf c' = k → t.panelByte r' c' =
      if r' = r ∧ y ≤ localCol c' ∧ localCol c' < y + bytes.length then bytes[localCol c' - y]?
      else s.panelByte r' c' := by
  obtain ⟨l, hl⟩ := Option.ne_none_iff_exists'.mp hs
  obtain ⟨l', hl', hram⟩ := takeWords_segment (k := k) l hr hy
  rw [hl, hl'] at ht
  refine ⟨by rw [ht]; exact nofun, fun r' c' hc' hk => ?_⟩
  have hlocal := localCol_lt hc'
  simp only [State.panelByte, hk, ht, hl, Option.bind_some, Lcd.byteAt, hram]
  generalize localCol c' = x at hlocal ⊢
  have hfits : y + bytes.length ≤ 64 ∨ bytes.length = 0 := by
    rw [List.length_eq_zero_iff]
    exact (em (bytes = [])).symm.imp_left hy
  by_cases hin : r' = r ∧ y ≤ x ∧ x < y + bytes.length
  · obtain ⟨rfl, h1, h2⟩ := hin
    rw [if_pos (by omega), if_pos ⟨rfl, h1, h2⟩, show r' * 64 + x - (r' * 64 + y) = x - y by omega]
  · rw [if_neg (by omega), if_neg hin]

/-- The panel after the words of a run that fits: the columns left of 64 are Chip1's, the others Chip2's. -/
theorem written_of_takeWords {s t : State} {r c : Nat} {bytes : List Byte} (hr : r < 8) (hn : c + bytes.length ≤ 128)
    (hs : ∀ k, s.lcd k ≠ none) (ht : ∀ k, t.lcd k = takeWords k (runWords r c bytes) (s.lcd k)) :
    (∀ k, t.lcd k ≠ none) ∧ s.Written r c bytes t := by
  obtain ⟨hlive1, left⟩ := panelByte_of_segment (k := .chip1) (y := c) (bytes := bytes.take (64 - c)) hr
    (fun h => by rw [Ne, List.take_eq_nil_iff] at h; rw [List.length_take]; omega) (hs .chip1)
    (by rw [ht, runWords, takeWords_append, takeWords_segment_other (j := .chip2) (by simp)])
  obtain ⟨hlive2, right⟩ := panelByte_of_segment (k := .chip2) (y := c - 64) (bytes := bytes.drop (64 - c)) hr
    (fun h => by rw [Ne, List.drop_eq_nil_iff] at h; rw [List.length_drop]; omega) (hs .chip2)
    (by rw [ht, runWords, takeWords_append, takeWords_segment_other (j := .chip1) (by simp)])
  refine ⟨fun k => by cases k <;> assumption, fun r' c' _ hc' => ?_⟩
  by_cases hlo : c' < 64
  · have hlocal : localCol c' = c' := if_pos hlo
    rw [left r' c' hc' (if_pos hlo), List.length_take, hlocal]
    by_cases hin : r' = r ∧ c ≤ c' ∧ c' < c + bytes.length
    · rw [if_pos hin, if_pos (by omega), List.getElem?_take_of_lt (by omega)]
    · rw [if_neg hin, if_neg (by omega)]
  · have hlocal : localCol c' = c' - 64 := if_neg hlo
    rw [right r' c' hc' (if_neg hlo), List.length_drop, hlocal]
    by_cases hin : r' = r ∧ c ≤ c' ∧ c' < c + bytes.length
    · rw [if_pos hin, if_pos (by omega), List.getElem?_drop, show 64 - c + (c' - 64 - (c - 64)) = c' - c by omega]
    · rw [if_neg hin, if_neg (by omega)]

/-- An answered run that fits, from any control state with the panel's reset released and no chip refused. -/
theorem setBytesAtSeq_answered {s : State} {r c m : Nat} {bytes : List Byte} (hl : s.Live)
    (hfits : runFits r c bytes.length = true) (ha : s.Acks (8 * (runWords r c bytes).length + m)) :
    ∃ t, setBytesAtSeq r c bytes s = .ok bytes.length t ∧ t.Acks m ∧ t.Live ∧ t.fb = s.fb ∧
      s.Written r c bytes t := by
  obtain ⟨hr, hs⟩ := hl
  obtain ⟨t, ht, hta, hfb, htr, htl⟩ := sendWords_answered hr ha
  rw [setBytesAtSeq_eq, if_pos hfits, Action.andThen_ok ht]
  simp only [runFits, Bool.not_eq_true', Bool.or_eq_false_iff, decide_eq_false_iff_not] at hfits
  obtain ⟨⟨hrow, -⟩, hn⟩ := hfits
  obtain ⟨hlive, hw⟩ := written_of_takeWords (by omega) (by omega) hs htl
  exact ⟨t, rfl, hta, ⟨htr, hlive⟩, hfb, hw⟩

/-- How many words a run has (43_framebuffer.md R196, 70_reset_and_hazards.md R266). -/
theorem runWords_length (r c : Nat) (bytes : List Byte) :
    (runWords r c bytes).length = runBusWrites c bytes.length := by
  have segment : ∀ k p y (bs : List Byte),
      (segmentWords k p y bs).length = if bs.length = 0 then 0 else bs.length + 2 := by
    intro k p y bs
    cases bs <;> simp [segmentWords]
  rw [runWords, List.length_append, segment, segment, List.length_take, List.length_drop]
  unfold runBusWrites
  split_ifs <;> omega

end Sys2Proof.Machine
end

section
/-! A flush that is answered brings the panel up to date, from any control state (20_memory.md R68, 43_framebuffer.md
R194). `Flushed` says of a set of cells that they are clean and shown and that nothing else changed; runs, rows and the
whole flush are sets of cells that grow by union. -/

namespace Sys2Proof.Machine

/-! ## The dirty runs of a row cover its dirty columns -/

/-- Every run has a column, and ends within the row. -/
theorem dirtyRunsFrom_bounds {c : Nat} {o : Option Nat} {ds : List Bool} (ho : ∀ a ∈ o, a < c) :
    ∀ run ∈ dirtyRunsFrom c o ds, run.1 < run.2 ∧ run.2 ≤ c + ds.length := by
  fun_induction dirtyRunsFrom c o ds with
  | case1 c => simp
  | case2 c a => simpa using ho
  | case3 c ds ih =>
    intro run hrun
    have := ih (by simp) run hrun
    rw [List.length_cons]
    omega
  | case4 c d ds hd ih =>
    intro run hrun
    have := ih (by simp) run hrun
    rw [List.length_cons]
    omega
  | case5 c a ds ih =>
    intro run hrun
    have hac : a < c := ho a rfl
    have := ih (by simp; omega) run hrun
    rw [List.length_cons]
    omega
  | case6 c a d ds hd ih =>
    intro run hrun
    have hac : a < c := ho a rfl
    rw [List.length_cons]
    rcases List.mem_cons.mp hrun with rfl | hrun
    · exact ⟨hac, by simp⟩
    · have := ih (by simp) run hrun
      omega

/-- The dirty columns from `c` on: the first one, or those after it. -/
theorem dirtyFrom_cons (c x : Nat) (d : Bool) (ds : List Bool) :
    (c ≤ x ∧ (d :: ds)[x - c]? = some true) ↔ (x = c ∧ d = true) ∨ (c + 1 ≤ x ∧ ds[x - (c + 1)]? = some true) := by
  rcases Nat.lt_trichotomy x c with h | rfl | h
  · simp only [show ¬ c ≤ x by omega, show x ≠ c by omega, show ¬ c + 1 ≤ x by omega, false_and, or_false]
  · simp
  · obtain ⟨i, rfl⟩ : ∃ i, x = c + 1 + i := ⟨x - (c + 1), by omega⟩
    simp [show c + 1 + i - c = i + 1 by omega, show c ≤ c + 1 + i by omega, show c + 1 + i ≠ c by omega]

/-- The columns of the runs are those of the open run and the dirty ones. -/
theorem mem_dirtyRunsFrom {c : Nat} {o : Option Nat} {ds : List Bool} (ho : ∀ a ∈ o, a < c) (x : Nat) :
    (∃ run ∈ dirtyRunsFrom c o ds, run.1 ≤ x ∧ x < run.2) ↔
      (∃ a ∈ o, a ≤ x ∧ x < c) ∨ (c ≤ x ∧ ds[x - c]? = some true) := by
  fun_induction dirtyRunsFrom c o ds with
  | case1 c => simp
  | case2 c a => simp
  | case3 c ds ih =>
    have hfirst : c ≤ x ∧ x ≤ c ↔ x = c := by omega
    rw [ih (by simp), dirtyFrom_cons]
    simp [hfirst]
  | case4 c d ds hd ih =>
    rw [ih (by simp), dirtyFrom_cons]
    simp [hd]
  | case5 c a ds ih =>
    have hac : a < c := ho a rfl
    have hopen : a ≤ x ∧ x ≤ c ↔ (a ≤ x ∧ x < c) ∨ x = c := by omega
    rw [ih (by simp; omega), dirtyFrom_cons]
    simp [hopen, or_assoc]
  | case6 c a d ds hd ih =>
    have hrest := ih (by simp)
    simp only [List.mem_cons, or_and_right, exists_or, exists_eq_left, hrest, dirtyFrom_cons]
    simp [hd]

theorem FrameBuffer.rowDirty_getElem? (fb : FrameBuffer) (r : Nat) {c : Nat} (hc : c < 128) :
    (fb.rowDirty r)[c]? = some (fb.cell r c).dirty := by
  simp [FrameBuffer.rowDirty, hc]

theorem FrameBuffer.rowDirty_length (fb : FrameBuffer) (r : Nat) : (fb.rowDirty r).length = 128 := by
  simp [FrameBuffer.rowDirty]

theorem dirtyRuns_bounds {fb : FrameBuffer} {r : Nat} :
    ∀ run ∈ dirtyRuns (fb.rowDirty r), run.1 < run.2 ∧ run.2 ≤ 128 := by
  have := dirtyRunsFrom_bounds (c := 0) (o := none) (ds := fb.rowDirty r) (by simp)
  rwa [FrameBuffer.rowDirty_length, Nat.zero_add] at this

/-- A column of the grid is in a run of its row exactly if its cell is dirty (43_framebuffer.md R193). -/
theorem mem_dirtyRuns {fb : FrameBuffer} {r c : Nat} (hc : c < 128) :
    (∃ run ∈ dirtyRuns (fb.rowDirty r), run.1 ≤ c ∧ c < run.2) ↔ (fb.cell r c).dirty = true := by
  rw [dirtyRuns, mem_dirtyRunsFrom (by simp), Nat.sub_zero, FrameBuffer.rowDirty_getElem? fb r hc]
  simp

/-! ## Sets of cells that are flushed -/

/-- From one state to the other the cells of `D` became clean and are shown; every other cell, and every other byte of
the panel, is as it was, and so is every value. -/
def State.Flushed (D : Nat → Nat → Prop) (s t : State) : Prop :=
  t.Live ∧ ∀ r c, r < 8 → c < 128 →
    (D r c → t.fb.cell r c = { (s.fb.cell r c) with dirty := false } ∧ t.Shows r c) ∧
    (¬ D r c → t.fb.cell r c = s.fb.cell r c ∧ t.panelByte r c = s.panelByte r c)

theorem State.Flushed.nothing {s : State} {D : Nat → Nat → Prop} (hl : s.Live) (hD : ∀ r c, ¬ D r c) : s.Flushed D s :=
  ⟨hl, fun r c _ _ => ⟨fun h => absurd h (hD r c), fun _ => ⟨rfl, rfl⟩⟩⟩

/-- One set of cells after another. -/
theorem State.Flushed.trans {D E F : Nat → Nat → Prop} {s t u : State} (h : s.Flushed D t) (k : t.Flushed E u)
    (hF : ∀ r c, r < 8 → c < 128 → (F r c ↔ D r c ∨ E r c)) : s.Flushed F u := by
  obtain ⟨-, hc⟩ := h
  obtain ⟨hl, kc⟩ := k
  refine ⟨hl, fun r c hr hc' => ?_⟩
  obtain ⟨hin, hout⟩ := hc r c hr hc'
  obtain ⟨kin, kout⟩ := kc r c hr hc'
  rw [hF r c hr hc']
  by_cases hE : E r c
  · obtain ⟨kcell, kshow⟩ := kin hE
    refine ⟨fun _ => ⟨?_, kshow⟩, fun h => absurd (.inr hE) h⟩
    by_cases hD : D r c
    · rw [kcell, (hin hD).1]
    · rw [kcell, (hout hD).1]
  · obtain ⟨kcell, kpanel⟩ := kout hE
    refine ⟨fun h => ?_, fun h => ?_⟩
    · obtain ⟨hcell, hshow⟩ := hin (h.resolve_right hE)
      exact ⟨kcell.trans hcell, by rw [State.Shows, kpanel, kcell]; exact hshow⟩
    · obtain ⟨hcell, hpanel⟩ := hout fun hD => h (.inl hD)
      exact ⟨kcell.trans hcell, kpanel.trans hpanel⟩

/-! ## Runs, rows and the whole flush -/

/-- The calls a flush of these runs may make, counted in words. -/
def runsCost (runs : List (Nat × Nat)) : Nat := (runs.map fun run => runBusWrites run.1 (run.2 - run.1)).sum

/-- An answered flush of a run. -/
theorem flushRun_answered {s : State} {r m : Nat} {run : Nat × Nat} (hl : s.Live) (hr : r < 8)
    (hrun : run.1 < run.2 ∧ run.2 ≤ 128) (ha : s.Acks (8 * runBusWrites run.1 (run.2 - run.1) + m)) :
    ∃ t, flushRun r run s = .ok () t ∧ t.Acks m ∧
      s.Flushed (fun r' c => r' = r ∧ run.1 ≤ c ∧ c < run.2) t := by
  have hlen : (s.fb.values r run.1 run.2).length = run.2 - run.1 := by simp [FrameBuffer.values]
  obtain ⟨t, ht, hta, htl, hfb, hw⟩ := setBytesAtSeq_answered (r := r) (c := run.1) (m := m)
    (bytes := s.fb.values r run.1 run.2) hl (by simp [runFits, hlen]; omega) (by rwa [runWords_length, hlen])
  rw [hlen] at ht
  refine ⟨{ t with fb := t.fb.clean r run.1 (run.2 - run.1) }, ?_, hta, htl, fun r' c hr' hc => ?_⟩
  · rw [flushRun, Action.bind_ok ht, if_pos rfl]
    rfl
  · have hpanel := hw r' c hr' hc
    have hend : run.1 + (run.2 - run.1) = run.2 := by omega
    rw [hlen, hend] at hpanel
    simp only [FrameBuffer.cell_clean, State.Shows, hfb, hend]
    refine ⟨fun hin => ?_, fun hout => ?_⟩
    · rw [if_pos hin]
      obtain ⟨rfl, h1, h2⟩ := hin
      refine ⟨rfl, hpanel.trans ?_⟩
      rw [if_pos ⟨rfl, h1, h2⟩]
      simp [FrameBuffer.values, show c - run.1 < run.2 - run.1 by omega, show run.1 + (c - run.1) = c by omega]
    · rw [if_neg hout]
      exact ⟨rfl, hpanel.trans (if_neg hout)⟩

/-- Answered flushes of runs of one row. -/
theorem flushRuns_answered {s : State} {r m : Nat} {runs : List (Nat × Nat)} (hl : s.Live) (hr : r < 8)
    (hruns : ∀ run ∈ runs, run.1 < run.2 ∧ run.2 ≤ 128) (ha : s.Acks (8 * runsCost runs + m)) :
    ∃ t, Action.forEach (flushRun r) runs s = .ok () t ∧ t.Acks m ∧
      s.Flushed (fun r' c => r' = r ∧ ∃ run ∈ runs, run.1 ≤ c ∧ c < run.2) t := by
  induction runs generalizing s with
  | nil => exact ⟨s, rfl, by simpa [runsCost] using ha, .nothing hl (by simp)⟩
  | cons run runs ih =>
    rw [runsCost, List.map_cons, List.sum_cons] at ha
    obtain ⟨t, ht, hta, hst⟩ := flushRun_answered (m := 8 * runsCost runs + m) hl hr (hruns run (by simp))
      (ha.mono (by rw [runsCost]; omega))
    obtain ⟨u, hu, hua, htu⟩ := ih hst.1 (fun run' h => hruns run' (by simp [h])) hta
    refine ⟨u, (Action.andThen_ok ht).trans hu, hua, hst.trans htu fun r' c _ _ => ?_⟩
    simp only [List.mem_cons, or_and_right, exists_or, exists_eq_left, and_or_left]

/-- An answered flush of a row. -/
theorem flushRow_answered {s : State} {r m : Nat} (hl : s.Live) (hr : r < 8)
    (ha : s.Acks (8 * runsCost (dirtyRuns (s.fb.rowDirty r)) + m)) :
    ∃ t, flushRow r s = .ok () t ∧ t.Acks m ∧ s.Flushed (fun r' c => r' = r ∧ (s.fb.cell r' c).dirty = true) t := by
  obtain ⟨t, ht, hta, hst⟩ := flushRuns_answered hl hr dirtyRuns_bounds ha
  refine ⟨t, ht, hta, hst.trans (.nothing (D := fun _ _ => False) hst.1 fun _ _ h => h) fun r' c _ hc => ?_⟩
  rw [or_false]
  exact and_congr_right fun h => by rw [h, mem_dirtyRuns hc]

/-- The flush of a row leaves the dirty bits of the others. -/
theorem State.Flushed.rowDirty {D : Nat → Nat → Prop} {s t : State} (h : s.Flushed D t) {r : Nat} (hr : r < 8)
    (hD : ∀ c, ¬ D r c) : t.fb.rowDirty r = s.fb.rowDirty r := by
  obtain ⟨-, hc⟩ := h
  refine List.map_congr_left fun c hmem => ?_
  obtain ⟨-, hout⟩ := hc r c hr (List.mem_range.mp hmem)
  rw [(hout (hD c)).1]

/-- The calls a flush of these rows may make, counted in words. -/
def rowsCost (fb : FrameBuffer) (rows : List Nat) : Nat :=
  (rows.map fun r => runsCost (dirtyRuns (fb.rowDirty r))).sum

/-- Answered flushes of different rows. -/
theorem flushRows_answered {s : State} {m : Nat} {rows : List Nat} (hl : s.Live) (hrows : ∀ r ∈ rows, r < 8)
    (hdup : rows.Nodup) (ha : s.Acks (8 * rowsCost s.fb rows + m)) :
    ∃ t, Action.forEach flushRow rows s = .ok () t ∧ t.Acks m ∧
      s.Flushed (fun r c => r ∈ rows ∧ (s.fb.cell r c).dirty = true) t := by
  induction rows generalizing s with
  | nil => exact ⟨s, rfl, by simpa [rowsCost] using ha, .nothing hl (by simp)⟩
  | cons r rows ih =>
    obtain ⟨hnew, hdup⟩ := List.nodup_cons.mp hdup
    rw [rowsCost, List.map_cons, List.sum_cons] at ha
    obtain ⟨t, ht, hta, hst⟩ := flushRow_answered (r := r) (m := 8 * rowsCost s.fb rows + m) hl (hrows r (by simp))
      (ha.mono (by rw [rowsCost]; omega))
    have hother : ∀ r' ∈ rows, r' ≠ r := fun r' h he => hnew (he ▸ h)
    have hcost : rowsCost t.fb rows = rowsCost s.fb rows := congrArg List.sum <| List.map_congr_left fun r' h => by
      rw [hst.rowDirty (hrows r' (by simp [h])) fun _ hD => hother r' h hD.1]
    rw [← hcost] at hta
    obtain ⟨u, hu, hua, htu⟩ := ih hst.1 (fun r' h => hrows r' (by simp [h])) hdup hta
    refine ⟨u, (Action.andThen_ok ht).trans hu, hua, hst.trans htu fun r' c hr' hc => ?_⟩
    rw [List.mem_cons, or_and_right]
    refine or_congr_right (and_congr_right fun h => ?_)
    obtain ⟨-, hout⟩ := hst.2 r' c hr' hc
    rw [(hout fun hD => hother r' h hD.1).1]

/-- The words of a flush, counted by rows and runs. -/
theorem writeBackWords_length (fb : FrameBuffer) :
    (writeBackWords fb).length = rowsCost fb (List.range 8) := by
  simp only [writeBackWords, List.length_flatMap, runWords_length, rowsCost, runsCost, FrameBuffer.values, List.length_map,
    List.length_range']

/-- Settles O42: the rows of the grid flushed one after another are all of its dirty cells. -/
theorem writeBackBringsThePanelUpToDate : Obligations.WriteBackBringsThePanelUpToDate := by
  intro s hs hr h1 h2 ha
  have hl : s.Live := ⟨hr, fun k => by cases k <;> assumption⟩
  obtain ⟨t, ht, -, -, hflushed⟩ := flushRows_answered (m := 0) hl (rows := List.range 8)
    (fun r h => List.mem_range.mp h) List.nodup_range (by rwa [← writeBackWords_length, Nat.add_zero])
  refine ⟨t.record (.ok .unit), ?_, by simp, fun r c hr hc => ?_⟩
  · exact (State.perform_ready hs).trans (by rw [Action.unit, writeBackSeq, Action.andThen_ok ht]; rfl)
  · obtain ⟨hin, hout⟩ := hflushed r c hr hc
    have hpanel : (t.record (.ok .unit)).panelByte r c = t.panelByte r c := by
      rw [State.panelByte, State.record_lcd, State.panelByte]
    rw [State.record_fb, hpanel]
    cases hd : (s.fb.cell r c).dirty with
    | true =>
      obtain ⟨hcell, hshow⟩ := hin ⟨List.mem_range.mpr hr, hd⟩
      exact ⟨by rw [hcell], by rw [if_pos rfl, hshow, hcell]⟩
    | false =>
      obtain ⟨hcell, hsame⟩ := hout fun ⟨_, h⟩ => by rw [hd] at h; cases h
      exact ⟨by rw [hcell, hd], by rw [if_neg nofun, hsame]⟩

end Sys2Proof.Machine
end

section
/-! The bytes and words of the wire (30_encoding.md R70 to R79): what a masked operand is, and what the decoder makes of
the words the encoder writes. -/

namespace Sys2Proof

/-! ## Instruction bytes -/

/-- Settles O4: the classes of all 256 bytes by evaluation. -/
theorem instructionByteClassesDoNotOverlap : Obligations.InstructionByteClassesDoNotOverlap := by
  unfold Obligations.InstructionByteClassesDoNotOverlap
  decide +kernel

/-- A base with its low `k` bits free, and an operand masked to them: the operand modulo `2 ^ k` is added (R77). -/
theorem maskedByte_toNat {k q : Nat} (hk : k ≤ 8) (hq : 2 ^ k * q < 256) (n : Nat) :
    (BitVec.ofNat 8 (2 ^ k * q) ||| (BitVec.ofNat 8 n &&& BitVec.ofNat 8 (2 ^ k - 1))).toNat = 2 ^ k * q + n % 2 ^ k := by
  have hpow : 2 ^ k ∣ 2 ^ 8 := Nat.pow_dvd_pow 2 hk
  have hle := Nat.le_of_dvd (by decide) hpow
  have hpos : 0 < 2 ^ k := Nat.two_pow_pos k
  rw [BitVec.toNat_or, BitVec.toNat_and, BitVec.toNat_ofNat, BitVec.toNat_ofNat, BitVec.toNat_ofNat,
    Nat.mod_eq_of_lt hq, Nat.mod_eq_of_lt (show 2 ^ k - 1 < 2 ^ 8 by omega), Nat.and_two_pow_sub_one_eq_mod,
    Nat.mod_mod_of_dvd _ hpow, Nat.two_pow_add_eq_or_of_lt (Nat.mod_lt _ hpos)]

theorem pageByte_toNat (n : Nat) : (pageByte n).toNat = 0xB8 + n % 8 :=
  maskedByte_toNat (k := 3) (q := 23) (by decide) (by decide) n
theorem columnByte_toNat (n : Nat) : (columnByte n).toNat = 0x40 + n % 64 :=
  maskedByte_toNat (k := 6) (q := 1) (by decide) (by decide) n
theorem startLineByte_toNat (n : Nat) : (startLineByte n).toNat = 0xC0 + n % 64 :=
  maskedByte_toNat (k := 6) (q := 3) (by decide) (by decide) n

/-- An operand and its masked value give one byte (R77). -/
theorem pageByte_mod (n : Nat) : pageByte (n % 8) = pageByte n :=
  BitVec.eq_of_toNat_eq (by simp only [pageByte_toNat, Nat.mod_mod])
theorem columnByte_mod (n : Nat) : columnByte (n % 64) = columnByte n :=
  BitVec.eq_of_toNat_eq (by simp only [columnByte_toNat, Nat.mod_mod])
theorem startLineByte_mod (n : Nat) : startLineByte (n % 64) = startLineByte n :=
  BitVec.eq_of_toNat_eq (by simp only [startLineByte_toNat, Nat.mod_mod])

/-- The byte of a class with its operand; a reserved byte has none (R76, R78). -/
def InstrClass.byte? : InstrClass → Option Byte
  | .power on => some (powerByte on)
  | .setColumn y => some (columnByte y.toNat)
  | .setPage p => some (pageByte p.toNat)
  | .setStartLine n => some (startLineByte n.toNat)
  | .reserved => none

/-- A byte that is not reserved is the byte of its class. -/
theorem byte?_classify : ∀ b : Byte, classify b ≠ .reserved → (classify b).byte? = some b := by decide +kernel

/-! ## Bus words -/

/-- The operation of an instruction byte of a class, sent to a chip (R76, log 7). -/
def InstrClass.operation (k : Chip) (b : Byte) : InstrClass → Instr
  | .power on => .lcdPower k on
  | .setColumn y => .lcdSetColumn k y.toNat
  | .setPage p => .lcdSetPage k p.toNat
  | .setStartLine n => .lcdSetStartLine k n.toNat
  | .reserved => .busWrite k false b

/-- Bit 8 of a bus word is its DI, and bits 7 to 0 its byte (R75). -/
theorem busWordOf_di (rw di : Bool) (d : Byte) : (busWordOf rw di d).getLsbD 8 = di := by
  cases rw <;> cases di <;> simp [busWordOf]
theorem busWordOf_byte (rw di : Bool) (d : Byte) : (busWordOf rw di d).setWidth 8 = d := by
  cases rw <;> cases di <;> simp [busWordOf]

/-- What the decoder makes of the word of a read, of a data byte and of an instruction byte (R75, R76, R78). -/
theorem decodeBusWord_read (k : Chip) (di : Bool) (d : Byte) :
    decodeBusWord k (busWordOf true di d) = if di then .lcdReadData k else .lcdReadStatus k := by
  rw [decodeBusWord, Laws.EncodesInItsFormat.busWordOf_bit9, busWordOf_di, if_pos rfl]
theorem decodeBusWord_data (k : Chip) (d : Byte) : decodeBusWord k (busWordOf false true d) = .lcdWriteData k d := by
  simp only [decodeBusWord, Laws.EncodesInItsFormat.busWordOf_bit9, busWordOf_di, busWordOf_byte, Bool.false_eq_true,
    if_false, if_true]
theorem decodeBusWord_instruction (k : Chip) (d : Byte) :
    decodeBusWord k (busWordOf false false d) = (classify d).operation k d := by
  simp only [decodeBusWord, Laws.EncodesInItsFormat.busWordOf_bit9, busWordOf_di, busWordOf_byte, Bool.false_eq_true,
    if_false]
  cases classify d <;> rfl

/-! ## Control bytes -/

/-- A byte that has the seven fields (R74). -/
theorem decodeControl_ctrlByte (e di rw rst cs1 cs2 bl : Bool) :
    decodeControl (ctrlByte e di rw rst cs1 cs2 bl)
      = .ok (.ctrlUpdate ⟨some e, some di, some rw, some rst, some cs1, some cs2, some bl⟩) := by
  revert e di rw rst cs1 cs2 bl
  decide +kernel

/-- Settles O3: words and a line of the tables, by evaluation. -/
theorem writtenOutWordsDecode : Obligations.WrittenOutWordsDecode :=
  ⟨rfl, rfl, rfl, rfl, rfl, rfl, fun k => by cases k <;> decide, by decide +kernel⟩

end Sys2Proof
end

section
/-! Operations that share a word, or whose operands are masked to one value, have one effect in every state
(30_encoding.md R77, R82; log 7). -/

namespace Sys2Proof.Machine

/-! ## Panel primitives and bus words -/

/-- Each primitive's bus write is that of its byte, so a masked operand has the operand's effect. -/
theorem exec_lcdSetPage_mod (k : Chip) (n : Nat) (s : State) :
    exec (.lcdSetPage k (n % 8)) s = exec (.lcdSetPage k n) s := by
  simp only [exec, execLcdSetPage, lcdSetPage, pageByte_mod]
theorem exec_lcdSetColumn_mod (k : Chip) (n : Nat) (s : State) :
    exec (.lcdSetColumn k (n % 64)) s = exec (.lcdSetColumn k n) s := by
  simp only [exec, execLcdSetColumn, lcdSetColumn, columnByte_mod]
theorem exec_lcdSetStartLine_mod (k : Chip) (n : Nat) (s : State) :
    exec (.lcdSetStartLine k (n % 64)) s = exec (.lcdSetStartLine k n) s := by
  simp only [exec, execLcdSetStartLine, lcdSetStartLine, startLineByte_mod]

/-- Settles O5: the bytes from their bases and masks, and the aliasing from their equality. -/
theorem primitiveOperandsAreMasked : Obligations.PrimitiveOperandsAreMasked :=
  ⟨fun n => ⟨pageByte_toNat n, columnByte_toNat n, startLineByte_toNat n⟩, rfl, rfl, rfl, fun k n s =>
    ⟨(exec_lcdSetPage_mod k n s).symm, (exec_lcdSetColumn_mod k n s).symm, (exec_lcdSetStartLine_mod k n s).symm⟩⟩

/-- Settles O6: the meaning of each primitive is that of its expansion. -/
theorem primitivesExpandToBusSequences : Obligations.PrimitivesExpandToBusSequences := fun _ _ =>
  ⟨fun _ => rfl, fun _ => rfl, fun _ => rfl, fun _ => rfl, fun _ => rfl, rfl, rfl⟩

/-- The operation of an instruction byte is its bus write, in every state (R82). -/
theorem exec_operation (k : Chip) (b : Byte) (s : State) :
    exec ((classify b).operation k b) s = exec (.busWrite k false b) s := by
  by_cases hr : classify b = .reserved
  · rw [hr]; rfl
  · have hb := byte?_classify b hr
    cases hc : classify b with
    | reserved => exact absurd hc hr
    | _ =>
      rw [hc] at hb
      obtain rfl := Option.some.inj hb
      rfl

/-! ## A burst of one byte -/

/-- A burst of one byte reaches A_CTRL, names its register and changes the view as the register write does (R70). -/
theorem burstReaches_one (a addr : Byte) : burstReaches a addr 1 = decide (addr = a) := by
  simp [burstReaches, burstAddrs, eq_comm, BitVec.toNat_inj]
theorem Params.namesBurst_one (p : Params) (a : Byte) : Params.namesBurst p a 1 = Params.isNamed p a := by
  simp [Params.namesBurst, Params.isNamed, burstAddrs, BitVec.toNat_inj]

theorem writeBurstBody_one (a v : Byte) : writeBurstBody a [v] = writeRegisterBody a v := by
  funext s
  have hstored : ∀ t : State, t.expBurstStored a [v] = t.expStored a v := fun t => by
    simp [State.expBurstStored, State.expStored, Params.namesBurst_one, Memory.writeMany]
  have hlost : ∀ t : State, t.expBurstLost a 1 = t.expLost a := fun t => by
    simp [State.expBurstLost, State.expLost, Params.namesBurst_one, burstAddrs, Memory.eraseMany]
  simp only [writeBurstBody, writeRegisterBody, List.length_singleton, hstored, hlost]

theorem exec_burst_one (a v : Byte) (s : State) :
    exec (.expWriteRegister a v) s = exec (.expWriteRegisterBurst a [v]) s := by
  simp only [exec, execExpWriteRegister, execExpWriteRegisterBurst, List.cons_ne_nil, if_false, List.length_singleton,
    burstReaches_one, decide_eq_true_eq, writeBurstBody_one]

/-- Settles O8: the canonical form differs from the operation only where a word is shared or an operand masked. -/
theorem canonicalFormHasTheSameEffect : Obligations.CanonicalFormHasTheSameEffect := by
  intro i s _
  cases i with
  | expWriteRegisterBurst a vs =>
    match vs with
    | [] => rfl
    | [v] => exact exec_burst_one a v s
    | _ :: _ :: _ => rfl
  | busWrite k di b =>
    cases di with
    | true => exact (congrArg (exec · s) (decodeBusWord_data k b)).trans rfl
    | false => exact (congrArg (exec · s) (decodeBusWord_instruction k b)).trans (exec_operation k b s)
  | busRead k di => cases di <;> rfl
  | lcdSetStartLine k n => exact exec_lcdSetStartLine_mod k n s
  | lcdSetPage k n => exact exec_lcdSetPage_mod k n s
  | lcdSetColumn k n => exact exec_lcdSetColumn_mod k n s
  | _ => rfl

end Sys2Proof.Machine
end

section
/-! The characters of a program line (30_encoding.md R81): a list of tokens is read back from its spelling, and what
follows it is read on. -/

namespace Sys2Proof

/-! ## Words end where no name character follows -/

/-- The rest of a line begins with no character that continues a name or a number. -/
def StopsWord (cs : List Char) : Prop := ∀ c ∈ cs.head?, isNameChar c = false

theorem stopsWord_cons {c : Char} (h : isNameChar c = false) (cs : List Char) : StopsWord (c :: cs) := by
  simpa [StopsWord] using h

/-- A digit continues a name. -/
theorem digitValue_of_not_isNameChar {c : Char} (h : isNameChar c = false) : digitValue c = none := by
  simp only [isNameChar, Bool.or_eq_false_iff, Bool.and_eq_false_iff, decide_eq_false_iff_not] at h
  exact if_neg (by omega)

/-- A character that completes no token, and one that completes a token. -/
theorem lex_shift {st st' : LexState} {c : Char} (h : lexChar st c = some ([], st')) (cs : List Char) :
    lex st (c :: cs) = lex st' cs := by
  simp only [lex, h]
  exact Option.map_id'
theorem lex_emit {st st' : LexState} {c : Char} {t : Token} (h : lexChar st c = some ([t], st')) (cs : List Char) :
    lex st (c :: cs) = (lex st' cs).map (t :: ·) := by
  simp only [lex, h]
  rfl

/-- Where a word's state ends its token at every such character, the token is read and the rest is read anew. -/
theorem lex_word {st : LexState} {t : Token} {cs : List Char} (hfinish : lexFinish st = some [t])
    (hchar : ∀ c, isNameChar c = false → lexChar st c = lexEnd t c) (h : StopsWord cs) :
    lex st cs = (lex .idle cs).map (t :: ·) := by
  cases cs with
  | nil => exact hfinish
  | cons c cs =>
    have hidle : lexChar .idle c = lexStart c := rfl
    simp only [lex, hchar c (h c rfl), hidle, lexEnd]
    cases lexStart c with
    | none => rfl
    | some r => simp only [Option.map_some, Option.map_map]; rfl

/-! ## Numbers -/

/-- The digit of a value below ten. -/
theorem digitValue_digitChar : ∀ d < 10, digitValue (digitChar d) = some d := by decide

/-- A first digit that is not 0 begins a decimal number. -/
theorem lexChar_digitChar : ∀ d < 10, d ≠ 0 → lexChar .idle (digitChar d) = some ([], .decimal d) := by decide

/-- With fuel enough, the digits of a number stand before what was there. -/
theorem decimalDigits_eq (n : Nat) (f : Nat) (acc : List Char) (h : n < f) :
    decimalDigits f n acc = decimal n ++ acc := by
  induction f using Nat.strong_induction_on generalizing n acc with
  | _ f ih =>
    cases f with
    | zero => omega
    | succ f =>
      unfold decimal
      simp only [decimalDigits]
      split
      · rfl
      · rw [ih f (by omega) _ _ (by omega), ih n (by omega) _ _ (by omega), List.append_assoc]
        rfl

theorem decimal_of_lt {n : Nat} (h : n < 10) : decimal n = [digitChar n] := if_pos h

theorem decimal_of_ge {n : Nat} (h : 10 ≤ n) : decimal n = decimal (n / 10) ++ [digitChar (n % 10)] := by
  rw [decimal, decimalDigits, if_neg (by omega), decimalDigits_eq _ _ _ (by omega)]

/-- The digits of a number that is not 0, read one after another. -/
theorem lex_decimal {n : Nat} (hn : n ≠ 0) (cs : List Char) : lex .idle (decimal n ++ cs) = lex (.decimal n) cs := by
  induction n using Nat.strong_induction_on generalizing cs with
  | _ n ih =>
    by_cases h : n < 10
    · rw [decimal_of_lt h]
      exact lex_shift (lexChar_digitChar n h hn) cs
    · rw [decimal_of_ge (by omega), List.append_assoc, ih (n / 10) (by omega) (by omega)]
      refine lex_shift ?_ cs
      simp only [lexChar, digitValue_digitChar _ (Nat.mod_lt n (show 0 < 10 by decide)), Nat.div_add_mod]

/-- A number is read back from its decimal spelling. -/
theorem lex_number (n : Nat) {cs : List Char} (h : StopsWord cs) :
    lex .idle (decimal n ++ cs) = (lex .idle cs).map (.number n :: ·) := by
  by_cases hn : n = 0
  · subst hn
    refine (lex_shift (st' := .zero) (c := '0') (by decide) cs).trans (lex_word rfl (fun c hc => ?_) h)
    have hx : c ≠ 'x' := by rintro rfl; exact absurd hc (by decide)
    simp only [lexChar, hx, if_false, digitValue_of_not_isNameChar hc]
  · rw [lex_decimal hn]
    exact lex_word rfl (fun c hc => by simp only [lexChar, digitValue_of_not_isNameChar hc]) h

/-! ## Names and bits -/

/-- A letter, and then name characters. -/
def isName : List Char → Bool
  | [] => false
  | c :: cs => isLetter c && cs.all isNameChar

/-- A letter begins a name. -/
theorem lexChar_letter {c : Char} (h : isLetter c = true) : lexChar .idle c = some ([], .name [c]) := by
  have hne : ∀ d : Char, isLetter d = false → c ≠ d := fun d hd hcd => by simp [hcd, hd] at h
  have hdigit : digitValue c = none := if_neg (by simp [isLetter] at h; omega)
  have htab : c.toNat ≠ 9 := by simp [isLetter] at h; omega
  simp only [lexChar, lexStart, hdigit, h, htab, hne _ (show isLetter ' ' = false by decide),
    hne _ (show isLetter ';' = false by decide), hne _ (show isLetter ',' = false by decide),
    hne _ (show isLetter ':' = false by decide), hne _ (show isLetter '[' = false by decide),
    hne _ (show isLetter ']' = false by decide), hne _ (show isLetter '0' = false by decide),
    hne _ (show isLetter openSetChar = false by decide), hne _ (show isLetter closeSetChar = false by decide),
    hne _ (show isLetter quoteChar = false by decide), or_self, if_false, if_true]

/-- The name characters of a name, read one after another. -/
theorem lex_nameChars {s : List Char} (h : s.all isNameChar = true) (acc cs : List Char) :
    lex (.name acc) (s ++ cs) = lex (.name (s.reverse ++ acc)) cs := by
  induction s generalizing acc with
  | nil => rfl
  | cons c s ih =>
    rw [List.all_cons, Bool.and_eq_true] at h
    have hc : lexChar (.name acc) c = some ([], .name (c :: acc)) := if_pos h.1
    rw [List.cons_append, lex_shift hc, ih h.2, List.reverse_cons, List.append_assoc]
    rfl

/-- A name is read back. -/
theorem lex_name {s cs : List Char} (hs : isName s = true) (h : StopsWord cs) :
    lex .idle (s ++ cs) = (lex .idle cs).map (.name s :: ·) := by
  cases s with
  | nil => cases hs
  | cons c s =>
    rw [isName, Bool.and_eq_true] at hs
    rw [List.cons_append, lex_shift (lexChar_letter hs.1), lex_nameChars hs.2]
    exact lex_word (by simp [lexFinish]) (fun d hd => by simp [lexChar, hd]) h

/-- A row of bits is read back, with its closing quote. -/
theorem lex_bits (bs acc : List Bool) (cs : List Char) :
    lex (.bits acc) (bs.map (fun b => if b then '1' else '0') ++ quoteChar :: cs)
      = (lex .idle cs).map (.bits (acc.reverse ++ bs) :: ·) := by
  induction bs generalizing acc with
  | nil =>
    rw [List.append_nil]
    exact lex_emit rfl cs
  | cons b bs ih =>
    have hb : lexChar (.bits acc) (if b then '1' else '0') = some ([], .bits (b :: acc)) := by cases b <;> rfl
    rw [List.map_cons, List.cons_append, lex_shift hb, ih, List.reverse_cons, List.append_assoc]
    rfl

/-! ## Tokens -/

/-- A space between tokens completes none. -/
theorem lex_space (cs : List Char) : lex .idle (' ' :: cs) = lex .idle cs := lex_shift (by decide) cs

/-- A name or a number: the characters after it could continue it. -/
def Token.isWord : Token → Bool
  | .name _ | .number _ => true
  | _ => false

/-- A token that is no word is read back, whatever follows. -/
theorem lex_mark {t : Token} (ht : t.isWord = false) (cs : List Char) :
    lex .idle (t.spell ++ cs) = (lex .idle cs).map (t :: ·) := by
  cases t with
  | name | number => cases ht
  | bits bs =>
    simp only [Token.spell, List.append_assoc, List.cons_append, List.nil_append]
    exact (lex_shift (st' := .bits []) (by decide) _).trans (lex_bits bs [] cs)
  | comma =>
    have hcomma : lex .idle (',' :: ' ' :: cs) = (lex .idle (' ' :: cs)).map (.comma :: ·) := lex_emit (by decide) _
    exact hcomma.trans (congrArg _ (lex_space cs))
  | _ => exact lex_emit (by decide) cs

/-- Its spelling ends the word before it. -/
theorem stopsWord_mark {t : Token} (ht : t.isWord = false) (cs : List Char) : StopsWord (t.spell ++ cs) := by
  cases t with
  | name | number => cases ht
  | _ => exact stopsWord_cons (by decide) _

/-- Tokens that are read back from their spelling, where what follows does not continue the last. -/
def SpellsBack (ts : List Token) : Prop :=
  ∀ cs, StopsWord cs → lex .idle (ts.flatMap Token.spell ++ cs) = (lex .idle cs).map (ts ++ ·)

theorem spellsBack_nil : SpellsBack [] := fun _ _ => Option.map_id'.symm

theorem spellsBack_name {s : List Char} (hs : isName s = true) : SpellsBack [.name s] := fun cs hcs => by
  rw [List.flatMap_singleton]
  exact lex_name hs hcs

theorem spellsBack_number (n : Nat) : SpellsBack [.number n] := fun cs hcs => by
  rw [List.flatMap_singleton]
  exact lex_number n hcs

/-- Two such lists with a token between them that is no word. -/
theorem SpellsBack.join {ts us : List Token} {t : Token} (hts : SpellsBack ts) (ht : t.isWord = false)
    (hus : SpellsBack us) : SpellsBack (ts ++ t :: us) := by
  intro cs hcs
  rw [List.flatMap_append, List.flatMap_cons, List.append_assoc, List.append_assoc, hts _ (stopsWord_mark ht _),
    lex_mark ht, hus cs hcs, Option.map_map, Option.map_map]
  refine congrArg (Option.map · _) (funext fun vs => ?_)
  simp

theorem SpellsBack.cons {ts : List Token} {t : Token} (ht : t.isWord = false) (hts : SpellsBack ts) :
    SpellsBack (t :: ts) := spellsBack_nil.join ht hts

/-- Such a list between brackets. -/
theorem SpellsBack.enclosed {ts : List Token} {t u : Token} (hts : SpellsBack ts) (ht : t.isWord = false)
    (hu : u.isWord = false) : SpellsBack (t :: ts ++ [u]) := .cons ht (hts.join hu spellsBack_nil)

/-- Groups separated by commas. -/
theorem spellsBack_joinComma {gs : List (List Token)} (h : ∀ g ∈ gs, SpellsBack g) : SpellsBack (joinComma gs) := by
  induction gs with
  | nil => exact spellsBack_nil
  | cons g gs ih =>
    have hg := h g (by simp)
    cases gs with
    | nil => exact hg
    | cons => exact hg.join rfl (ih fun g' hg' => h g' (List.mem_cons_of_mem _ hg'))

end Sys2Proof
end

section
/-! The arguments of a program line (30_encoding.md R80, R81): each is read back from its tokens, and an operation's
name and arguments give the operation. -/

namespace Sys2Proof

/-! ## One argument -/

/-- The tokens of one argument: read back from their spelling, and then as the argument, whatever follows. -/
structure IsArg (ts : List Token) (a : Arg) : Prop where
  spells : SpellsBack ts
  reads : ∀ us, oneArg (ts ++ us) = some (a, us)

theorem IsArg.ne_nil {ts : List Token} {a : Arg} (h : IsArg ts a) : ts ≠ [] := by
  rintro rfl
  exact absurd (h.reads []) nofun

theorem isArg_number (n : Nat) : IsArg [.number n] (.num n) := ⟨spellsBack_number n, fun _ => rfl⟩

theorem isArg_name {s : List Char} (hs : isName s = true) : IsArg [.name s] (.name s) :=
  ⟨spellsBack_name hs, fun _ => rfl⟩

/-- The token of a list's item. -/
def ListItem.token : ListItem → Token
  | .num n => .number n
  | .bits bs => .bits bs

theorem spellsBack_item (x : ListItem) : SpellsBack [x.token] := by
  cases x with
  | num n => exact spellsBack_number n
  | bits bs => exact .cons rfl spellsBack_nil

/-- The tokens of a bracketed list (R81). -/
def listTokens (xs : List ListItem) : List Token :=
  .openList :: joinComma (xs.map fun x => [x.token]) ++ [.closeList]

/-- The items of a list that has one, up to its closing bracket. -/
theorem listItems_joinComma (x : ListItem) (xs : List ListItem) (us : List Token) :
    listItems (joinComma ((x :: xs).map fun x => [x.token]) ++ .closeList :: us) = some (x :: xs, us) := by
  induction xs generalizing x with
  | nil => cases x <;> rfl
  | cons y ys ih =>
    have hrest := congrArg (Option.map fun r : List ListItem × List Token => (x :: r.1, r.2)) (ih y)
    cases x <;> exact hrest

/-- Tokens that are the items of a list, after its opening bracket. -/
theorem oneArg_openList {ts us : List Token} {xs : List ListItem} (h : listItems ts = some (xs, us)) :
    oneArg (.openList :: ts) = some (.list xs, us) := by
  rw [oneArg, h]
  · rfl
  · rintro vs rfl
    exact absurd h nofun

theorem isArg_list (xs : List ListItem) : IsArg (listTokens xs) (.list xs) where
  spells := by
    refine .enclosed (spellsBack_joinComma fun g hg => ?_) rfl rfl
    obtain ⟨x, -, rfl⟩ := List.mem_map.mp hg
    exact spellsBack_item x
  reads us := by
    rw [listTokens, List.append_assoc]
    cases xs with
    | nil => rfl
    | cons x xs => exact oneArg_openList (listItems_joinComma x xs us)

/-! ## The set of a control update -/

/-- The pair of a field, where the set names it (40_expander_io.md R104). -/
def namedPair (f : String) (o : Option Bool) : List (List Char × Bool) := (o.map fun b => (f.toList, b)).toList

/-- The pairs of a set, in the order R104 writes them. -/
def CtrlSet.pairs (s : CtrlSet) : List (List Char × Bool) :=
  namedPair "E" s.e ++ namedPair "DI" s.di ++ namedPair "RW" s.rw ++ namedPair "RST" s.rst ++ namedPair "CS1" s.cs1
    ++ namedPair "CS2" s.cs2 ++ namedPair "BL" s.bl

/-- The tokens of a pair. -/
def pairGroup (p : List Char × Bool) : List Token := [.name p.1, .colon, bitToken p.2]

theorem pairTokens_eq (f : String) (o : Option Bool) : pairTokens f o = (namedPair f o).map pairGroup := by
  cases o <;> rfl

theorem setTokens_eq (s : CtrlSet) : setTokens s = .openSet :: joinComma (s.pairs.map pairGroup) ++ [.closeSet] := by
  simp only [setTokens, pairTokens_eq, CtrlSet.pairs, List.map_append]

/-- A pair added to a set. -/
def insertNamed (s : CtrlSet) (p : List Char × Bool) : Option CtrlSet := s.insertPair p.1 p.2

/-- The pairs of a set that has one, up to its closing brace. -/
theorem setPairs_joinComma (s : CtrlSet) (p : List Char × Bool) (ps : List (List Char × Bool)) (us : List Token) :
    setPairs s (joinComma ((p :: ps).map pairGroup) ++ .closeSet :: us)
      = ((p :: ps).foldlM insertNamed s).map fun t => (t, us) := by
  have hbit : ∀ b : Bool, bitValue (if b then 1 else 0) = some b := by decide
  induction ps generalizing s p with
  | nil => simp [joinComma, pairGroup, bitToken, setPairs, hbit, insertNamed]
  | cons q qs ih =>
    have hstep : setPairs s (joinComma ((p :: q :: qs).map pairGroup) ++ .closeSet :: us)
        = (insertNamed s p).bind fun t => setPairs t (joinComma ((q :: qs).map pairGroup) ++ .closeSet :: us) := by
      simp [joinComma, pairGroup, bitToken, setPairs, hbit, insertNamed]
    rw [hstep, List.foldlM_cons]
    cases insertNamed s p with
    | none => rfl
    | some t => exact ih t q

/-- The pairs of a set, added one after another to the empty set, make the set. -/
theorem foldlM_pairs (s : CtrlSet) : s.pairs.foldlM insertNamed {} = some s := by
  obtain ⟨e, di, rw, rst, cs1, cs2, bl⟩ := s
  have hE : (namedPair "E" e).foldlM insertNamed {} = some { e := e } := by cases e <;> rfl
  have hDI : (namedPair "DI" di).foldlM insertNamed { e := e } = some { e := e, di := di } := by cases di <;> rfl
  have hRW : (namedPair "RW" rw).foldlM insertNamed { e := e, di := di } = some { e := e, di := di, rw := rw } := by
    cases rw <;> rfl
  have hRST : (namedPair "RST" rst).foldlM insertNamed { e := e, di := di, rw := rw }
      = some { e := e, di := di, rw := rw, rst := rst } := by cases rst <;> rfl
  have hCS1 : (namedPair "CS1" cs1).foldlM insertNamed { e := e, di := di, rw := rw, rst := rst }
      = some { e := e, di := di, rw := rw, rst := rst, cs1 := cs1 } := by cases cs1 <;> rfl
  have hCS2 : (namedPair "CS2" cs2).foldlM insertNamed { e := e, di := di, rw := rw, rst := rst, cs1 := cs1 }
      = some { e := e, di := di, rw := rw, rst := rst, cs1 := cs1, cs2 := cs2 } := by cases cs2 <;> rfl
  have hBL : (namedPair "BL" bl).foldlM insertNamed
      { e := e, di := di, rw := rw, rst := rst, cs1 := cs1, cs2 := cs2 } = some ⟨e, di, rw, rst, cs1, cs2, bl⟩ := by
    cases bl <;> rfl
  simp only [CtrlSet.pairs, List.foldlM_append, hE, hDI, hRW, hRST, hCS1, hCS2, hBL, Option.bind_eq_bind,
    Option.bind_some]

/-- Tokens that are the pairs of a set, after its opening brace. -/
theorem oneArg_openSet {ts us : List Token} {s : CtrlSet} (h : setPairs {} ts = some (s, us)) :
    oneArg (.openSet :: ts) = some (.set s, us) := by
  rw [oneArg, h]
  · rfl
  · rintro vs rfl
    exact absurd h nofun

theorem spellsBack_pairGroup {p : List Char × Bool} (hp : isName p.1 = true) : SpellsBack (pairGroup p) :=
  (spellsBack_name hp).join (t := .colon) rfl (spellsBack_number _)

/-- The fields are names. -/
theorem isName_of_mem_pairs {s : CtrlSet} {p : List Char × Bool} (hp : p ∈ s.pairs) : isName p.1 = true := by
  have named : ∀ {f : String} {o : Option Bool}, isName f.toList = true → p ∈ namedPair f o → isName p.1 = true := by
    intro f o hf h
    rw [namedPair, Option.mem_toList, Option.map_eq_some_iff] at h
    obtain ⟨b, -, rfl⟩ := h
    exact hf
  simp only [CtrlSet.pairs, List.mem_append, or_assoc] at hp
  rcases hp with hp | hp | hp | hp | hp | hp | hp <;> exact named rfl hp

theorem isArg_set (s : CtrlSet) : IsArg (setTokens s) (.set s) where
  spells := by
    rw [setTokens_eq]
    refine .enclosed (spellsBack_joinComma fun g hg => ?_) rfl rfl
    obtain ⟨p, hp, rfl⟩ := List.mem_map.mp hg
    exact spellsBack_pairGroup (isName_of_mem_pairs hp)
  reads us := by
    have hfold := foldlM_pairs s
    rw [setTokens_eq, List.append_assoc]
    cases hps : s.pairs with
    | nil =>
      rw [hps] at hfold
      obtain rfl : {} = s := Option.some.inj hfold
      rfl
    | cons p ps =>
      rw [hps] at hfold
      exact oneArg_openSet ((setPairs_joinComma {} p ps us).trans (by rw [hfold]; rfl))

/-! ## The arguments of an operation -/

/-- The arguments that stand for an operation's operands (30_encoding.md R80, R81). -/
def byteOperand (b : Byte) : Arg := .num b.toNat
def bitOperand (b : Bool) : Arg := .num (if b then 1 else 0)
def boolOperand (b : Bool) : Arg := .name (if b then "true".toList else "false".toList)
def chipOperand : Chip → Arg
  | .chip1 => .name "Chip1".toList
  | .chip2 => .name "Chip2".toList
def bytesOperand (vs : List Byte) : Arg := .list (vs.map fun b => .num b.toNat)
def matrixOperand (m : List (List Bool)) : Arg := .list (m.map .bits)

@[simp] theorem isArg_byte (b : Byte) : IsArg [byteToken b] (byteOperand b) := isArg_number _
@[simp] theorem isArg_bit (b : Bool) : IsArg [bitToken b] (bitOperand b) := isArg_number _
@[simp] theorem isArg_bool (b : Bool) : IsArg [boolToken b] (boolOperand b) := isArg_name (by cases b <;> rfl)
@[simp] theorem isArg_chip (k : Chip) : IsArg [chipToken k] (chipOperand k) := by cases k <;> exact isArg_name rfl
@[simp] theorem isArg_bytes (vs : List Byte) : IsArg (bytesTokens vs) (bytesOperand vs) := by
  have h := isArg_list (vs.map fun b => .num b.toNat)
  rwa [listTokens, List.map_map] at h
@[simp] theorem isArg_matrix (m : List (List Bool)) : IsArg (matrixTokens m) (matrixOperand m) := by
  have h := isArg_list (m.map .bits)
  rwa [listTokens, List.map_map] at h

theorem byteOfNat_toNat (b : Byte) : byteOfNat b.toNat = some b := by
  rw [byteOfNat, if_pos b.isLt, BitVec.ofNat_toNat, BitVec.setWidth_eq]

/-- Elements that are each read back. -/
theorem mapM_map_some {α β : Type} {f : β → Option α} {g : α → β} (h : ∀ x, f (g x) = some x) (xs : List α) :
    (xs.map g).mapM f = some xs := by
  induction xs with
  | nil => rfl
  | cons x xs ih => simp [h, ih]

@[simp] theorem natArg_num (n : Nat) : natArg (.num n) = some n := rfl
@[simp] theorem byteArg_operand (b : Byte) : byteArg (byteOperand b) = some b := byteOfNat_toNat b
@[simp] theorem bitArg_operand (b : Bool) : bitArg (bitOperand b) = some b := by cases b <;> rfl
@[simp] theorem boolArg_operand (b : Bool) : boolArg (boolOperand b) = some b := by cases b <;> rfl
@[simp] theorem chipArg_operand (k : Chip) : chipArg (chipOperand k) = some k := by cases k <;> rfl
@[simp] theorem bytesArg_operand (vs : List Byte) : bytesArg (bytesOperand vs) = some vs :=
  mapM_map_some (f := ListItem.byte?) (g := fun b => .num b.toNat) byteOfNat_toNat vs
@[simp] theorem matrixArg_operand (m : List (List Bool)) : matrixArg (matrixOperand m) = some m :=
  mapM_map_some (f := ListItem.row?) (g := .bits) (fun _ => rfl) m
@[simp] theorem setArg_set (s : CtrlSet) : setArg (.set s) = some s := rfl

/-- The arguments of an operation (R80). -/
def Instr.args : Instr → List Arg
  | .expWriteRegister a v => [byteOperand a, byteOperand v]
  | .expWriteRegisterBurst a vs => [byteOperand a, bytesOperand vs]
  | .ctrlUpdate s => [.set s]
  | .expReadRegister a => [byteOperand a]
  | .busWrite k di b => [chipOperand k, bitOperand di, byteOperand b]
  | .busRead k di => [chipOperand k, bitOperand di]
  | .lcdPower k on => [chipOperand k, boolOperand on]
  | .lcdSetStartLine k n | .lcdSetPage k n | .lcdSetColumn k n => [chipOperand k, .num n]
  | .lcdWriteData k v => [chipOperand k, byteOperand v]
  | .lcdReadStatus k | .lcdReadData k => [chipOperand k]
  | .panelSetBytesAt r c vs => [.num r, .num c, bytesOperand vs]
  | .panelSetOnOff on | .panelSetBacklight on => [boolOperand on]
  | .fbSetByte r c v => [.num r, .num c, byteOperand v]
  | .fbSetBit r c v => [.num r, .num c, boolOperand v]
  | .fbSetBitMatrix r c m => [.num r, .num c, matrixOperand m]
  | .panelClear | .panelGetBacklight | .fbWriteBack | .displayNew => []

/-- Each argument is read back from its tokens. -/
theorem forall₂_isArg (i : Instr) : List.Forall₂ IsArg i.argTokens i.args := by
  cases i <;> simp [Instr.argTokens, Instr.args, isArg_number, isArg_set]

/-- The name and the arguments of an operation give the operation. -/
theorem instrOf_args (i : Instr) : instrOf i.mnemonic.toList i.args = some (some i) := by
  cases i <;> simp [instrOf, Instr.mnemonic, Instr.args]

/-! ## All arguments -/

/-- What holds of the tokens of every argument. -/
theorem forall_of_isArg {P : List Token → Prop} (hP : ∀ g a, IsArg g a → P g) {gs : List (List Token)} {as : List Arg}
    (h : List.Forall₂ IsArg gs as) : ∀ g ∈ gs, P g :=
  ((List.forall₂_and_left gs as).mp (h.imp fun g a hg => ⟨hP g a hg, hg⟩)).1

/-- Arguments separated by commas, with fuel for each. -/
theorem argList_joinComma {g : List Token} {gs : List (List Token)} {a : Arg} {as : List Arg} {n : Nat}
    (hg : IsArg g a) (h : List.Forall₂ IsArg gs as) (hn : gs.length < n) :
    argList n (joinComma (g :: gs)) = some (a :: as) := by
  induction h generalizing g a n with
  | nil =>
    obtain ⟨n, rfl⟩ := Nat.exists_eq_add_of_lt hn
    have hone : oneArg g = some (a, []) := by simpa using hg.reads []
    simp [joinComma, argList, hone]
  | @cons g' a' gs as hg' _ ih =>
    obtain ⟨n, rfl⟩ : ∃ m, n = m + 1 := ⟨n - 1, by omega⟩
    have hone := hg.reads (.comma :: joinComma (g' :: gs))
    simp only [joinComma, argList, hone]
    rw [ih hg' (by simpa using hn)]
    rfl

/-- There are at least as many tokens as arguments. -/
theorem length_le_joinComma {gs : List (List Token)} (h : ∀ g ∈ gs, g ≠ []) :
    gs.length ≤ (joinComma gs).length := by
  induction gs with
  | nil => simp
  | cons g gs ih =>
    have hg := List.length_pos_iff.mpr (h g (by simp))
    have hgs := ih fun g' hg' => h g' (List.mem_cons_of_mem _ hg')
    cases gs with
    | nil => exact hg
    | cons => simp only [joinComma, List.length_append, List.length_cons] at hgs ⊢; omega

theorem allArgs_joinComma {gs : List (List Token)} {as : List Arg} (h : List.Forall₂ IsArg gs as) :
    allArgs (joinComma gs) = some as := by
  have hlen := length_le_joinComma (forall_of_isArg (fun _ _ ha => ha.ne_nil) h)
  cases h with
  | nil => rfl
  | cons hg hgs =>
    rw [List.length_cons] at hlen
    rw [allArgs, if_neg (List.ne_nil_of_length_pos (by omega))]
    exact argList_joinComma hg hgs hlen

/-! ## The line -/

/-- The line of an operation, as its tokens (R81). -/
theorem lex_renderLine (i : Instr) :
    lex .idle (renderLine i) = some (.name i.mnemonic.toList :: joinComma i.argTokens) := by
  have hname : isName i.mnemonic.toList = true := by
    cases i <;> simp only [Instr.mnemonic] <;> decide
  have hargs := spellsBack_joinComma (forall_of_isArg (fun _ _ ha => ha.spells) (forall₂_isArg i))
  have hrest := hargs [] nofun
  rw [List.append_nil] at hrest
  rw [renderLine, lex_name hname (stopsWord_cons (by decide) _), lex_space, hrest]
  simp [lex, lexFinish]

/-- Settles O9: the line is its tokens, the tokens the arguments, and name and arguments the operation. -/
theorem programLinesReadBack : Obligations.ProgramLinesReadBack := by
  intro i
  simp only [decode, decodeLine, lex_renderLine, decodeCall, allArgs_joinComma (forall₂_isArg i), instrOf_args]

end Sys2Proof
end

section
/-! Decoding after encoding (30_encoding.md R70 to R82): wire words by their fields, the other operations by their
program lines. -/

namespace Sys2Proof

/-- A set that names every field is read back from its control byte (R74). -/
theorem decodeControl_fullByte {s : CtrlSet} {b : Byte} (h : s.fullByte? = some b) :
    decodeControl b = .ok (.ctrlUpdate s) := by
  unfold CtrlSet.fullByte? at h
  split at h
  · obtain rfl := Option.some.inj h
    exact decodeControl_ctrlByte _ _ _ _ _ _ _
  · cases h

/-- An instruction byte of a class is read back as the operation of its class (R76, R78). -/
theorem decode_instruction {b : Byte} {c : InstrClass} (h : classify b = c) (k : Chip) :
    decode (.busWord k (busWordOf false false b)) = .ok (c.operation k b) := by
  rw [decode, decodeBusWord_instruction, h]

/-- Settles O7: the wire words by their fields, and every other operation by its line. -/
theorem decodeOfEncodeIsCanonical : Obligations.DecodeOfEncodeIsCanonical := by
  intro i hwf
  cases i with
  | expWriteRegister a v => rfl
  | expWriteRegisterBurst a vs =>
    match vs with
    | [] => cases hwf
    | [v] => rfl
    | _ :: _ :: _ => rfl
  | ctrlUpdate s =>
    rw [encode]
    cases hb : s.fullByte? with
    | none => exact programLinesReadBack _
    | some b => exact decodeControl_fullByte hb
  | expReadRegister a => rfl
  | busWrite k di b => rfl
  | busRead k di => exact congrArg Except.ok (decodeBusWord_read k di 0#8)
  | lcdPower k on => exact decode_instruction (Machine.classify_powerByte on) k
  | lcdSetStartLine k n => exact decode_instruction (Machine.classify_startLineByte n) k
  | lcdSetPage k n => exact decode_instruction (Machine.classify_pageByte n) k
  | lcdSetColumn k n => exact decode_instruction (Machine.classify_columnByte n) k
  | lcdWriteData k v => exact congrArg Except.ok (decodeBusWord_data k v)
  | lcdReadStatus k => exact congrArg Except.ok (decodeBusWord_read k false 0#8)
  | lcdReadData k => exact congrArg Except.ok (decodeBusWord_read k true 0#8)
  | _ => exact programLinesReadBack _

end Sys2Proof
end

section
/-! What reaches the wire and the devices: the format of every frame (30_encoding.md R70, R73), the registers of a burst
(40_expander_io.md R103), and the chips that a reserved byte reaches (30_encoding.md R79, 41_parallel_bus.md R148). -/

namespace Sys2Proof.Machine

/-! ## Frames -/

/-- Settles O52: the events an operation appends are those of its pieces, each a frame of one of the formats. -/
theorem everyFrameHasOneOfThreeFormats : Obligations.EveryFrameHasOneOfThreeFormats := by
  intro i s t es h hes e he
  obtain ⟨u, r, ⟨⟨fs, hfs, htrace⟩, -, -⟩, rfl⟩ := exec_continues h
  obtain rfl : es = items fs ++ [.result r] := by
    refine List.append_cancel_left (as := s.trace) ?_
    rw [← hes, State.record_trace, htrace, List.append_assoc]
  have hmem : e ∈ fs := by simpa using he
  exact hfs e hmem

/-! ## A burst -/

/-- A read after a run of writes: the byte of the run inside it, the old one outside. -/
theorem Memory.read?_writeMany (m : Memory) (a x : Nat) (vs : List Byte) :
    (m.writeMany a vs).read? x = if a ≤ x ∧ x < a + vs.length then vs[x - a]? else m.read? x := by
  induction vs generalizing m a with
  | nil => exact (if_neg (by simp)).symm
  | cons v vs ih =>
    rw [Memory.writeMany, ih, List.length_cons]
    by_cases hx : a + 1 ≤ x ∧ x < a + 1 + vs.length
    · rw [if_pos hx, if_pos (by omega), show x - a = x - (a + 1) + 1 by omega, List.getElem?_cons_succ]
    · rw [if_neg hx, Memory.read?_write]
      by_cases ha : x = a
      · subst ha; simp
      · rw [if_neg ha, if_neg (by omega)]

/-- A burst whose every address is a named register (log 16). -/
theorem Params.namesBurst_of_named {p : Params} {a : Byte} {n : Nat}
    (h : ∀ j < n, ∃ b ∈ p.addresses, b.toNat = a.toNat + j) : Params.namesBurst p a n = true := by
  refine List.all_eq_true.mpr fun x hx => ?_
  obtain ⟨j, hj, rfl⟩ := List.mem_map.mp hx
  rw [List.contains_iff_mem, List.mem_map]
  exact h j (List.mem_range.mp hj)

/-- Settles O12: the burst that returns Ok has stored its bytes one after another from `addr` on. -/
theorem burstStoresConsecutiveRegisters : Obligations.BurstStoresConsecutiveRegisters := by
  intro s t a vs hnamed h hok x
  obtain ⟨-, -, hf⟩ := exec_next h
  rcases writeBurstBody_cases a vs s with hw | hw | hw
  · rw [sequenceOf, Action.unit, Action.andThen_ok hw] at hf
    cases hf
    rw [State.record_exp, State.expBurstStored_exp, if_pos]
    · exact Memory.read?_writeMany _ _ _ _
    · exact Params.namesBurst_of_named hnamed
  · rw [sequenceOf, Action.unit, Action.andThen, Action.bind_err hw] at hf
    cases hf
    simp at hok
  · rw [sequenceOf, Action.unit, Action.andThen, Action.bind_stuck hw] at hf
    cases hf

/-! ## Reserved bytes -/

/-- Settles O23: the answered sequence succeeds from any control state, and its chip takes the reserved byte. -/
theorem reservedByteIsRefusedByItsChip : Obligations.ReservedByteIsRefusedByItsChip := by
  intro s k b hs hr hb ha
  obtain ⟨_, t, ht, -⟩ := busWriteSeq_answered k false b s 0 ha
  have htook := busWriteSeq_took k false b s
  rw [ht] at htook
  obtain ⟨-, hchips⟩ := htook
  obtain ⟨-, hother, htaken⟩ := hchips hr
  replace htaken := htaken.resolve_right fun h => h.1 rfl
  have hrefused : ∀ l : Lcd, l.take false b = none := fun l => by simp [Lcd.take, Lcd.takeInstruction, hb]
  refine ⟨t.record (.ok .unit), ?_, by simp, ?_, ?_⟩
  · rw [exec, execBusWrite, State.perform_ready hs, Action.unit, Action.andThen_ok ht]
    rfl
  · rw [State.record_lcd, htaken]
    cases s.lcd k <;> simp [hrefused]
  · rw [State.record_lcd, hother]

/-- Every chip that has a meaning keeps one. -/
def State.ChipsMean (s t : State) : Prop := ∀ j, s.lcd j ≠ none → t.lcd j ≠ none

theorem State.ChipsMean.refl (s : State) : s.ChipsMean s := fun _ h => h

theorem State.ChipsMean.trans (s t u : State) (h : s.ChipsMean t) (k : t.ChipsMean u) : s.ChipsMean u :=
  fun j hj => k j (h j hj)

/-- A change that touches no chip. -/
theorem State.ChipsMean.of_same {s t : State} (h1 : t.lcd1 = s.lcd1) (h2 : t.lcd2 = s.lcd2) : s.ChipsMean t := by
  intro j hj
  cases j with
  | chip1 => exact fun h => hj (h1.symm.trans h)
  | chip2 => exact fun h => hj (h2.symm.trans h)

/-- A panel reset leaves a chip's values unspecified, and its meaning alone (log 12). -/
theorem State.panelHeld_chipsMean (s : State) (v : Byte) : s.ChipsMean (s.panelHeld v) := by
  have held : ∀ (o : Option Lcd) (l : Lcd), o ≠ none → (if ctrlRST v then o else o.map fun _ => l) ≠ none := by
    intro o l ho
    split
    · exact ho
    · simpa using ho
  intro j hj
  cases j with
  | chip1 => exact held _ _ hj
  | chip2 => exact held _ _ hj

theorem writeRegisterBody_chipsMean (a v : Byte) : (writeRegisterBody a v).Keeps State.ChipsMean := by
  intro s
  rcases writeRegisterBody_cases a v s with h | h | h <;> rw [h]
  exacts [.of_same rfl rfl, .of_same rfl rfl, trivial]

theorem writeBurstBody_chipsMean (a : Byte) (vs : List Byte) : (writeBurstBody a vs).Keeps State.ChipsMean := by
  intro s
  rcases writeBurstBody_cases a vs s with h | h | h <;> rw [h]
  exacts [.of_same rfl rfl, .of_same rfl rfl, trivial]

theorem readRegisterBody_chipsMean (a : Byte) : (readRegisterBody a).Keeps State.ChipsMean := by
  intro s
  rcases readRegisterBody_cases a s with ⟨b, rx, d, h⟩ | ⟨rx, d, h⟩ | h <;> rw [h]
  exacts [.of_same rfl rfl, .of_same rfl rfl, trivial]

theorem controlWrite_chipsMean (new : Byte) : (controlWrite new).Keeps State.ChipsMean := by
  intro s
  rcases controlWrite_cases new s with h | h | h <;> rw [h]
  · exact .trans _ _ _ (.of_same rfl rfl) (State.panelHeld_chipsMean _ new)
  · exact .trans _ _ _ (.of_same rfl rfl) (State.panelHeld_chipsMean _ new)
  · trivial

theorem updateBody_chipsMean (set : CtrlSet) : (updateBody set).Keeps State.ChipsMean := by
  intro s
  rcases updateBody_eq set s with ⟨-, h⟩ | h <;> rw [h]
  · exact State.ChipsMean.refl s
  · exact controlWrite_chipsMean _ s

/-- A word that no chip refuses: data, or an instruction byte of one of the four classes (30_encoding.md R78). -/
def HasMeaning (_ : Chip) (di : Bool) (b : Byte) : Prop := di = false → classify b ≠ .reserved

theorem HasMeaning.data (k : Chip) (b : Byte) : HasMeaning k true b := nofun

theorem HasMeaning.page (k : Chip) (p : Nat) : HasMeaning k false (pageByte p) := fun _ => by
  rw [classify_pageByte]; exact nofun
theorem HasMeaning.column (k : Chip) (c : Nat) : HasMeaning k false (columnByte c) := fun _ => by
  rw [classify_columnByte]; exact nofun
theorem HasMeaning.startLine (k : Chip) (n : Nat) : HasMeaning k false (startLineByte n) := fun _ => by
  rw [classify_startLineByte]; exact nofun
theorem HasMeaning.power (k : Chip) (on : Bool) : HasMeaning k false (powerByte on) := fun _ => by
  rw [classify_powerByte]; exact nofun

theorem HasMeaning.take_ne_none {k : Chip} {di : Bool} {b : Byte} (h : HasMeaning k di b) (l : Lcd) :
    l.take di b ≠ none := by
  cases di with
  | true => exact nofun
  | false =>
    obtain ⟨l', hl, -⟩ := Lcd.takeInstruction_ram (h rfl) l
    rw [hl]
    exact nofun

theorem State.deliver_chipsMean {k : Chip} {di : Bool} {b : Byte} (hw : HasMeaning k di b) (s : State) :
    s.ChipsMean (s.deliver k di b) := by
  intro j hj
  rw [State.deliver_lcd]
  split
  · next h =>
    subst h
    obtain ⟨l, hl⟩ := Option.ne_none_iff_exists'.mp hj
    rw [hl]
    exact hw.take_ne_none l
  · exact hj

theorem State.deliverDrawn_chipsMean {k : Chip} {di : Bool} {b : Byte} (hw : HasMeaning k di b) (s : State) :
    s.ChipsMean (s.deliverDrawn k di b) := by
  intro j hj
  rcases State.deliverDrawn_lcd s k j di b with h | h <;> rw [h]
  · exact State.deliver_chipsMean hw s j hj
  · exact hj

/-- Every piece of a bus sequence keeps the chips' meanings, where the words sent have one. -/
theorem chipsMean_kept : BusKept HasMeaning State.ChipsMean where
  refl := State.ChipsMean.refl
  trans := State.ChipsMean.trans
  update set _ := updateBody_chipsMean set
  dirOut _ := writeRegisterBody_chipsMean _ _ _
  dirIn _ := writeRegisterBody_chipsMean _ _ _
  out _ _ := writeRegisterBody_chipsMean _ _ _
  wait _ _ := .of_same rfl rfl
  toggle _ _ _ hw := Action.keeps_of_ends (enableToggle_ends (Action.ends_of_keeps (updateBody_chipsMean _))
    (fun _ _ h => h.trans _ _ _ (State.deliver_chipsMean hw _))
    (fun _ _ _ h => h.trans _ _ _ (State.deliverDrawn_chipsMean hw _))) fun _ _ _ h => h

/-- A data read makes the column unknown, and leaves its chip a meaning (41_parallel_bus.md R147). -/
theorem readDisturbs_chipsMean (k : Chip) (di : Bool) : (readDisturbs k di).Keeps State.ChipsMean := by
  intro s
  cases di
  · exact State.ChipsMean.refl s
  · intro j hj
    simp only [if_true, State.forgetColumn_lcd]
    split
    · next h => subst h; simpa using hj
    · exact hj

theorem busReadSeq_chipsMean (k : Chip) (di : Bool) : (busReadSeq k di).Keeps State.ChipsMean :=
  chipsMean_kept.read (fun _ => readRegisterBody_chipsMean _ _) (readDisturbs_chipsMean k di)

theorem setterSeq_chipsMean (legal : Bool) (f : FrameBuffer → FrameBuffer) :
    (setterSeq legal f).Keeps State.ChipsMean := by
  unfold setterSeq
  split
  · exact fun _ => .of_same rfl rfl
  · exact Action.keeps_raise State.ChipsMean.refl _

theorem clearSeq_chipsMean : clearSeq.Keeps State.ChipsMean :=
  chipsMean_kept.clear .page (fun k => .column k 0) fun k => .data k _

theorem setOnOffSeq_chipsMean (on : Bool) : (setOnOffSeq on).Keeps State.ChipsMean :=
  chipsMean_kept.setOnOff fun k => .power k on

theorem writeBackSeq_chipsMean : writeBackSeq.Keeps State.ChipsMean :=
  chipsMean_kept.writeBack .page .column .data fun _ _ _ _ => .of_same rfl rfl

/-- The expander's hardware reset leaves both chips with unspecified values, which is a meaning (I10). -/
theorem bootPinsLow_chipsMean : bootPinsLow.Keeps State.ChipsMean := by
  intro s j _
  cases j <;> exact nofun

theorem bootSeq_chipsMean : bootSeq.Keeps State.ChipsMean := by
  apply Action.keeps_inOrder State.ChipsMean.refl State.ChipsMean.trans
  intro p hp
  simp only [List.mem_cons, List.not_mem_nil, or_false] at hp
  rcases hp with rfl | rfl | rfl | rfl | rfl | rfl | rfl | rfl | rfl | rfl | rfl | rfl | rfl | rfl | rfl | rfl
  exacts [bootPinsLow_chipsMean, chipsMean_kept.wait _, fun _ => .of_same rfl rfl, chipsMean_kept.wait _,
    controlWrite_chipsMean _, fun _ => writeRegisterBody_chipsMean _ _ _, chipsMean_kept.dirIn, chipsMean_kept.wait _,
    updateBody_chipsMean _, chipsMean_kept.wait _, chipsMean_kept.write (.startLine _ 0),
    chipsMean_kept.write (.startLine _ 0), clearSeq_chipsMean, setOnOffSeq_chipsMean _, updateBody_chipsMean _,
    fun _ => .of_same rfl rfl]

/-- The sequence of every operation but a bus write of a reserved byte keeps the chips' meanings. -/
theorem sequenceOf_chipsMean {i : Instr} (hi : ∀ k b, i = .busWrite k false b → classify b ≠ .reserved) :
    (sequenceOf i).Keeps State.ChipsMean := by
  have unit : ∀ {p : Action Unit}, p.Keeps State.ChipsMean → p.unit.Keeps State.ChipsMean :=
    Action.keeps_unit State.ChipsMean.refl State.ChipsMean.trans
  have value : ∀ {α : Type} {p : Action α} (f : α → Value), p.Keeps State.ChipsMean →
      (p.bind fun a => Action.ret (f a)).Keeps State.ChipsMean := fun f hp =>
    Action.keeps_bind State.ChipsMean.trans hp fun _ => Action.keeps_ret State.ChipsMean.refl _
  cases i with
  | expWriteRegister a v => exact unit (writeRegisterBody_chipsMean a v)
  | expWriteRegisterBurst a vs => exact unit (writeBurstBody_chipsMean a vs)
  | ctrlUpdate set => exact unit (updateBody_chipsMean set)
  | expReadRegister a => exact value .byte (readRegisterBody_chipsMean a)
  | busWrite k di b => exact unit (chipsMean_kept.write fun hdi => hi k b (by rw [hdi]))
  | busRead k di => exact value .byte (busReadSeq_chipsMean k di)
  | lcdPower k on => exact unit (chipsMean_kept.write (.power k on))
  | lcdSetStartLine k n => exact unit (chipsMean_kept.write (.startLine k n))
  | lcdSetPage k p => exact unit (chipsMean_kept.write (.page k p))
  | lcdSetColumn k c => exact unit (chipsMean_kept.write (.column k c))
  | lcdWriteData k v => exact unit (chipsMean_kept.write (.data k v))
  | lcdReadStatus k => exact value .byte (busReadSeq_chipsMean k false)
  | lcdReadData k => exact value .byte (busReadSeq_chipsMean k true)
  | panelSetBytesAt r c bytes =>
    exact value .nat (chipsMean_kept.setBytesAt (fun k => .page k r) .column fun k b _ => .data k b)
  | panelSetOnOff on => exact unit (setOnOffSeq_chipsMean on)
  | panelClear => exact unit clearSeq_chipsMean
  | panelSetBacklight on => exact unit (updateBody_chipsMean _)
  | panelGetBacklight => exact State.ChipsMean.refl
  | fbSetByte | fbSetBit | fbSetBitMatrix => exact unit (setterSeq_chipsMean _ _)
  | fbWriteBack => exact unit writeBackSeq_chipsMean
  | displayNew => exact unit bootSeq_chipsMean

/-- Settles O24: the sequence of the operation keeps every chip's meaning, and so does the return to the caller. -/
theorem noOtherOperationSendsReservedBytes : Obligations.NoOtherOperationSendsReservedBytes := by
  intro i s t j hi h hj
  obtain ⟨-, -, hf⟩ := exec_next h
  obtain ⟨u, r, hu, rfl⟩ := Ran.finish_next (sequenceOf_chipsMean hi) hf
  rw [State.record_lcd]
  exact hu j hj

end Sys2Proof.Machine
end

section
/-! The expander's registers, operation by operation (40_expander_io.md R102 to R105): a transport call with a listed
answer, the register bodies that are answered and that fail, and the operations that perform them. -/

namespace Sys2Proof.Machine

/-! ## One transport call -/

/-- A write call with a listed answer returns its count. -/
theorem spiWrite_reply {s : State} (bytes : List Byte) {k : Nat} {r0 r1 r2 : Byte} {rest : List Answer}
    (h : s.answers = .reply k r0 r1 r2 :: rest) :
    spiWrite bytes s = .ok k (s.afterCall (.spiWrite bytes)) := by
  simp [spiWrite, State.afterCall, h]

/-- A write call that is answered counts every byte, whether its answer is listed or not. -/
theorem spiWrite_answered {s : State} {bytes : List Byte} (h : ∀ r ∈ s.answers.take 1, r.acks bytes.length = true) :
    spiWrite bytes s = .ok bytes.length (s.afterCall (.spiWrite bytes)) := by
  rcases ha : s.answers with _ | ⟨⟨k, r0, r1, r2⟩ | _, rest⟩
  · simp [spiWrite, State.afterCall, State.emit, ha]
  · have hk : k = bytes.length := by simpa [ha, Answer.acks] using h
    rw [spiWrite_reply bytes ha, hk]
  · simp [ha, Answer.acks] at h

/-- A listed answer with another count is a failure of the first call. -/
theorem failsAt_zero {as rest : List Answer} {k : Nat} {r0 r1 r2 : Byte} (h : as = .reply k r0 r1 r2 :: rest)
    (hk : k ≠ 3) : FailsAt as 0 :=
  ⟨by simp, k, r0, r1, r2, by simp [h], hk⟩

/-! ## The burst and the read -/

theorem writeBurstBody_acked {s : State} (a : Byte) {vs : List Byte}
    (h : ∀ r ∈ s.answers.take 1, r.acks (2 + vs.length) = true) :
    writeBurstBody a vs s = .ok () ((s.afterCall (.spiWrite (expOpWrite :: a :: vs))).expBurstStored a vs) := by
  have hlen : (expOpWrite :: a :: vs).length = 2 + vs.length := Nat.add_comm _ 2
  simp only [writeBurstBody, spiWrite_answered (hlen ▸ h), hlen, if_true]

theorem writeBurstBody_failed {s : State} (a : Byte) {vs : List Byte} {k : Nat} {r0 r1 r2 : Byte} {rest : List Answer}
    (h : s.answers = .reply k r0 r1 r2 :: rest) (hk : k ≠ 2 + vs.length) :
    writeBurstBody a vs s
      = .err .transportError ((s.afterCall (.spiWrite (expOpWrite :: a :: vs))).expBurstLost a vs.length) := by
  simp only [writeBurstBody, spiWrite_reply _ h, if_neg hk, Action.raise_apply]

/-- An answered read returns its third received byte; what it received is the listed answer's bytes, if there is one,
and else free. -/
theorem readRegisterBody_acked {s : State} (a : Byte) (h : s.Acks 1) :
    ∃ r0 r1 r2 d, readRegisterBody a s
        = .ok r2 ({ s.afterCall (.spiTransfer [expOpRead, a, 0#8] [r0, r1, r2]) with draws := d }.expRead a) ∧
      ∀ k x0 x1 x2 rest, s.answers = .reply k x0 x1 x2 :: rest → r0 = x0 ∧ r1 = x1 ∧ r2 = x2 := by
  rcases ha : s.answers with _ | ⟨⟨k, r0, r1, r2⟩ | _, rest⟩
  · exact ⟨Config.freeByte s.draws, Config.freeByte (s.draws + 1), Config.freeByte (s.draws + 2), s.draws + 3,
      by simp [readRegisterBody, spiTransfer, State.afterCall, State.emit, ha], nofun⟩
  · have hk : k = 3 := by simpa [State.Acks, ha, Answer.acks] using h
    refine ⟨r0, r1, r2, s.draws, (readRegisterBody_reply a ha).trans (if_pos hk), fun _ _ _ _ _ he => ?_⟩
    cases he
    exact ⟨rfl, rfl, rfl⟩
  · simp [State.Acks, ha, Answer.acks] at h

/-! ## The control port -/

/-- A control frame that carries RST = 1 leaves both chips as they were. -/
theorem State.panelHeld_chips (s : State) {v : Byte} (h : ctrlRST v = true) :
    (s.panelHeld v).lcd1 = s.lcd1 ∧ (s.panelHeld v).lcd2 = s.lcd2 := by
  rw [State.panelHeld_released s v h]
  exact ⟨rfl, rfl⟩

theorem controlWrite_acked {s : State} (new : Byte) (h : s.Acks 1) :
    controlWrite new s = .ok ()
      ({ ((s.afterCall (evW s.params.aCtrl new)).expStored s.params.aCtrl new) with ctrl := new }.panelHeld new) := by
  simp only [controlWrite, writeRegisterBody_acked (n := 0) h]

theorem controlWrite_failed {s : State} (new : Byte) (h : FailsAt s.answers 0) :
    controlWrite new s
      = .err .transportError (((s.afterCall (evW s.params.aCtrl new)).expLost s.params.aCtrl).panelHeld new) := by
  simp only [controlWrite, writeRegisterBody_failed _ _ h]

/-- The byte an update makes is the only one with the named fields at their levels, the others as in the cache, and
bit 6 clear (40_expander_io.md R104). -/
theorem eq_applySet {set : CtrlSet} {c new : Byte} (he : ctrlE new = set.e.getD (ctrlE c))
    (hdi : ctrlDI new = set.di.getD (ctrlDI c)) (hrw : ctrlRW new = set.rw.getD (ctrlRW c))
    (hrst : ctrlRST new = set.rst.getD (ctrlRST c)) (hcs1 : ctrlCS1 new = set.cs1.getD (ctrlCS1 c))
    (hcs2 : ctrlCS2 new = set.cs2.getD (ctrlCS2 c)) (h6 : new.getLsbD 6 = false)
    (hbl : ctrlBL new = set.bl.getD (ctrlBL c)) : new = applySet set c :=
  ctrl_ext (he.trans (applySet_e set c).symm) (hdi.trans (applySet_di set c).symm) (hrw.trans (applySet_rw set c).symm)
    (hrst.trans (applySet_rst set c).symm) (hcs1.trans (applySet_cs1 set c).symm)
    (hcs2.trans (applySet_cs2 set c).symm) (h6.trans (applySet_bit6 set c).symm) (hbl.trans (applySet_bl set c).symm)

/-- An update whose byte is the cached one is suppressed (40_expander_io.md R104). -/
theorem updateBody_unchanged {set : CtrlSet} {s : State} (h : applySet set s.ctrl = s.ctrl) :
    updateBody set s = .ok () s := if_pos h

theorem updateBody_changed {set : CtrlSet} {s : State} (h : applySet set s.ctrl ≠ s.ctrl) :
    updateBody set s = controlWrite (applySet set s.ctrl) s := if_neg h

/-! ## From the body to the operation -/

/-- An operation whose sequence succeeded returns its value. -/
theorem perform_ok {α : Type} {p : Action α} {f : α → Value} {s t : State} {a : α} (hs : s.phase = .ready)
    (h : p s = .ok a t) : s.perform (p.bind fun a => Action.ret (f a)) = .next (t.record (.ok (f a))) := by
  rw [State.perform_ready hs, Action.bind_ok h, Action.ret_apply, Ran.finish]

theorem perform_unit_ok {p : Action Unit} {s t : State} (hs : s.phase = .ready) (h : p s = .ok () t) :
    s.perform p.unit = .next (t.record (.ok .unit)) := perform_ok (f := fun _ => .unit) hs h

theorem perform_unit_err {p : Action Unit} {s t : State} {e : Err} (hs : s.phase = .ready) (h : p s = .err e t) :
    s.perform p.unit = .next (t.record (.error e)) := perform_err (f := fun _ => .unit) hs h

theorem State.refuseWith_ready {s : State} (hs : s.phase = .ready) (r : Refusal) : s.refuseWith r = .refused r := by
  simp [State.refuseWith, hs]

/-- What one call and a return append to the trace. -/
theorem State.afterCall_record_trace (s : State) (e : Event) (r : OpResult) :
    ((s.afterCall e).record r).trace = s.trace ++ [.event e, .result r] :=
  List.append_assoc s.trace [.event e] [.result r]

theorem Params.isNamed_of_mem {p : Params} {a : Byte} (h : a ∈ p.addresses) : Params.isNamed p a = true :=
  List.contains_iff_mem.mpr h

/-! ## exp.writeRegister, exp.writeRegisterBurst and ctrl.update -/

/-- A register write performs unless it addresses A_CTRL (40_expander_io.md R102). -/
theorem exec_writeRegister {s : State} {a : Byte} (v : Byte) (ha : a ≠ s.params.aCtrl) :
    exec (.expWriteRegister a v) s = s.perform (writeRegisterBody a v).unit := if_neg ha

theorem exec_writeRegister_aCtrl {s : State} (v : Byte) (hs : s.phase = .ready) :
    exec (.expWriteRegister s.params.aCtrl v) s = .refused .directControlWrite :=
  (if_pos rfl).trans (State.refuseWith_ready hs _)

/-- Settles O10: the body answered and failed, and the refusal before it. -/
theorem writeRegisterSendsOneCheckedFrame : Obligations.WriteRegisterSendsOneCheckedFrame := by
  intro s a v hs
  refine ⟨fun ha hacks => ?_, fun ha k r0 r1 r2 rest hreply hk => ?_, exec_writeRegister_aCtrl v hs⟩
  · refine ⟨_, (exec_writeRegister v ha).trans (perform_unit_ok hs (writeRegisterBody_acked (n := 0) hacks)),
      s.afterCall_record_trace _ _, ⟨rfl, rfl, rfl, rfl, rfl⟩, rfl, rfl, fun hn x => ?_⟩
    exact State.expStored_read? (s.afterCall _) (Params.isNamed_of_mem hn) v x
  · refine ⟨_, (exec_writeRegister v ha).trans (perform_unit_err hs
        (writeRegisterBody_failed a v (failsAt_zero hreply hk))),
      s.afterCall_record_trace _ _, ⟨rfl, rfl, rfl, rfl, rfl⟩, rfl, rfl, fun hn x hx => ?_⟩
    exact State.expLost_read?_of_ne (s.afterCall _) (Params.isNamed_of_mem hn) hx

/-- The range of a burst contains an address, taken over the naturals (log 16). -/
theorem burstReaches_iff {a addr : Byte} {n : Nat} :
    burstReaches a addr n = true ↔ addr.toNat ≤ a.toNat ∧ a.toNat < addr.toNat + n :=
  List.contains_iff_mem.trans mem_burstAddrs

/-- A burst performs when it has a byte and its range does not contain A_CTRL (40_expander_io.md R103). -/
theorem exec_writeBurst {s : State} {a : Byte} {vs : List Byte} (hne : vs ≠ [])
    (hout : ¬ (a.toNat ≤ s.params.aCtrl.toNat ∧ s.params.aCtrl.toNat < a.toNat + vs.length)) :
    exec (.expWriteRegisterBurst a vs) s = s.perform (writeBurstBody a vs).unit :=
  (if_neg hne).trans (if_neg fun h => hout (burstReaches_iff.mp h))

theorem exec_writeBurst_empty {s : State} (a : Byte) (hs : s.phase = .ready) :
    exec (.expWriteRegisterBurst a []) s = .refused .emptyBurst := State.refuseWith_ready hs .emptyBurst

theorem exec_writeBurst_aCtrl {s : State} {a : Byte} {vs : List Byte} (hs : s.phase = .ready)
    (hin : a.toNat ≤ s.params.aCtrl.toNat ∧ s.params.aCtrl.toNat < a.toNat + vs.length) :
    exec (.expWriteRegisterBurst a vs) s = .refused .directControlWrite := by
  have hne : vs ≠ [] := by
    rintro rfl
    simp only [List.length_nil] at hin
    omega
  exact (if_neg hne).trans ((if_pos (burstReaches_iff.mpr hin)).trans (State.refuseWith_ready hs _))

/-- Settles O11: the body answered and failed, and the two refusals by the bounds of the range. -/
theorem writeBurstSendsOneCheckedFrame : Obligations.WriteBurstSendsOneCheckedFrame := by
  intro s a vs hs
  refine ⟨fun hne hout hacks => ?_, fun hne hout k r0 r1 r2 rest hreply hk => ?_, exec_writeBurst_empty a hs,
    exec_writeBurst_aCtrl hs⟩
  · exact ⟨_, (exec_writeBurst hne hout).trans (perform_unit_ok hs (writeBurstBody_acked a hacks)),
      s.afterCall_record_trace _ _, ⟨rfl, rfl, rfl, rfl, rfl⟩, rfl, rfl⟩
  · exact ⟨_, (exec_writeBurst hne hout).trans (perform_unit_err hs (writeBurstBody_failed a hreply hk)),
      s.afterCall_record_trace _ _, ⟨rfl, rfl, rfl, rfl, rfl⟩, rfl, rfl⟩

/-- Settles O13: the byte is the update's, which is suppressed when it is the cached one and else one control write. -/
theorem controlUpdateWritesOnlyAChange : Obligations.ControlUpdateWritesOnlyAChange := by
  intro s set new hs hbits
  obtain rfl : new = applySet set s.ctrl :=
    eq_applySet (hbits 0) (hbits 1) (hbits 2) (hbits 3) (hbits 4) (hbits 5) (hbits 6) (hbits 7)
  refine ⟨fun heq => ?_, fun hne hacks => ?_, fun hne k r0 r1 r2 rest hreply hk => ?_⟩
  · exact perform_unit_ok hs (updateBody_unchanged heq)
  · refine ⟨_, perform_unit_ok hs ((updateBody_changed hne).trans (controlWrite_acked _ hacks)),
      s.afterCall_record_trace _ _, rfl, ⟨rfl, rfl, rfl, rfl, rfl⟩, fun x => ?_, fun hr => ?_⟩
    · exact State.expStored_read? (s.afterCall _) (Params.isNamed_aCtrl _) _ x
    · exact State.panelHeld_chips _ hr
  · refine ⟨_, perform_unit_err hs ((updateBody_changed hne).trans (controlWrite_failed _ (failsAt_zero hreply hk))),
      s.afterCall_record_trace _ _, ⟨rfl, rfl, rfl, rfl, rfl⟩, fun x hx => ?_, fun hr => ?_⟩
    · exact State.expLost_read?_of_ne (s.afterCall _) (Params.isNamed_aCtrl _) hx
    · exact State.panelHeld_chips _ hr

end Sys2Proof.Machine
end

section
/-! Which transfers an operation makes (40_expander_io.md R105): but for exp.readRegister only a bus read makes one, and
it reads A_DATA. -/

namespace Sys2Proof.Machine

/-- The operations that are a bus read (30_encoding.md R82). -/
def isBusRead : Instr → Bool
  | .busRead .. | .lcdReadStatus .. | .lcdReadData .. => true
  | _ => false

/-- The parameters are as before, and every transfer on the way is one that samples A_DATA, where samples are made at
all. -/
def State.SamplesOnly (samples : Bool) (s t : State) : Prop :=
  t.params = s.params ∧ ∃ es, t.trace = s.trace ++ items es ∧
    ∀ tx rx, .spiTransfer tx rx ∈ es → samples = true ∧ tx = [0x41#8, s.params.aData, 0x00#8]

section
variable {samples : Bool}

/-- A change that emits nothing. -/
theorem State.SamplesOnly.of_quiet {s t : State} (ht : t.trace = s.trace) (hp : t.params = s.params) :
    s.SamplesOnly samples t := ⟨hp, [], by simp [ht], by simp⟩

theorem State.SamplesOnly.refl (s : State) : s.SamplesOnly samples s := .of_quiet rfl rfl

/-- One event that is no transfer. -/
theorem State.SamplesOnly.of_event {s t : State} {e : Event} (he : e.isSpiTransfer = false)
    (ht : t.trace = s.trace ++ [.event e]) (hp : t.params = s.params) : s.SamplesOnly samples t := by
  refine ⟨hp, [e], ht, fun tx rx hm => ?_⟩
  rw [← List.mem_singleton.mp hm] at he
  cases he

theorem State.SamplesOnly.trans (s t u : State) (h : s.SamplesOnly samples t) (k : t.SamplesOnly samples u) :
    s.SamplesOnly samples u := by
  obtain ⟨hp, es, ht, hes⟩ := h
  obtain ⟨kp, fs, ku, hfs⟩ := k
  rw [hp] at hfs
  exact ⟨kp.trans hp, es ++ fs, by simp [ku, ht],
    fun tx rx hm => (List.mem_append.mp hm).elim (hes tx rx) (hfs tx rx)⟩

theorem writeRegisterBody_samplesOnly (a v : Byte) : (writeRegisterBody a v).Keeps (State.SamplesOnly samples) := by
  intro s
  rcases writeRegisterBody_cases a v s with h | h | h <;> rw [h]
  · exact .of_event (e := evW a v) rfl rfl rfl
  · exact .of_event (e := evW a v) rfl rfl rfl
  · trivial

theorem writeBurstBody_samplesOnly (a : Byte) (vs : List Byte) :
    (writeBurstBody a vs).Keeps (State.SamplesOnly samples) := by
  intro s
  rcases writeBurstBody_cases a vs s with h | h | h <;> rw [h]
  · exact .of_event (e := .spiWrite (expOpWrite :: a :: vs)) rfl rfl rfl
  · exact .of_event (e := .spiWrite (expOpWrite :: a :: vs)) rfl rfl rfl
  · trivial

theorem controlWrite_samplesOnly (new : Byte) : (controlWrite new).Keeps (State.SamplesOnly samples) := by
  intro s
  rcases controlWrite_cases new s with h | h | h <;> rw [h]
  · exact .of_event (e := evW s.params.aCtrl new) rfl rfl rfl
  · exact .of_event (e := evW s.params.aCtrl new) rfl rfl rfl
  · trivial

theorem updateBody_samplesOnly (set : CtrlSet) : (updateBody set).Keeps (State.SamplesOnly samples) := by
  intro s
  rcases updateBody_eq set s with ⟨-, h⟩ | h <;> rw [h]
  · exact State.SamplesOnly.refl s
  · exact controlWrite_samplesOnly _ s

/-- The sampling transfer of a bus read. -/
theorem dataIn_samplesOnly : dataIn.Keeps (State.SamplesOnly true) := by
  intro s
  have sampled : ∀ rx t, t.params = s.params →
      t.trace = s.trace ++ [.event (.spiTransfer [expOpRead, s.params.aData, 0#8] rx)] → s.SamplesOnly true t := by
    intro rx t hp ht
    refine ⟨hp, [.spiTransfer [expOpRead, s.params.aData, 0#8] rx], ht, fun tx' rx' hm => ⟨rfl, ?_⟩⟩
    cases List.mem_singleton.mp hm
    rfl
  unfold dataIn
  rcases readRegisterBody_cases s.params.aData s with ⟨b, rx, d, h⟩ | ⟨rx, d, h⟩ | h <;> rw [h]
  · exact sampled rx _ rfl rfl
  · exact sampled rx _ rfl rfl
  · trivial

/-- Every piece of a bus sequence but the sample makes no transfer. -/
theorem samplesOnly_kept : BusKept (fun _ _ _ => True) (State.SamplesOnly samples) where
  refl := State.SamplesOnly.refl
  trans := State.SamplesOnly.trans
  update set _ := updateBody_samplesOnly set
  dirOut _ := writeRegisterBody_samplesOnly _ _ _
  dirIn _ := writeRegisterBody_samplesOnly _ _ _
  out _ _ := writeRegisterBody_samplesOnly _ _ _
  wait w _ := .of_event (e := .delay w) rfl rfl rfl
  toggle _ _ _ _ := Action.keeps_of_ends (enableToggle_ends (Action.ends_of_keeps (updateBody_samplesOnly _))
    (fun _ _ h => h.trans _ _ _ (.of_quiet rfl rfl)) (fun _ _ _ h => h.trans _ _ _ (.of_quiet rfl rfl)))
    fun _ _ _ h => h

theorem busReadSeq_samplesOnly (k : Chip) (di : Bool) : (busReadSeq k di).Keeps (State.SamplesOnly true) :=
  samplesOnly_kept.read dataIn_samplesOnly fun s => by cases di <;> exact .of_quiet rfl rfl

theorem setterSeq_samplesOnly (legal : Bool) (f : FrameBuffer → FrameBuffer) :
    (setterSeq legal f).Keeps (State.SamplesOnly samples) := by
  unfold setterSeq
  split
  · exact fun _ => .of_quiet rfl rfl
  · exact Action.keeps_raise State.SamplesOnly.refl _

/-- The boot makes no transfer: its two pin steps, and pieces that make none. -/
theorem bootSeq_samplesOnly : bootSeq.Keeps (State.SamplesOnly samples) := by
  have hlow : bootPinsLow.Keeps (State.SamplesOnly samples) := fun s =>
    .trans s (s.drivePin .xcs true) _ (.of_event (e := .pin .xcs true) rfl rfl rfl)
      (.of_event (e := .pin .xrst false) rfl rfl rfl)
  apply Action.keeps_inOrder State.SamplesOnly.refl State.SamplesOnly.trans
  intro p hp
  simp only [List.mem_cons, List.not_mem_nil, or_false] at hp
  rcases hp with rfl | rfl | rfl | rfl | rfl | rfl | rfl | rfl | rfl | rfl | rfl | rfl | rfl | rfl | rfl | rfl
  exacts [hlow, samplesOnly_kept.wait _, fun _ => .of_event (e := .pin .xrst true) rfl rfl rfl,
    samplesOnly_kept.wait _, controlWrite_samplesOnly _, fun _ => writeRegisterBody_samplesOnly _ _ _,
    samplesOnly_kept.dirIn, samplesOnly_kept.wait _, updateBody_samplesOnly _, samplesOnly_kept.wait _,
    samplesOnly_kept.write trivial, samplesOnly_kept.write trivial,
    samplesOnly_kept.clear (fun _ _ => trivial) (fun _ => trivial) fun _ => trivial,
    samplesOnly_kept.setOnOff fun _ => trivial, updateBody_samplesOnly _, fun _ => .of_quiet rfl rfl]

end

/-- The sequence of every operation but exp.readRegister samples A_DATA if it is a bus read, and else makes no
transfer. -/
theorem sequenceOf_samplesOnly {i : Instr} (hi : ∀ a, i ≠ .expReadRegister a) :
    (sequenceOf i).Keeps (State.SamplesOnly (isBusRead i)) := by
  have unit : ∀ {b : Bool} {p : Action Unit}, p.Keeps (State.SamplesOnly b) → p.unit.Keeps (State.SamplesOnly b) :=
    Action.keeps_unit State.SamplesOnly.refl State.SamplesOnly.trans
  have value : ∀ {b : Bool} {α : Type} {p : Action α} (f : α → Value), p.Keeps (State.SamplesOnly b) →
      (p.bind fun a => Action.ret (f a)).Keeps (State.SamplesOnly b) := fun f hp =>
    Action.keeps_bind State.SamplesOnly.trans hp fun _ => Action.keeps_ret State.SamplesOnly.refl _
  cases i with
  | expWriteRegister a v => exact unit (writeRegisterBody_samplesOnly a v)
  | expWriteRegisterBurst a vs => exact unit (writeBurstBody_samplesOnly a vs)
  | ctrlUpdate set => exact unit (updateBody_samplesOnly set)
  | expReadRegister a => exact absurd rfl (hi a)
  | busRead k di => exact value .byte (busReadSeq_samplesOnly k di)
  | lcdReadStatus k => exact value .byte (busReadSeq_samplesOnly k false)
  | lcdReadData k => exact value .byte (busReadSeq_samplesOnly k true)
  | panelSetBytesAt r c bytes =>
    exact value .nat (samplesOnly_kept.setBytesAt (fun _ => trivial) (fun _ _ => trivial) fun _ _ _ => trivial)
  | panelSetOnOff on => exact unit (samplesOnly_kept.setOnOff fun _ => trivial)
  | panelClear => exact unit (samplesOnly_kept.clear (fun _ _ => trivial) (fun _ => trivial) fun _ => trivial)
  | panelSetBacklight on => exact unit (updateBody_samplesOnly _)
  | panelGetBacklight => exact State.SamplesOnly.refl
  | fbSetByte | fbSetBit | fbSetBitMatrix => exact unit (setterSeq_samplesOnly _ _)
  | fbWriteBack =>
    exact unit (samplesOnly_kept.writeBack (fun _ _ => trivial) (fun _ _ => trivial) (fun _ _ => trivial)
      fun _ _ _ _ => .of_quiet rfl rfl)
  | displayNew => exact unit bootSeq_samplesOnly
  | busWrite | lcdPower | lcdSetStartLine | lcdSetPage | lcdSetColumn | lcdWriteData =>
    exact unit (samplesOnly_kept.write trivial)

theorem isBusRead_iff {i : Instr} :
    isBusRead i = true ↔ ∃ k di, i = .busRead k di ∨ i = .lcdReadStatus k ∨ i = .lcdReadData k := by
  cases i <;> simp [isBusRead]

/-- Every transfer that an operation other than exp.readRegister appends to the trace. -/
theorem exec_transfer {i : Instr} {s t : State} {es : List TraceItem} {tx rx : List Byte}
    (hi : ∀ a, i ≠ .expReadRegister a) (h : exec i s = .next t) (ht : t.trace = s.trace ++ es)
    (hm : TraceItem.event (.spiTransfer tx rx) ∈ es) :
    isBusRead i = true ∧ tx = [0x41#8, s.params.aData, 0x00#8] := by
  obtain ⟨-, -, hf⟩ := exec_next h
  obtain ⟨u, r, ⟨-, fs, hu, hfs⟩, rfl⟩ := Ran.finish_next (sequenceOf_samplesOnly hi) hf
  rw [State.record_trace, hu, List.append_assoc] at ht
  rw [← List.append_cancel_left ht] at hm
  have hmem : Event.spiTransfer tx rx ∈ fs := by simpa [items] using hm
  exact hfs tx rx hmem

/-- A read of a named register, answered or failed, changes none (logs 15, 31). -/
theorem State.expRead_named (s : State) {a : Byte} (h : a ∈ s.params.addresses) : (s.expRead a).exp = s.exp :=
  if_pos (Params.isNamed_of_mem h)

/-- Settles O14: the body answered and failed, and the transfers of every other operation. -/
theorem readRegisterReturnsTheThirdByte : Obligations.ReadRegisterReturnsTheThirdByte := by
  refine ⟨fun s a hs => ⟨fun hacks => ?_, fun k r0 r1 r2 rest hreply hk => ?_⟩, fun i s t es tx rx hi h ht hm => ?_⟩
  · obtain ⟨r0, r1, r2, d, hread, hreceived⟩ := readRegisterBody_acked a hacks
    exact ⟨_, r0, r1, r2, perform_ok hs hread, s.afterCall_record_trace _ _, hreceived, ⟨rfl, rfl, rfl, rfl, rfl⟩,
      rfl, rfl, State.expRead_named { s.afterCall _ with draws := d }⟩
  · have hread := (readRegisterBody_reply a hreply).trans (if_neg hk)
    exact ⟨_, perform_err hs hread, s.afterCall_record_trace _ _, ⟨rfl, rfl, rfl, rfl, rfl⟩, rfl, rfl,
      State.expRead_named (s.afterCall _)⟩
  · obtain ⟨hread, htx⟩ := exec_transfer hi h ht hm
    exact ⟨htx, isBusRead_iff.mp hread⟩

end Sys2Proof.Machine
end

section
/-! The two bus sequences answered throughout (41_parallel_bus.md R120, R121, R123). `Action.Completes` is the
counterpart of `Action.Follows` with no failing call: answered for its whole plan, a piece emits that plan and ends with
the plan's last control byte. The plans of the sequences are those of the cut sequences. -/

namespace Sys2Proof.Machine

/-! ## Completing a plan -/

/-- One plan gone through after another. -/
theorem State.Through.trans {s t u : State} {plan1 plan2 : Plan} {c1 c2 : Byte} (h : s.Through plan1 c1 t)
    (k : t.Through plan2 c2 u) : s.Through (plan1 ++ plan2) c2 u := by
  obtain ⟨htrace, -, hparams, hanswers⟩ := h
  obtain ⟨ktrace, kctrl, kparams, kanswers⟩ := k
  exact ⟨by simp [ktrace, htrace], kctrl, kparams.trans hparams,
    by rw [kanswers, hanswers, List.drop_drop, Plan.frames_append]⟩

/-- The calls after those of a plan are answered. -/
theorem State.Through.acks {s t : State} {plan : Plan} {c : Byte} {m : Nat} (h : s.Through plan c t)
    (ha : s.Acks (plan.frames + m)) : t.Acks m := by
  obtain ⟨-, -, -, hanswers⟩ := h
  rw [State.Acks, hanswers]
  exact State.Acks.mid (es := []) (c := c) (m := s.exp) ha

/-- From parameters `P` and control byte `c`, answered for every call of the plan, the action goes through the plan to
control byte `c'`. -/
def Action.Completes {α : Type} (p : Action α) (P : Params) (c : Byte) (plan : Plan) (c' : Byte) : Prop :=
  ∀ s : State, s.params = P → s.ctrl = c → s.Acks plan.frames → ∃ a t, p s = .ok a t ∧ s.Through plan c' t

section
variable {P : Params} {c : Byte}

theorem Action.Completes.bind {α β : Type} {p : Action α} {q : α → Action β} {plan1 plan2 : Plan} {c1 c2 : Byte}
    (hp : p.Completes P c plan1 c1) (hq : ∀ a, (q a).Completes P c1 plan2 c2) :
    (p.bind q).Completes P c (plan1 ++ plan2) c2 := by
  intro s hP hc ha
  rw [Plan.frames_append] at ha
  obtain ⟨a, t, ht, hst⟩ := hp s hP hc (ha.mono (Nat.le_add_right _ _))
  have hta := hst.acks ha
  have ⟨_, hct, hpt, _⟩ := hst
  obtain ⟨b, u, hu, htu⟩ := hq a t (hpt.trans hP) hct hta
  exact ⟨b, u, (Action.bind_ok ht).trans hu, hst.trans htu⟩

theorem Action.Completes.cons {p : Action Unit} {ps : List (Action Unit)} {plan1 plan2 : Plan} {c1 c2 : Byte}
    (hp : p.Completes P c plan1 c1) (hps : (Action.inOrder ps).Completes P c1 plan2 c2) :
    (Action.inOrder (p :: ps)).Completes P c (plan1 ++ plan2) c2 := hp.bind fun _ => hps

theorem Action.completes_nil : (Action.inOrder []).Completes P c [] c := fun s _ hc _ =>
  ⟨(), s, rfl, (List.append_nil _).symm, hc, rfl, rfl⟩

theorem delay_completes (w : Wait) : (delay w).Completes P c [(.delay w, c)] c := fun s _ hc _ =>
  ⟨(), s.emit (.delay w), rfl, rfl, hc, rfl, rfl⟩

theorem readDisturbs_completes (k : Chip) (di : Bool) : (readDisturbs k di).Completes P c [] c := by
  intro s _ hc _
  cases di with
  | false => exact ⟨(), s, rfl, (List.append_nil _).symm, hc, rfl, rfl⟩
  | true => exact ⟨(), s.forgetColumn k, rfl, (List.append_nil _).symm, hc, rfl, rfl⟩

/-- A register write, of a register and byte that the parameters give. -/
theorem register_completes {p : Action Unit} {a v : Byte} (hp : ∀ s, s.params = P → p s = writeRegisterBody a v s) :
    p.Completes P c [(evW a v, c)] c := fun s hP hc ha =>
  ⟨(), _, (hp s hP).trans (writeRegisterBody_acked (n := 0) ha), rfl, hc, rfl, rfl⟩

/-- A control update: nothing when the byte is the cached one, else the frame, after which it is cached. -/
theorem updateBody_completes {set : CtrlSet} {new : Byte} (hn : applySet set c = new) :
    (updateBody set).Completes P c (controlStep P c new) new := by
  rintro s rfl rfl ha
  subst hn
  by_cases he : applySet set s.ctrl = s.ctrl
  · rw [controlStep, if_pos he]
    exact ⟨(), s, updateBody_unchanged he, (List.append_nil _).symm, he.symm, rfl, rfl⟩
  · rw [controlStep, if_neg he] at ha ⊢
    exact ⟨(), _, (updateBody_changed he).trans (controlWrite_acked _ ha), rfl, rfl, rfl, rfl⟩

/-- The Enable toggle sends what its update sends. -/
theorem enableToggle_completes {k : Chip} {di : Bool} {b new : Byte} (hn : applySet { e := some false } c = new) :
    (enableToggle k di b).Completes P c (controlStep P c new) new := by
  intro s hP hc ha
  obtain ⟨_, t, ht, hthrough⟩ := updateBody_completes hn s hP hc ha
  exact ⟨(), t.deliver k di b, by rw [enableToggle, ht], hthrough⟩

end

/-- The sampling transfer, answered: it returns its third received byte, and what it received is the next listed
answer's bytes, if there is one. -/
theorem dataIn_answered {s : State} (ha : s.Acks 1) :
    ∃ r0 r1 r2 t, dataIn s = .ok r2 t ∧
      s.Through [(.spiTransfer [0x41#8, s.params.aData, 0x00#8] [r0, r1, r2], s.ctrl)] s.ctrl t ∧
      ∀ n x0 x1 x2, s.answers[0]? = some (.reply n x0 x1 x2) → r0 = x0 ∧ r1 = x1 ∧ r2 = x2 := by
  obtain ⟨r0, r1, r2, d, hread, hreceived⟩ := readRegisterBody_acked s.params.aData ha
  refine ⟨r0, r1, r2, _, hread, ⟨rfl, rfl, rfl, rfl⟩, fun n x0 x1 x2 h => ?_⟩
  obtain ⟨rest, hrest⟩ : ∃ rest, s.answers = .reply n x0 x1 x2 :: rest := by
    rw [← List.head?_eq_getElem?, List.head?_eq_some_iff] at h
    exact h
  exact hreceived n x0 x1 x2 rest hrest

/-! ## The sequences -/

section
variable (P : Params) (c : Byte) (k : Chip) (di : Bool) (b : Byte)

/-- Answered for its plan, a bus write goes through it, from any control byte. -/
theorem busWriteSeq_completes :
    (busWriteSeq k di b).Completes P c (busWritePlan P c k di b) (lineByte c di true true false false) := by
  rw [busWriteSeq_eq, busWritePlan_eq]
  refine Action.Completes.bind (c1 := lineByte c di true false (k = .chip1) (k = .chip2)) ?_ fun _ =>
    Action.Completes.bind (enableToggle_completes (applySet_lineByte _ c _ _ _ _ _ rfl rfl)) fun _ => ?_
  · exact .cons (updateBody_completes (applySet_eq_lineByte _ c rfl rfl)) <|
      .cons (register_completes fun s hP => by rw [dataDirOut, hP]) <|
      .cons (register_completes fun s hP => by rw [dataOut, hP]) <|
      .cons (updateBody_completes (applySet_lineByte _ c _ _ _ _ _ rfl rfl)) <|
      .cons (delay_completes _) Action.completes_nil
  · exact .cons (delay_completes _) <|
      .cons (updateBody_completes (applySet_lineByte _ c _ _ _ _ _ rfl rfl)) <|
      .cons (updateBody_completes (applySet_lineByte _ c _ _ _ _ _ rfl rfl)) <|
      .cons (register_completes fun s hP => by rw [dataDirIn, hP]) Action.completes_nil

/-- A bus read before its sampling transfer (41_parallel_bus.md R121, steps 1 to 4). -/
def busReadSetup : List (Action Unit) :=
  [ dataDirIn, updateBody { di := some di, rw := some true }, readDisturbs k di, updateBody (selectSet k),
    updateBody { e := some true }, delay .tRead ]

/-- A bus read after it. -/
def busReadRestore : List (Action Unit) := [updateBody deselectSet, updateBody { e := some true, rw := some true }]

theorem busReadSeq_eq : busReadSeq k di = (Action.inOrder (busReadSetup k di)).andThen
    (dataIn.bind fun v => (Action.inOrder busReadRestore).andThen (Action.ret v)) := rfl

theorem busReadSetup_completes : (Action.inOrder (busReadSetup k di)).Completes P c (samplePlan P c k di)
    (lineByte c di true true (k = .chip1) (k = .chip2)) :=
  .cons (register_completes fun s hP => by rw [dataDirIn, hP]) <|
  .cons (updateBody_completes (applySet_eq_lineByte _ c rfl rfl)) <|
  .cons (readDisturbs_completes k di) <|
  .cons (updateBody_completes (applySet_lineByte _ c _ _ _ _ _ rfl rfl)) <|
  .cons (updateBody_completes (applySet_lineByte _ c _ _ _ _ _ rfl rfl)) <|
  .cons (delay_completes _) Action.completes_nil

theorem busReadRestore_completes : (Action.inOrder busReadRestore).Completes P
    (lineByte c di true true (k = .chip1) (k = .chip2)) (deselectPlan P c k di) (lineByte c di true true false false) :=
  .cons (updateBody_completes (applySet_lineByte _ c _ _ _ _ _ rfl rfl)) <|
  .cons (updateBody_completes (applySet_lineByte _ c _ _ _ _ _ rfl rfl)) Action.completes_nil

end

/-- Answered for its plan, a bus read goes through it, from any control byte, and returns the third byte of the sampling
transfer; that transfer receives the bytes of its own answer, if that one is listed. How many calls the plan makes does
not depend on those bytes. -/
theorem busReadSeq_answered {s : State} {k : Chip} {di : Bool}
    (ha : s.Acks (Plan.frames (busReadPlan s.params s.ctrl k di []))) :
    ∃ r0 r1 r2 t, busReadSeq k di s = .ok r2 t ∧
      s.Through (busReadPlan s.params s.ctrl k di [r0, r1, r2]) (lineByte s.ctrl di true true false false) t ∧
      ∀ n x0 x1 x2, s.answers[(samplePlan s.params s.ctrl k di).frames]? = some (.reply n x0 x1 x2) →
        r0 = x0 ∧ r1 = x1 ∧ r2 = x2 := by
  simp only [busReadPlan_eq, List.append_nil, Plan.frames_append] at ha
  obtain ⟨_, t, ht, hst⟩ :=
    busReadSetup_completes s.params s.ctrl k di s rfl rfl (ha.mono (Nat.le_add_right _ _))
  have hta : t.Acks (1 + (deselectPlan s.params s.ctrl k di).frames) := hst.acks ha
  have ⟨_, htc, htp, hanswers⟩ := hst
  obtain ⟨r0, r1, r2, u, hu, htu, hreceived⟩ := dataIn_answered (hta.mono (Nat.le_add_right _ _))
  have hua : u.Acks (deselectPlan s.params s.ctrl k di).frames := htu.acks hta
  have ⟨_, huc, hup, _⟩ := htu
  obtain ⟨_, v, hv, huv⟩ :=
    busReadRestore_completes s.params s.ctrl k di u (hup.trans htp) (huc.trans htc) hua
  refine ⟨r0, r1, r2, v, ?_, ?_, fun n x0 x1 x2 h => hreceived n x0 x1 x2 ?_⟩
  · rw [busReadSeq_eq, Action.andThen_ok ht, Action.bind_ok hu, Action.andThen_ok hv, Action.ret_apply]
  · rw [busReadPlan_eq, List.append_nil]
    rw [htp, htc] at htu
    exact hst.trans (htu.trans huv)
  · rw [hanswers, List.getElem?_drop]
    exact h

theorem busReadSeq_busFrame (k : Chip) (di : Bool) : (busReadSeq k di).Keeps State.BusFrame :=
  busFrame_kept.read (fun _ => readRegisterBody_busFrame _ _) (readDisturbs_busFrame k di)

/-! ## From any control state -/

/-- A write frame and a transfer are one call each, a wait is none (40_expander_io.md R100). -/
@[simp] theorem frames_nil : Plan.frames [] = 0 := rfl
@[simp] theorem frames_write (a v c : Byte) (plan : Plan) : Plan.frames ((evW a v, c) :: plan) = plan.frames + 1 :=
  List.countP_cons_of_pos rfl
@[simp] theorem frames_delay (w : Wait) (c : Byte) (plan : Plan) : Plan.frames ((.delay w, c) :: plan) = plan.frames :=
  List.countP_cons_of_neg Bool.false_ne_true
@[simp] theorem frames_transfer (tx rx : List Byte) (c : Byte) (plan : Plan) :
    Plan.frames ((.spiTransfer tx rx, c) :: plan) = plan.frames + 1 := List.countP_cons_of_pos rfl

theorem frames_controlStep_le (p : Params) (old new : Byte) : Plan.frames (controlStep p old new) ≤ 1 := by
  rw [frames_controlStep]
  split <;> omega

/-- A bus write makes at most eight calls, from any control byte. -/
theorem frames_busWritePlan_le (p : Params) (c : Byte) (k : Chip) (di : Bool) (b : Byte) :
    Plan.frames (busWritePlan p c k di b) ≤ 8 := by
  have hstep := frames_controlStep_le p
  simp only [busWritePlan, Plan.frames_append, frames_write, frames_delay, frames_nil]
  calc _ ≤ 1 + (0 + 1 + 1) + 1 + 0 + 1 + 0 + 1 + 1 + (0 + 1) := by gcongr <;> exact hstep _ _
    _ = 8 := rfl

/-- A bus read makes its sampling transfer and at most one call after it, and at most four before it. -/
theorem frames_busReadPlan_le_sample (p : Params) (c : Byte) (k : Chip) (di : Bool) (rx : List Byte) :
    Plan.frames (busReadPlan p c k di rx) ≤ (samplePlan p c k di).frames + 2 := by
  have hdeselect := frames_controlStep_le p (lineByte c di true true (k = .chip1) (k = .chip2))
    (lineByte c di true true false false)
  simp only [busReadPlan_eq, deselectPlan, Plan.frames_append, frames_transfer, frames_nil, frames_controlStep p _ _,
    if_true] at hdeselect ⊢
  omega

theorem frames_samplePlan_le (p : Params) (c : Byte) (k : Chip) (di : Bool) : (samplePlan p c k di).frames ≤ 4 := by
  have hstep := frames_controlStep_le p
  simp only [samplePlan, Plan.frames_append, frames_write, frames_delay, frames_nil]
  calc _ ≤ 0 + 1 + (1 + (0 + (1 + (1 + (0 + 0))))) := by gcongr <;> exact hstep _ _
    _ = 4 := rfl

/-- The last byte of a bus sequence: E and RW raised, no chip selected, DI the sequence's, RST and BL as they were. -/
theorem lineByte_idleLines (c : Byte) (di : Bool) : ctrlE (lineByte c di true true false false) = true ∧
    ctrlRW (lineByte c di true true false false) = true ∧ ctrlCS1 (lineByte c di true true false false) = false ∧
    ctrlCS2 (lineByte c di true true false false) = false ∧ ctrlDI (lineByte c di true true false false) = di ∧
    ctrlRST (lineByte c di true true false false) = ctrlRST c ∧
    ctrlBL (lineByte c di true true false false) = ctrlBL c := by
  simp only [lineByte, ctrlByte_e, ctrlByte_rw, ctrlByte_cs1, ctrlByte_cs2, ctrlByte_di, ctrlByte_rst, ctrlByte_bl,
    and_self]

/-- Settles O16: each sequence makes no more calls than are answered, and goes through its plan to the idle lines. -/
theorem busSequencesRestoreTheIdleLines : Obligations.BusSequencesRestoreTheIdleLines := by
  intro s k di b hs ha
  obtain ⟨he, hrw, hcs1, hcs2, hdi, hrst, hbl⟩ := lineByte_idleLines s.ctrl di
  constructor
  · obtain ⟨_, t, ht, -, hc, -, -⟩ := busWriteSeq_completes s.params s.ctrl k di b s rfl rfl
      (ha.mono (frames_busWritePlan_le _ _ _ _ _))
    have hframe := busWriteSeq_busFrame k di b s
    rw [ht] at hframe
    obtain ⟨-, hfb, -⟩ := hframe
    refine ⟨_, perform_unit_ok hs ht, List.getLast?_concat, ?_⟩
    rw [State.record_ctrl, hc]
    exact ⟨he, hrw, hcs1, hcs2, hdi, hrst, hbl, hfb⟩
  · obtain ⟨r0, r1, r2, t, ht, ⟨-, hc, -, -⟩, -⟩ := busReadSeq_answered (s := s) (k := k) (di := di)
      (ha.mono ((frames_busReadPlan_le_sample _ _ _ _ _).trans
        (by have := frames_samplePlan_le s.params s.ctrl k di; omega)))
    have hframe := busReadSeq_busFrame k di s
    rw [ht] at hframe
    obtain ⟨-, hfb, -⟩ := hframe
    refine ⟨_, r2, perform_ok hs ht, List.getLast?_concat, ?_⟩
    rw [State.record_ctrl, hc]
    exact ⟨he, hrw, hcs1, hcs2, hdi, hrst, hbl, hfb⟩

/-! ## From the idle state -/

/-- Settles O15: the answered sequence from the idle state, and the return to the caller. -/
theorem busWriteFromIdleEmitsItsSequence : Obligations.BusWriteFromIdleEmitsItsSequence := by
  intro s k di b hs hi ha
  obtain ⟨m, h⟩ := busWriteSeq_idle (k := k) (di := di) (b := b) hi ha
  exact ⟨_, perform_unit_ok hs h, rfl, rfl, seqByte_idle _ _, rfl, rfl, rfl, rfl, rfl⟩

/-- The bytes of the panel primitives, as a base and a masked operand (30_encoding.md R76, R77). -/
theorem powerByte_eq (on : Bool) : powerByte on = if on then 0x3F#8 else 0x3E#8 := by cases on <;> rfl
theorem startLineByte_eq (n : Nat) : startLineByte n = BitVec.ofNat 8 (0xC0 + n % 64) :=
  BitVec.eq_of_toNat_eq (by rw [startLineByte_toNat, BitVec.toNat_ofNat]; omega)
theorem pageByte_eq (n : Nat) : pageByte n = BitVec.ofNat 8 (0xB8 + n % 8) :=
  BitVec.eq_of_toNat_eq (by rw [pageByte_toNat, BitVec.toNat_ofNat]; omega)
theorem columnByte_eq (n : Nat) : columnByte n = BitVec.ofNat 8 (0x40 + n % 64) :=
  BitVec.eq_of_toNat_eq (by rw [columnByte_toNat, BitVec.toNat_ofNat]; omega)

/-- Settles O18: each primitive is the bus write of its byte. -/
theorem writingPrimitivesSendTheirByte : Obligations.WritingPrimitivesSendTheirByte := by
  intro s k hs hi ha
  have sent : ∀ di b, ∃ t, exec (.busWrite k di b) s = .next t ∧ t.trace = s.trace ++
      items (busWriteEvents s.params s.ctrl k di b) ++ [.result (.ok .unit)] := fun di b =>
    let ⟨t, hexec, htrace, _⟩ := busWriteFromIdleEmitsItsSequence s k di b hs hi ha
    ⟨t, hexec, htrace⟩
  exact ⟨fun on => powerByte_eq on ▸ sent false (powerByte on),
    fun n => startLineByte_eq n ▸ sent false (startLineByte n), fun n => pageByte_eq n ▸ sent false (pageByte n),
    fun n => columnByte_eq n ▸ sent false (columnByte n), sent true⟩

section
variable {c : Byte} (hi : Idle c) (p : Params) (k : Chip) (di : Bool)
include hi

/-- From the idle state the first update of a bus read is suppressed exactly when DI does not change. -/
theorem idle_eq_seqByte_iff : seqByte c di true true false false = c ↔ ctrlDI c = di := by
  constructor
  · intro h
    rw [← h, seqByte_di]
  · rintro rfl
    exact (idle_eq_seqByte hi).symm

omit hi in
/-- A byte that selects a chip is not one that selects none. -/
theorem select_ne_deselect (e rw : Bool) :
    seqByte c di e rw (k = .chip1) (k = .chip2) ≠ seqByte c di e rw false false := by
  intro h
  have h1 := congrArg ctrlCS1 h
  have h2 := congrArg ctrlCS2 h
  cases k <;> simp at h1 h2

/-- The plan of a bus read from the idle state is the events of 41_parallel_bus.md R121. -/
theorem busReadPlan_idle (rx : List Byte) :
    (busReadPlan p c k di rx).map Prod.fst = busReadEvents p c k di rx := by
  have hfirst := idle_eq_seqByte_iff hi di
  obtain ⟨he, -, hcs1, hcs2, hrst, -⟩ := hi
  simp only [busReadPlan, he, hcs1, hcs2, lineByte_eq_seqByte hrst, controlStep, hfirst,
    if_neg (select_ne_deselect k di true true), if_neg (select_ne_deselect k di true true).symm, if_true]
  by_cases hdi : ctrlDI c = di
  · simp only [if_pos hdi, busReadEvents]; rfl
  · simp only [if_neg hdi, busReadEvents]; rfl

/-- The sampling transfer is the third call, or the fourth when DI changes. -/
theorem frames_samplePlan_idle : (samplePlan p c k di).frames = if ctrlDI c = di then 2 else 3 := by
  have hfirst := idle_eq_seqByte_iff hi di
  obtain ⟨he, -, hcs1, hcs2, hrst, -⟩ := hi
  simp only [samplePlan, he, hcs1, hcs2, lineByte_eq_seqByte hrst, Plan.frames_append, frames_controlStep, hfirst,
    if_neg (select_ne_deselect k di true true), frames_write, frames_delay, frames_nil, if_true]
  split <;> rfl

end

/-- Settles O17: five answers are enough for the plan from the idle state, whose events are those of R121. -/
theorem busReadFromIdleReturnsTheSample : Obligations.BusReadFromIdleReturnsTheSample := by
  intro s k di hs hi ha
  obtain ⟨r0, r1, r2, t, ht, ⟨htrace, hctrl, -, -⟩, hreceived⟩ := busReadSeq_answered (k := k) (di := di)
    (ha.mono ((frames_busReadPlan_le_sample _ _ _ _ _).trans (by rw [frames_samplePlan_idle hi]; split <;> omega)))
  rw [frames_samplePlan_idle hi] at hreceived
  rw [Plan.events, busReadPlan_idle hi] at htrace
  have hframe := busReadSeq_busFrame k di s
  rw [ht] at hframe
  obtain ⟨hphase, hfb, hxcs, hxrst, -, -⟩ := hframe
  obtain ⟨-, -, -, -, hrst, -⟩ := hi
  rw [lineByte_eq_seqByte hrst] at hctrl
  exact ⟨t.record (.ok (.byte r2)), r0, r1, r2, perform_ok hs ht, congrArg (· ++ _) htrace, hreceived, hctrl,
    hctrl ▸ seqByte_idle _ _, hphase, rfl, hfb, hxcs, hxrst⟩

/-- Settles O19: each reading primitive is the bus read with its DI. -/
theorem readingPrimitivesReturnTheSample : Obligations.ReadingPrimitivesReturnTheSample := by
  intro s k hs hi ha
  have read : ∀ di, ∃ t r0 r1 r2, exec (.busRead k di) s = .next t ∧ t.trace = s.trace ++
      items (busReadEvents s.params s.ctrl k di [r0, r1, r2]) ++ [.result (.ok (.byte r2))] ∧
      t.ctrl = seqByte s.ctrl di true true false false := fun di =>
    let ⟨t, r0, r1, r2, hexec, htrace, _, hctrl, _⟩ := busReadFromIdleReturnsTheSample s k di hs hi ha
    ⟨t, r0, r1, r2, hexec, htrace, hctrl⟩
  exact ⟨read false, read true⟩

end Sys2Proof.Machine
end

section
/-! The LCD controllers under the bus sequences and the operations (41_parallel_bus.md R140 to R147; environment model,
log 10). An answered bus write delivers its word from any control state. For what an operation leaves alone, `ViewKept`
says that a view of one chip (its RAM, its display, all of it) is as before with the panel's reset released; one
induction gives it for every operation whose words and reads that view does not notice. -/

namespace Sys2Proof.Machine

/-! ## An answered word -/

/-- An answered bus write from any control state: its chip takes the word, the other one is as before. -/
theorem busWrite_delivers {s : State} {k : Chip} (di : Bool) (b : Byte) (hs : s.phase = .ready)
    (hr : ctrlRST s.ctrl = true) (ha : s.Acks 8) :
    ∃ t, exec (.busWrite k di b) s = .next t ∧ t.lcd k = (s.lcd k).bind (fun l => l.take di b) ∧
      t.lcd k.other = s.lcd k.other := by
  obtain ⟨_, t, ht, -⟩ := busWriteSeq_answered k di b s 0 ha
  have htook := busWriteSeq_took k di b s
  rw [ht] at htook
  obtain ⟨-, hchips⟩ := htook
  obtain ⟨-, hother, htaken⟩ := hchips hr
  refine ⟨_, perform_unit_ok hs ht, ?_, ?_⟩
  · rw [State.record_lcd]
    exact htaken.resolve_right fun h => h.1 rfl
  · rw [State.record_lcd, hother]

/-- Settles O21: each primitive delivers an instruction byte of its class. -/
theorem chipObeysInstructionBytes : Obligations.ChipObeysInstructionBytes := by
  intro s k l hs hr hl ha
  have obeys : ∀ {b l'}, l.take false b = some l' → ∃ t, exec (.busWrite k false b) s = .next t ∧
      t.lcd k = some l' ∧ t.lcd k.other = s.lcd k.other := by
    intro b l' hb
    obtain ⟨t, hexec, htaken, hother⟩ := busWrite_delivers (k := k) false b hs hr ha
    exact ⟨t, hexec, by rw [htaken, hl, Option.bind_some, hb], hother⟩
  refine ⟨fun on => obeys (b := powerByte on) ?_, fun n => obeys (b := startLineByte n) ?_,
    fun n => obeys (b := pageByte n) ?_, fun n => obeys (b := columnByte n) ?_⟩
  · simp [Lcd.take, Lcd.takeInstruction, classify_powerByte]
  · simp [Lcd.take, Lcd.takeInstruction, classify_startLineByte]
  · simp [Lcd.take, Lcd.takeInstruction, classify_pageByte]
  · simp [Lcd.take, Lcd.takeInstruction, classify_columnByte]

/-- Settles O22: the delivered byte is stored at page and column, and the column advances modulo 64. -/
theorem chipStoresDataBytes : Obligations.ChipStoresDataBytes := by
  intro s k l v hs hr hl ha
  obtain ⟨t, hexec, htaken, hother⟩ := busWrite_delivers (k := k) true v hs hr ha
  refine ⟨t, l.takeData v, hexec, by rw [htaken, hl]; rfl, hother, rfl, rfl, rfl, ?_, fun x => ?_⟩
  · exact BitVec.toNat_add l.col 1#6
  · exact Memory.read?_write _ _ _ _

/-! ## A view of a chip -/

section
variable {β : Type} (j : Chip) (f : Lcd → β)

/-- With the panel's reset released: it stays released, and what the view `f` shows of chip `j` is as before. -/
def State.ViewKept (s t : State) : Prop :=
  ctrlRST s.ctrl = true → ctrlRST t.ctrl = true ∧ (t.lcd j).map f = (s.lcd j).map f

/-- A bus word that the view does not notice: it goes to the other chip, or is one that a chip takes with the view
unchanged. -/
def WordUnseen (k : Chip) (di : Bool) (b : Byte) : Prop := k = j → ∀ l : Lcd, (l.take di b).map f = some (f l)

/-- A bus read that the view does not notice: of the other chip, of a status, or through a view without the column. -/
def ReadUnseen (k : Chip) (di : Bool) : Prop := k = j → di = true → ∀ (l : Lcd) y, f { l with col := y } = f l

variable {j f}

theorem State.ChipsKept.viewKept {s t : State} (h : s.ChipsKept t) : s.ViewKept j f t := by
  intro hr
  obtain ⟨-, hc⟩ := h
  obtain ⟨ht, hl⟩ := hc hr
  exact ⟨ht, by rw [hl]⟩

theorem State.ViewKept.refl (s : State) : s.ViewKept j f s := (State.ChipsKept.refl s).viewKept

theorem State.ViewKept.trans (s t u : State) (h : s.ViewKept j f t) (k : t.ViewKept j f u) : s.ViewKept j f u := by
  intro hr
  obtain ⟨ht, hl⟩ := h hr
  obtain ⟨hu, kl⟩ := k ht
  exact ⟨hu, kl.trans hl⟩

theorem State.Took.viewKept {k : Chip} {di : Bool} {b : Byte} {s t : State} {o : Option Err}
    (hw : WordUnseen j f k di b) (h : s.Took k di b o t) : s.ViewKept j f t := by
  intro hr
  obtain ⟨-, hc⟩ := h
  obtain ⟨ht, hother, htaken⟩ := hc hr
  refine ⟨ht, ?_⟩
  rcases Chip.eq_or_eq_other j k with rfl | rfl
  · rcases htaken with htaken | ⟨-, htaken⟩ <;> rw [htaken]
    cases s.lcd j with
    | none => rfl
    | some l => exact hw rfl l
  · rw [hother]

/-- Every piece of a bus sequence keeps the view, where it does not notice the words sent. -/
theorem viewKept_kept : BusKept (WordUnseen j f) (State.ViewKept j f) where
  refl := State.ViewKept.refl
  trans := State.ViewKept.trans
  update _ hset := Action.keeps_mono (updateBody_chips hset) fun _ _ h => h.viewKept
  dirOut := Action.keeps_mono (fun _ => writeRegisterBody_chips _ _ _) fun _ _ h => h.viewKept
  dirIn := Action.keeps_mono (fun _ => writeRegisterBody_chips _ _ _) fun _ _ h => h.viewKept
  out v := Action.keeps_mono (fun _ => writeRegisterBody_chips _ v _) fun _ _ h => h.viewKept
  wait w := Action.keeps_mono (delay_chips w) fun _ _ h => h.viewKept
  toggle k di b hw := Action.keeps_of_ends (enableToggle_took k di b) fun _ _ _ h => h.viewKept hw

theorem readDisturbs_viewKept {k : Chip} {di : Bool} (hu : ReadUnseen j f k di) :
    (readDisturbs k di).Keeps (State.ViewKept j f) := by
  intro s
  cases di with
  | false => exact State.ViewKept.refl s
  | true =>
    refine fun hr => ⟨hr, ?_⟩
    simp only [if_true, State.forgetColumn_lcd]
    split
    · next h =>
      subst h
      cases s.lcd j with
      | none => rfl
      | some l => exact congrArg some (hu rfl rfl l _)
    · rfl

theorem busReadSeq_viewKept {k : Chip} {di : Bool} (hu : ReadUnseen j f k di) :
    (busReadSeq k di).Keeps (State.ViewKept j f) :=
  viewKept_kept.read (Action.keeps_mono (fun _ => readRegisterBody_chips _ _) fun _ _ h => h.viewKept)
    (readDisturbs_viewKept hu)

theorem setterSeq_viewKept (legal : Bool) (g : FrameBuffer → FrameBuffer) :
    (setterSeq legal g).Keeps (State.ViewKept j f) := by
  unfold setterSeq
  split
  · exact fun s hr => ⟨hr, by cases j <;> rfl⟩
  · exact Action.keeps_raise State.ViewKept.refl _

end

/-! ## From the sequences to the operations -/

/-- The view notices no word the operation can send and no read it makes; the operations that touch the panel's reset
are left out. -/
def OperationUnseen {β : Type} (j : Chip) (f : Lcd → β) : Instr → Prop
  | .busWrite k di b => WordUnseen j f k di b
  | .lcdPower k on => WordUnseen j f k false (powerByte on)
  | .lcdSetStartLine k n => WordUnseen j f k false (startLineByte n)
  | .lcdSetPage k p => WordUnseen j f k false (pageByte p)
  | .lcdSetColumn k y => WordUnseen j f k false (columnByte y)
  | .lcdWriteData k v => WordUnseen j f k true v
  | .busRead k di => ReadUnseen j f k di
  | .lcdReadStatus k => ReadUnseen j f k false
  | .lcdReadData k => ReadUnseen j f k true
  | .panelSetOnOff on => ∀ k, WordUnseen j f k false (powerByte on)
  | .panelSetBytesAt .. | .panelClear | .fbWriteBack => (∀ k p, WordUnseen j f k false (pageByte p)) ∧
      (∀ k y, WordUnseen j f k false (columnByte y)) ∧ ∀ k v, WordUnseen j f k true v
  | .ctrlUpdate .. | .displayNew => False
  | _ => True

section
variable {β : Type} {j : Chip} {f : Lcd → β}

theorem sequenceOf_viewKept {i : Instr} (hi : OperationUnseen j f i) : (sequenceOf i).Keeps (State.ViewKept j f) := by
  have unit : ∀ {p : Action Unit}, p.Keeps (State.ViewKept j f) → p.unit.Keeps (State.ViewKept j f) :=
    Action.keeps_unit State.ViewKept.refl State.ViewKept.trans
  have value : ∀ {α : Type} {p : Action α} (g : α → Value), p.Keeps (State.ViewKept j f) →
      (p.bind fun a => Action.ret (g a)).Keeps (State.ViewKept j f) := fun g hp =>
    Action.keeps_bind State.ViewKept.trans hp fun _ => Action.keeps_ret State.ViewKept.refl _
  have chips : ∀ {α : Type} {p : Action α}, p.Keeps State.ChipsKept → p.Keeps (State.ViewKept j f) :=
    fun hp => Action.keeps_mono hp fun _ _ h => h.viewKept
  cases i with
  | expWriteRegister a v => exact unit (chips (writeRegisterBody_chips a v))
  | expWriteRegisterBurst a vs => exact unit (chips (writeBurstBody_chips a vs))
  | expReadRegister a => exact value .byte (chips (readRegisterBody_chips a))
  | ctrlUpdate | displayNew => exact hi.elim
  | busRead | lcdReadStatus | lcdReadData => exact value .byte (busReadSeq_viewKept hi)
  | busWrite | lcdPower | lcdSetStartLine | lcdSetPage | lcdSetColumn | lcdWriteData =>
    exact unit (viewKept_kept.write hi)
  | panelSetOnOff on => exact unit (viewKept_kept.setOnOff hi)
  | panelSetBytesAt r c bytes =>
    obtain ⟨hp, hc, hb⟩ := hi
    exact value .nat (viewKept_kept.setBytesAt (fun k => hp k r) hc fun k b _ => hb k b)
  | panelClear =>
    obtain ⟨hp, hc, hb⟩ := hi
    exact unit (viewKept_kept.clear hp (fun k => hc k 0) fun k => hb k _)
  | fbWriteBack =>
    obtain ⟨hp, hc, hb⟩ := hi
    exact unit (viewKept_kept.writeBack hp hc hb fun _ _ _ _ hr => ⟨hr, by cases j <;> rfl⟩)
  | panelSetBacklight on => exact unit (viewKept_kept.update _ rfl)
  | panelGetBacklight => exact State.ViewKept.refl
  | fbSetByte | fbSetBit | fbSetBitMatrix => exact unit (setterSeq_viewKept _ _)

/-- However such an operation ends, with the panel's reset released the view shows what it showed. -/
theorem exec_viewKept {i : Instr} {s t : State} (hi : OperationUnseen j f i) (hr : ctrlRST s.ctrl = true)
    (h : exec i s = .next t) : (t.lcd j).map f = (s.lcd j).map f := by
  obtain ⟨-, -, hf⟩ := exec_next h
  obtain ⟨u, r, hu, rfl⟩ := Ran.finish_next (sequenceOf_viewKept hi) hf
  obtain ⟨-, hl⟩ := hu hr
  rw [State.record_lcd, hl]

end

/-- The whole chip as its view. -/
theorem exec_chipKept {j : Chip} {i : Instr} {s t : State} (hi : OperationUnseen j (id : Lcd → Lcd) i)
    (hr : ctrlRST s.ctrl = true) (h : exec i s = .next t) : t.lcd j = s.lcd j := by
  simpa only [Option.map_id_fun, id_eq] using exec_viewKept hi hr h

/-! ## Reads -/

/-- A chip without its column. -/
def Lcd.withoutColumn (l : Lcd) : Lcd := { l with col := 0#6 }

/-- The operations that are a bus read of a chip notice a view as that read does (30_encoding.md R82). -/
theorem operationUnseen_read {β : Type} {j : Chip} {f : Lcd → β} {i : Instr} {k : Chip} {di : Bool}
    (hi : i = .busRead k di ∨ (di = false ∧ i = .lcdReadStatus k) ∨ (di = true ∧ i = .lcdReadData k))
    (hu : ReadUnseen j f k di) : OperationUnseen j f i := by
  rcases hi with rfl | ⟨rfl, rfl⟩ | ⟨rfl, rfl⟩ <;> exact hu

/-- Settles O20: the other chip, the chip of a status read, and the chip of a data read without its column are views
that the read does not notice. -/
theorem readsChangeAtMostTheColumn : Obligations.ReadsChangeAtMostTheColumn := by
  intro i s t k di hi hr h
  refine ⟨exec_chipKept (operationUnseen_read hi fun hk => absurd hk.symm (Chip.other_ne k)) hr h, fun hdi => ?_,
    fun l hl => ?_⟩
  · exact exec_chipKept (operationUnseen_read hi fun _ htrue => absurd (hdi.symm.trans htrue) Bool.false_ne_true) hr h
  · have hkept : (t.lcd k).map Lcd.withoutColumn = (s.lcd k).map Lcd.withoutColumn :=
      exec_viewKept (operationUnseen_read hi fun _ _ _ _ => rfl) hr h
    rw [hl, Option.map_some, Option.map_eq_some_iff] at hkept
    obtain ⟨l', hl', heq⟩ := hkept
    simp only [Lcd.withoutColumn, Lcd.mk.injEq] at heq
    obtain ⟨hon, hline, hpage, -, hram⟩ := heq
    refine ⟨l'.col, hl'.trans ?_⟩
    rw [← hon, ← hline, ← hpage, ← hram]

/-! ## The RAM -/

theorem State.chipByte_eq (s : State) (k : Chip) (p y : Nat) :
    s.chipByte k p y = ((s.lcd k).map Lcd.ram).bind fun m => m.read? (p * 64 + y) := by
  unfold State.chipByte
  cases s.lcd k <;> rfl

/-- An instruction byte of one of the four classes leaves the RAM alone. -/
theorem wordUnseen_ram (j k : Chip) {b : Byte} (hb : classify b ≠ .reserved) : WordUnseen j Lcd.ram k false b := by
  intro _ l
  obtain ⟨l', hl, hram⟩ := Lcd.takeInstruction_ram hb l
  rw [hl, Option.map_some, hram]

/-- Settles O54: the instruction bytes of the primitives and the reads leave the RAM alone. -/
theorem onlyDataWritesChangeTheRam : Obligations.OnlyDataWritesChangeTheRam := by
  intro i s t hr h hi k p y
  have hunseen : OperationUnseen k Lcd.ram i := by
    cases i with
    | lcdPower k' on => exact wordUnseen_ram k k' (by rw [classify_powerByte]; exact nofun)
    | lcdSetStartLine k' n => exact wordUnseen_ram k k' (by rw [classify_startLineByte]; exact nofun)
    | lcdSetPage k' n => exact wordUnseen_ram k k' (by rw [classify_pageByte]; exact nofun)
    | lcdSetColumn k' n => exact wordUnseen_ram k k' (by rw [classify_columnByte]; exact nofun)
    | panelSetOnOff on => exact fun k' => wordUnseen_ram k k' (by rw [classify_powerByte]; exact nofun)
    | busRead | lcdReadStatus | lcdReadData => exact fun _ _ _ _ => rfl
    | expWriteRegister | expWriteRegisterBurst | expReadRegister | panelSetBacklight | panelGetBacklight | fbSetByte
      | fbSetBit | fbSetBitMatrix => trivial
    | _ => exact hi.elim
  rw [State.chipByte_eq, exec_viewKept hunseen hr h, ← State.chipByte_eq]

/-- The two operations that are the bus write of a data byte (30_encoding.md R82). -/
theorem exec_dataWrite {i : Instr} {k : Chip} {v : Byte} (hi : i = .lcdWriteData k v ∨ i = .busWrite k true v)
    (s : State) : exec i s = exec (.busWrite k true v) s := by
  rcases hi with rfl | rfl <;> rfl

/-- Settles O56: the chip has taken the byte or is as before, and the other one is as before. -/
theorem dataWriteTouchesOneByte : Obligations.DataWriteTouchesOneByte := by
  intro i s t k v l hi hr hl h
  rw [exec_dataWrite hi] at h
  obtain ⟨-, -, hf⟩ := exec_next h
  obtain ⟨u, o, r, ⟨-, hchips⟩, rfl, -⟩ := Ran.finish_ends (Action.ends_unit (busWriteSeq_took k true v) s) hf
  obtain ⟨-, hother, htaken⟩ := hchips hr
  refine ⟨fun p y hne => ?_, fun p y => ?_⟩
  · rw [State.chipByte, State.chipByte, State.record_lcd]
    rcases htaken with htaken | ⟨-, htaken⟩ <;> rw [htaken]
    rw [hl]
    exact (Memory.read?_write _ _ _ _).trans (if_neg hne)
  · rw [State.chipByte, State.chipByte, State.record_lcd, hother]

/-! ## The display -/

/-- A chip's display state and start line (41_parallel_bus.md R142, R145). -/
def Lcd.display (l : Lcd) : Bool × BitVec 6 := (l.on, l.startLine)

theorem wordUnseen_display_data (j k : Chip) (v : Byte) : WordUnseen j Lcd.display k true v := fun _ _ => rfl

theorem wordUnseen_display_page (j k : Chip) (p : Nat) : WordUnseen j Lcd.display k false (pageByte p) := by
  intro _ l
  simp only [Lcd.take, Bool.false_eq_true, if_false, Lcd.takeInstruction, classify_pageByte]
  rfl

theorem wordUnseen_display_column (j k : Chip) (y : Nat) : WordUnseen j Lcd.display k false (columnByte y) := by
  intro _ l
  simp only [Lcd.take, Bool.false_eq_true, if_false, Lcd.takeInstruction, classify_columnByte]
  rfl

/-- Settles O55: data bytes, pages and columns leave the display alone, and the other instructions go to the other
chip. -/
theorem onlyTheirInstructionsSwitchTheDisplay : Obligations.OnlyTheirInstructionsSwitchTheDisplay := by
  intro i s t j l _ hr hl h hi
  have hunseen : OperationUnseen j Lcd.display i := by
    cases i with
    | busWrite k di b =>
      rcases hi with rfl | hk
      · exact wordUnseen_display_data j k b
      · exact fun h => absurd h hk
    | lcdPower | lcdSetStartLine => exact fun h => absurd h hi
    | lcdSetPage k p => exact wordUnseen_display_page j k p
    | lcdSetColumn k y => exact wordUnseen_display_column j k y
    | lcdWriteData k v => exact wordUnseen_display_data j k v
    | busRead | lcdReadStatus | lcdReadData => exact fun _ _ _ _ => rfl
    | panelSetBytesAt | panelClear | fbWriteBack =>
      exact ⟨wordUnseen_display_page j, wordUnseen_display_column j, wordUnseen_display_data j⟩
    | ctrlUpdate | displayNew | panelSetOnOff => exact hi.elim
    | expWriteRegister | expWriteRegisterBurst | expReadRegister | panelSetBacklight | panelGetBacklight | fbSetByte
      | fbSetBit | fbSetBitMatrix => trivial
  have hkept := exec_viewKept hunseen hr h
  rw [hl, Option.map_some, Option.map_eq_some_iff] at hkept
  obtain ⟨l', hl', heq⟩ := hkept
  obtain ⟨hon, hline⟩ := Prod.mk.inj heq
  exact ⟨l', hl', hon, hline⟩

end Sys2Proof.Machine
end

section
/-! The operations of the panel (42_dual_chip_panel.md). Each of the three that send words is the list of its words:
answered from the idle state it emits their events and each chip takes its own, and however it ends the chips have
taken the first so many of them, so that what a run can change is what the first words of it can change. -/

namespace Sys2Proof.Machine

/-! ## Words from the idle state -/

/-- An operation that sends words and then returns a value, answered from the idle state. -/
theorem perform_sendWords_idle {s : State} {ws : List SentWord} {p : Action Value} {v : Value} (hs : s.phase = .ready)
    (hi : Idle s.ctrl) (ha : s.Acks (8 * ws.length)) (hp : ∀ t, sendWords ws s = .ok () t → p s = .ok v t) :
    ∃ t, s.perform p = .next t ∧
      t.trace = s.trace ++ items (wordsEvents s.params s.ctrl ws) ++ [.result (.ok v)] ∧
      Idle t.ctrl ∧ s.BusFrame t ∧ ∀ k, t.lcd k = takeWords k ws (s.lcd k) := by
  obtain ⟨t, ht, hidle, -, hframe, -, htrace, hchips⟩ := busWrites_idle hi ws ha
  refine ⟨t.record (.ok v), ?_, ?_, hidle, hframe, fun k => ?_⟩
  · rw [State.perform_ready hs, hp t ht, Ran.finish]
  · rw [State.record_trace, htrace]
  · rw [State.record_lcd]
    exact hchips k

/-! ## panel.setBytesAt -/

theorem runFits_iff {r c n : Nat} : runFits r c n = true ↔ r < 8 ∧ c < 128 ∧ c + n ≤ 128 := by
  simp only [runFits, Bool.not_eq_true', Bool.or_eq_false_iff, decide_eq_false_iff_not]
  omega

/-- Settles O30: a run that does not fit is an error raised before the first word. -/
theorem setBytesAtRejectsBeforeAnyTraffic : Obligations.SetBytesAtRejectsBeforeAnyTraffic := by
  intro s r c bytes hs hout
  have hfits : ¬ runFits r c bytes.length = true := by
    rw [runFits_iff]
    omega
  refine perform_err (f := .nat) hs ?_
  rw [setBytesAtSeq_eq, if_neg hfits, Action.raise_apply]

/-- Settles O29: a run that fits is its words, and then its length. -/
theorem setBytesAtSendsTheSplitRun : Obligations.SetBytesAtSendsTheSplitRun := by
  intro s r c bytes hs hr hc hn hi ha
  obtain ⟨t, hexec, htrace, hidle, ⟨hphase, hfb, hxcs, hxrst, -, -⟩, -⟩ := perform_sendWords_idle
    (p := (setBytesAtSeq r c bytes).bind fun n => Action.ret (.nat n)) (v := .nat bytes.length) hs hi ha fun t ht => by
      have hrun : setBytesAtSeq r c bytes s = .ok bytes.length t := by
        rw [setBytesAtSeq_eq, if_pos (runFits_iff.mpr ⟨hr, hc, hn⟩), Action.andThen_ok ht, Action.ret_apply]
      rw [Action.bind_ok hrun, Action.ret_apply]
  exact ⟨t, hexec, htrace, hidle, hfb, hphase, hxcs, hxrst⟩

/-- The result recorded leaves the panel as it was. -/
theorem State.record_panelByte (s : State) (r : OpResult) (p x : Nat) :
    (s.record r).panelByte p x = s.panelByte p x := by
  rw [State.panelByte, State.record_lcd, State.panelByte]

/-- Settles O31: the answered run leaves its bytes in their columns. -/
theorem setBytesAtFillsItsColumns : Obligations.SetBytesAtFillsItsColumns := by
  intro s r c bytes hs hr hc hn hrst h1 h2 ha
  obtain ⟨t, ht, -, -, -, hwritten⟩ := setBytesAtSeq_answered (m := 0) ⟨hrst, fun k => by cases k <;> assumption⟩
    (runFits_iff.mpr ⟨hr, hc, hn⟩) ha
  refine ⟨_, perform_ok (f := .nat) hs ht, List.getLast?_concat, fun p x hp hx => ?_⟩
  rw [State.record_panelByte, hwritten p x hp hx]

/-! ## However a run ends -/

/-- With the panel's reset released it stays so, and each chip took its own of the first so many words. -/
def State.TookFirst (ws : List SentWord) (s t : State) : Prop :=
  ctrlRST s.ctrl = true → ctrlRST t.ctrl = true ∧ ∃ j, ∀ k, t.lcd k = takeWords k (ws.take j) (s.lcd k)

/-- What a chip makes of a first word and those after it. -/
theorem takeWords_cons (k : Chip) (w : SentWord) (ws : List SentWord) (o : Option Lcd) :
    takeWords k (w :: ws) o = takeWords k ws (if w.1 = k then o.bind fun l => l.take w.2.1 w.2.2 else o) := rfl

/-- However words end, the chips took the first so many of them (41_parallel_bus.md R140, 60_exceptions.md R224). -/
theorem sendWords_tookFirst (ws : List SentWord) (s : State) :
    (sendWords ws s).Ends fun _ t => s.TookFirst ws t := by
  induction ws generalizing s with
  | nil => exact fun hr => ⟨hr, 0, fun _ => rfl⟩
  | cons w ws ih =>
    obtain ⟨i, di, b⟩ := w
    have taken : ∀ {t : State}, t.lcd i.other = s.lcd i.other → t.lcd i = (s.lcd i).bind (fun l => l.take di b) →
        ∀ k, t.lcd k = if i = k then (s.lcd k).bind (fun l => l.take di b) else s.lcd k := by
      intro t hother hown k
      rcases Chip.eq_or_eq_other k i with rfl | rfl
      · rw [if_pos rfl, hown]
      · rw [if_neg (Chip.other_ne i).symm, hother]
    refine Action.bind_ends (busWriteSeq_took i di b s) (fun e t htook hr => ?_) fun _ t _ htook =>
      (ih t).mono fun _ u hrest hr => ?_
    · obtain ⟨-, hchips⟩ := htook
      obtain ⟨ht, hother, hown | ⟨-, hown⟩⟩ := hchips hr
      · exact ⟨ht, 1, taken hother hown⟩
      · refine ⟨ht, 0, fun k => ?_⟩
        rcases Chip.eq_or_eq_other k i with rfl | rfl
        · exact hown
        · exact hother
    · obtain ⟨-, hchips⟩ := htook
      obtain ⟨ht, hother, hown⟩ := hchips hr
      obtain ⟨hu, j, hfirst⟩ := hrest ht
      refine ⟨hu, j + 1, fun k => ?_⟩
      rw [hfirst, List.take_succ_cons, takeWords_cons, taken hother (hown.resolve_right fun h => h.1 rfl)]

/-- A refused chip stays refused. -/
theorem takeWords_none (k : Chip) (ws : List SentWord) : takeWords k ws none = none := by
  induction ws with
  | nil => rfl
  | cons w ws ih => rwa [takeWords_cons, Option.bind_none, ite_self]

/-- The byte a chip's RAM holds, where there is a chip. -/
def ramByte (o : Option Lcd) (p y : Nat) : Option Byte := o.bind fun l => l.byteAt p y

theorem State.panelByte_eq_ramByte (s : State) (p x : Nat) :
    s.panelByte p x = ramByte (s.lcd (chipOf x)) p (localCol x) := rfl

/-- A page and a column set: the chip stands there for what follows. -/
theorem takeWords_position (k : Chip) (p y : Nat) (ws : List SentWord) (l : Lcd) :
    takeWords k ((k, false, pageByte p) :: (k, false, columnByte y) :: ws) (some l) =
      takeWords k ws (some { l with page := BitVec.ofNat 3 p, col := BitVec.ofNat 6 y }) := by
  simp only [takeWords_cons, if_true, Option.bind_some, Lcd.take, Bool.false_eq_true, if_false, Lcd.takeInstruction,
    classify_pageByte, classify_columnByte]

/-- The first words of a segment: the RAM outside the segment's columns is as before. -/
theorem ramByte_segment_take {k : Chip} {p y : Nat} {bytes : List Byte} (hp : p < 8)
    (hy : bytes ≠ [] → y + bytes.length ≤ 64) (j : Nat) (o : Option Lcd) {p' y' : Nat} (hy' : y' < 64)
    (hout : ¬ (p' = p ∧ y ≤ y' ∧ y' < y + bytes.length)) :
    ramByte (takeWords k ((segmentWords k p y bytes).take j) o) p' y' = ramByte o p' y' := by
  by_cases hb : bytes = []
  · rw [segmentWords, if_pos hb, List.take_nil]
    rfl
  cases o with
  | none => rw [takeWords_none]
  | some l =>
    rw [segmentWords, if_neg hb]
    match j with
    | 0 => rfl
    | 1 =>
      simp only [List.take_succ_cons, List.take_zero, takeWords_cons, if_true, Option.bind_some, Lcd.take,
        Bool.false_eq_true, if_false, Lcd.takeInstruction, classify_pageByte]
      rfl
    | i + 2 =>
      have hlen := hy hb
      have hsent : (bytes.take i).length ≤ bytes.length := List.length_take_le' i bytes
      obtain ⟨l', hl', hram⟩ := takeWords_data (k := k) (p := p) (y := y) (bytes := bytes.take i)
        (l := { l with page := BitVec.ofNat 3 p, col := BitVec.ofNat 6 y }) hp (by omega) rfl rfl
      rw [List.take_succ_cons, List.take_succ_cons, takeWords_position, ← List.map_take, hl']
      exact (hram _).trans (if_neg (by omega))

/-- The panel is as it was but for the `n` columns of page `r` from column `c` on. -/
def State.SameOutside (r c n : Nat) (s t : State) : Prop :=
  ∀ p x, x < 128 → ¬ (p = r ∧ c ≤ x ∧ x < c + n) → t.panelByte p x = s.panelByte p x

/-- The first words of a run: the panel outside the run is as before. -/
theorem sameOutside_of_run_take {s t : State} {r c j : Nat} {bytes : List Byte} (hr : r < 8)
    (hn : c + bytes.length ≤ 128) (ht : ∀ k, t.lcd k = takeWords k ((runWords r c bytes).take j) (s.lcd k)) :
    s.SameOutside r c bytes.length t := by
  intro p x hx hout
  have other : ∀ i k : Chip, i ≠ k → ∀ y bs n o, takeWords k ((segmentWords i r y bs).take n) o = o :=
    fun _ _ hne y bs n => takeWords_of_ne fun _ hw => chip_of_mem_segmentWords (List.mem_of_mem_take hw) ▸ hne
  rw [State.panelByte_eq_ramByte, State.panelByte_eq_ramByte, ht, runWords, List.take_append, takeWords_append]
  by_cases hlo : x < 64
  · rw [chipOf, if_pos hlo, localCol, if_pos hlo, other .chip2 .chip1 (by simp)]
    refine ramByte_segment_take hr (fun h => ?_) _ _ hlo ?_
    · rw [Ne, List.take_eq_nil_iff] at h
      rw [List.length_take]
      omega
    · rw [List.length_take]
      omega
  · rw [chipOf, if_neg hlo, localCol, if_neg hlo, other .chip1 .chip2 (by simp)]
    refine ramByte_segment_take hr (fun h => ?_) _ _ (by omega) ?_
    · rw [Ne, List.drop_eq_nil_iff] at h
      rw [List.length_drop]
      omega
    · rw [List.length_drop]
      omega

/-- However `panel.setBytesAt` ends, the panel outside the run is as before. -/
theorem setBytesAtSeq_outside (r c : Nat) (bytes : List Byte) {s : State} (hrst : ctrlRST s.ctrl = true) :
    (setBytesAtSeq r c bytes s).Ends fun _ t => s.SameOutside r c bytes.length t := by
  rw [setBytesAtSeq_eq]
  split
  · next hfits =>
    obtain ⟨hr, -, hn⟩ := runFits_iff.mp hfits
    refine Action.bind_ends (P := fun _ t => s.SameOutside r c bytes.length t)
      (Ran.Ends.mono (sendWords_tookFirst _ s) fun _ t htook => ?_) (fun _ _ h => h) fun _ _ _ h => h
    obtain ⟨-, j, hfirst⟩ := htook hrst
    exact sameOutside_of_run_take hr hn hfirst
  · exact fun _ _ _ _ => rfl

/-- Settles O32: a run that was cut sent the first of its words, and one that does not fit sent none. -/
theorem setBytesAtTouchesOnlyItsColumns : Obligations.SetBytesAtTouchesOnlyItsColumns := by
  intro s t r c bytes hrst h p x _ hx hout
  obtain ⟨-, -, hf⟩ := exec_next h
  obtain ⟨u, -, -, hu, rfl, -⟩ :=
    Ran.finish_ends (Action.bind_ret_ends .nat (setBytesAtSeq_outside r c bytes hrst)) hf
  rw [State.record_panelByte, hu p x hx hout]

/-! ## panel.setOnOff -/

/-- Settles O33: its two words, of which each chip takes one. -/
theorem setOnOffSwitchesBothChips : Obligations.SetOnOffSwitchesBothChips := by
  intro s on hs hi ha
  obtain ⟨t, hexec, htrace, hidle, ⟨-, hfb, -⟩, hchips⟩ := perform_sendWords_idle
    (ws := [(.chip1, false, powerByte on), (.chip2, false, powerByte on)]) (p := (setOnOffSeq on).unit) (v := .unit)
    hs hi ha fun t ht => Action.andThen_ok (setOnOffSeq_eq on ▸ ht)
  refine ⟨t, hexec, htrace, fun k l hl => ?_, hidle, hfb⟩
  rw [hchips, hl]
  cases k <;> simp [takeWords, Lcd.take, Lcd.takeInstruction, classify_powerByte]

/-! ## panel.clear -/

/-- The words that write zero to pages of a chip (42_dual_chip_panel.md R165). -/
def zeroPages (k : Chip) (ps : List Nat) : List SentWord :=
  ps.flatMap fun p => segmentWords k p 0 (List.replicate 64 0x00#8)

theorem clearWords_eq : clearWords = zeroPages .chip1 (List.range 8) ++ zeroPages .chip2 (List.range 8) := by
  simp only [clearWords, zeroPages, List.flatMap_cons, List.flatMap_nil, List.append_nil]

theorem zeroPages_length (k : Chip) (ps : List Nat) : (zeroPages k ps).length = 66 * ps.length := by
  have segment : ∀ p, (segmentWords k p 0 (List.replicate 64 0x00#8)).length = 66 := fun p => by simp [segmentWords]
  simp only [zeroPages, List.length_flatMap, segment, List.map_const', List.sum_replicate_nat]
  omega

theorem chip_of_mem_zeroPages {k : Chip} {ps : List Nat} {w : SentWord} (h : w ∈ zeroPages k ps) : w.1 = k := by
  obtain ⟨p, -, hw⟩ := List.mem_flatMap.mp h
  exact chip_of_mem_segmentWords hw

/-- A chip after pages of zeros: those pages hold 0, and the others what they held. -/
theorem takeWords_zeroPages {k : Chip} {ps : List Nat} (hps : ∀ p ∈ ps, p < 8) (l : Lcd) :
    ∃ l', takeWords k (zeroPages k ps) (some l) = some l' ∧
      ∀ p y, y < 64 → l'.byteAt p y = if p ∈ ps then some 0#8 else l.byteAt p y := by
  induction ps generalizing l with
  | nil => exact ⟨l, rfl, fun p y _ => (if_neg (by simp)).symm⟩
  | cons q ps ih =>
    obtain ⟨l1, hl1, hram⟩ := takeWords_segment (k := k) (y := 0) (bytes := List.replicate 64 0x00#8) l
      (hps q (by simp)) (fun _ => by simp)
    obtain ⟨l2, hl2, hrest⟩ := ih (fun p hp => hps p (by simp [hp])) l1
    refine ⟨l2, ?_, fun p y hy => ?_⟩
    · rw [zeroPages, List.flatMap_cons, takeWords_append, hl1]
      exact hl2
    · have hpage : l1.byteAt p y = if p = q then some 0#8 else l.byteAt p y := by
        rw [Lcd.byteAt, hram, List.length_replicate]
        by_cases hpq : p = q
        · subst hpq
          rw [if_pos (by omega), if_pos rfl, List.getElem?_replicate, if_pos (by omega)]
        · rw [if_neg (by omega), if_neg hpq]
          rfl
      rw [hrest p y hy, hpage]
      by_cases hin : p ∈ ps
      · rw [if_pos hin, if_pos (List.mem_cons_of_mem q hin)]
      · rw [if_neg hin]
        exact if_congr (by simp [hin]) rfl rfl

/-- What a chip makes of the words of `panel.clear`: those sent to it. -/
theorem takeWords_clearWords (k : Chip) (o : Option Lcd) :
    takeWords k clearWords o = takeWords k (zeroPages k (List.range 8)) o := by
  have other : ∀ i, i ≠ k → ∀ o, takeWords k (zeroPages i (List.range 8)) o = o :=
    fun _ hne => takeWords_of_ne fun _ hw => chip_of_mem_zeroPages hw ▸ hne
  rw [clearWords_eq, takeWords_append]
  cases k with
  | chip1 => exact other .chip2 (by simp) _
  | chip2 => rw [other .chip1 (by simp)]

/-- Settles O34: the words of every page of both chips, and the zeros they leave. -/
theorem clearZeroesBothChips : Obligations.ClearZeroesBothChips := by
  intro s hs hi ha
  have hlen : 8 * clearWords.length = 8448 := by
    rw [clearWords_eq, List.length_append, zeroPages_length, zeroPages_length, List.length_range]
  obtain ⟨t, hexec, htrace, hidle, ⟨-, hfb, -⟩, hchips⟩ := perform_sendWords_idle (ws := clearWords)
    (p := clearSeq.unit) (v := .unit) hs hi (hlen ▸ ha) fun t ht => Action.andThen_ok (clearSeq_eq ▸ ht)
  refine ⟨t, hexec, htrace, hfb, hidle, fun h1 h2 p x hp hx => ?_⟩
  have hlive : s.lcd (chipOf x) ≠ none := by cases chipOf x <;> assumption
  obtain ⟨l, hl⟩ := Option.ne_none_iff_exists'.mp hlive
  obtain ⟨l', hl', hzero⟩ := takeWords_zeroPages (k := chipOf x) (ps := List.range 8) (fun p => List.mem_range.mp) l
  rw [State.panelByte, hchips, takeWords_clearWords, hl, hl', Option.bind_some, hzero p _ (localCol_lt hx),
    if_pos (List.mem_range.mpr hp)]

/-! ## panel.setBacklight and panel.getBacklight -/

/-- The byte of a backlight update: bit 7 is the level, the other bits are kept (42_dual_chip_panel.md R166). -/
theorem applySet_backlight_getLsbD (on : Bool) {c : Byte} (h6 : c.getLsbD 6 = false) (n : Nat) :
    (applySet { bl := some on } c).getLsbD n = if n = 7 then on else c.getLsbD n := by
  rw [applySet, setBit_getLsbD _ _ _ _ (by omega), setField_getLsbD _ _ _ _ (by omega), Option.getD_some]
  by_cases hn : n = 6
  · subst hn
    rw [if_pos rfl, if_neg (by omega), h6]
  · rw [if_neg hn]
    rfl

/-- The update is suppressed exactly at the current level. -/
theorem applySet_backlight_eq_iff {on : Bool} {c : Byte} (h6 : c.getLsbD 6 = false) :
    applySet { bl := some on } c = c ↔ ctrlBL c = on := by
  constructor
  · intro h
    rw [← h, applySet_bl, Option.getD_some]
  · rintro rfl
    refine BitVec.eq_of_getLsbD_eq fun n _ => ?_
    rw [applySet_backlight_getLsbD _ h6]
    split
    · next hn => rw [hn, ctrlBL]
    · rfl

/-- Settles O35: `panel.setBacklight` is the control update of bit 7, to which O13 applies. -/
theorem setBacklightChangesOneBit : Obligations.SetBacklightChangesOneBit := by
  intro s on hs h6
  have hbits := applySet_backlight_getLsbD on h6
  have hsame := applySet_backlight_eq_iff (on := on) h6
  have hrst : ctrlRST (applySet { bl := some on } s.ctrl) = ctrlRST s.ctrl := applySet_rst _ _
  obtain ⟨hkept, hsent, hfailed⟩ := controlUpdateWritesOnlyAChange s { bl := some on } _ hs fun
    | 0 => hbits 0 | 1 => hbits 1 | 2 => hbits 2 | 3 => hbits 3 | 4 => hbits 4 | 5 => hbits 5
    | 6 => applySet_bit6 _ _ | 7 => hbits 7 | n + 8 => BitVec.getLsbD_of_ge _ _ (by omega)
  refine ⟨fun hon => hkept (hsame.mpr hon), fun hon hacks => ?_, fun hon k r0 r1 r2 rest hreply hk => ?_⟩
  · obtain ⟨t, hexec, htrace, hctrl, hblock, hregs, hchips⟩ := hsent (hsame.not.mpr hon) hacks
    rw [← hctrl] at htrace hbits hregs hchips hrst
    exact ⟨t, hexec, htrace, hbits, hblock, hregs, fun hr => hchips (hrst.trans hr)⟩
  · obtain ⟨t, hexec, htrace, hblock, -⟩ := hfailed (hsame.not.mpr hon) k r0 r1 r2 rest hreply hk
    exact ⟨t, hexec, hblock, by rw [htrace, List.getLast?_append_cons]; rfl⟩

/-- Settles O36: the sequence returns the cached bit in the state it found. -/
theorem getBacklightReportsTheCache : Obligations.GetBacklightReportsTheCache := by
  intro s hs
  exact State.perform_ready hs

end Sys2Proof.Machine
end

section
/-! The setters of the framebuffer (43_framebuffer.md R190 to R192) and the runs of dirty columns (R193). A pixel is one
bit of one cell; the setters are described by the pixels they set, and by the rule for the dirty bit, which holds from
the first framebuffer to the last because no pixel is set twice. -/

namespace Sys2Proof.Machine

/-! ## From the setter to the operation -/

/-- A setter at a legal address changes the framebuffer and nothing else. -/
theorem perform_setter_legal {s : State} {legal : Bool} (f : FrameBuffer → FrameBuffer) (hs : s.phase = .ready)
    (hl : legal = true) :
    s.perform (setterSeq legal f).unit = .next ({ s with fb := f s.fb }.record (.ok .unit)) :=
  perform_unit_ok hs (by rw [setterSeq, if_pos hl, Action.change_apply])

/-- At an illegal one it raises GeometryError (20_memory.md R52). -/
theorem perform_setter_illegal {s : State} {legal : Bool} (f : FrameBuffer → FrameBuffer) (hs : s.phase = .ready)
    (hl : legal = false) : s.perform (setterSeq legal f).unit = .next (s.record (.error .geometryError)) :=
  perform_unit_err hs (by rw [setterSeq, hl, if_neg Bool.false_ne_true, Action.raise_apply])

theorem fbLegal_iff {r c : Nat} : fbLegal r c = true ↔ r < 8 ∧ c < 128 := by simp [fbLegal]
theorem pixelLegal_iff {y c : Nat} : pixelLegal y c = true ↔ y < 64 ∧ c < 128 := by simp [pixelLegal]
theorem matrixFits_iff {y c h w : Nat} : matrixFits y c h w = true ↔ y + h ≤ 64 ∧ c + w ≤ 128 := by simp [matrixFits]

/-! ## One cell -/

@[simp] theorem FbCell.put_value (x : FbCell) (v : Byte) : (x.put v).value = v := by
  unfold FbCell.put
  split
  · assumption
  · rfl

/-- A cell is dirty after a write if it was, or if the value changed (43_framebuffer.md R190). -/
theorem FbCell.put_dirty (x : FbCell) (v : Byte) : (x.put v).dirty = (x.dirty || decide (v ≠ x.value)) := by
  unfold FbCell.put
  split
  · next h => simp [h]
  · next h => simp [Ne.symm h]

/-- A cell after a write at a legal address. -/
theorem FrameBuffer.cell_putByte (fb : FrameBuffer) {r c : Nat} (v : Byte) (hr : r < 8) (hc : c < 128) (r' c' : Nat) :
    (fb.putByte r c v).cell r' c' = if r' = r ∧ c' = c then (fb.cell r c).put v else fb.cell r' c' := by
  simp only [FrameBuffer.putByte, FrameBuffer.cell_setCell, hr, hc, and_true]

/-- Settles O37: the cell written is the old one with the value put, and no other cell is touched. -/
theorem setByteMarksOnlyAChange : Obligations.SetByteMarksOnlyAChange := by
  intro s r c v hs
  refine ⟨fun hr hc => ⟨_, perform_setter_legal _ hs (fbLegal_iff.mpr ⟨hr, hc⟩), ?_, fun r' c' hne => ?_⟩,
    fun hout => ?_⟩
  · rw [FrameBuffer.cell_putByte _ _ hr hc, if_pos ⟨rfl, rfl⟩, FbCell.put]
  · rw [FrameBuffer.cell_putByte _ _ hr hc, if_neg fun ⟨h, h'⟩ => hne (by rw [h, h'])]
  · exact perform_setter_illegal _ hs (Bool.eq_false_iff.mpr fun h => by rw [fbLegal_iff] at h; omega)

/-! ## One pixel -/

/-- The pixel at pixel row `y` and column `x` (20_memory.md R53). -/
def FrameBuffer.pixel (fb : FrameBuffer) (y x : Nat) : Bool := (fb.cell (y / 8) x).value.getLsbD (y % 8)

/-- The cell of a pixel that was set. -/
theorem FrameBuffer.cell_putPixel (fb : FrameBuffer) {y x : Nat} (on : Bool) (hy : y < 64) (hx : x < 128) (r c : Nat) :
    (fb.putPixel y x on).cell r c =
      if r = y / 8 ∧ c = x then (fb.cell (y / 8) x).put (setBit (fb.cell (y / 8) x).value (y % 8) on)
      else fb.cell r c :=
  fb.cell_putByte _ (by unfold pixelRow; omega) hx r c

/-- Settles O38: the cell of the pixel has one bit set, and no other cell is touched. -/
theorem setBitChangesOnePixel : Obligations.SetBitChangesOnePixel := by
  intro s y c on hs
  refine ⟨fun hy hc => ⟨_, perform_setter_legal _ hs (pixelLegal_iff.mpr ⟨hy, hc⟩), ?_, ?_, fun r' c' hne => ?_⟩,
    fun hout => ?_⟩
  · intro n
    rw [FrameBuffer.cell_putPixel _ _ hy hc, if_pos ⟨rfl, rfl⟩, FbCell.put_value, setBit_getLsbD _ _ _ _ (by omega)]
  · rw [FrameBuffer.cell_putPixel _ _ hy hc, if_pos ⟨rfl, rfl⟩, FbCell.put_dirty, FbCell.put_value]
  · rw [FrameBuffer.cell_putPixel _ _ hy hc, if_neg fun ⟨h, h'⟩ => hne (by rw [h, h'])]
  · exact perform_setter_illegal _ hs (Bool.eq_false_iff.mpr fun h => by rw [pixelLegal_iff] at h; omega)

/-- The pixels after one was set. -/
theorem FrameBuffer.pixel_putPixel (fb : FrameBuffer) {y x : Nat} (on : Bool) (hy : y < 64) (hx : x < 128)
    (y' x' : Nat) : (fb.putPixel y x on).pixel y' x' = if y' = y ∧ x' = x then on else fb.pixel y' x' := by
  rw [FrameBuffer.pixel, FrameBuffer.cell_putPixel _ _ hy hx]
  by_cases hcell : y' / 8 = y / 8 ∧ x' = x
  · obtain ⟨hrow, rfl⟩ := hcell
    rw [if_pos ⟨hrow, rfl⟩, FbCell.put_value, setBit_getLsbD _ _ _ _ (by omega), FrameBuffer.pixel, hrow]
    exact if_congr (by omega) rfl rfl
  · rw [if_neg hcell, if_neg (by rintro ⟨rfl, rfl⟩; exact hcell ⟨rfl, rfl⟩), FrameBuffer.pixel]

/-! ## A matrix -/

/-- From the first framebuffer to the second, a cell became dirty exactly if its value changed. -/
def FrameBuffer.Marks (fb fb' : FrameBuffer) : Prop :=
  ∀ r x, (fb'.cell r x).dirty = ((fb.cell r x).dirty || decide ((fb'.cell r x).value ≠ (fb.cell r x).value))

theorem FrameBuffer.Marks.refl (fb : FrameBuffer) : fb.Marks fb := fun r x => by simp

/-- A bit set that still was as in `v` at first: a byte it changes is then no longer `v`. -/
theorem setBit_ne_first {v w : Byte} {i : Nat} {on : Bool} (hi : i < 8) (hfirst : w.getLsbD i = v.getLsbD i)
    (hchange : setBit w i on ≠ w) : setBit w i on ≠ v := by
  intro he
  refine hchange (BitVec.eq_of_getLsbD_eq fun n _ => ?_)
  by_cases hn : n = i
  · rw [hn, he, hfirst]
  · rw [setBit_getLsbD _ _ _ _ hi, if_neg hn]

/-- The rule holds on when a pixel is set that is still as it was at first. -/
theorem FrameBuffer.Marks.putPixel {fb fb' : FrameBuffer} (h : fb.Marks fb') {y x : Nat} (on : Bool) (hy : y < 64)
    (hx : x < 128) (hfirst : fb'.pixel y x = fb.pixel y x) : fb.Marks (fb'.putPixel y x on) := by
  intro r c
  rw [FrameBuffer.cell_putPixel _ _ hy hx]
  split
  · next hcell =>
    obtain ⟨rfl, rfl⟩ := hcell
    rw [FbCell.put_dirty, FbCell.put_value, h]
    by_cases hsame : setBit (fb'.cell (y / 8) c).value (y % 8) on = (fb'.cell (y / 8) c).value
    · simp [hsame]
    · simp [hsame, setBit_ne_first (by omega) hfirst hsame]
  · exact h r c

/-- The pixels after a row of a matrix was copied. -/
theorem FrameBuffer.pixel_putRow (fb : FrameBuffer) {y c : Nat} {bs : List Bool} (hy : y < 64)
    (hc : c + bs.length ≤ 128) (y' x : Nat) : (FrameBuffer.putRow fb y c bs).pixel y' x =
      if y' = y ∧ c ≤ x ∧ x < c + bs.length then bs.getD (x - c) false else fb.pixel y' x := by
  induction bs generalizing fb c with
  | nil => rw [if_neg (by simp)]; rfl
  | cons b bs ih =>
    rw [List.length_cons] at hc ⊢
    rw [FrameBuffer.putRow, ih _ (by omega), FrameBuffer.pixel_putPixel _ _ hy (by omega)]
    rcases Nat.lt_trichotomy x c with hlt | rfl | hgt
    · rw [if_neg (by omega), if_neg (by omega), if_neg (by omega)]
    · rw [if_neg (by omega), Nat.sub_self, List.getD_cons_zero]
      exact if_congr (by omega) rfl rfl
    · obtain ⟨i, rfl⟩ : ∃ i, x = c + 1 + i := ⟨x - (c + 1), by omega⟩
      rw [if_neg (show ¬ (y' = y ∧ c + 1 + i = c) by omega), Nat.add_sub_cancel_left,
        show c + 1 + i - c = i + 1 by omega, List.getD_cons_succ]
      exact if_congr (by omega) rfl rfl

theorem FrameBuffer.Marks.putRow {fb fb' : FrameBuffer} (h : fb.Marks fb') {y c : Nat} {bs : List Bool} (hy : y < 64)
    (hc : c + bs.length ≤ 128) (hfirst : ∀ x, c ≤ x → x < c + bs.length → fb'.pixel y x = fb.pixel y x) :
    fb.Marks (FrameBuffer.putRow fb' y c bs) := by
  induction bs generalizing fb' c with
  | nil => exact h
  | cons b bs ih =>
    rw [List.length_cons] at hc hfirst
    refine ih (h.putPixel b hy (by omega) (hfirst c (by omega) (by omega))) (by omega) fun x h1 h2 => ?_
    rw [FrameBuffer.pixel_putPixel _ _ hy (by omega), if_neg (by omega)]
    exact hfirst x (by omega) (by omega)

/-- The pixels after a matrix with rows of one width was copied. -/
theorem FrameBuffer.pixel_putMatrix (fb : FrameBuffer) {y c w : Nat} {rows : List (List Bool)}
    (hw : ∀ row ∈ rows, row.length = w) (hy : y + rows.length ≤ 64) (hc : c + w ≤ 128) (y' x : Nat) :
    (FrameBuffer.putMatrix fb y c rows).pixel y' x =
      if y ≤ y' ∧ y' < y + rows.length ∧ c ≤ x ∧ x < c + w then (rows.getD (y' - y) []).getD (x - c) false
      else fb.pixel y' x := by
  induction rows generalizing fb y with
  | nil => rw [if_neg (by simp; omega)]; rfl
  | cons row rows ih =>
    obtain ⟨hrow, hrows⟩ := List.forall_mem_cons.mp hw
    rw [List.length_cons] at hy ⊢
    rw [FrameBuffer.putMatrix, ih _ hrows (by omega), FrameBuffer.pixel_putRow _ (by omega) (by omega), hrow]
    rcases Nat.lt_trichotomy y' y with hlt | rfl | hgt
    · rw [if_neg (by omega), if_neg (by omega), if_neg (by omega)]
    · rw [if_neg (by omega), Nat.sub_self, List.getD_cons_zero]
      exact if_congr (by omega) rfl rfl
    · obtain ⟨i, rfl⟩ : ∃ i, y' = y + 1 + i := ⟨y' - (y + 1), by omega⟩
      rw [if_neg (show ¬ (y + 1 + i = y ∧ c ≤ x ∧ x < c + w) by omega), Nat.add_sub_cancel_left,
        show y + 1 + i - y = i + 1 by omega, List.getD_cons_succ]
      exact if_congr (by omega) rfl rfl

theorem FrameBuffer.Marks.putMatrix {fb fb' : FrameBuffer} (h : fb.Marks fb') {y c w : Nat} {rows : List (List Bool)}
    (hw : ∀ row ∈ rows, row.length = w) (hy : y + rows.length ≤ 64) (hc : c + w ≤ 128)
    (hfirst : ∀ y' x, y ≤ y' → fb'.pixel y' x = fb.pixel y' x) : fb.Marks (FrameBuffer.putMatrix fb' y c rows) := by
  induction rows generalizing fb' y with
  | nil => exact h
  | cons row rows ih =>
    obtain ⟨hrow, hrows⟩ := List.forall_mem_cons.mp hw
    rw [List.length_cons] at hy
    refine ih (h.putRow (by omega) (by omega) fun x _ _ => hfirst y x (by omega)) hrows (by omega) fun y' x hle => ?_
    rw [FrameBuffer.pixel_putRow _ (by omega) (by omega), if_neg (by omega)]
    exact hfirst y' x (by omega)

theorem length_of_matrixRectangular {m : List (List Bool)} (h : matrixRectangular m = true) :
    ∀ row ∈ m, row.length = matrixWidth m := by
  simpa [matrixRectangular] using h

/-- Settles O39: the pixels of the copied matrix, and the rule for the dirty bit, by rows and within a row. -/
theorem setBitMatrixCopiesTheRectangle : Obligations.SetBitMatrixCopiesTheRectangle := by
  intro s row0 col0 m hs
  refine ⟨fun hrect hh hw => ⟨FrameBuffer.putMatrix s.fb row0 col0 m, ?_, fun y x _ _ => ?_, ?_⟩, fun hrect hout => ?_,
    fun hragged => ?_⟩
  · rw [exec, execFbSetBitMatrix, if_pos hrect, perform_setter_legal _ hs (matrixFits_iff.mpr ⟨hh, hw⟩)]
  · exact FrameBuffer.pixel_putMatrix s.fb (length_of_matrixRectangular hrect) hh hw y x
  · exact (FrameBuffer.Marks.refl s.fb).putMatrix (length_of_matrixRectangular hrect) hh hw fun _ _ _ => rfl
  · rw [exec, execFbSetBitMatrix, if_pos hrect]
    exact perform_setter_illegal _ hs (Bool.eq_false_iff.mpr fun h => by rw [matrixFits_iff] at h; omega)
  · rw [exec, execFbSetBitMatrix, if_neg (by simp [hragged]), State.refuseWith_ready hs]

/-! ## Dirty runs -/

/-- The runs stand left to right with a clean column between two, none left of the open run's start. -/
theorem dirtyRunsFrom_separated {c : Nat} {o : Option Nat} {ds : List Bool} (ho : ∀ a ∈ o, a < c) :
    (∀ run ∈ dirtyRunsFrom c o ds, o.getD c ≤ run.1) ∧ (dirtyRunsFrom c o ds).Pairwise fun p q => p.2 < q.1 := by
  fun_induction dirtyRunsFrom c o ds with
  | case1 c => simp
  | case2 c a => simp
  | case3 c ds ih =>
    exact ih (by simp)
  | case4 c d ds hd ih =>
    obtain ⟨hstart, hsep⟩ := ih (by simp)
    exact ⟨fun run hrun => Nat.le_of_succ_le (hstart run hrun), hsep⟩
  | case5 c a ds ih =>
    have hac : a < c := ho a rfl
    exact ih (by simp; omega)
  | case6 c a d ds hd ih =>
    have hac : a < c := ho a rfl
    obtain ⟨hstart, hsep⟩ := ih (by simp)
    simp only [Option.getD_none] at hstart
    refine ⟨fun run hrun => ?_, List.pairwise_cons.mpr ⟨fun run hrun => hstart run hrun, hsep⟩⟩
    rcases List.mem_cons.mp hrun with rfl | hrun
    · exact Nat.le_refl a
    · have := hstart run hrun
      simp only [Option.getD_some]
      omega

theorem dirtyRuns_separated (fb : FrameBuffer) (r : Nat) :
    (dirtyRuns (fb.rowDirty r)).Pairwise fun p q => p.2 < q.1 := (dirtyRunsFrom_separated (by simp)).2

/-- Two runs of a row are one, or stand apart. -/
theorem dirtyRuns_apart {fb : FrameBuffer} {r : Nat} {p q : Nat × Nat} (hp : p ∈ dirtyRuns (fb.rowDirty r))
    (hq : q ∈ dirtyRuns (fb.rowDirty r)) : p = q ∨ p.2 < q.1 ∨ q.2 < p.1 := by
  have hsep := dirtyRuns_separated fb r
  exact List.Pairwise.forall_of_forall_of_flip (R := fun p q => p = q ∨ p.2 < q.1 ∨ q.2 < p.1) (fun _ _ => .inl rfl)
    (hsep.imp fun h => .inr (.inl h)) (hsep.imp fun h => .inr (.inr h)) hp hq

/-- The columns next to a run are clean. -/
theorem clean_next_to_dirtyRun {fb : FrameBuffer} {r a b c : Nat} (hrun : (a, b) ∈ dirtyRuns (fb.rowDirty r))
    (hc : c < 128) (hnext : c + 1 = a ∨ c = b) : (fb.cell r c).dirty = false := by
  rw [← Bool.not_eq_true, ← mem_dirtyRuns hc]
  rintro ⟨⟨a', b'⟩, hrun', h1, h2⟩
  have hab := (dirtyRuns_bounds _ hrun).1
  have hapart := dirtyRuns_apart hrun hrun'
  simp only [Prod.mk.injEq] at hab hapart h1 h2
  omega

/-- Settles O40: the runs cover the dirty columns and stand apart, so no run can be extended, and an interval that
cannot be extended is the run of its first column. -/
theorem dirtyRunsAreTheMaximalIntervals : Obligations.DirtyRunsAreTheMaximalIntervals := by
  intro fb r _
  refine ⟨fun a b => ⟨fun hrun => ?_, ?_⟩, dirtyRuns_separated fb r, fun c hc => (mem_dirtyRuns hc).symm⟩
  · obtain ⟨hab, hb⟩ : a < b ∧ b ≤ 128 := dirtyRuns_bounds _ hrun
    refine ⟨hab, hb, fun x h1 h2 => (mem_dirtyRuns (by omega)).mp ⟨_, hrun, h1, h2⟩, ?_, ?_⟩
    · exact (Nat.eq_zero_or_pos a).imp_right fun h => clean_next_to_dirtyRun hrun (by omega) (.inl (by omega))
    · exact (Nat.eq_or_lt_of_le hb).imp_right fun h => clean_next_to_dirtyRun hrun h (.inr rfl)
  · rintro ⟨hab, hb, hdirty, hleft, hright⟩
    obtain ⟨⟨a', b'⟩, hrun, ha1, ha2⟩ := (mem_dirtyRuns (show a < 128 by omega)).mpr (hdirty a (Nat.le_refl a) hab)
    obtain ⟨-, hb'⟩ : a' < b' ∧ b' ≤ 128 := dirtyRuns_bounds _ hrun
    have covered : ∀ c, a' ≤ c → c < b' → (fb.cell r c).dirty ≠ false := fun c h1 h2 =>
      Bool.ne_false_iff.mpr ((mem_dirtyRuns (by omega)).mp ⟨_, hrun, h1, h2⟩)
    have ha : ¬ a' < a := fun h => covered (a - 1) (by omega) (by omega) (hleft.resolve_left (by omega))
    have hshort : ¬ b' < b := fun h => by
      simpa [clean_next_to_dirtyRun hrun (show b' < 128 by omega) (.inr rfl)] using hdirty b' (by omega) h
    have hlong : ¬ b < b' := fun h => covered b (by omega) h (hright.resolve_left (by omega))
    rwa [show a = a' by omega, show b = b' by omega]

end Sys2Proof.Machine
end

section
/-! How a sequence ends, whatever the transport answers (60_exceptions.md R224, R227). `Action.Follows` and
`Action.Completes` speak of a given failing call and of none; `Action.Runs` says of every state how the action ends from
there and which answer decided it: to the end of its plan, cut at a failing call, or stuck in one that never returns. -/

namespace Sys2Proof.Machine

/-! ## The answer that decides -/

/-- The first `j` calls are answered with the count of a 3-byte frame, and the next answer, `a`, is none such. -/
def StopsAt (as : List Answer) (j : Nat) (a : Answer) : Prop :=
  (∀ x ∈ as.take j, x.acks 3 = true) ∧ as[j]? = some a ∧ a.acks 3 = false

theorem StopsAt.le {as : List Answer} {j n : Nat} {a : Answer} (h : StopsAt as j a)
    (hn : ∀ x ∈ as.take n, x.acks 3 = true) : n ≤ j := by
  obtain ⟨-, hj, ha⟩ := h
  by_contra hlt
  have hmem : a ∈ as.take n := List.mem_of_getElem? (by rw [List.getElem?_take_of_lt (Nat.lt_of_not_le hlt), hj])
  rw [hn a hmem] at ha
  cases ha

theorem StopsAt.unique {as : List Answer} {i j : Nat} {a b : Answer} (h : StopsAt as i a) (k : StopsAt as j b) :
    i = j ∧ a = b := by
  obtain rfl : i = j := Nat.le_antisymm (k.le h.1) (h.le k.1)
  obtain ⟨-, hi, -⟩ := h
  obtain ⟨-, ki, -⟩ := k
  exact ⟨rfl, Option.some.inj (hi.symm.trans ki)⟩

theorem State.acks_zero (s : State) : s.Acks 0 := fun _ h => absurd h List.not_mem_nil

theorem acks_add {as : List Answer} {n m : Nat} (hn : ∀ x ∈ as.take n, x.acks 3 = true)
    (hm : ∀ x ∈ (as.drop n).take m, x.acks 3 = true) : ∀ x ∈ as.take (n + m), x.acks 3 = true := by
  rw [List.take_add]
  exact fun x hx => (List.mem_append.mp hx).elim (hn x) (hm x)

/-- The deciding answer comes after `n` calls that were answered. -/
theorem StopsAt.of_drop {as : List Answer} {n j : Nat} {a : Answer} (hn : ∀ x ∈ as.take n, x.acks 3 = true)
    (h : StopsAt (as.drop n) j a) : StopsAt as (n + j) a := by
  obtain ⟨hacks, hj, ha⟩ := h
  exact ⟨acks_add hn hacks, by rwa [List.getElem?_drop] at hj, ha⟩

/-! ## The end of a plan -/

/-- How a piece with this plan ends from `s`, the cache being `c` after the whole of it: answered throughout, cut at the
first call whose count is not 3, or stuck in the first one that never returns. -/
def State.EndsPlan {α : Type} (s : State) (plan : Plan) (c : Byte) : Ran α → Prop
  | .ok _ t => s.Acks plan.frames ∧ s.Through plan c t
  | .err e t => e = .transportError ∧ ∃ j a, j < plan.frames ∧ StopsAt s.answers j a ∧ a ≠ .hang ∧
      t.trace = s.trace ++ items (throughFrame j plan.events)
  | .stuck _ => ∃ j < plan.frames, StopsAt s.answers j .hang

/-- From parameters `P` and control byte `c` the action runs the plan, at whose end the control byte is `c'`. -/
def Action.Runs {α : Type} (p : Action α) (P : Params) (c : Byte) (plan : Plan) (c' : Byte) : Prop :=
  ∀ s : State, s.params = P → s.ctrl = c → s.EndsPlan plan c' (p s)

theorem State.EndsPlan.of_acks {α : Type} {s : State} {plan : Plan} {c : Byte} {r : Ran α} (h : s.EndsPlan plan c r)
    (ha : s.Acks plan.frames) : ∃ a t, r = .ok a t ∧ s.Through plan c t := by
  cases r with
  | ok a t => exact ⟨a, t, rfl, h.2⟩
  | err e t =>
    obtain ⟨-, j, a, hj, hstop, -⟩ := h
    exact absurd (hstop.le ha) (by omega)
  | stuck f =>
    obtain ⟨j, hj, hstop⟩ := h
    exact absurd (hstop.le ha) (by omega)

theorem State.EndsPlan.of_failed {α : Type} {s : State} {plan : Plan} {c : Byte} {r : Ran α} {j : Nat} {a : Answer}
    (h : s.EndsPlan plan c r) (hf : StopsAt s.answers j a) (ha : a ≠ .hang) (hj : j < plan.frames) :
    ∃ t, r = .err .transportError t ∧ t.trace = s.trace ++ items (throughFrame j plan.events) := by
  cases r with
  | ok b t => exact absurd (hf.le h.1) (by omega)
  | err e t =>
    obtain ⟨rfl, i, b, -, hstop, -, htrace⟩ := h
    obtain ⟨rfl, -⟩ := hstop.unique hf
    exact ⟨t, rfl, htrace⟩
  | stuck f =>
    obtain ⟨i, -, hstop⟩ := h
    exact absurd (hstop.unique hf).2.symm ha

/-- A first plan gone through, and then how a second one ends. -/
theorem State.EndsPlan.after {α : Type} {s t : State} {plan1 plan2 : Plan} {c1 c2 : Byte} {r : Ran α}
    (ha : s.Acks plan1.frames) (ht : s.Through plan1 c1 t) (h : t.EndsPlan plan2 c2 r) :
    s.EndsPlan (plan1 ++ plan2) c2 r := by
  have ⟨htrace, _, _, hanswers⟩ := ht
  cases r with
  | ok a u =>
    obtain ⟨hta, htu⟩ := h
    rw [State.Acks, hanswers] at hta
    exact ⟨by rw [Plan.frames_append]; exact acks_add ha hta, ht.trans htu⟩
  | err e u =>
    obtain ⟨rfl, j, a, hj, hstop, hne, hcut⟩ := h
    rw [hanswers] at hstop
    refine ⟨rfl, plan1.frames + j, a, by rw [Plan.frames_append]; omega, hstop.of_drop ha, hne, ?_⟩
    rw [Plan.events_append, throughFrame_append_right _ (Nat.le_add_right plan1.frames j), hcut, htrace, items, items,
      items, List.map_append, List.append_assoc, Plan.frames, Nat.add_sub_cancel_left]
  | stuck f =>
    obtain ⟨j, hj, hstop⟩ := h
    rw [hanswers] at hstop
    exact ⟨plan1.frames + j, by rw [Plan.frames_append]; omega, hstop.of_drop ha⟩

section
variable {P : Params} {c : Byte}

theorem Action.Runs.bind {α β : Type} {p : Action α} {q : α → Action β} {plan1 plan2 : Plan} {c1 c2 : Byte}
    (hp : p.Runs P c plan1 c1) (hq : ∀ a, (q a).Runs P c1 plan2 c2) : (p.bind q).Runs P c (plan1 ++ plan2) c2 := by
  intro s hP hc
  have h := hp s hP hc
  cases hr : p s with
  | ok a t =>
    rw [hr] at h
    obtain ⟨ha, ht⟩ := h
    have ⟨_, hct, hpt, _⟩ := ht
    rw [Action.bind_ok hr]
    exact (hq a t (hpt.trans hP) hct).after ha ht
  | err e t =>
    rw [hr] at h
    obtain ⟨rfl, j, a, hj, hstop, hne, hcut⟩ := h
    rw [Action.bind_err hr]
    exact ⟨rfl, j, a, by rw [Plan.frames_append]; omega, hstop, hne,
      by rw [Plan.events_append, throughFrame_append_left _ hj, hcut]⟩
  | stuck f =>
    rw [hr] at h
    obtain ⟨j, hj, hstop⟩ := h
    rw [Action.bind_stuck hr]
    exact ⟨j, by rw [Plan.frames_append]; omega, hstop⟩

/-! ## The pieces -/

/-- A step that makes no call and touches neither trace, cache, parameters nor answers. -/
theorem Action.change_runs {f : State → State}
    (hf : ∀ s, (f s).trace = s.trace ∧ (f s).ctrl = s.ctrl ∧ (f s).params = s.params ∧ (f s).answers = s.answers) :
    (Action.change f).Runs P c [] c := by
  intro s _ hc
  obtain ⟨htrace, hctrl, hparams, hanswers⟩ := hf s
  exact ⟨s.acks_zero, htrace.trans (List.append_nil _).symm, hctrl.trans hc, hparams, hanswers⟩

theorem Action.runs_nil : (Action.inOrder []).Runs P c [] c :=
  Action.change_runs (f := id) fun _ => ⟨rfl, rfl, rfl, rfl⟩

theorem Action.Runs.cons {p : Action Unit} {ps : List (Action Unit)} {plan1 plan2 : Plan} {c1 c2 : Byte}
    (hp : p.Runs P c plan1 c1) (hps : (Action.inOrder ps).Runs P c1 plan2 c2) :
    (Action.inOrder (p :: ps)).Runs P c (plan1 ++ plan2) c2 := hp.bind fun _ => hps

theorem delay_runs (w : Wait) : (delay w).Runs P c [(.delay w, c)] c := fun s _ hc =>
  ⟨s.acks_zero, rfl, hc, rfl, rfl⟩

/-- Every case of a register write by its answer. -/
theorem writeRegisterBody_endsPlan (a v : Byte) (s : State) :
    s.EndsPlan [(evW a v, s.ctrl)] s.ctrl (writeRegisterBody a v s) := by
  by_cases hacks : s.Acks 1
  · rw [writeRegisterBody_acked (n := 0) hacks]
    exact ⟨hacks, rfl, rfl, rfl, rfl⟩
  · obtain ⟨x, rest, hs⟩ : ∃ x rest, s.answers = x :: rest :=
      List.exists_cons_of_ne_nil fun h => hacks fun _ hx => by simp [h] at hx
    have hx : x.acks 3 = false := by simpa [State.Acks, hs] using hacks
    have hstop : StopsAt s.answers 0 x := ⟨by simp, by simp [hs], hx⟩
    cases x with
    | reply k r0 r1 r2 =>
      rw [writeRegisterBody_failed a v ⟨hstop.1, k, r0, r1, r2, hstop.2.1, by simpa [Answer.acks] using hx⟩]
      exact ⟨rfl, 0, _, Nat.one_pos, hstop, nofun, rfl⟩
    | hang =>
      have hstuck : writeRegisterBody a v s = .stuck .transportHang := by simp [writeRegisterBody, spiWrite, hs]
      rw [hstuck]
      exact ⟨0, Nat.one_pos, hstop⟩

/-- A register write, of a register and byte that the parameters give. -/
theorem register_runs {p : Action Unit} {a v : Byte} (hp : ∀ s, s.params = P → p s = writeRegisterBody a v s) :
    p.Runs P c [(evW a v, c)] c := by
  rintro s hP rfl
  rw [hp s hP]
  exact writeRegisterBody_endsPlan a v s

/-- A control write: the byte is cached once its frame succeeded. -/
theorem controlWrite_endsPlan (new : Byte) (s : State) :
    s.EndsPlan [(evW s.params.aCtrl new, new)] new (controlWrite new s) := by
  have h := writeRegisterBody_endsPlan s.params.aCtrl new s
  unfold controlWrite
  cases hw : writeRegisterBody s.params.aCtrl new s with
  | ok _ t =>
    rw [hw] at h
    obtain ⟨ha, htrace, -, hparams, hanswers⟩ := h
    exact ⟨ha, htrace, rfl, hparams, hanswers⟩
  | err e t => rw [hw] at h; exact h
  | stuck f => rw [hw] at h; exact h

/-- A control update: nothing when the byte is the cached one, else the frame, after which it is cached. -/
theorem updateBody_runs {set : CtrlSet} {new : Byte} (hn : applySet set c = new) :
    (updateBody set).Runs P c (controlStep P c new) new := by
  rintro s rfl rfl
  subst hn
  by_cases he : applySet set s.ctrl = s.ctrl
  · rw [controlStep, if_pos he, updateBody_unchanged he]
    exact ⟨s.acks_zero, (List.append_nil _).symm, he.symm, rfl, rfl⟩
  · rw [controlStep, if_neg he, updateBody_changed he]
    exact controlWrite_endsPlan _ s

/-- The Enable toggle sends what its update sends. -/
theorem enableToggle_runs {k : Chip} {di : Bool} {b new : Byte} (hn : applySet { e := some false } c = new) :
    (enableToggle k di b).Runs P c (controlStep P c new) new := by
  intro s hP hc
  have h := updateBody_runs hn s hP hc
  unfold enableToggle
  cases hu : updateBody { e := some false } s with
  | ok _ t => rw [hu] at h; exact h
  | err e t => rw [hu] at h; exact h
  | stuck f => rw [hu] at h; exact h

end

/-- A bus write runs its plan, from any control byte. -/
theorem busWriteSeq_runs (P : Params) (c : Byte) (k : Chip) (di : Bool) (b : Byte) :
    (busWriteSeq k di b).Runs P c (busWritePlan P c k di b) (lineByte c di true true false false) := by
  rw [busWriteSeq_eq, busWritePlan_eq]
  refine Action.Runs.bind (c1 := lineByte c di true false (k = .chip1) (k = .chip2)) ?_ fun _ =>
    Action.Runs.bind (enableToggle_runs (applySet_lineByte _ c _ _ _ _ _ rfl rfl)) fun _ => ?_
  · exact .cons (updateBody_runs (applySet_eq_lineByte _ c rfl rfl)) <|
      .cons (register_runs fun s hP => by rw [dataDirOut, hP]) <|
      .cons (register_runs fun s hP => by rw [dataOut, hP]) <|
      .cons (updateBody_runs (applySet_lineByte _ c _ _ _ _ _ rfl rfl)) <|
      .cons (delay_runs _) Action.runs_nil
  · exact .cons (delay_runs _) <|
      .cons (updateBody_runs (applySet_lineByte _ c _ _ _ _ _ rfl rfl)) <|
      .cons (updateBody_runs (applySet_lineByte _ c _ _ _ _ _ rfl rfl)) <|
      .cons (register_runs fun s hP => by rw [dataDirIn, hP]) Action.runs_nil

end Sys2Proof.Machine
end

section
/-! The flush as a list of bursts (43_framebuffer.md R194 to R197): one burst for each dirty run, byte-rows in order and
left to right within a row, each followed by the cleaning of its own cells. So a flush that fails has cleaned exactly
the bursts before the one that was cut, and the trace says which that is. -/

namespace Sys2Proof.Machine

/-! ## Plans of words -/

/-- The plan of bus writes one after another, each from the control byte the one before leaves. -/
def wordsPlan (P : Params) : Byte → List SentWord → Plan
  | _, [] => []
  | c, w :: ws => busWritePlan P c w.1 w.2.1 w.2.2 ++ wordsPlan P (lineByte c w.2.1 true true false false) ws

/-- The control byte that bus writes leave. -/
def controlAfter (c : Byte) (ws : List SentWord) : Byte :=
  ws.foldl (fun c w => lineByte c w.2.1 true true false false) c

theorem wordsPlan_append (P : Params) (c : Byte) (ws vs : List SentWord) :
    wordsPlan P c (ws ++ vs) = wordsPlan P c ws ++ wordsPlan P (controlAfter c ws) vs := by
  induction ws generalizing c with
  | nil => rfl
  | cons w ws ih =>
    rw [List.cons_append, wordsPlan, wordsPlan, ih, List.append_assoc, controlAfter, controlAfter, List.foldl_cons]

theorem controlAfter_append (c : Byte) (ws vs : List SentWord) :
    controlAfter c (ws ++ vs) = controlAfter (controlAfter c ws) vs := List.foldl_append

theorem sendWords_runs (P : Params) (c : Byte) (ws : List SentWord) :
    (sendWords ws).Runs P c (wordsPlan P c ws) (controlAfter c ws) := by
  induction ws generalizing c with
  | nil => exact Action.runs_nil
  | cons w ws ih => exact (busWriteSeq_runs P c w.1 w.2.1 w.2.2).bind fun _ => ih _

/-- The events of a bus write depend on the cache only by its backlight (41_parallel_bus.md R120). -/
theorem busWriteEvents_congr {p : Params} {c d : Byte} (h : ctrlBL c = ctrlBL d) :
    busWriteEvents p c = busWriteEvents p d := by
  funext k di b
  simp only [busWriteEvents, seqByte, h]

/-- From the idle state the plan of words is their events, eight calls a word, and it ends idle. -/
theorem wordsPlan_idle (P : Params) {c : Byte} (hi : Idle c) (ws : List SentWord) :
    (wordsPlan P c ws).events = wordsEvents P c ws ∧ (wordsPlan P c ws).frames = 8 * ws.length ∧
      Idle (controlAfter c ws) := by
  induction ws generalizing c with
  | nil => exact ⟨rfl, rfl, hi⟩
  | cons w ws ih =>
    have ⟨_, _, _, _, hrst, _⟩ := hi
    have hnext : lineByte c w.2.1 true true false false = seqByte c w.2.1 true true false false :=
      lineByte_eq_seqByte hrst _ _ _ _ _
    obtain ⟨hevents, hframes, hidle⟩ := ih (seqByte_idle c w.2.1)
    have hword : Plan.events (busWritePlan P c w.1 w.2.1 w.2.2) = busWriteEvents P c w.1 w.2.1 w.2.2 := by
      rw [busWritePlan_idle hi]
      rfl
    have hcalls : Plan.frames (busWritePlan P c w.1 w.2.1 w.2.2) = 8 := by
      rw [busWritePlan_idle hi]
      rfl
    rw [wordsPlan, hnext, Plan.events_append, Plan.frames_append, hevents, hframes, hword, hcalls, List.length_cons]
    refine ⟨?_, by omega, by rw [controlAfter, List.foldl_cons, hnext]; exact hidle⟩
    simp only [wordsEvents, List.flatMap_cons, busWriteEvents_congr (seqByte_bl c w.2.1 true true false false)]

/-! ## Bursts -/

/-- A byte-row and an interval of its columns. -/
abbrev Burst := Nat × Nat × Nat

/-- The words of a burst. -/
def FrameBuffer.burstWords (fb : FrameBuffer) (p : Burst) : List SentWord :=
  runWords p.1 p.2.1 (fb.values p.1 p.2.1 p.2.2)

/-- Its cells cleaned. -/
def FrameBuffer.cleanBurst (fb : FrameBuffer) (p : Burst) : FrameBuffer := fb.clean p.1 p.2.1 (p.2.2 - p.2.1)

/-- The bursts of a byte-row, and of the framebuffer, in the order of the flush. -/
def FrameBuffer.rowBursts (fb : FrameBuffer) (r : Nat) : List Burst :=
  (dirtyRuns (fb.rowDirty r)).map fun run => (r, run)
def FrameBuffer.bursts (fb : FrameBuffer) : List Burst := (List.range 8).flatMap fb.rowBursts

/-- The values of a burst sent, and then its cells cleaned. -/
def sendBurst (fb : FrameBuffer) (p : Burst) : Action Unit :=
  (sendWords (fb.burstWords p)).andThen (Action.change fun t => { t with fb := t.fb.cleanBurst p })

/-- The cell is one of a burst. -/
def Burst.Covers (p : Burst) (r c : Nat) : Prop := p.1 = r ∧ p.2.1 ≤ c ∧ c < p.2.2

theorem FrameBuffer.cell_cleanBurst (fb : FrameBuffer) (p : Burst) (r c : Nat) :
    ((fb.cleanBurst p).cell r c).value = (fb.cell r c).value ∧
      (((fb.cleanBurst p).cell r c).dirty = true ↔ (fb.cell r c).dirty = true ∧ ¬ p.Covers r c) := by
  have hcover : (r = p.1 ∧ p.2.1 ≤ c ∧ c < p.2.1 + (p.2.2 - p.2.1)) ↔ p.Covers r c := by
    unfold Burst.Covers
    omega
  rw [FrameBuffer.cleanBurst, FrameBuffer.cell_clean]
  split
  · next h => simp [hcover.mp h]
  · next h => simp [mt hcover.mpr h]

/-- The cells after several bursts were cleaned. -/
theorem FrameBuffer.cell_cleanBursts (fb : FrameBuffer) (ps : List Burst) (r c : Nat) :
    ((ps.foldl FrameBuffer.cleanBurst fb).cell r c).value = (fb.cell r c).value ∧
      (((ps.foldl FrameBuffer.cleanBurst fb).cell r c).dirty = true ↔
        (fb.cell r c).dirty = true ∧ ∀ p ∈ ps, ¬ p.Covers r c) := by
  induction ps generalizing fb with
  | nil => simp
  | cons p ps ih =>
    obtain ⟨hvalue, hdirty⟩ := ih (fb.cleanBurst p)
    obtain ⟨kvalue, kdirty⟩ := fb.cell_cleanBurst p r c
    rw [List.foldl_cons, hvalue, hdirty, kvalue, kdirty, List.forall_mem_cons, and_assoc]
    exact ⟨rfl, Iff.rfl⟩

theorem writeBackWords_eq (fb : FrameBuffer) : writeBackWords fb = fb.bursts.flatMap fb.burstWords := by
  simp only [writeBackWords, FrameBuffer.bursts, FrameBuffer.rowBursts, List.flatMap_assoc, List.flatMap_map]
  rfl

/-- A burst of the list is a run of its row. -/
theorem mem_bursts {fb : FrameBuffer} {p : Burst} :
    p ∈ fb.bursts ↔ p.1 < 8 ∧ p.2 ∈ dirtyRuns (fb.rowDirty p.1) := by
  obtain ⟨r, run⟩ := p
  simp [FrameBuffer.bursts, FrameBuffer.rowBursts]

/-- A cell of the grid is dirty exactly if a burst covers it (43_framebuffer.md R193). -/
theorem dirty_iff_covered {fb : FrameBuffer} {r c : Nat} (hr : r < 8) (hc : c < 128) :
    (fb.cell r c).dirty = true ↔ ∃ p ∈ fb.bursts, p.Covers r c := by
  rw [← mem_dirtyRuns hc]
  constructor
  · rintro ⟨run, hrun, hcover⟩
    exact ⟨(r, run), mem_bursts.mpr ⟨hr, hrun⟩, rfl, hcover⟩
  · rintro ⟨⟨r', run⟩, hp, rfl, hcover⟩
    exact ⟨run, (mem_bursts.mp hp).2, hcover⟩

/-! ## The flush is its bursts -/

/-- One action after another, when the first is the same and the second is where the first succeeded. -/
theorem Action.andThen_congr {p p' q q' : Action Unit} {s : State} (hp : p s = p' s)
    (hq : ∀ t, p' s = .ok () t → q t = q' t) : p.andThen q s = p'.andThen q' s := by
  rw [Action.andThen, Action.bind, hp, Action.andThen, Action.bind]
  cases h : p' s with
  | ok _ t => exact hq t h
  | err e t => rfl
  | stuck f => rfl

theorem sendWords_fb (ws : List SentWord) : (sendWords ws).Keeps fun s t => t.fb = s.fb :=
  Action.keeps_forEach (R := fun s t => t.fb = s.fb) (fun _ => rfl) (fun _ _ _ h k => k.trans h) fun _ _ =>
    Action.keeps_mono (busWriteSeq_busFrame _ _ _) fun _ _ ⟨_, hfb, _⟩ => hfb

/-- The flush of bursts was cut in one of them: those before it were sent and cleaned, of it the events up to a failing
call were emitted, and nothing else was done. -/
def State.CutInBurst (fb : FrameBuffer) (ps : List Burst) (s t : State) : Prop :=
  ∃ done p rest c j, ps = done ++ p :: rest ∧ j < (wordsPlan s.params c (fb.burstWords p)).frames ∧
    t.fb = done.foldl FrameBuffer.cleanBurst s.fb ∧
    t.trace = s.trace ++ items ((wordsPlan s.params s.ctrl (done.flatMap fb.burstWords)).events
      ++ throughFrame j (wordsPlan s.params c (fb.burstWords p)).events)

/-- How a burst ends: sent whole and its cells cleaned, or cut and the framebuffer as it was. -/
theorem sendBurst_ends (fb : FrameBuffer) (p : Burst) (s : State) : (sendBurst fb p s).Ends fun o t =>
    (o = none → t.fb = s.fb.cleanBurst p ∧
      s.Through (wordsPlan s.params s.ctrl (fb.burstWords p)) (controlAfter s.ctrl (fb.burstWords p)) t) ∧
    (o ≠ none → t.fb = s.fb ∧ ∃ j < (wordsPlan s.params s.ctrl (fb.burstWords p)).frames,
      t.trace = s.trace ++ items (throughFrame j (wordsPlan s.params s.ctrl (fb.burstWords p)).events)) := by
  have hends := sendWords_runs s.params s.ctrl (fb.burstWords p) s rfl rfl
  have hfb := sendWords_fb (fb.burstWords p) s
  unfold sendBurst
  cases h : sendWords (fb.burstWords p) s with
  | ok _ t =>
    rw [h] at hends hfb
    rw [Action.andThen_ok h]
    exact ⟨fun _ => ⟨congrArg (FrameBuffer.cleanBurst · p) hfb, hends.2⟩, fun ho => absurd rfl ho⟩
  | err e t =>
    rw [h] at hends hfb
    obtain ⟨-, j, -, hj, -, -, htrace⟩ := hends
    rw [Action.andThen, Action.bind_err h]
    exact ⟨nofun, fun _ => ⟨hfb, j, hj, htrace⟩⟩
  | stuck f =>
    rw [Action.andThen, Action.bind_stuck h]
    trivial

/-- How several bursts end. -/
theorem sendBursts_ends (fb : FrameBuffer) (ps : List Burst) (s : State) :
    (Action.forEach (sendBurst fb) ps s).Ends fun o t =>
      (o = none → t.fb = ps.foldl FrameBuffer.cleanBurst s.fb) ∧ (o ≠ none → s.CutInBurst fb ps t) := by
  induction ps generalizing s with
  | nil => exact ⟨fun _ => rfl, fun h => absurd rfl h⟩
  | cons p ps ih =>
    refine Action.bind_ends (sendBurst_ends fb p s) (fun e t h => ⟨nofun, fun _ => ?_⟩) fun _ t _ h =>
      (ih t).mono fun o u hu => ?_
    · obtain ⟨hfb, j, hj, htrace⟩ := h.2 nofun
      exact ⟨[], p, ps, s.ctrl, j, rfl, hj, hfb, htrace⟩
    · obtain ⟨hfb, htrace, hctrl, hparams, -⟩ := h.1 rfl
      refine ⟨fun ho => by rw [hu.1 ho, hfb, List.foldl_cons], fun ho => ?_⟩
      obtain ⟨done, q, rest, c, j, rfl, hj, hufb, hutrace⟩ := hu.2 ho
      rw [hparams] at hj hutrace
      refine ⟨p :: done, q, rest, c, j, rfl, hj, by rw [hufb, hfb, List.foldl_cons], ?_⟩
      rw [hutrace, htrace, hctrl, List.flatMap_cons, wordsPlan_append, Plan.events_append]
      simp only [items, List.map_append, List.append_assoc]

/-- Bursts that succeeded cleaned their cells. -/
theorem sendBursts_fb {fb : FrameBuffer} {ps : List Burst} {s t : State}
    (h : Action.forEach (sendBurst fb) ps s = .ok () t) : t.fb = ps.foldl FrameBuffer.cleanBurst s.fb := by
  have hends := sendBursts_ends fb ps s
  rw [h] at hends
  exact hends.1 rfl

/-- The same values in every cell. -/
def FrameBuffer.SameValues (fb g : FrameBuffer) : Prop := ∀ r c, (g.cell r c).value = (fb.cell r c).value

theorem FrameBuffer.SameValues.cleanBursts {fb g : FrameBuffer} (h : fb.SameValues g) (ps : List Burst) :
    fb.SameValues (ps.foldl FrameBuffer.cleanBurst g) :=
  fun r c => (g.cell_cleanBursts ps r c).1.trans (h r c)

/-- The flush of a run that fits is its burst. -/
theorem flushRun_eq {fb : FrameBuffer} {r : Nat} {run : Nat × Nat} {s : State} (hr : r < 8)
    (hrun : run.1 < run.2 ∧ run.2 ≤ 128) (hv : fb.SameValues s.fb) : flushRun r run s = sendBurst fb (r, run) s := by
  have hvalues : s.fb.values r run.1 run.2 = fb.values r run.1 run.2 := by
    simp only [FrameBuffer.values, hv r _]
  have hlen : (fb.values r run.1 run.2).length = run.2 - run.1 := by simp [FrameBuffer.values]
  have hfits : runFits r run.1 (fb.values r run.1 run.2).length = true := by
    rw [runFits_iff, hlen]
    omega
  rw [flushRun, hvalues, setBytesAtSeq_eq, if_pos hfits, sendBurst]
  cases h : sendWords (runWords r run.1 (fb.values r run.1 run.2)) s with
  | _ => simp [FrameBuffer.burstWords, FrameBuffer.cleanBurst, Action.andThen, Action.bind, h, hlen]

/-- The flush of runs of a row is their bursts. -/
theorem flushRuns_eq {fb : FrameBuffer} {r : Nat} {runs : List (Nat × Nat)} {s : State} (hr : r < 8)
    (hruns : ∀ run ∈ runs, run.1 < run.2 ∧ run.2 ≤ 128) (hv : fb.SameValues s.fb) :
    Action.forEach (flushRun r) runs s = Action.forEach (sendBurst fb) (runs.map fun run => (r, run)) s := by
  induction runs generalizing s with
  | nil => rfl
  | cons run runs ih =>
    obtain ⟨hrun, hruns⟩ := List.forall_mem_cons.mp hruns
    refine Action.andThen_congr (flushRun_eq hr hrun hv) fun t ht => ih hruns ?_
    have hfb := sendBursts_fb (ps := [(r, run)]) ((Action.andThen_ok ht).trans rfl)
    rw [hfb]
    exact hv.cleanBursts _

/-- The flush of different rows is their bursts: what is flushed of one row leaves the dirty bits of the others, and all
values. -/
theorem flushRows_eq {fb : FrameBuffer} {rows : List Nat} {s : State} (hrows : ∀ r ∈ rows, r < 8) (hdup : rows.Nodup)
    (hv : fb.SameValues s.fb) (hd : ∀ r ∈ rows, s.fb.rowDirty r = fb.rowDirty r) :
    Action.forEach flushRow rows s = Action.forEach (sendBurst fb) (rows.flatMap fb.rowBursts) s := by
  induction rows generalizing s with
  | nil => rfl
  | cons r rows ih =>
    obtain ⟨hr, hrows⟩ := List.forall_mem_cons.mp hrows
    obtain ⟨hnew, hdup⟩ := List.nodup_cons.mp hdup
    obtain ⟨hdr, hd⟩ := List.forall_mem_cons.mp hd
    have hrow : flushRow r s = Action.forEach (sendBurst fb) (fb.rowBursts r) s := by
      rw [flushRow, hdr, flushRuns_eq hr dirtyRuns_bounds hv, FrameBuffer.rowBursts]
    rw [List.flatMap_cons, Action.forEach_append]
    refine Action.andThen_congr hrow fun t ht => ?_
    have hfb := sendBursts_fb ht
    refine ih hrows hdup (hfb ▸ hv.cleanBursts _) fun r' hr' => ?_
    rw [← hd r' hr']
    refine List.map_congr_left fun c _ => ?_
    have hother : ∀ p ∈ fb.rowBursts r, ¬ p.Covers r' c := by
      rintro p hp ⟨rfl, -⟩
      obtain ⟨run, -, rfl⟩ := List.mem_map.mp hp
      exact hnew hr'
    rw [Bool.eq_iff_iff, hfb, (s.fb.cell_cleanBursts _ _ _).2]
    exact and_iff_left hother

/-- The flush of the framebuffer is its bursts. -/
theorem writeBackSeq_eq (s : State) : writeBackSeq s = Action.forEach (sendBurst s.fb) s.fb.bursts s :=
  flushRows_eq (fun _ => List.mem_range.mp) List.nodup_range (fun _ _ => rfl) fun _ _ => rfl

theorem sendBursts_runs (fb : FrameBuffer) (P : Params) (c : Byte) (ps : List Burst) :
    (Action.forEach (sendBurst fb) ps).Runs P c (wordsPlan P c (ps.flatMap fb.burstWords))
      (controlAfter c (ps.flatMap fb.burstWords)) := by
  induction ps generalizing c with
  | nil => exact Action.runs_nil
  | cons p ps ih =>
    have hburst : (sendBurst fb p).Runs P c (wordsPlan P c (fb.burstWords p) ++ [])
        (controlAfter c (fb.burstWords p)) :=
      (sendWords_runs P c (fb.burstWords p)).bind fun _ => Action.change_runs fun _ => ⟨rfl, rfl, rfl, rfl⟩
    rw [List.append_nil] at hburst
    rw [List.flatMap_cons, wordsPlan_append, controlAfter_append]
    exact hburst.bind fun _ => ih _

/-- The flush runs the plan of its words. -/
theorem writeBackSeq_endsPlan (s : State) :
    s.EndsPlan (wordsPlan s.params s.ctrl (writeBackWords s.fb)) (controlAfter s.ctrl (writeBackWords s.fb))
      (writeBackSeq s) := by
  rw [writeBackSeq_eq, writeBackWords_eq]
  exact sendBursts_runs s.fb s.params s.ctrl s.fb.bursts s rfl rfl

/-! ## A flush that succeeds -/

/-- All bursts cleaned: every cell is clean and has its value. -/
theorem FrameBuffer.cell_cleanAll (fb : FrameBuffer) (r c : Nat) :
    (fb.bursts.foldl FrameBuffer.cleanBurst fb).cell r c = { value := (fb.cell r c).value, dirty := false } := by
  obtain ⟨hvalue, hdirty⟩ := fb.cell_cleanBursts fb.bursts r c
  have hclean : ¬ ((fb.bursts.foldl FrameBuffer.cleanBurst fb).cell r c).dirty = true := by
    rw [hdirty]
    rintro ⟨hd, hout⟩
    by_cases hgrid : r < 8 ∧ c < 128
    · obtain ⟨p, hp, hcover⟩ := (dirty_iff_covered hgrid.1 hgrid.2).mp hd
      exact hout p hp hcover
    · rw [fb.cell_outside r c hgrid] at hd
      cases hd
  rw [← hvalue, ← Bool.eq_false_iff.mpr hclean]

/-- Settles O41: from the idle state the plan of the words is their events, and all bursts clean all cells. -/
theorem writeBackSendsOneBurstPerRun : Obligations.WriteBackSendsOneBurstPerRun := by
  intro s hs hi ha
  obtain ⟨hevents, hframes, hidle⟩ := wordsPlan_idle s.params hi (writeBackWords s.fb)
  obtain ⟨_, t, ht, htrace, hctrl, -, -⟩ := (writeBackSeq_endsPlan s).of_acks (hframes ▸ ha)
  have hexec : exec .fbWriteBack s = .next (t.record (.ok .unit)) := perform_unit_ok hs ht
  rw [writeBackSeq_eq] at ht
  refine ⟨_, hexec, ?_, fun r c => ?_, hctrl ▸ hidle, exec_pinsKept hexec nofun⟩
  · rw [State.record_trace, htrace, hevents]
  · rw [State.record_fb, sendBursts_fb ht, FrameBuffer.cell_cleanAll]

/-! ## The first flush -/

/-- A run of dirty columns to the end of the row. -/
theorem dirtyRunsFrom_replicate (c a n : Nat) : dirtyRunsFrom c (some a) (List.replicate n true) = [(a, c + n)] := by
  induction n generalizing c with
  | zero => rfl
  | succ n ih => rw [List.replicate_succ, dirtyRunsFrom, if_pos rfl, ih, Nat.add_right_comm, Nat.add_assoc]

/-- A row with every cell dirty is one run. -/
theorem dirtyRuns_all {fb : FrameBuffer} {r : Nat} (hd : ∀ c < 128, (fb.cell r c).dirty = true) :
    dirtyRuns (fb.rowDirty r) = [(0, 128)] := by
  have hrow : fb.rowDirty r = List.replicate 128 true :=
    List.eq_replicate_iff.mpr ⟨fb.rowDirty_length r, fun d hmem => by
      obtain ⟨c, hc, rfl⟩ := List.mem_map.mp hmem
      exact hd c (List.mem_range.mp hc)⟩
  rw [hrow, dirtyRuns, List.replicate_succ, dirtyRunsFrom, if_pos rfl, dirtyRunsFrom_replicate]

/-- The words of a whole row: 64 values to each chip from column 0 on (43_framebuffer.md R197). -/
def FrameBuffer.rowWords (fb : FrameBuffer) (r : Nat) : List SentWord :=
  [(Chip.chip1, false, pageByte r), (Chip.chip1, false, 0x40#8)]
    ++ (List.range 64).map (fun c => (Chip.chip1, true, (fb.cell r c).value))
    ++ [(Chip.chip2, false, pageByte r), (Chip.chip2, false, 0x40#8)]
    ++ (List.range 64).map (fun c => (Chip.chip2, true, (fb.cell r (64 + c)).value))

theorem FrameBuffer.rowWords_length (fb : FrameBuffer) (r : Nat) : (fb.rowWords r).length = 132 := by
  simp [FrameBuffer.rowWords]

theorem runWords_row (fb : FrameBuffer) (r : Nat) : runWords r 0 (fb.values r 0 128) = fb.rowWords r := by
  have hvalues : fb.values r 0 128 = (List.range 64).map (fun c => (fb.cell r c).value)
      ++ (List.range 64).map (fun c => (fb.cell r (64 + c)).value) := by
    rw [FrameBuffer.values, ← List.range_eq_range', Nat.sub_zero, show 128 = 64 + 64 from rfl, List.range_add,
      List.map_append, List.map_map]
    rfl
  rw [hvalues, runWords, List.take_left' (by simp), List.drop_left' (by simp), segmentWords, if_neg (by simp),
    segmentWords, if_neg (by simp), List.map_map, List.map_map]
  simp only [FrameBuffer.rowWords, List.cons_append, List.nil_append, List.append_assoc]
  rfl

/-- A setter leaves a cell clean only if it leaves it alone. -/
theorem setterSeq_cleanFrom {f : FrameBuffer → FrameBuffer} (hf : ∀ fb : FrameBuffer, fb.CleanFrom (f fb))
    (legal : Bool) : (setterSeq legal f).Ends fun s _ t => s.fb.CleanFrom t.fb := by
  unfold setterSeq
  split
  · exact fun s => hf s.fb
  · exact fun _ _ _ _ => rfl

/-- Settles O44: each row is one run of 128 columns, and a setter that left a dirty cell clean would have left it
alone. -/
theorem firstWriteBackSendsEveryByte : Obligations.FirstWriteBackSendsEveryByte := by
  refine ⟨fun s hs hi hd ha => ?_, fun i s t hsetter h r c hdirty => ?_⟩
  · have hwords : writeBackWords s.fb = (List.range 8).flatMap s.fb.rowWords :=
      List.flatMap_congr fun r hr => by
        rw [dirtyRuns_all (hd r (List.mem_range.mp hr)), List.flatMap_singleton, runWords_row]
    have hlen : (writeBackWords s.fb).length = 1056 := by
      simp only [hwords, List.length_flatMap, FrameBuffer.rowWords_length]
      rfl
    obtain ⟨t, hexec, htrace, hcell, -⟩ := writeBackSendsOneBurstPerRun s hs hi (hlen ▸ ha)
    exact ⟨t, writeBackWords s.fb, hwords, hlen, hexec, htrace, fun r _ c _ => hcell r c⟩
  · have hkept : (sequenceOf i).Ends fun s _ t => s.fb.CleanFrom t.fb := by
      cases i with
      | fbSetByte r c v => exact Action.ends_unit (setterSeq_cleanFrom (fun fb => fb.cleanFrom_putByte _ _ _) _)
      | fbSetBit y c v => exact Action.ends_unit (setterSeq_cleanFrom (fun fb => fb.cleanFrom_putByte _ _ _) _)
      | fbSetBitMatrix y c m => exact Action.ends_unit (setterSeq_cleanFrom (fun fb => fb.cleanFrom_putMatrix _ _ _) _)
      | _ => exact hsetter.elim
    obtain ⟨-, -, hf⟩ := exec_next h
    obtain ⟨u, -, -, hu, rfl, -⟩ := Ran.finish_ends (hkept s) hf
    by_contra hclean
    have hsame : u.fb.cell r c = s.fb.cell r c := hu r c (Bool.eq_false_iff.mpr hclean)
    exact hclean (hsame ▸ hdirty)

/-! ## A flush that fails -/

/-- The bursts stand in the order of the flush, those of one row with a clean column between two. -/
theorem bursts_sorted (fb : FrameBuffer) :
    fb.bursts.Pairwise fun p q => p.1 < q.1 ∨ p.1 = q.1 ∧ p.2.2 < q.2.1 := by
  refine List.pairwise_flatMap.mpr ⟨fun r _ => ?_, List.pairwise_lt_range.imp fun hlt p hp q hq => ?_⟩
  · exact List.pairwise_map.mpr ((dirtyRuns_separated fb r).imp fun h => .inr ⟨rfl, h⟩)
  · obtain ⟨run, -, rfl⟩ := List.mem_map.mp hp
    obtain ⟨run', -, rfl⟩ := List.mem_map.mp hq
    exact .inl hlt

/-- The burst is one of an earlier row, or begins left of `q` in its row. -/
def Burst.before (q p : Burst) : Bool := p.1 < q.1 || (p.1 = q.1 && p.2.1 < q.2.1)

theorem Burst.before_iff {q p : Burst} : q.before p = true ↔ p.1 < q.1 ∨ p.1 = q.1 ∧ p.2.1 < q.2.1 := by
  simp [Burst.before]

/-- The words before a place of the flush are those of the bursts before it. -/
theorem writeBackWordsBefore_eq_filter (fb : FrameBuffer) (q : Burst) :
    writeBackWordsBefore fb q.1 q.2.1 = (fb.bursts.filter q.before).flatMap fb.burstWords := by
  simp only [writeBackWordsBefore, FrameBuffer.bursts, FrameBuffer.rowBursts, List.filter_flatMap, List.filter_map,
    List.flatMap_assoc, List.flatMap_map]
  rfl

section
variable {fb : FrameBuffer} {done rest : List Burst} {q : Burst} (hlist : fb.bursts = done ++ q :: rest)
include hlist

/-- The bursts before one of them: earlier rows, and the same row left of it. -/
theorem bursts_before {p : Burst} (hp : p ∈ done) : p.1 < q.1 ∨ p.1 = q.1 ∧ p.2.2 < q.2.1 := by
  have hsorted := bursts_sorted fb
  rw [hlist, List.pairwise_append] at hsorted
  obtain ⟨-, -, hbefore⟩ := hsorted
  exact hbefore p hp q (by simp)

theorem bursts_after {p : Burst} (hp : p ∈ rest) : q.1 < p.1 ∨ q.1 = p.1 ∧ q.2.2 < p.2.1 := by
  have hsorted := bursts_sorted fb
  rw [hlist, List.pairwise_append, List.pairwise_cons] at hsorted
  obtain ⟨-, ⟨hafter, -⟩, -⟩ := hsorted
  exact hafter p hp

/-- Their columns are within the row. -/
theorem bursts_bounds {p : Burst} (hp : p ∈ done ++ q :: rest) : p.1 < 8 ∧ p.2.1 < p.2.2 ∧ p.2.2 ≤ 128 := by
  obtain ⟨hr, hrun⟩ := mem_bursts.mp (hlist ▸ hp)
  exact ⟨hr, dirtyRuns_bounds _ hrun⟩

/-- The words of the bursts before one of them (43_framebuffer.md R195). -/
theorem writeBackWordsBefore_eq : writeBackWordsBefore fb q.1 q.2.1 = done.flatMap fb.burstWords := by
  have hdone : done.filter q.before = done := List.filter_eq_self.mpr fun p hp => by
    have hbefore := bursts_before hlist hp
    have hbounds := bursts_bounds hlist (List.mem_append_left _ hp)
    rw [Burst.before_iff]
    omega
  have hrest : (q :: rest).filter q.before = [] := List.filter_eq_nil_iff.mpr fun p hp => by
    have hbounds := bursts_bounds hlist (p := q) (by simp)
    rw [Burst.before_iff]
    rcases List.mem_cons.mp hp with rfl | hp
    · omega
    · have hafter := bursts_after hlist hp
      omega
  rw [writeBackWordsBefore_eq_filter, hlist, List.filter_append, hdone, hrest, List.append_nil]

/-- The cells that stay dirty when the bursts before one of them were cleaned. -/
theorem dirty_after_done {r c : Nat} (hr : r < 8) (hc : c < 128) :
    ((done.foldl FrameBuffer.cleanBurst fb).cell r c).dirty = true ↔
      (fb.cell r c).dirty = true ∧ (q.1 < r ∨ (r = q.1 ∧ q.2.1 ≤ c)) := by
  rw [(fb.cell_cleanBursts done r c).2]
  refine and_congr_right fun hd => ⟨fun hout => ?_, ?_⟩
  · obtain ⟨p, hp, hcover⟩ := (dirty_iff_covered hr hc).mp hd
    obtain ⟨hrow, hlo, hhi⟩ := hcover
    rw [hlist, List.mem_append, List.mem_cons] at hp
    rcases hp with hp | rfl | hp
    · exact absurd ⟨hrow, hlo, hhi⟩ (hout p hp)
    · exact .inr ⟨hrow.symm, hlo⟩
    · have hafter := bursts_after hlist hp
      have hbounds := bursts_bounds hlist (p := q) (by simp)
      omega
  · rintro hin p hp ⟨hrow, hlo, hhi⟩
    have hbefore := bursts_before hlist hp
    omega

end

/-! ## Which frames a bus write sends -/

/-- A cut keeps the events before the failing call, and the call. -/
theorem throughFrame_eq {es : List Event} {j : Nat} (h : j < es.countP Event.isFrame) :
    ∃ sent f rest, throughFrame j es = sent ++ [f] ∧ es = sent ++ f :: rest := by
  induction es generalizing j with
  | nil => simp at h
  | cons e es ih =>
    rw [List.countP_cons] at h
    unfold throughFrame
    split
    · next he =>
      cases j with
      | zero => exact ⟨[], e, es, rfl, rfl⟩
      | succ j =>
        rw [if_pos he] at h
        obtain ⟨sent, f, rest, hcut, rfl⟩ := ih (Nat.lt_of_succ_lt_succ h)
        exact ⟨e :: sent, f, rest, congrArg (e :: ·) hcut, rfl⟩
    · next he =>
      rw [if_neg he] at h
      obtain ⟨sent, f, rest, hcut, rfl⟩ := ih h
      exact ⟨e :: sent, f, rest, congrArg (e :: ·) hcut, rfl⟩

section
variable {P : Params} (hd : P.Distinct)
include hd

/-- With distinct addresses a control step sends nothing to the data registers. -/
theorem controlStep_data (old new : Byte) :
    (Plan.events (controlStep P old new)).countP (Event.isWriteTo P.aDataDir) = 0 ∧
      (Plan.events (controlStep P old new)).filterMap (Event.byteTo? P.aData) = [] := by
  have h1 := Params.aDataDir_ne_aCtrl hd
  have h2 := Params.aData_ne_aCtrl hd
  unfold controlStep
  split
  · exact ⟨rfl, rfl⟩
  · simp [Plan.events, Event.isWriteTo, Event.byteTo?, h1.symm, h2.symm]

/-- A bus write sets the data direction twice and sends its byte once. -/
theorem busWritePlan_data (c : Byte) (k : Chip) (di : Bool) (b : Byte) :
    (Plan.events (busWritePlan P c k di b)).countP (Event.isWriteTo P.aDataDir) = 2 ∧
      (Plan.events (busWritePlan P c k di b)).filterMap (Event.byteTo? P.aData) = [b] := by
  have hcount := fun old new => (controlStep_data hd old new).1
  have hbytes := fun old new => (controlStep_data hd old new).2
  have hne : P.aDataDir ≠ P.aData := by
    intro h
    simp [Params.Distinct, Params.addresses, h] at hd
  simp only [busWritePlan, Plan.events_append, List.countP_append, List.filterMap_append, hcount, hbytes]
  simp [Plan.events, Event.isWriteTo, Event.byteTo?, hne, hne.symm]

theorem wordsPlan_data (c : Byte) (ws : List SentWord) :
    (wordsPlan P c ws).events.countP (Event.isWriteTo P.aDataDir) = 2 * ws.length ∧
      (wordsPlan P c ws).events.filterMap (Event.byteTo? P.aData) = ws.map fun w => w.2.2 := by
  induction ws generalizing c with
  | nil => exact ⟨rfl, rfl⟩
  | cons w ws ih =>
    obtain ⟨hcount, hbytes⟩ := busWritePlan_data hd c w.1 w.2.1 w.2.2
    obtain ⟨ihcount, ihbytes⟩ := ih (lineByte c w.2.1 true true false false)
    rw [wordsPlan, Plan.events_append, List.countP_append, List.filterMap_append, hcount, hbytes, ihcount, ihbytes,
      List.length_cons]
    exact ⟨by omega, rfl⟩

end

/-- The last event of words is a write of the data direction (41_parallel_bus.md R120, step 7). -/
theorem wordsPlan_getLast? (P : Params) (c : Byte) {ws : List SentWord} (hne : ws ≠ []) :
    (wordsPlan P c ws).events.getLast? = some (evW P.aDataDir P.ddrIn) := by
  induction ws generalizing c with
  | nil => exact absurd rfl hne
  | cons w ws ih =>
    rw [wordsPlan, Plan.events_append, List.getLast?_append]
    cases ws with
    | nil =>
      rw [busWritePlan, Plan.events_append, List.getLast?_append]
      rfl
    | cons v ws => rw [ih _ (by simp)]; rfl

/-- Words cut at a call: with distinct addresses, before the failing frame the data direction was set fewer than twice a
word, and the data bytes sent, that frame included, are the first ones of the words. -/
theorem throughFrame_wordsPlan {P : Params} {c : Byte} {ws : List SentWord} {j : Nat}
    (hj : j < (wordsPlan P c ws).frames) : ∃ sent f, throughFrame j (wordsPlan P c ws).events = sent ++ [f] ∧
      (P.Distinct → sent.countP (Event.isWriteTo P.aDataDir) < 2 * ws.length ∧
        (sent ++ [f]).filterMap (Event.byteTo? P.aData) <+: ws.map fun w => w.2.2) := by
  have hne : ws ≠ [] := by
    rintro rfl
    exact absurd hj (Nat.not_lt_zero j)
  obtain ⟨sent, f, rest, hcut, hevents⟩ := throughFrame_eq hj
  refine ⟨sent, f, hcut, fun hd => ?_⟩
  obtain ⟨hcount, hbytes⟩ := wordsPlan_data hd c ws
  have hlast : evW P.aDataDir P.ddrIn ∈ f :: rest := by
    have hget := wordsPlan_getLast? P c hne
    rw [hevents, List.getLast?_append_cons] at hget
    exact List.mem_of_getLast? hget
  have hpos : 0 < (f :: rest).countP (Event.isWriteTo P.aDataDir) :=
    List.countP_pos_iff.mpr ⟨_, hlast, by simp [Event.isWriteTo]⟩
  rw [hevents, List.countP_append] at hcount
  have hprefix : sent ++ [f] <+: (wordsPlan P c ws).events := ⟨rest, by rw [hevents]; simp⟩
  exact ⟨by omega, hbytes ▸ hprefix.filterMap _⟩

/-- A flush that returned TransportError was cut in one of its bursts. -/
theorem exec_writeBack_cut {s t : State} (h : exec .fbWriteBack s = .next t)
    (hresult : t.trace.getLast? = some (.result (.error .transportError))) :
    ∃ u, t = u.record (.error .transportError) ∧ s.CutInBurst s.fb s.fb.bursts u := by
  have hends : (writeBackSeq s).Ends fun o u => o ≠ none → s.CutInBurst s.fb s.fb.bursts u := by
    rw [writeBackSeq_eq]
    exact (sendBursts_ends s.fb s.fb.bursts s).mono fun _ _ h => h.2
  obtain ⟨-, -, hf⟩ := exec_next h
  obtain ⟨u, o, r, hu, rfl, hr⟩ := Ran.finish_ends (Action.bind_ret_ends (fun _ => .unit) hends) hf
  obtain rfl : r = .error .transportError := by simpa using hresult
  obtain rfl : o = some .transportError := (hr _).mp rfl
  exact ⟨u, rfl, hu nofun⟩

/-- Settles O43: the flush was cut in one of its bursts, and those before it are the runs before its run; from the idle
state the plan of the flush is cut at its failing call. -/
theorem failedWriteBackKeepsTheFailingRunDirty : Obligations.FailedWriteBackKeepsTheFailingRunDirty := by
  refine ⟨fun s t h hresult => ?_, fun s n k r0 r1 r2 hs hi hn ha hreply hk => ?_⟩
  · obtain ⟨u, rfl, done, ⟨r, a, b⟩, rest, c, j, hlist, hj, hfb, htrace⟩ := exec_writeBack_cut h hresult
    obtain ⟨sent, f, hcut, hsent⟩ := throughFrame_wordsPlan hj
    obtain ⟨hrow, hrun⟩ : r < 8 ∧ (a, b) ∈ dirtyRuns (s.fb.rowDirty r) :=
      mem_bursts.mp (hlist ▸ List.mem_append_right done List.mem_cons_self)
    have hbefore : writeBackWordsBefore s.fb r a = done.flatMap s.fb.burstWords := writeBackWordsBefore_eq hlist
    refine ⟨(wordsPlan s.params s.ctrl (done.flatMap s.fb.burstWords)).events ++ sent, f, r, a, b, ?_, hrow, hrun,
      fun hd => ?_, fun r' c' hr' hc' => ?_⟩
    · rw [State.record_trace, htrace, hcut, List.append_assoc (Plan.events _) sent [f]]
    · obtain ⟨hcount, hbytes⟩ := wordsPlan_data hd s.ctrl (done.flatMap s.fb.burstWords)
      obtain ⟨hfew, hfirst⟩ := hsent hd
      rw [hbefore, List.countP_append, hcount, List.append_assoc, List.filterMap_append, hbytes, List.map_append,
        List.prefix_append_right_inj]
      simp only [FrameBuffer.burstWords] at hfew hfirst
      exact ⟨by omega, by omega, hfirst⟩
    · rw [State.record_fb, hfb, dirty_after_done hlist hr' hc']
      exact ⟨(s.fb.cell_cleanBursts done r' c').1, Iff.rfl⟩
  · obtain ⟨hevents, hframes, -⟩ := wordsPlan_idle s.params hi (writeBackWords s.fb)
    have hstop : StopsAt s.answers n (.reply k r0 r1 r2) := ⟨ha, hreply, by simpa [Answer.acks] using hk⟩
    obtain ⟨t, ht, htrace⟩ := (writeBackSeq_endsPlan s).of_failed hstop nofun (hframes ▸ hn)
    exact ⟨_, perform_unit_err hs ht, by rw [State.record_trace, htrace, hevents]⟩

end Sys2Proof.Machine
end

section
/-! How an operation makes its transport calls (40_expander_io.md R100, 60_exceptions.md R224, R227). `Action.Serial`
says of a piece that it takes the listed answers one after another and looks at no other, that it raises nothing but
TransportError, and that it is stuck only in a call that never returns; every operation is either such a sequence or
rejects its geometry at once. A failed boot (R228), what a GeometryError changes (R222), and what replacing an answer by
a hang does are read off from that. -/

namespace Sys2Proof.Machine

/-! ## Pieces that take the answers in order -/

/-- The state with other answers to come. -/
def State.withAnswers (s : State) (as : List Answer) : State := { s with answers := as }

/-- What the calls of a piece from `s` leave of the answers, what it can raise, and when it is stuck. -/
def State.Serves {α : Type} (s : State) : Ran α → Prop
  | .ok _ t => t.answers <:+ s.answers
  | .err e t => e = .transportError ∧ t.answers <:+ s.answers
  | .stuck _ => .hang ∈ s.answers

/-- From `s` the piece calls for an answer after `as`, or it has ended by then, whatever the answers after `as` are. -/
def Action.Decided {α : Type} (p : Action α) (s : State) (as : List Answer) : Prop :=
  (∀ tail, p (s.withAnswers (as ++ .hang :: tail)) = .stuck .transportHang) ∨
  (∃ (a : α) (u : State) (rest : List Answer), ∀ tail,
    p (s.withAnswers (as ++ tail)) = .ok a (u.withAnswers (rest ++ tail))) ∨
  (∃ (e : Err) (u : State) (rest : List Answer), ∀ tail,
    p (s.withAnswers (as ++ tail)) = .err e (u.withAnswers (rest ++ tail)))

/-- The piece makes its transport calls one after another, each taking the next answer: its calls leave a rest of the
answers, and those before any point of the list decide whether it goes on to the answer there. -/
structure Action.Serial {α : Type} (p : Action α) : Prop where
  serves : ∀ s : State, s.Serves (p s)
  decided : ∀ s as, p.Decided s as

theorem State.Serves.of_suffix {α : Type} {s t : State} {r : Ran α} (ht : t.answers <:+ s.answers) (h : t.Serves r) :
    s.Serves r := by
  cases r with
  | ok a u => exact List.IsSuffix.trans h ht
  | err e u => exact ⟨h.1, h.2.trans ht⟩
  | stuck f => exact ht.subset h

/-- One piece and then another, where an error of the first one is passed on after a change of the state. -/
def Action.followedBy {α β : Type} (p : Action α) (q : α → Action β) (g : State → State) : Action β := fun s =>
  match p s with
  | .ok a t => q a t
  | .err e t => .err e (g t)
  | .stuck f => .stuck f

theorem Action.followedBy_ok {α β : Type} {p : Action α} {q : α → Action β} {g : State → State} {s t : State} {a : α}
    (h : p s = .ok a t) : p.followedBy q g s = q a t := by simp [Action.followedBy, h]
theorem Action.followedBy_err {α β : Type} {p : Action α} {q : α → Action β} {g : State → State} {s t : State} {e : Err}
    (h : p s = .err e t) : p.followedBy q g s = .err e (g t) := by simp [Action.followedBy, h]
theorem Action.followedBy_stuck {α β : Type} {p : Action α} {q : α → Action β} {g : State → State} {s : State} {f : Fault}
    (h : p s = .stuck f) : p.followedBy q g s = .stuck f := by simp [Action.followedBy, h]

/-- A piece that makes no call does the same whatever the answers are. -/
theorem Action.Serial.of_quiet {α : Type} {p : Action α}
    (h : ∀ s : State, (∃ (a : α) (u : State), ∀ as, p (s.withAnswers as) = .ok a (u.withAnswers as)) ∨
      ∃ u : State, ∀ as, p (s.withAnswers as) = .err .transportError (u.withAnswers as)) : p.Serial where
  serves s := by
    rcases h s with ⟨a, u, hu⟩ | ⟨u, hu⟩
    · rw [show p s = .ok a (u.withAnswers s.answers) from hu s.answers]
      exact List.suffix_rfl
    · rw [show p s = .err .transportError (u.withAnswers s.answers) from hu s.answers]
      exact ⟨rfl, List.suffix_rfl⟩
  decided s as := by
    rcases h s with ⟨a, u, hu⟩ | ⟨u, hu⟩
    · exact .inr (.inl ⟨a, u, as, fun _ => hu _⟩)
    · exact .inr (.inr ⟨_, u, as, fun _ => hu _⟩)

theorem Action.Serial.change {f : State → State} (hf : ∀ s as, f (s.withAnswers as) = (f s).withAnswers as) :
    (Action.change f).Serial :=
  .of_quiet fun s => .inl ⟨(), f s, fun as => congrArg (Ran.ok ()) (hf s as)⟩

theorem Action.Serial.ret {α : Type} (a : α) : (Action.ret a).Serial := .of_quiet fun s => .inl ⟨a, s, fun _ => rfl⟩

/-- A piece that the state chooses, its answers apart. -/
theorem Action.Serial.of_state {α : Type} {f : State → Action α} (h : ∀ s, (f s).Serial)
    (hf : ∀ s as, f (s.withAnswers as) = f s) : Action.Serial fun s => f s s where
  serves s := (h s).serves s
  decided s as := by simpa only [Action.Decided, hf] using (h s).decided s as

theorem Action.Serial.followedBy {α β : Type} {p : Action α} {q : α → Action β} {g : State → State} (hp : p.Serial)
    (hq : ∀ a, (q a).Serial) (hg : ∀ s as, g (s.withAnswers as) = (g s).withAnswers as := by exact fun _ _ => rfl) :
    (p.followedBy q g).Serial where
  serves s := by
    have h := hp.serves s
    cases hr : p s with
    | ok a t =>
      rw [hr] at h
      rw [Action.followedBy_ok hr]
      exact State.Serves.of_suffix h ((hq a).serves t)
    | err e t =>
      rw [hr] at h
      have hanswers : (g t).answers = t.answers :=
        (congrArg State.answers (hg t t.answers) :)
      rw [Action.followedBy_err hr]
      exact ⟨h.1, hanswers ▸ h.2⟩
    | stuck f =>
      rw [hr] at h
      rw [Action.followedBy_stuck hr]
      exact h
  decided s as := by
    rcases hp.decided s as with h | ⟨a, u, rest, h⟩ | ⟨e, u, rest, h⟩
    · exact .inl fun tail => Action.followedBy_stuck (h tail)
    · simpa only [Action.Decided, fun tail => Action.followedBy_ok (q := q) (g := g) (h tail)] using (hq a).decided u rest
    · exact .inr (.inr ⟨e, g u, rest, fun tail => by rw [Action.followedBy_err (h tail), hg]⟩)

theorem Action.Serial.bind {α β : Type} {p : Action α} {q : α → Action β} (hp : p.Serial) (hq : ∀ a, (q a).Serial) :
    (p.bind q).Serial := hp.followedBy (g := id) hq

theorem Action.Serial.andThen {α β : Type} {p : Action α} {q : Action β} (hp : p.Serial) (hq : q.Serial) :
    (p.andThen q).Serial := hp.bind fun _ => hq

theorem Action.Serial.inOrder {ps : List (Action Unit)} (h : ∀ p ∈ ps, p.Serial) : (Action.inOrder ps).Serial := by
  induction ps with
  | nil => exact .ret ()
  | cons p ps ih => exact (h p (by simp)).andThen (ih fun q hq => h q (by simp [hq]))

theorem Action.Serial.forEach {α : Type} {f : α → Action Unit} {xs : List α} (h : ∀ x ∈ xs, (f x).Serial) :
    (Action.forEach f xs).Serial := by
  induction xs with
  | nil => exact .ret ()
  | cons x xs ih => exact (h x (by simp)).andThen (ih fun y hy => h y (by simp [hy]))

/-! ## The two transport calls -/

theorem spiWrite_serial (bytes : List Byte) : (spiWrite bytes).Serial where
  serves s := by
    unfold spiWrite
    split
    · exact List.suffix_rfl
    · next rest hs =>
      show rest <:+ s.answers
      exact hs ▸ List.suffix_cons _ rest
    · next hs =>
      show .hang ∈ s.answers
      exact hs ▸ List.mem_cons_self
  decided s as := by
    rcases as with _ | ⟨⟨k, r0, r1, r2⟩ | _, rest⟩
    · exact .inl fun _ => rfl
    · exact .inr (.inl ⟨k, s.emit (.spiWrite bytes), rest, fun _ => rfl⟩)
    · exact .inl fun _ => rfl

theorem spiTransfer_serial (tx : List Byte) : (spiTransfer tx).Serial where
  serves s := by
    unfold spiTransfer
    split
    · exact List.suffix_rfl
    · next rest hs =>
      show rest <:+ s.answers
      exact hs ▸ List.suffix_cons _ rest
    · next hs =>
      show .hang ∈ s.answers
      exact hs ▸ List.mem_cons_self
  decided s as := by
    rcases as with _ | ⟨⟨k, r0, r1, r2⟩ | _, rest⟩
    · exact .inl fun _ => rfl
    · exact .inr (.inl ⟨(k, r2), s.emit (.spiTransfer tx [r0, r1, r2]), rest, fun _ => rfl⟩)
    · exact .inl fun _ => rfl

/-! ## The register bodies and the control update -/

/-- The check of a count after a call: the state it leaves on success, and with TransportError (40_expander_io.md R102). -/
def checkCount {α : Type} (good : Prop) [Decidable good] (a : α) (f g : State → State) : Action α := fun t =>
  if good then .ok a (f t) else .err .transportError (g t)

theorem checkCount_serial {α : Type} (good : Prop) [Decidable good] (a : α) {f g : State → State}
    (hf : ∀ s as, f (s.withAnswers as) = (f s).withAnswers as := by exact fun _ _ => rfl)
    (hg : ∀ s as, g (s.withAnswers as) = (g s).withAnswers as := by exact fun _ _ => rfl) :
    (checkCount good a f g).Serial := by
  by_cases h : good
  · exact .of_quiet fun s => .inl ⟨a, f s, fun as => (if_pos h).trans (by rw [hf])⟩
  · exact .of_quiet fun s => .inr ⟨g s, fun as => (if_neg h).trans (by rw [hg])⟩

theorem writeRegisterBody_eq (a v : Byte) : writeRegisterBody a v =
    (spiWrite [expOpWrite, a, v]).followedBy (fun k => checkCount (k = 3) () (·.expStored a v) (·.expLost a)) id := by
  funext s
  unfold writeRegisterBody Action.followedBy
  cases spiWrite [expOpWrite, a, v] s <;> rfl

theorem writeRegisterBody_serial (a v : Byte) : (writeRegisterBody a v).Serial := by
  rw [writeRegisterBody_eq]
  exact (spiWrite_serial _).followedBy fun k => checkCount_serial (k = 3) ()

theorem writeBurstBody_eq (a : Byte) (vs : List Byte) : writeBurstBody a vs =
    (spiWrite (expOpWrite :: a :: vs)).followedBy
      (fun k => checkCount (k = 2 + vs.length) () (·.expBurstStored a vs) (·.expBurstLost a vs.length)) id := by
  funext s
  unfold writeBurstBody Action.followedBy
  cases spiWrite (expOpWrite :: a :: vs) s <;> rfl

theorem writeBurstBody_serial (a : Byte) (vs : List Byte) : (writeBurstBody a vs).Serial := by
  rw [writeBurstBody_eq]
  exact (spiWrite_serial _).followedBy fun k => checkCount_serial (k = 2 + vs.length) ()

theorem readRegisterBody_eq (a : Byte) : readRegisterBody a =
    (spiTransfer [expOpRead, a, 0#8]).followedBy
      (fun x => checkCount (x.1 = 3) x.2 (·.expRead a) (·.expRead a)) id := by
  funext s
  unfold readRegisterBody Action.followedBy
  cases spiTransfer [expOpRead, a, 0#8] s <;> rfl

theorem readRegisterBody_serial (a : Byte) : (readRegisterBody a).Serial := by
  rw [readRegisterBody_eq]
  exact (spiTransfer_serial _).followedBy fun x => checkCount_serial (x.1 = 3) x.2

theorem controlWrite_eq (new : Byte) : controlWrite new = fun s =>
    (writeRegisterBody s.params.aCtrl new).followedBy
      (fun _ => Action.change fun t => { t with ctrl := new }.panelHeld new) (·.panelHeld new) s := by
  funext s
  unfold controlWrite Action.followedBy
  cases writeRegisterBody s.params.aCtrl new s <;> rfl

theorem controlWrite_serial (new : Byte) : (controlWrite new).Serial := by
  rw [controlWrite_eq]
  exact .of_state (fun s => (writeRegisterBody_serial s.params.aCtrl new).followedBy fun _ => .change fun _ _ => rfl)
    fun _ _ => rfl

theorem updateBody_serial (set : CtrlSet) : (updateBody set).Serial :=
  .of_state (f := fun s t => if applySet set s.ctrl = s.ctrl then .ok () t else controlWrite (applySet set s.ctrl) t)
    (fun s => by
      split
      · exact .ret ()
      · exact controlWrite_serial _) fun _ _ => rfl

theorem dataDirOut_serial : dataDirOut.Serial :=
  .of_state (f := fun s => writeRegisterBody s.params.aDataDir s.params.ddrOut)
    (fun _ => writeRegisterBody_serial _ _) fun _ _ => rfl
theorem dataDirIn_serial : dataDirIn.Serial :=
  .of_state (f := fun s => writeRegisterBody s.params.aDataDir s.params.ddrIn)
    (fun _ => writeRegisterBody_serial _ _) fun _ _ => rfl
theorem ctrlDirOut_serial : ctrlDirOut.Serial :=
  .of_state (f := fun s => writeRegisterBody s.params.aCtrlDir s.params.ctrlDirValue)
    (fun _ => writeRegisterBody_serial _ _) fun _ _ => rfl
theorem dataOut_serial (v : Byte) : (dataOut v).Serial :=
  .of_state (f := fun s => writeRegisterBody s.params.aData v)
    (fun _ => writeRegisterBody_serial _ _) fun _ _ => rfl
theorem dataIn_serial : dataIn.Serial :=
  .of_state (f := fun s => readRegisterBody s.params.aData)
    (fun _ => readRegisterBody_serial _) fun _ _ => rfl

theorem delay_serial (w : Wait) : (delay w).Serial := .change fun _ _ => rfl

theorem enableToggle_eq (k : Chip) (di : Bool) (b : Byte) : enableToggle k di b =
    (updateBody { e := some false }).followedBy (fun _ => Action.change (·.deliver k di b)) (·.deliverDrawn k di b) := by
  funext s
  unfold enableToggle Action.followedBy
  cases updateBody { e := some false } s <;> rfl

theorem enableToggle_serial (k : Chip) (di : Bool) (b : Byte) : (enableToggle k di b).Serial := by
  rw [enableToggle_eq]
  exact (updateBody_serial _).followedBy (fun _ => .change fun _ _ => by cases k <;> rfl) fun _ _ => by cases k <;> rfl

/-! ## The sequences -/

theorem busWriteSeq_serial (k : Chip) (di : Bool) (b : Byte) : (busWriteSeq k di b).Serial := by
  apply Action.Serial.inOrder
  intro p hp
  simp only [List.mem_cons, List.not_mem_nil, or_false] at hp
  rcases hp with rfl | rfl | rfl | rfl | rfl | rfl | rfl | rfl | rfl | rfl
  exacts [updateBody_serial _, dataDirOut_serial, dataOut_serial b, updateBody_serial _, delay_serial _,
    enableToggle_serial k di b, delay_serial _, updateBody_serial _, updateBody_serial _, dataDirIn_serial]

theorem readDisturbs_serial (k : Chip) (di : Bool) : (readDisturbs k di).Serial :=
  .change fun _ _ => by cases di <;> cases k <;> rfl

theorem busReadSeq_serial (k : Chip) (di : Bool) : (busReadSeq k di).Serial := by
  rw [busReadSeq_eq]
  refine Action.Serial.andThen (.inOrder fun p hp => ?_) (dataIn_serial.bind fun v =>
    Action.Serial.andThen (.inOrder fun p hp => ?_) (.ret v))
  · simp only [busReadSetup, List.mem_cons, List.not_mem_nil, or_false] at hp
    rcases hp with rfl | rfl | rfl | rfl | rfl | rfl
    exacts [dataDirIn_serial, updateBody_serial _, readDisturbs_serial k di, updateBody_serial _, updateBody_serial _,
      delay_serial _]
  · simp only [busReadRestore, List.mem_cons, List.not_mem_nil, or_false] at hp
    rcases hp with rfl | rfl <;> exact updateBody_serial _

theorem sendWords_serial (ws : List SentWord) : (sendWords ws).Serial :=
  .forEach fun w _ => busWriteSeq_serial w.1 w.2.1 w.2.2

theorem sendBurst_serial (fb : FrameBuffer) (p : Burst) : (sendBurst fb p).Serial :=
  (sendWords_serial _).andThen (.change fun _ _ => rfl)

/-- A flush is its bursts, so that the check of its count raises nothing (42_dual_chip_panel.md R163). -/
theorem writeBackSeq_serial : writeBackSeq.Serial := by
  rw [funext writeBackSeq_eq]
  exact .of_state (fun s => .forEach fun p _ => sendBurst_serial s.fb p) fun _ _ => rfl

/-- The traffic of the boot, and then its last step. -/
theorem bootTraffic_serial : (Action.inOrder bootTraffic).Serial := by
  apply Action.Serial.inOrder
  intro p hp
  simp only [bootTraffic, List.mem_cons, List.not_mem_nil, or_false] at hp
  rcases hp with rfl | rfl | rfl | rfl | rfl | rfl | rfl | rfl | rfl | rfl | rfl | rfl | rfl | rfl | rfl
  exacts [.change fun _ _ => rfl, delay_serial _, .change fun _ _ => rfl, delay_serial _, controlWrite_serial _,
    ctrlDirOut_serial, dataDirIn_serial, delay_serial _, updateBody_serial _, delay_serial _, busWriteSeq_serial _ _ _,
    busWriteSeq_serial _ _ _, clearSeq_eq ▸ sendWords_serial _, setOnOffSeq_eq true ▸ sendWords_serial _,
    updateBody_serial _]

theorem bootSeq_serial : bootSeq.Serial := by
  rw [bootSeq_eq]
  refine bootTraffic_serial.andThen (.inOrder fun p hp => ?_)
  rw [List.mem_singleton.mp hp]
  exact .change fun _ _ => rfl

/-! ## The operations -/

/-- A setter changes the framebuffer or rejects its geometry at once (20_memory.md R52). -/
theorem setterSeq_serial_or_rejects (legal : Bool) (f : FrameBuffer → FrameBuffer) :
    (setterSeq legal f).unit.Serial ∨ ∀ s, (setterSeq legal f).unit s = .err .geometryError s := by
  unfold setterSeq
  split
  · exact .inl (Action.Serial.andThen (.change fun _ _ => rfl) (.ret _))
  · exact .inr fun _ => rfl

/-- Every operation makes its calls one after another, or rejects its geometry at once (60_exceptions.md R222). -/
theorem sequenceOf_serial_or_rejects (i : Instr) :
    (sequenceOf i).Serial ∨ ∀ s, sequenceOf i s = .err .geometryError s := by
  have unit : ∀ {p : Action Unit}, p.Serial → p.unit.Serial := fun hp => hp.andThen (.ret _)
  have value : ∀ {α : Type} {p : Action α} (f : α → Value), p.Serial → (p.bind fun a => Action.ret (f a)).Serial :=
    fun _ hp => hp.bind fun _ => .ret _
  cases i with
  | expWriteRegister a v => exact .inl (unit (writeRegisterBody_serial a v))
  | expWriteRegisterBurst a vs => exact .inl (unit (writeBurstBody_serial a vs))
  | ctrlUpdate | panelSetBacklight => exact .inl (unit (updateBody_serial _))
  | expReadRegister a => exact .inl (value .byte (readRegisterBody_serial a))
  | busWrite | lcdPower | lcdSetStartLine | lcdSetPage | lcdSetColumn | lcdWriteData =>
    exact .inl (unit (busWriteSeq_serial _ _ _))
  | busRead | lcdReadStatus | lcdReadData => exact .inl (value .byte (busReadSeq_serial _ _))
  | panelSetBytesAt r c bytes =>
    rw [sequenceOf, setBytesAtSeq_eq]
    split
    · exact .inl (value .nat ((sendWords_serial _).andThen (.ret _)))
    · exact .inr fun _ => rfl
  | panelSetOnOff on => exact .inl (unit (setOnOffSeq_eq on ▸ sendWords_serial _))
  | panelClear => exact .inl (unit (clearSeq_eq ▸ sendWords_serial _))
  | panelGetBacklight => exact .inl (.of_quiet fun s => .inl ⟨.flag (ctrlBL s.ctrl), s, fun _ => rfl⟩)
  | fbSetByte | fbSetBit | fbSetBitMatrix => exact setterSeq_serial_or_rejects _ _
  | fbWriteBack => exact .inl (unit writeBackSeq_serial)
  | displayNew => exact .inl (unit bootSeq_serial)

/-- An operation is refused, or it performs its sequence and returns; which of the two does not depend on the answers. -/
theorem exec_refuses_or_performs (i : Instr) (s : State) :
    (∃ r, ∀ as, exec i (s.withAnswers as) = .refused r) ∨
      ∀ as, exec i (s.withAnswers as) = (sequenceOf i (s.withAnswers as)).finish := by
  have refuses : ∀ {r}, s.phase = .ready → ∀ as, (s.withAnswers as).refuseWith r = .refused r :=
    fun hs as => State.refuseWith_ready (s := s.withAnswers as) hs _
  have performs : ∀ {p}, s.phase = .ready → ∀ as, (s.withAnswers as).perform p = (p (s.withAnswers as)).finish :=
    fun hs as => State.perform_ready (s := s.withAnswers as) hs
  cases hs : s.phase with
  | absent =>
    by_cases hi : i = .displayNew
    · subst hi
      exact .inr fun as => by simp only [exec, execDisplayNew, State.withAnswers, hs, sequenceOf]
    · exact .inl ⟨.absent, fun as => exec_absent (s := s.withAnswers as) hs hi⟩
  | ready =>
    cases i with
    | expWriteRegister a v =>
      by_cases ha : a = s.params.aCtrl
      · exact .inl ⟨_, fun as => (if_pos ha).trans (refuses hs as)⟩
      · exact .inr fun as => (if_neg ha).trans (performs hs as)
    | expWriteRegisterBurst a vs =>
      by_cases hne : vs = []
      · exact .inl ⟨_, fun as => (if_pos hne).trans (refuses hs as)⟩
      · by_cases hreach : burstReaches s.params.aCtrl a vs.length = true
        · exact .inl ⟨_, fun as => (if_neg hne).trans ((if_pos hreach).trans (refuses hs as))⟩
        · exact .inr fun as => (if_neg hne).trans ((if_neg hreach).trans (performs hs as))
    | fbSetBitMatrix y c m =>
      by_cases hm : matrixRectangular m = true
      · exact .inr fun as => (if_pos hm).trans (performs hs as)
      · exact .inl ⟨_, fun as => (if_neg hm).trans (refuses hs as)⟩
    | displayNew =>
      exact .inl ⟨.alreadyReady, fun as => by simp only [exec, execDisplayNew, State.withAnswers, hs]⟩
    | panelGetBacklight => exact .inr fun as => performs (p := sequenceOf .panelGetBacklight) hs as
    | _ => exact .inr (performs hs)

/-! ## Errors -/

/-- What holds of the end of such a piece, and that it raised nothing but TransportError. -/
theorem Action.Serial.ends {α : Type} {p : Action α} (hp : p.Serial) {s : State} {Q : Option Err → State → Prop}
    (h : (p s).Ends Q) : (p s).Ends fun o t => Q o t ∧ ∀ e, o = some e → e = .transportError := by
  have hserves := hp.serves s
  cases hr : p s with
  | ok a t =>
    rw [hr] at h
    exact ⟨h, nofun⟩
  | err e t =>
    rw [hr] at h hserves
    exact ⟨h, fun e' he => Option.some.inj he ▸ hserves.1⟩
  | stuck f => trivial

/-- Settles O49: an operation that rejects its geometry does so in the state it found, and any other raises nothing but
TransportError. -/
theorem geometryErrorsChangeNothing : Obligations.GeometryErrorsChangeNothing := by
  intro i s t h hresult
  obtain ⟨-, -, hf⟩ := exec_next h
  rcases sequenceOf_serial_or_rejects i with hserial | hrejects
  · have hends := hserial.ends (s := s) (Q := fun _ _ => True) (by cases sequenceOf i s <;> trivial)
    obtain ⟨u, o, r, ⟨-, he⟩, rfl, hr⟩ := Ran.finish_ends hends hf
    obtain rfl : r = .error .geometryError := by simpa using hresult
    exact absurd (he _ ((hr _).mp rfl)) nofun
  · rw [hrejects s] at hf
    cases hf
    rfl

/-- The traffic of the boot keeps phase and framebuffer, however it ends. -/
theorem bootTraffic_keepsBlock : (Action.inOrder bootTraffic).Ends fun s _ t => t.phase = s.phase ∧ t.fb = s.fb := by
  have of_busFrame : ∀ {p : Action Unit}, p.Keeps State.BusFrame →
      p.Ends fun s _ t => t.phase = s.phase ∧ t.fb = s.fb := fun hp =>
    Action.ends_of_keeps (Action.keeps_mono hp fun _ _ ⟨hphase, hfb, _⟩ => ⟨hphase, hfb⟩)
  have hbus : BusEnds fun s _ t => t.phase = s.phase ∧ t.fb = s.fb :=
    busFrame_ends.mono (fun _ _ _ ⟨hphase, hfb, _⟩ => ⟨hphase, hfb⟩)
      fun _ _ _ _ ⟨h1, h2⟩ ⟨k1, k2⟩ => ⟨k1.trans h1, k2.trans h2⟩
  exact hbus.bootTraffic (fun _ => ⟨rfl, rfl⟩) (fun _ => ⟨rfl, rfl⟩) (fun new => of_busFrame (controlWrite_busFrame new))
    (of_busFrame fun _ => writeRegisterBody_busFrame _ _ _)

/-- How a boot ends: Ready, or with TransportError in its traffic, the phase and the framebuffer untouched. -/
theorem bootSeq_ends (s : State) : (bootSeq s).Ends fun o t => (o = none → t.phase = .ready) ∧
    ∀ e, o = some e → e = .transportError ∧ t.phase = s.phase ∧ t.fb = s.fb := by
  rw [bootSeq_eq]
  refine Action.bind_ends (bootTraffic_serial.ends (bootTraffic_keepsBlock s)) (fun e t h => ?_) fun _ t _ _ => ?_
  · obtain ⟨hkept, he⟩ := h
    exact ⟨nofun, fun e' he' => ⟨he e' he', hkept⟩⟩
  · exact ⟨fun _ => rfl, nofun⟩

/-- Settles O47: a boot that raised an error did so in its traffic, before the step that makes the block Ready. -/
theorem failedBootLeavesTheBlockAbsent : Obligations.FailedBootLeavesTheBlockAbsent := by
  intro s t hs h
  have hready := displayNew_ready_iff hs h
  obtain ⟨-, -, hf⟩ := exec_next h
  obtain ⟨u, o, r, ⟨hok, herr⟩, rfl, hr⟩ := Ran.finish_ends (Action.ends_unit bootSeq_ends s) hf
  cases o with
  | none => exact .inl ⟨hok rfl, hready.mp (hok rfl)⟩
  | some e =>
    obtain ⟨rfl, hphase, hfb⟩ := herr e rfl
    obtain rfl : r = .error .transportError := (hr _).mpr rfl
    exact .inr ⟨hphase.trans hs, hfb, by rw [State.record_trace, List.getLast?_concat]⟩

end Sys2Proof.Machine
end

section
/-! A transport call that never returns (60_exceptions.md R227). In the place of an answer that an operation takes, a hang
leaves it stuck, because its calls are serial; and a plan of which the answers reach a hang is stuck in that call, which
gives the counts of calls from the idle state and the first call from any. -/

namespace Sys2Proof.Machine

/-! ## A hang in the place of an answer -/

/-- An operation that took the answer after `pre` faults with a hang in that answer's place. -/
theorem exec_hang_in_place {i : Instr} {s t : State} {pre rest rest' : List Answer} {a : Answer}
    (h : exec i (s.withAnswers (pre ++ a :: rest)) = .next t) (ht : t.answers.length ≤ rest.length) :
    exec i (s.withAnswers (pre ++ .hang :: rest')) = .fault .transportHang := by
  have too_long : ∀ left : List Answer, ¬ (left ++ a :: rest).length ≤ rest.length := fun left => by
    rw [List.length_append, List.length_cons]
    omega
  rcases exec_refuses_or_performs i s with ⟨r, hr⟩ | hexec
  · rw [hr] at h
    cases h
  rw [hexec] at h
  rcases sequenceOf_serial_or_rejects i with hserial | hrejects
  · rcases hserial.decided s pre with hstuck | ⟨v, u, left, hok⟩ | ⟨e, u, left, herr⟩
    · rw [hexec, hstuck, Ran.finish]
    · rw [hok] at h
      cases h
      exact absurd ht (too_long left)
    · rw [herr] at h
      cases h
      exact absurd ht (too_long left)
  · rw [hrejects] at h
    cases h
    exact absurd ht (too_long pre)

/-- A fault is a hang among the answers. -/
theorem hang_mem_of_exec_fault {i : Instr} {s : State} {f : Fault} (h : exec i s = .fault f) : .hang ∈ s.answers := by
  change exec i (s.withAnswers s.answers) = .fault f at h
  rcases exec_refuses_or_performs i s with ⟨r, hr⟩ | hexec
  · rw [hr] at h
    cases h
  rw [hexec] at h
  rcases sequenceOf_serial_or_rejects i with hserial | hrejects
  · have hserves := hserial.serves (s.withAnswers s.answers)
    cases hr : sequenceOf i (s.withAnswers s.answers) with
    | ok v t => rw [hr] at h; cases h
    | err e t => rw [hr] at h; cases h
    | stuck f => rw [hr] at hserves; exact hserves
  · rw [hrejects] at h
    cases h

/-- A piece that, answered throughout, ends with exactly `n` calls made is stuck in a hang at one of these calls. -/
theorem Action.Serial.stuck_of_answered {α : Type} {p : Action α} (hp : p.Serial) {s : State} {j n : Nat}
    (hdone : ∀ as, (∀ x ∈ as, x.acks 3 = true) → ∃ a t, p (s.withAnswers as) = .ok a t ∧ t.answers = as.drop n)
    (hstop : StopsAt s.answers j .hang) (hj : j < n) : p s = .stuck .transportHang := by
  obtain ⟨hacks, hhang, -⟩ := hstop
  obtain ⟨hlt, hget⟩ := List.getElem?_eq_some_iff.mp hhang
  have hsplit : s.answers = s.answers.take j ++ .hang :: s.answers.drop (j + 1) := by
    rw [← hget, ← List.drop_eq_getElem_cons hlt, List.take_append_drop]
  obtain ⟨a, t, ht, hleft⟩ := hdone (s.answers.take j ++ [.reply 3 0#8 0#8 0#8]) fun x hx =>
    (List.mem_append.mp hx).elim (hacks x) fun hx => List.mem_singleton.mp hx ▸ rfl
  have hnil : t.answers = [] := by
    rw [hleft]
    exact List.drop_eq_nil_of_le (by simp; omega)
  rcases hp.decided s (s.answers.take j) with hstuck | ⟨b, u, left, hok⟩ | ⟨e, u, left, herr⟩
  · have hs := hstuck (s.answers.drop (j + 1))
    rw [← hsplit] at hs
    exact hs
  · rw [hok] at ht
    cases ht
    simp [State.withAnswers] at hnil
  · rw [herr] at ht
    cases ht

/-! ## A plan that reaches a hang -/

theorem State.EndsPlan.of_hang {α : Type} {s : State} {plan : Plan} {c : Byte} {r : Ran α} {j : Nat}
    (h : s.EndsPlan plan c r) (hstop : StopsAt s.answers j .hang) (hj : j < plan.frames) : r = .stuck .transportHang := by
  cases r with
  | ok b t => exact absurd (hstop.le h.1) (by omega)
  | err e t =>
    obtain ⟨-, i, a, -, hi, hne, -⟩ := h
    exact absurd (hi.unique hstop).2 hne
  | stuck f =>
    cases f
    rfl

/-- An operation whose statements are stuck faults. -/
theorem perform_stuck {α : Type} {p : Action α} {f : α → Value} {s : State} (hs : s.phase = .ready)
    (h : p s = .stuck .transportHang) : s.perform (p.bind fun a => Action.ret (f a)) = .fault .transportHang := by
  rw [State.perform_ready hs, Action.bind_stuck h, Ran.finish]

theorem perform_unit_stuck {p : Action Unit} {s : State} (hs : s.phase = .ready) (h : p s = .stuck .transportHang) :
    s.perform p.unit = .fault .transportHang := perform_stuck (f := fun _ => .unit) hs h

/-- A bus write makes a call, from any control byte: that of the data direction. -/
theorem frames_busWritePlan_pos (p : Params) (c : Byte) (k : Chip) (di : Bool) (b : Byte) :
    0 < Plan.frames (busWritePlan p c k di b) := by
  rw [busWritePlan_eq, Plan.frames_append, Plan.frames_append, frames_togglePlan]
  omega

theorem frames_busWritePlan_idle (p : Params) {c : Byte} (hi : Idle c) (k : Chip) (di : Bool) (b : Byte) :
    Plan.frames (busWritePlan p c k di b) = 8 := by
  rw [busWritePlan_idle hi]
  rfl

theorem frames_wordsPlan_pos (p : Params) (c : Byte) {ws : List SentWord} (h : ws ≠ []) :
    0 < (wordsPlan p c ws).frames := by
  obtain ⟨w, ws, rfl⟩ := List.exists_cons_of_ne_nil h
  rw [wordsPlan, Plan.frames_append]
  exact Nat.add_pos_left (frames_busWritePlan_pos p c w.1 w.2.1 w.2.2) _

theorem frames_wordsPlan_idle (p : Params) {c : Byte} (hi : Idle c) (ws : List SentWord) :
    (wordsPlan p c ws).frames = 8 * ws.length := (wordsPlan_idle p hi ws).2.1

theorem clearWords_length : clearWords.length = 1056 := by
  rw [clearWords_eq, List.length_append, zeroPages_length, zeroPages_length, List.length_range]

theorem frames_busReadPlan_pos (p : Params) (c : Byte) (k : Chip) (di : Bool) (rx : List Byte) :
    0 < Plan.frames (busReadPlan p c k di rx) := by
  rw [busReadPlan_eq, Plan.frames_append, List.singleton_append, frames_transfer]
  omega

theorem frames_busReadPlan_idle (p : Params) {c : Byte} (hi : Idle c) (k : Chip) (di : Bool) (rx : List Byte) :
    Plan.frames (busReadPlan p c k di rx) = if ctrlDI c = di then 4 else 5 := by
  rw [Plan.frames, Plan.events, busReadPlan_idle hi, busReadEvents]
  split <;> rfl

/-! ## The operations of the bus and the panel -/

section
variable {s : State} {j : Nat} (hs : s.phase = .ready) (hstop : StopsAt s.answers j .hang)
include hs hstop

theorem exec_busWrite_hang {k : Chip} {di : Bool} {b : Byte}
    (hj : j < Plan.frames (busWritePlan s.params s.ctrl k di b)) :
    exec (.busWrite k di b) s = .fault .transportHang :=
  perform_unit_stuck hs ((busWriteSeq_runs s.params s.ctrl k di b s rfl rfl).of_hang hstop hj)

/-- How many calls a bus read makes, it makes whatever it receives. -/
theorem exec_busRead_hang {k : Chip} {di : Bool} (hj : j < Plan.frames (busReadPlan s.params s.ctrl k di [])) :
    exec (.busRead k di) s = .fault .transportHang := by
  refine perform_stuck (f := .byte) hs ((busReadSeq_serial k di).stuck_of_answered (fun as has => ?_) hstop hj)
  obtain ⟨r0, r1, r2, t, ht, ⟨-, -, -, hleft⟩, -⟩ :=
    busReadSeq_answered (s := s.withAnswers as) (k := k) (di := di) fun x hx => has x (List.mem_of_mem_take hx)
  exact ⟨r2, t, ht, hleft.trans (by rw [frames_busReadPlan _ _ _ _ _ []]; rfl)⟩

theorem exec_setBytesAt_hang {r c : Nat} {bytes : List Byte} (hr : r < 8) (hc : c < 128) (hn : c + bytes.length ≤ 128)
    (hj : j < (wordsPlan s.params s.ctrl (runWords r c bytes)).frames) :
    exec (.panelSetBytesAt r c bytes) s = .fault .transportHang := by
  refine perform_stuck (f := .nat) hs ?_
  rw [setBytesAtSeq_eq, if_pos (runFits_iff.mpr ⟨hr, hc, hn⟩)]
  exact Action.bind_stuck ((sendWords_runs s.params s.ctrl _ s rfl rfl).of_hang hstop hj)

theorem exec_setOnOff_hang {on : Bool}
    (hj : j < (wordsPlan s.params s.ctrl [(.chip1, false, powerByte on), (.chip2, false, powerByte on)]).frames) :
    exec (.panelSetOnOff on) s = .fault .transportHang :=
  perform_unit_stuck hs (setOnOffSeq_eq on ▸ (sendWords_runs s.params s.ctrl _ s rfl rfl).of_hang hstop hj)

theorem exec_clear_hang (hj : j < (wordsPlan s.params s.ctrl clearWords).frames) :
    exec .panelClear s = .fault .transportHang :=
  perform_unit_stuck hs (clearSeq_eq ▸ (sendWords_runs s.params s.ctrl _ s rfl rfl).of_hang hstop hj)

theorem exec_writeBack_hang (hj : j < (wordsPlan s.params s.ctrl (writeBackWords s.fb)).frames) :
    exec .fbWriteBack s = .fault .transportHang :=
  perform_unit_stuck hs ((writeBackSeq_endsPlan s).of_hang hstop hj)

end

/-! ## The boot -/

/-- The boot up to the release of the panel's reset (70_reset_and_hazards.md R250). -/
def bootStart : List (Action Unit) :=
  [ bootPinsLow, delay .tXrstLow, bootPinHigh, delay .tXrstRecover, controlWrite bootControlByte, ctrlDirOut,
    dataDirIn, delay .tLcdRst, updateBody { rst := some true }, delay .tLcdRecover ]

/-- The words of the boot: start lines, zeros, both chips on. -/
def bootWords : List SentWord :=
  (.chip1, false, startLineByte 0) :: (.chip2, false, startLineByte 0)
    :: (clearWords ++ [(.chip1, false, powerByte true), (.chip2, false, powerByte true)])

theorem bootWords_length : bootWords.length = 1060 := by simp [bootWords, clearWords_length]

/-- The boot is its start, its words, and two steps more. -/
theorem bootSeq_eq_words : bootSeq =
    (Action.inOrder bootStart).andThen ((sendWords bootWords).andThen (Action.inOrder [setBacklightSeq false, bootDone])) := by
  have hwords : Action.inOrder [lcdSetStartLine .chip1 0, lcdSetStartLine .chip2 0, clearSeq, setOnOffSeq true]
      = sendWords bootWords := by
    simp only [Action.inOrder, Action.andThen_ret_unit, clearSeq_eq, setOnOffSeq_eq, ← sendWords_append]
    rfl
  rw [← hwords, ← Action.inOrder_append, ← Action.inOrder_append]
  rfl

/-- A step of the boot on the pins emits its events and makes no call. -/
theorem pins_runs {P : Params} {c : Byte} {f : State → State} {plan : Plan} (hframes : plan.frames = 0)
    (hf : ∀ s, (f s).trace = s.trace ++ items plan.events ∧ (f s).ctrl = s.ctrl ∧ (f s).params = s.params ∧
      (f s).answers = s.answers) : (Action.change f).Runs P c plan c := by
  intro s _ hc
  obtain ⟨htrace, hctrl, hparams, hanswers⟩ := hf s
  exact ⟨hframes ▸ s.acks_zero, htrace, hctrl.trans hc, hparams, by rw [hframes]; exact hanswers⟩

/-- The boot's start makes four calls, and ends in the idle control byte. -/
theorem bootStart_runs (P : Params) (c : Byte) :
    ∃ plan : Plan, plan.frames = 4 ∧ (Action.inOrder bootStart).Runs P c plan 0x0D#8 := by
  refine ⟨_, ?_, .cons (pins_runs (plan := [(.pin .xcs true, c), (.pin .xrst false, c)]) rfl fun s => ?_) <|
    .cons (delay_runs _) <| .cons (pins_runs (plan := [(.pin .xrst true, c)]) rfl fun s => ?_) <| .cons (delay_runs _) <|
    .cons (fun s hP _ => hP ▸ controlWrite_endsPlan bootControlByte s) <|
    .cons (register_runs fun s hP => by rw [ctrlDirOut, hP]) <|
    .cons (register_runs fun s hP => by rw [dataDirIn, hP]) <| .cons (delay_runs _) <|
    .cons (updateBody_runs (new := 0x0D#8) (by decide)) <| .cons (delay_runs _) Action.runs_nil⟩
  · rfl
  · exact ⟨by simp [State.drivePin, State.environmentUnspecified, Plan.events], rfl, rfl, rfl⟩
  · exact ⟨rfl, rfl, rfl, rfl⟩

/-- The boot makes 8484 calls before its last two steps. -/
theorem bootSeq_hang {s : State} {j : Nat} (hstop : StopsAt s.answers j .hang) (hj : j < 8484) :
    bootSeq s = .stuck .transportHang := by
  obtain ⟨plan, hplan, hstart⟩ := bootStart_runs s.params s.ctrl
  have hruns := hstart.bind fun _ => sendWords_runs s.params 0x0D#8 bootWords
  have hframes : Plan.frames (plan ++ wordsPlan s.params 0x0D#8 bootWords) = 8484 := by
    rw [Plan.frames_append, hplan, frames_wordsPlan_idle s.params (by decide), bootWords_length]
  rw [bootSeq_eq_words, ← Action.andThen_assoc]
  exact Action.bind_stuck ((hruns s rfl rfl).of_hang hstop (hframes ▸ hj))

theorem exec_displayNew_hang {s : State} {j : Nat} (hs : s.phase = .absent) (hstop : StopsAt s.answers j .hang)
    (hj : j < 8484) : exec .displayNew s = .fault .transportHang := by
  have hstuck : bootSeq.unit s = .stuck .transportHang := Action.bind_stuck (bootSeq_hang hstop hj)
  simp only [exec, execDisplayNew, hs, hstuck, Ran.finish]

/-! ## The first call -/

theorem stopsAt_zero {as rest : List Answer} (h : as = .hang :: rest) : StopsAt as 0 .hang := ⟨by simp, by simp [h], rfl⟩

section
variable {s : State} {rest : List Answer} (ha : s.answers = .hang :: rest)
include ha

theorem spiWrite_hang (bytes : List Byte) : spiWrite bytes s = .stuck .transportHang := by simp [spiWrite, ha]

theorem writeRegisterBody_hang (a v : Byte) : writeRegisterBody a v s = .stuck .transportHang := by
  simp [writeRegisterBody, spiWrite_hang ha]

theorem writeBurstBody_hang (a : Byte) (vs : List Byte) : writeBurstBody a vs s = .stuck .transportHang := by
  simp [writeBurstBody, spiWrite_hang ha]

theorem readRegisterBody_hang (a : Byte) : readRegisterBody a s = .stuck .transportHang := by
  simp [readRegisterBody, spiTransfer, ha]

theorem updateBody_hang {set : CtrlSet} (hne : applySet set s.ctrl ≠ s.ctrl) :
    updateBody set s = .stuck .transportHang := by
  rw [updateBody_changed hne, controlWrite, writeRegisterBody_hang ha]

end

/-- A backlight update to another level changes the control byte. -/
theorem applySet_backlight_ne {on : Bool} {c : Byte} (h : ctrlBL c ≠ on) : applySet { bl := some on } c ≠ c := fun he =>
  h (by rw [← he, applySet_bl, Option.getD_some])

theorem clearWords_ne_nil : clearWords ≠ [] := List.ne_nil_of_length_pos (by rw [clearWords_length]; omega)

/-- A run that has a byte has a word to send. -/
theorem runWords_ne_nil (r c : Nat) {bytes : List Byte} (h : bytes ≠ []) : runWords r c bytes ≠ [] := by
  have hpos := List.length_pos_iff.mpr h
  rw [← List.length_pos_iff, runWords_length, runBusWrites, if_neg (by omega)]
  omega

/-- A flush with a dirty cell has a word to send. -/
theorem writeBackWords_ne_nil {fb : FrameBuffer} {r c : Nat} (hr : r < 8) (hc : c < 128)
    (hd : (fb.cell r c).dirty = true) : writeBackWords fb ≠ [] := by
  obtain ⟨p, hp, -, hleft, hright⟩ := (dirty_iff_covered hr hc).mp hd
  have hvalues : fb.values p.1 p.2.1 p.2.2 ≠ [] := by
    rw [← List.length_pos_iff, FrameBuffer.values, List.length_map, List.length_range']
    omega
  rw [writeBackWords_eq]
  exact fun h => runWords_ne_nil _ _ hvalues (List.flatMap_eq_nil_iff.mp h p hp)

/-! ## The statement -/

/-- Settles O50: the answers an operation takes decide it one after another, a fault is a stuck call, and the plans of the
operations say how many calls they make. -/
theorem aHangHasNoFurtherStep : Obligations.AHangHasNoFurtherStep := by
  refine ⟨fun i s t pre rest rest' k r0 r1 r2 h ht => exec_hang_in_place h ht, fun i s f h => ?_,
    fun s j hacks hhang => ?fromIdle, fun s rest ha => ?firstCall⟩
  · cases f
    exact ⟨rfl, hang_mem_of_exec_fault h⟩
  case fromIdle =>
    have hstop : StopsAt s.answers j .hang := ⟨hacks, hhang, rfl⟩
    refine ⟨fun hs => exec_displayNew_hang hs hstop, fun hs hi => ?_⟩
    have words : ∀ {n : Nat} (ws : List SentWord), n = 8 * ws.length → j < n →
        j < (wordsPlan s.params s.ctrl ws).frames :=
      fun ws hn hj => (frames_wordsPlan_idle s.params hi ws).symm ▸ hn ▸ hj
    refine ⟨fun k di b hj => ?_, fun k di hj => ?_, fun r c bytes hr hc hn hj => ?_, fun on hj => ?_, fun hj => ?_,
      fun hj => ?_⟩
    · exact exec_busWrite_hang hs hstop ((frames_busWritePlan_idle s.params hi k di b).symm ▸ hj)
    · exact exec_busRead_hang hs hstop ((frames_busReadPlan_idle s.params hi k di []).symm ▸ hj)
    · exact exec_setBytesAt_hang hs hstop hr hc hn (words _ (by rw [runWords_length]) hj)
    · exact exec_setOnOff_hang hs hstop (words _ rfl hj)
    · exact exec_clear_hang hs hstop (words _ (by rw [clearWords_length]) hj)
    · exact exec_writeBack_hang hs hstop (words _ rfl hj)
  case firstCall =>
    have hstop := stopsAt_zero ha
    refine ⟨fun hs => exec_displayNew_hang hs hstop (by omega), fun hs => ?_⟩
    have words : ∀ {ws : List SentWord}, ws ≠ [] → 0 < (wordsPlan s.params s.ctrl ws).frames :=
      frames_wordsPlan_pos s.params s.ctrl
    refine ⟨fun a v hne => ?_, fun a vs hne hout => ?_, fun a => ?_, fun set hne => ?_, fun k di b => ?_,
      fun k di => ?_, fun on => ?_, fun on hne => ?_, ?_, fun r c bytes hr hc hn hne => ?_,
      fun ⟨r, c, hr, hc, hd⟩ => ?_⟩
    · exact (exec_writeRegister v hne).trans (perform_unit_stuck hs (writeRegisterBody_hang ha a v))
    · exact (exec_writeBurst hne hout).trans (perform_unit_stuck hs (writeBurstBody_hang ha a vs))
    · exact perform_stuck (f := .byte) hs (readRegisterBody_hang ha a)
    · exact perform_unit_stuck hs (updateBody_hang ha hne)
    · exact exec_busWrite_hang hs hstop (frames_busWritePlan_pos _ _ _ _ _)
    · exact exec_busRead_hang hs hstop (frames_busReadPlan_pos _ _ _ _ _)
    · exact exec_setOnOff_hang hs hstop (words nofun)
    · exact perform_unit_stuck hs (updateBody_hang ha (applySet_backlight_ne hne))
    · exact exec_clear_hang hs hstop (words clearWords_ne_nil)
    · exact exec_setBytesAt_hang hs hstop hr hc hn (words (runWords_ne_nil r c hne))
    · exact exec_writeBack_hang hs hstop (words (writeBackWords_ne_nil hr hc hd))

end Sys2Proof.Machine
end

section
/-! The RST bit of the cache (10_state.md R22, 70_reset_and_hazards.md R252): no update of the block's own names it, and
an operation that writes other registers leaves the cache alone. -/

namespace Sys2Proof.Machine

/-- The cached RST bit is as before. -/
def State.RstKept (s t : State) : Prop := ctrlRST t.ctrl = ctrlRST s.ctrl

/-! ## The pieces -/

theorem writeRegisterBody_rst (a v : Byte) : (writeRegisterBody a v).Keeps State.RstKept := by
  intro s
  rcases writeRegisterBody_cases a v s with h | h | h <;> rw [h]
  exacts [rfl, rfl, trivial]

theorem writeBurstBody_rst (a : Byte) (vs : List Byte) : (writeBurstBody a vs).Keeps State.RstKept := by
  intro s
  rcases writeBurstBody_cases a vs s with h | h | h <;> rw [h]
  exacts [rfl, rfl, trivial]

theorem readRegisterBody_rst (a : Byte) : (readRegisterBody a).Keeps State.RstKept := by
  intro s
  rcases readRegisterBody_cases a s with ⟨b, rx, d, h⟩ | ⟨rx, d, h⟩ | h <;> rw [h]
  exacts [rfl, rfl, trivial]

/-- An update that does not name RST caches a byte with the RST of the one before, or keeps the cache. -/
theorem updateBody_rst {set : CtrlSet} (hset : set.rst = none) : (updateBody set).Keeps State.RstKept := by
  intro s
  have hnew : ctrlRST (applySet set s.ctrl) = ctrlRST s.ctrl := by rw [applySet_rst, hset, Option.getD_none]
  rcases updateBody_cases set s with ⟨-, h⟩ | ⟨-, h | h | h⟩ <;> rw [h]
  exacts [rfl, hnew, rfl, trivial]

/-- Every piece of a bus sequence keeps RST. -/
theorem rst_ends : BusEnds fun s _ t => s.RstKept t where
  refl _ := rfl
  raise _ := rfl
  trans _ _ _ _ h k := k.trans h
  update _ hset := Action.ends_of_keeps (updateBody_rst hset)
  dirOut := Action.ends_of_keeps fun _ => writeRegisterBody_rst _ _ _
  dirIn := Action.ends_of_keeps fun _ => writeRegisterBody_rst _ _ _
  out _ := Action.ends_of_keeps fun _ => writeRegisterBody_rst _ _ _
  sample := Action.ends_of_keeps fun _ => readRegisterBody_rst _ _
  wait _ _ := rfl
  toggle _ _ _ := enableToggle_ends (Action.ends_of_keeps (updateBody_rst rfl)) (fun _ _ h => h) fun _ _ _ h => h
  disturb _ di s := by cases di <;> exact rfl

/-! ## The operations -/

/-- Every operation keeps RST, but for the two that may name it: a direct ctrl.update (log 17) and the boot. -/
theorem sequenceOf_rst {i : Instr} (hupdate : ∀ set, i ≠ .ctrlUpdate set) (hboot : i ≠ .displayNew) :
    (sequenceOf i).Ends fun s _ t => s.RstKept t := by
  cases i with
  | expWriteRegister a v =>
    exact fun s => Action.bind_ret_ends (fun _ => .unit) (Ran.ends_of_holds (writeRegisterBody_rst a v s))
  | expWriteRegisterBurst a vs =>
    exact fun s => Action.bind_ret_ends (fun _ => .unit) (Ran.ends_of_holds (writeBurstBody_rst a vs s))
  | expReadRegister a => exact fun s => Action.bind_ret_ends .byte (Ran.ends_of_holds (readRegisterBody_rst a s))
  | ctrlUpdate set => exact absurd rfl (hupdate set)
  | displayNew => exact absurd rfl hboot
  | _ => exact rst_ends.aboveTheRegisters (fun _ _ => rfl) rfl

/-- Settles O27: while Ready the boot is refused, and every other operation but the direct ctrl.update keeps RST. -/
theorem panelResetIsNotTouchedAfterBoot : Obligations.PanelResetIsNotTouchedAfterBoot := by
  intro i s t hupdate hs h
  have hboot : i ≠ .displayNew := by
    rintro rfl
    obtain ⟨habsent, -, -⟩ := exec_next h
    cases hs.symm.trans habsent
  obtain ⟨-, -, hf⟩ := exec_next h
  obtain ⟨u, -, -, hu, rfl, -⟩ := Ran.finish_ends (sequenceOf_rst hupdate hboot s) hf
  exact hu

end Sys2Proof.Machine
end

section
/-! The boot answered throughout (70_reset_and_hazards.md R250 to R253, 10_state.md R35). Its start runs a plan to the idle
byte, its words are sent from there, and its last two steps emit nothing. What the chips hold is what they make of the
words; the two direction registers hold what was last written to them. -/

namespace Sys2Proof.Machine

/-! ## What the boot emits -/

/-- The plan of the boot's start, from control byte `c` (70_reset_and_hazards.md R250, R251). -/
def bootStartPlan (p : Params) (c : Byte) : Plan :=
  [ (.pin .xcs true, c), (.pin .xrst false, c), (.delay .tXrstLow, c), (.pin .xrst true, c), (.delay .tXrstRecover, c),
    (evW p.aCtrl 0x05#8, 0x05#8), (evW p.aCtrlDir p.ctrlDirValue, 0x05#8), (evW p.aDataDir p.ddrIn, 0x05#8),
    (.delay .tLcdRst, 0x05#8), (evW p.aCtrl 0x0D#8, 0x0D#8), (.delay .tLcdRecover, 0x0D#8) ]

theorem bootStart_runsPlan (P : Params) (c : Byte) :
    (Action.inOrder bootStart).Runs P c (bootStartPlan P c) 0x0D#8 := by
  have low : bootPinsLow.Runs P c [(.pin .xcs true, c), (.pin .xrst false, c)] c := pins_runs rfl fun s =>
    ⟨List.append_assoc s.trace [.event (.pin .xcs true)] [.event (.pin .xrst false)], rfl, rfl, rfl⟩
  have high : bootPinHigh.Runs P c [(.pin .xrst true, c)] c := pins_runs rfl fun _ => ⟨rfl, rfl, rfl, rfl⟩
  have hold : ∀ {c}, (controlWrite bootControlByte).Runs P c [(evW P.aCtrl 0x05#8, 0x05#8)] 0x05#8 :=
    fun s hP _ => hP ▸ controlWrite_endsPlan bootControlByte s
  have direction : ∀ {c}, ctrlDirOut.Runs P c [(evW P.aCtrlDir P.ctrlDirValue, c)] c :=
    register_runs fun s hP => by rw [ctrlDirOut, hP]
  have input : ∀ {c}, dataDirIn.Runs P c [(evW P.aDataDir P.ddrIn, c)] c :=
    register_runs fun s hP => by rw [dataDirIn, hP]
  have release : (updateBody { rst := some true }).Runs P 0x05#8 [(evW P.aCtrl 0x0D#8, 0x0D#8)] 0x0D#8 :=
    updateBody_runs (new := 0x0D#8) (by decide)
  have start := low.cons <| (delay_runs .tXrstLow).cons <| high.cons <| (delay_runs .tXrstRecover).cons <| hold.cons <|
    direction.cons <| input.cons <| (delay_runs .tLcdRst).cons <| release.cons <|
    (delay_runs .tLcdRecover).cons Action.runs_nil
  exact start

theorem frames_bootStartPlan (p : Params) (c : Byte) : (bootStartPlan p c).frames = 4 := rfl

/-- Words leave RST and BL of the control byte as they were. -/
theorem controlAfter_rst_bl (c : Byte) (ws : List SentWord) :
    ctrlRST (controlAfter c ws) = ctrlRST c ∧ ctrlBL (controlAfter c ws) = ctrlBL c := by
  induction ws generalizing c with
  | nil => exact ⟨rfl, rfl⟩
  | cons w ws ih =>
    obtain ⟨-, -, -, -, -, hrst, hbl⟩ := lineByte_idleLines c w.2.1
    obtain ⟨hrst', hbl'⟩ := ih (lineByte c w.2.1 true true false false)
    exact ⟨hrst'.trans hrst, hbl'.trans hbl⟩

/-- Words leave the idle lines with the DI of the last one. -/
theorem controlAfter_concat (c : Byte) (ws : List SentWord) (w : SentWord) :
    controlAfter c (ws ++ [w]) = lineByte c w.2.1 true true false false := by
  obtain ⟨hrst, hbl⟩ := controlAfter_rst_bl c ws
  rw [controlAfter_append, controlAfter, List.foldl_cons, List.foldl_nil, lineByte, hrst, hbl, lineByte]

/-- The words of the boot but the last. -/
def bootWordsInit : List SentWord :=
  (.chip1, false, startLineByte 0) :: (.chip2, false, startLineByte 0) :: (clearWords ++ [(.chip1, false, powerByte true)])

theorem bootWords_eq_concat : bootWords = bootWordsInit ++ [(.chip2, false, powerByte true)] := by
  simp only [bootWords, bootWordsInit, List.cons_append, List.append_assoc, List.nil_append]

/-- The boot's words leave the idle byte with DI = 0 and BL = 0, which is the one they were sent from. -/
theorem controlAfter_bootWords : controlAfter 0x0D#8 bootWords = 0x0D#8 := by
  rw [bootWords_eq_concat, controlAfter_concat]
  decide

/-- An answered boot: its start, its words from the idle byte, and then the framebuffer and the phase. -/
theorem bootSeq_answered {s : State} (ha : s.Acks 8484) :
    ∃ u t, Action.inOrder bootStart s = .ok () u ∧ s.Through (bootStartPlan s.params s.ctrl) 0x0D#8 u ∧
      sendWords bootWords u = .ok () t ∧ u.Through (wordsPlan s.params 0x0D#8 bootWords) 0x0D#8 t ∧
      (∀ k, t.lcd k = takeWords k bootWords (u.lcd k)) ∧ bootSeq s = .ok () { t with fb := .boot, phase := .ready } := by
  obtain ⟨_, u, hu, hsu⟩ := (bootStart_runsPlan s.params s.ctrl s rfl rfl).of_acks
    (ha.mono (by rw [frames_bootStartPlan]; omega))
  have ⟨_, huc, hup, _⟩ := hsu
  have hframes : (wordsPlan s.params 0x0D#8 bootWords).frames = 8480 := by
    rw [frames_wordsPlan_idle s.params (by decide), bootWords_length]
  have hacks : u.Acks 8480 := hsu.acks (by rwa [frames_bootStartPlan])
  have hwords := sendWords_runs s.params 0x0D#8 bootWords u hup huc
  rw [controlAfter_bootWords] at hwords
  obtain ⟨_, t, ht, hut⟩ := hwords.of_acks (hframes ▸ hacks)
  have ⟨_, htc, _, _⟩ := hut
  have hdark : setBacklightSeq false t = .ok () t := updateBody_unchanged (by rw [htc]; decide)
  obtain ⟨_, hv, -, -, -, hchips⟩ := sendWords_answered (ws := bootWords) (m := 0) (by rw [huc]; decide)
    (hacks.mono (by rw [bootWords_length]))
  obtain ⟨-, rfl⟩ := Ran.ok.inj (ht.symm.trans hv)
  refine ⟨u, t, hu, hsu, ht, hut, hchips, ?_⟩
  rw [bootSeq_eq_words, Action.andThen_ok hu, Action.andThen_ok ht, Action.inOrder_cons_ok hdark]
  rfl

/-! ## The registers -/

/-- The start of the boot after the direction of the control port is set, up to the panel's recovery. -/
def bootRelease : List (Action Unit) :=
  [dataDirIn, delay .tLcdRst, updateBody { rst := some true }, delay .tLcdRecover]

/-- The start of the boot after its pin steps. -/
def bootRegisterSteps : List (Action Unit) := controlWrite bootControlByte :: ctrlDirOut :: bootRelease

/-- The state after the pin steps of a boot, which cannot fail (40_expander_io.md R101). -/
def State.afterPins (s : State) : State :=
  ((((s.drivePin .xcs true).drivePin .xrst false).environmentUnspecified.emit (.delay .tXrstLow)).drivePin .xrst
    true).emit (.delay .tXrstRecover)

theorem bootStart_eq (s : State) : Action.inOrder bootStart s = Action.inOrder bootRegisterSteps s.afterPins := rfl

theorem State.afterPins_params (s : State) : s.afterPins.params = s.params := by
  simp only [State.afterPins, State.emit_params, State.drivePin_params, State.environmentUnspecified_params]

/-- Each chip is then one whose registers are free (I10). -/
theorem State.afterPins_lcd (s : State) (k : Chip) : s.afterPins.lcd k ≠ none := by
  rw [State.afterPins, State.emit_lcd]
  cases k with
  | chip1 => exact Option.some_ne_none (Lcd.unspecified s.draws)
  | chip2 => exact Option.some_ne_none (Lcd.unspecified (s.draws + 4))

@[simp] theorem Params.isNamed_aCtrlDir (p : Params) : Params.isNamed p p.aCtrlDir = true := by
  simp [Params.isNamed, Params.addresses]

/-- With distinct addresses the direction of the control port is none of the registers a bus sequence writes. -/
theorem State.OtherRegistersKept.ctrlDir {s t : State} (h : s.OtherRegistersKept t) (hd : s.params.Distinct) :
    t.exp.read? s.params.aCtrlDir.toNat = s.exp.read? s.params.aCtrlDir.toNat := by
  obtain ⟨-, hr⟩ := h
  obtain ⟨hnew, -⟩ := List.nodup_cons.mp hd
  have hne : ∀ a ∈ [s.params.aCtrl, s.params.aDataDir, s.params.aData], s.params.aCtrlDir.toNat ≠ a.toNat :=
    fun _ hmem he => hnew (BitVec.eq_of_toNat_eq he ▸ hmem)
  exact hr _ (hne _ (by simp)) (hne _ (by simp)) (hne _ (by simp))

/-- The release of the panel's reset does not touch the direction of the control port. -/
theorem bootRelease_others : (Action.inOrder bootRelease).Ends fun s _ t => s.OtherRegistersKept t := by
  refine Action.ends_inOrder otherRegisters_ends.refl otherRegisters_ends.trans fun p hp => ?_
  simp only [bootRelease, List.mem_cons, List.not_mem_nil, or_false] at hp
  rcases hp with rfl | rfl | rfl | rfl
  exacts [otherRegisters_ends.dirIn, otherRegisters_ends.wait _,
    updateBody_ends otherRegisters_ends.refl (fun new => Action.ends_of_keeps (controlWrite_others new)) _,
    otherRegisters_ends.wait _]

/-- The start of a boot stores the direction of the control port, which nothing after it writes. -/
theorem bootRegisterSteps_ctrlDir {s u : State} (hd : s.params.Distinct)
    (h : Action.inOrder bootRegisterSteps s = .ok () u) :
    u.exp.read? s.params.aCtrlDir.toNat = some s.params.ctrlDirValue := by
  obtain ⟨_, w, hw, h⟩ := Action.andThen_ok_inv h
  obtain ⟨_, x, hx, h⟩ := Action.andThen_ok_inv h
  obtain ⟨hwp, -, -⟩ := controlWrite_ok hw
  obtain ⟨hxp, -, hstored⟩ := writeRegisterBody_ok (Params.isNamed_aCtrlDir _) hx
  replace h : Action.inOrder bootRelease x = .ok () u := h
  have hkept := bootRelease_others x
  rw [h] at hkept
  rw [← hwp, ← hxp] at hd ⊢
  rw [hkept.ctrlDir hd, hxp, hstored, if_pos rfl]

theorem bootStart_ctrlDir {s u : State} (hd : s.params.Distinct) (h : Action.inOrder bootStart s = .ok () u) :
    u.exp.read? s.params.aCtrlDir.toNat = some s.params.ctrlDirValue := by
  rw [bootStart_eq] at h
  rw [← s.afterPins_params] at hd ⊢
  exact bootRegisterSteps_ctrlDir hd h

/-- A sequence that succeeded ended as its last statement did. -/
theorem Action.inOrder_last_ok {ps : List (Action Unit)} {p : Action Unit} {s t : State}
    (h : Action.inOrder ps s = .ok () t) (hp : ps.getLast? = some p) : ∃ u, p u = .ok () t := by
  obtain ⟨init, rfl⟩ := List.getLast?_eq_some_iff.mp hp
  rw [Action.inOrder_append] at h
  obtain ⟨_, u, -, h⟩ := Action.andThen_ok_inv h
  obtain ⟨_, _, hu, h⟩ := Action.andThen_ok_inv h
  cases h
  exact ⟨u, hu⟩

/-- The last thing a bus write does is to turn the data port to input. -/
theorem busWriteSeq_dataDir {s t : State} {k : Chip} {di : Bool} {b : Byte} (h : busWriteSeq k di b s = .ok () t) :
    t.exp.read? t.params.aDataDir.toNat = some t.params.ddrIn := by
  obtain ⟨_, hin⟩ := Action.inOrder_last_ok (p := dataDirIn) h rfl
  obtain ⟨hp, -, hstored⟩ := writeRegisterBody_ok (Params.isNamed_aDataDir _) hin
  rw [hp, hstored, if_pos rfl]

/-- So words leave it turned to input, where there is one. -/
theorem sendWords_dataDir {s t : State} {ws : List SentWord} {w : SentWord} (h : sendWords (ws ++ [w]) s = .ok () t) :
    t.exp.read? t.params.aDataDir.toNat = some t.params.ddrIn := by
  rw [sendWords_append] at h
  obtain ⟨_, u, -, h⟩ := Action.andThen_ok_inv h
  obtain ⟨_, _, hw, h⟩ := Action.andThen_ok_inv h
  cases h
  exact busWriteSeq_dataDir hw

/-- Words leave the registers alone that no bus sequence writes. -/
theorem sendWords_others (ws : List SentWord) : (sendWords ws).Ends fun s _ t => s.OtherRegistersKept t :=
  Action.ends_forEach otherRegisters_ends.refl otherRegisters_ends.trans fun _ _ => otherRegisters_ends.busWrite _ _ _

/-! ## The chips -/

/-- After the start of a boot each chip has a meaning. -/
theorem bootStart_chips {s u : State} (h : Action.inOrder bootStart s = .ok () u) (k : Chip) : u.lcd k ≠ none := by
  have hmean : (Action.inOrder bootRegisterSteps).Keeps State.ChipsMean := by
    refine Action.keeps_inOrder State.ChipsMean.refl State.ChipsMean.trans fun p hp => ?_
    simp only [bootRegisterSteps, bootRelease, List.mem_cons, List.not_mem_nil, or_false] at hp
    rcases hp with rfl | rfl | rfl | rfl | rfl | rfl
    exacts [controlWrite_chipsMean _, fun _ => writeRegisterBody_chipsMean _ _ _,
      fun _ => writeRegisterBody_chipsMean _ _ _, chipsMean_kept.wait _, updateBody_chipsMean _, chipsMean_kept.wait _]
  have hu := hmean s.afterPins
  rw [← bootStart_eq, h] at hu
  exact hu k (s.afterPins_lcd k)

theorem takeWords_nil (k : Chip) (o : Option Lcd) : takeWords k [] o = o := rfl

/-- Words that a view of the chip does not notice. -/
theorem takeWords_unseen {β : Type} {k : Chip} {f : Lcd → β} {ws : List SentWord}
    (hws : ∀ w ∈ ws, WordUnseen k f w.1 w.2.1 w.2.2) (l : Lcd) : (takeWords k ws (some l)).map f = some (f l) := by
  induction ws generalizing l with
  | nil => rfl
  | cons w ws ih =>
    have hrest := ih fun v hv => hws v (List.mem_cons_of_mem w hv)
    rw [takeWords_cons]
    by_cases hw : w.1 = k
    · obtain ⟨l1, hl1, hf⟩ := Option.map_eq_some_iff.mp (hws w List.mem_cons_self hw l)
      rw [if_pos hw, Option.bind_some, hl1, hrest, hf]
    · rw [if_neg hw, hrest]

/-- Pages of zeros do not touch the display state and the start line. -/
theorem takeWords_zeroPages_display (k : Chip) (ps : List Nat) (l : Lcd) :
    (takeWords k (zeroPages k ps) (some l)).map Lcd.display = some l.display := by
  refine takeWords_unseen (fun w hw => ?_) l
  obtain ⟨p, -, hw⟩ := List.mem_flatMap.mp hw
  rw [segmentWords, if_neg (by simp)] at hw
  simp only [List.mem_cons, List.mem_map] at hw
  rcases hw with rfl | rfl | ⟨b, -, rfl⟩
  exacts [wordUnseen_display_page _ _ _, wordUnseen_display_column _ _ _, wordUnseen_display_data _ _ _]

/-- Data bytes stay on the page and advance the column by their number (41_parallel_bus.md R146, K12). -/
theorem takeWords_data_position (k : Chip) (bytes : List Byte) (l : Lcd) :
    (takeWords k (bytes.map fun b => (k, true, b)) (some l)).map (fun l' => (l'.page, l'.col)) =
      some (l.page, l.col + BitVec.ofNat 6 bytes.length) := by
  induction bytes generalizing l with
  | nil => simp [takeWords]
  | cons b bytes ih =>
    rw [List.map_cons, takeWords_cons, if_pos rfl, Option.bind_some]
    refine (ih (l.takeData b)).trans ?_
    rw [Lcd.takeData, List.length_cons, BitVec.ofNat_add, BitVec.add_assoc, BitVec.add_comm 1#6]

/-- The zeros of a whole page leave the chip on that page, back at column 0. -/
theorem takeWords_zeroPage_position (k : Chip) (p : Nat) (l : Lcd) :
    (takeWords k (segmentWords k p 0 (List.replicate 64 0x00#8)) (some l)).map (fun l' => (l'.page, l'.col)) =
      some (BitVec.ofNat 3 p, 0#6) := by
  rw [segmentWords, if_neg (by simp), takeWords_position, takeWords_data_position, List.length_replicate]
  rfl

/-- What a chip with a meaning makes of the words of `panel.clear`. -/
theorem takeWords_clear (k : Chip) (l : Lcd) : ∃ l', takeWords k clearWords (some l) = some l' ∧
    l'.display = l.display ∧ l'.page = 7#3 ∧ l'.col = 0#6 ∧ ∀ p y, p < 8 → y < 64 → l'.byteAt p y = some 0#8 := by
  obtain ⟨l', hl', hzero⟩ := takeWords_zeroPages (k := k) (ps := List.range 8) (fun p => List.mem_range.mp) l
  obtain ⟨l7, hl7, -⟩ := takeWords_zeroPages (k := k) (ps := List.range 7)
    (fun p hp => (List.mem_range.mp hp).trans (by omega)) l
  have hdisplay := takeWords_zeroPages_display k (List.range 8) l
  have hlast : zeroPages k (List.range 8) =
      zeroPages k (List.range 7) ++ segmentWords k 7 0 (List.replicate 64 0x00#8) := by
    rw [zeroPages, List.range_succ, List.flatMap_append, List.flatMap_singleton, zeroPages]
  have hposition := takeWords_zeroPage_position k 7 l7
  rw [← hl7, ← takeWords_append, ← hlast, hl', Option.map_some, Option.some_inj, Prod.mk.injEq] at hposition
  rw [hl', Option.map_some, Option.some_inj] at hdisplay
  obtain ⟨hpage, hcol⟩ := hposition
  exact ⟨l', by rw [takeWords_clearWords, hl'], hdisplay, hpage, hcol, fun p y hp hy => by
    rw [hzero p y hy, if_pos (List.mem_range.mpr hp)]⟩

/-- What a chip with a meaning makes of the words of the boot: the reset values of 10_state.md R35. -/
theorem takeWords_bootWords (k : Chip) (l : Lcd) : ∃ l', takeWords k bootWords (some l) = some l' ∧
    l'.on = true ∧ l'.startLine = 0#6 ∧ l'.page = 7#3 ∧ l'.col = 0#6 ∧
    ∀ p y, p < 8 → y < 64 → l'.byteAt p y = some 0#8 := by
  obtain ⟨m, hm, hdisplay, hpage, hcol, hzero⟩ := takeWords_clear k { l with startLine := 0#6 }
  have hline : l.take false (startLineByte 0) = some { l with startLine := 0#6 } := by
    simp only [Lcd.take, Bool.false_eq_true, if_false, Lcd.takeInstruction, classify_startLineByte]
  have hpower : m.take false (powerByte true) = some { m with on := true } := by
    simp only [Lcd.take, Bool.false_eq_true, if_false, Lcd.takeInstruction, classify_powerByte]
  refine ⟨{ m with on := true }, ?_, rfl, congrArg Prod.snd hdisplay, hpage, hcol, hzero⟩
  rw [bootWords, takeWords_cons, takeWords_cons, takeWords_append]
  cases k <;> simp [hline, hm, takeWords_cons, hpower, takeWords_nil]

/-! ## The statement -/

theorem exec_displayNew_ok {s t : State} (hs : s.phase = .absent) (h : bootSeq s = .ok () t) :
    exec .displayNew s = .next (t.record (.ok .unit)) := by
  have hunit : bootSeq.unit s = .ok .unit t := Action.andThen_ok h
  simp only [exec, execDisplayNew, hs, hunit, Ran.finish]

/-- Settles O46: the plans of the start and of the words are the events, the pins were driven high, and chips and
registers are as the words and the two directions left them. -/
theorem bootLeavesTheResetValues : Obligations.BootLeavesTheResetValues := by
  intro s hs ha
  obtain ⟨u, t, hstart, hsu, hwords, hut, hchips, hboot⟩ := bootSeq_answered ha
  have hpins := bootSeq_pinsHigh s
  rw [hboot] at hpins
  obtain ⟨hxcs, hxrst⟩ := hpins
  obtain ⟨htrace, huc, hup, -⟩ := hsu
  obtain ⟨htrace', htc, htp, -⟩ := hut
  refine ⟨_, exec_displayNew_ok hs hboot, ?_, rfl, htc, hxcs, hxrst, FrameBuffer.cell_boot, fun k => ?_, fun hd => ?_⟩
  · obtain ⟨hevents, -, -⟩ := wordsPlan_idle s.params (c := 0x0D#8) (by decide) bootWords
    rw [State.record_trace, htrace', hevents, htrace, List.append_assoc s.trace, ← List.map_append]
    rfl
  · obtain ⟨l, hl⟩ := Option.ne_none_iff_exists'.mp (bootStart_chips hstart k)
    obtain ⟨l', hl', hreset⟩ := takeWords_bootWords k l
    exact ⟨l', (hchips k).trans (hl ▸ hl'), hreset⟩
  · have hothers := sendWords_others bootWords u
    rw [hwords] at hothers
    have hdir := bootStart_ctrlDir hd hstart
    rw [bootWords_eq_concat] at hwords
    have hdata := sendWords_dataDir hwords
    rw [htp.trans hup] at hdata
    rw [← hup] at hd hdir
    exact ⟨hdata, hup ▸ (hothers.ctrlDir hd).trans hdir⟩

end Sys2Proof.Machine
end

section
/-! The counts of 70_reset_and_hazards.md R266: an operation that returned Ok has the counts of the events it emitted, which
the statements about the answered operations write out; each bus write is eight frames and two waits. -/

namespace Sys2Proof.Machine

/-! ## Counting -/

/-- The counts of a list of events. -/
def eventCounts (es : List Event) : EventCounts :=
  { spiWrites := es.countP Event.isSpiWrite, spiTransfers := es.countP Event.isSpiTransfer,
    delays := es.countP Event.isDelay, pins := es.countP Event.isPin }

theorem eventCounts_append {es fs : List Event} {m n : EventCounts} (hes : eventCounts es = m) (hfs : eventCounts fs = n) :
    eventCounts (es ++ fs) = ⟨m.spiWrites + n.spiWrites, m.spiTransfers + n.spiTransfers, m.delays + n.delays,
      m.pins + n.pins⟩ := by
  subst hes hfs
  simp only [eventCounts, List.countP_append]

/-- So many bus writes (41_parallel_bus.md R120). -/
theorem eventCounts_words (p : Params) (c : Byte) (ws : List SentWord) :
    eventCounts (wordsEvents p c ws) = ⟨8 * ws.length, 0, 2 * ws.length, 0⟩ := by
  induction ws with
  | nil => rfl
  | cons w ws ih =>
    have hword : eventCounts (busWriteEvents p c w.1 w.2.1 w.2.2) = ⟨8, 0, 2, 0⟩ := rfl
    refine (eventCounts_append hword ih).trans ?_
    simp only [List.length_cons, Nat.mul_add_one, Nat.add_comm _ 8, Nat.add_comm _ 2]

/-- A bus read: one frame more when DI changes (41_parallel_bus.md R121). -/
theorem eventCounts_busRead (p : Params) (c : Byte) (k : Chip) (di : Bool) (rx : List Byte) :
    eventCounts (busReadEvents p c k di rx) = ⟨if ctrlDI c = di then 3 else 4, 1, 1, 0⟩ := by
  unfold busReadEvents
  split <;> rfl

/-- In a trace the result that follows the events counts as none. -/
theorem countEvents_items_result (f : Event → Bool) (es : List Event) (r : OpResult) :
    countEvents f (items es ++ [.result r]) = es.countP f := by
  rw [countEvents, List.countP_append, List.countP_map, List.countP_cons_of_neg Bool.false_ne_true]
  rfl

/-- An operation that returned Ok appended the counts of its events. -/
theorem counted_of_trace {i : Instr} {s t : State} {es : List Event} {v : Value} {n : EventCounts} (h : exec i s = .next t)
    (ht : t.trace = s.trace ++ items es ++ [.result (.ok v)]) (hn : eventCounts es = n) : Counted i s n := by
  refine ⟨t, v, h, by rw [ht, List.getLast?_concat], hn ▸ ?_⟩
  simp only [newCounts, ht, List.append_assoc, List.drop_left, countEvents_items_result, eventCounts]

/-- An operation that sent so many words and returned Ok. -/
theorem counted_words {i : Instr} {s t : State} {ws : List SentWord} {v : Value} {n : Nat} (h : exec i s = .next t)
    (ht : t.trace = s.trace ++ items (wordsEvents s.params s.ctrl ws) ++ [.result (.ok v)]) (hn : ws.length = n) :
    Counted i s ⟨8 * n, 0, 2 * n, 0⟩ :=
  counted_of_trace h ht (hn ▸ eventCounts_words s.params s.ctrl ws)

/-! ## The operations -/

section
variable {s : State} (hs : s.phase = .ready) (hi : Idle s.ctrl)
include hs hi

theorem counted_busWrite (ha : s.Acks 8) (k : Chip) (di : Bool) (b : Byte) :
    Counted (.busWrite k di b) s ⟨8, 0, 2, 0⟩ := by
  obtain ⟨t, hexec, htrace, -⟩ := busWriteFromIdleEmitsItsSequence s k di b hs hi ha
  exact counted_of_trace hexec htrace rfl

theorem counted_busRead (ha : s.Acks 5) (k : Chip) (di : Bool) :
    Counted (.busRead k di) s ⟨if ctrlDI s.ctrl = di then 3 else 4, 1, 1, 0⟩ := by
  obtain ⟨t, r0, r1, r2, hexec, htrace, -⟩ := busReadFromIdleReturnsTheSample s k di hs hi ha
  exact counted_of_trace hexec htrace (eventCounts_busRead _ _ _ _ _)

theorem counted_setBytesAt {r c : Nat} {bytes : List Byte} (hr : r < 8) (hc : c < 128) (hn : c + bytes.length ≤ 128)
    (ha : s.Acks (8 * runBusWrites c bytes.length)) : Counted (.panelSetBytesAt r c bytes) s
      ⟨8 * runBusWrites c bytes.length, 0, 2 * runBusWrites c bytes.length, 0⟩ := by
  have hlen := runWords_length r c bytes
  obtain ⟨t, hexec, htrace, -⟩ := setBytesAtSendsTheSplitRun s r c bytes hs hr hc hn hi (hlen ▸ ha)
  exact counted_words hexec htrace hlen

theorem counted_clear (ha : s.Acks 8448) : Counted .panelClear s ⟨8448, 0, 2112, 0⟩ := by
  obtain ⟨t, hexec, htrace, -⟩ := clearZeroesBothChips s hs hi ha
  exact counted_words hexec htrace clearWords_length

theorem counted_setOnOff (ha : s.Acks 16) (on : Bool) : Counted (.panelSetOnOff on) s ⟨16, 0, 4, 0⟩ := by
  obtain ⟨t, hexec, htrace, -⟩ := setOnOffSwitchesBothChips s on hs hi ha
  exact counted_words hexec htrace rfl

theorem counted_setBacklight (ha : s.Acks 1) (on : Bool) :
    Counted (.panelSetBacklight on) s ⟨if ctrlBL s.ctrl = on then 0 else 1, 0, 0, 0⟩ := by
  obtain ⟨-, -, -, -, -, h6⟩ := hi
  obtain ⟨hsame, hchange, -⟩ := setBacklightChangesOneBit s on hs h6
  by_cases hon : ctrlBL s.ctrl = on
  · rw [if_pos hon]
    exact counted_of_trace (es := []) (hsame hon) (congrArg (· ++ _) (List.append_nil s.trace).symm) rfl
  · rw [if_neg hon]
    obtain ⟨t, hexec, htrace, -⟩ := hchange hon ha
    exact counted_of_trace (es := [_]) hexec (htrace.trans (List.append_assoc _ [_] [_]).symm) rfl

theorem counted_writeBack {n : Nat} (hn : (writeBackWords s.fb).length = n) (ha : s.Acks (8 * n)) :
    Counted .fbWriteBack s ⟨8 * n, 0, 2 * n, 0⟩ := by
  obtain ⟨t, hexec, htrace, -⟩ := writeBackSendsOneBurstPerRun s hs hi (hn ▸ ha)
  exact counted_words hexec htrace hn

theorem counted_firstWriteBack (hd : ∀ r < 8, ∀ c < 128, (s.fb.cell r c).dirty = true) (ha : s.Acks 8448) :
    Counted .fbWriteBack s ⟨8448, 0, 2112, 0⟩ := by
  obtain ⟨hfirst, -⟩ := firstWriteBackSendsEveryByte
  obtain ⟨t, ws, -, hlen, hexec, htrace, -⟩ := hfirst s hs hi hd ha
  exact counted_words hexec htrace hlen

end

/-- The boot: its start has four frames, four waits and three pin events, and its words are 1060. -/
theorem counted_displayNew {s : State} (hs : s.phase = .absent) (ha : s.Acks 8484) :
    Counted .displayNew s ⟨8484, 0, 2124, 3⟩ := by
  obtain ⟨t, hexec, htrace, -⟩ := bootLeavesTheResetValues s hs ha
  refine counted_of_trace hexec htrace ((eventCounts_append (m := ⟨4, 0, 4, 3⟩) rfl (eventCounts_words _ _ _)).trans ?_)
  simp only [List.length_append, clearWords_length, List.length_cons, List.length_nil]

/-! ## The statement -/

/-- Settles O45: each row is the count of the events that the operation's own statement gives; a panel primitive is the
bus operation of its byte (30_encoding.md R82). -/
theorem eventCountsOfTheOperations : Obligations.EventCountsOfTheOperations := by
  refine ⟨fun s hs hi => ⟨fun ha k => ?writes, fun ha k => ?reads, fun r c bytes => counted_setBytesAt hs hi,
    counted_clear hs hi, counted_setOnOff hs hi, counted_setBacklight hs hi, fun n hn => ?writeBack,
    counted_firstWriteBack hs hi⟩, fun s => counted_displayNew⟩
  case writes =>
    have write := counted_busWrite hs hi ha k
    exact ⟨write, fun on => write false (powerByte on), fun n => write false (startLineByte n),
      fun n => write false (pageByte n), fun n => write false (columnByte n), write true⟩
  case reads =>
    have read := counted_busRead hs hi ha k
    exact ⟨read, read false, read true⟩
  case writeBack => exact counted_writeBack hs hi ((writeBackWords_length s.fb).trans hn.symm)

end Sys2Proof.Machine
end
